-- ==== Sys2Proof/Word.lean ====
section
/-! DEFINITION. The word types of the debug system and of a hart, and nothing else. -/

namespace Sys2Proof

/-- One byte of memory. -/
abbrev Byte := BitVec 8

/-- One 32-bit DMI register (spec/10_state.md R50), one Program Buffer word, one 32-bit hart instruction. -/
abbrev Word := BitVec 32

/-- A hart register. XLEN is 32, 64 or 128 (spec/00_scope.md R10): a hart holds its registers in 128 bits, the bits
above XLEN zero, so that one type serves every hart of a system. -/
abbrev XWord := BitVec 128

end Sys2Proof
end

