-- ==== Sys2Proof/Config.lean ====
section
/-! DEFINITION. What an implementation fixes (spec/00_scope.md R10, R14), as plain data held beside the state, and the
free values: opaque constants applied to the counter `State.free` (notes/assumptions/6.md). -/

namespace Sys2Proof

/-- The privilege levels of Table 4.5 (spec/10_state.md R121). -/
inductive Priv
  | u
  | s
  | m
  deriving DecidableEq, Repr, Inhabited

/-- One row of ABSTRACT_REG_SUPPORT (spec/00_scope.md R10): the abstract register numbers `lo` to `hi` support transfers
in this direction on a halted hart, and on a running one too if `running` (spec/42_abstract_commands.md R371). `sizes` are
the values of the size field with which they can be written; a register that can be read can be read with every size up to
its own (R372). -/
structure RegSupport where
  lo : Nat
  hi : Nat
  write : Bool
  sizes : List Nat
  running : Bool
  deriving DecidableEq, Repr

/-- What stands behind a range of the platform's memory map (spec/20_memory.md R204; spec/92_eei_decisions.md section 3:
the platform says). An address in no region is a bad address. -/
inductive RegionKind
  | ram
  | device
  | timeout
  | bad
  | other
  deriving DecidableEq, Repr

/-- One region of the platform's memory map. -/
structure Region where
  base : Nat
  size : Nat
  kind : RegionKind
  deriving DecidableEq, Repr

/-- TRIG_TYPE, MASKMAX, HAS_HIT and TRIG_SUPPORT of one trigger (spec/00_scope.md R10): its type, and which values of
each writable field it supports. `badCombos` lists (mask, pattern) pairs over the fields of tdata1: a written value that
matches one is an unsupported combination (spec/93_implementation_defined.md U31). `fixedTiming` lists (mask, pattern,
value) triples over mcontrol's fields: where the fields match one, timing has this value whatever is written
(spec/45_triggers.md R548: one timing or the other, possibly dependent on select, execute, load and store). `skids` says
that a timing-1 action may come later than right after the instruction (R548; notes/assumptions/31.md). `countMin` and
`countMax` bound the values of icount.count (R560). -/
structure TrigCfg where
  kind : Nat
  maskmax : Nat
  hasHit : Bool
  hasSelect1 : Bool
  fixedTiming : List (Nat × Nat × Bool)
  skids : Bool
  actions : List Nat
  hasChain : Bool
  matches_ : List Nat
  hasM : Bool
  hasS : Bool
  hasU : Bool
  hasExecute : Bool
  hasStore : Bool
  hasLoad : Bool
  countMin : Nat
  countMax : Nat
  icountClearsModes : Bool
  badCombos : List (Nat × Nat)
  deriving DecidableEq, Repr

/-- The parameters of one hart (spec/00_scope.md R10, R14). `regions` is its memory map, which need not be the bus's
(spec/20_memory.md R204); `csrWidths` lists the CSRs whose own width is not XLEN (spec/42_abstract_commands.md R372);
`hasM` and `hasA` are the base ISA's extensions for multiplication and atomics (notes/assumptions/1.md). -/
structure HartCfg where
  xlen : Nat
  ngpr : Nat
  flen : Nat
  hasC : Bool
  hasM : Bool
  hasA : Bool
  hasN : Bool
  privs : List Priv
  hasDret : Bool
  xdebugver : Nat
  stepieWritable : Bool
  stopcountWritable : Bool
  stoptimeWritable : Bool
  stopcountPreset : Bool
  stoptimePreset : Bool
  nscratch : Nat
  dataaccess : Bool
  datasize : Nat
  dataaddr : BitVec 12
  hasDscratch0 : Bool
  hasDscratch1 : Bool
  progbufAddr : Nat
  progbufClobbersDpc : Bool
  progbufIsRam : Bool
  tselBits : Nat
  regSupport : List RegSupport
  x0Writable : Bool
  csrList : List Nat
  csrWidths : List (Nat × Nat)
  regions : List Region
  resetPc : Nat
  mhartid : Nat
  deriving DecidableEq, Repr

/-- The parameters of the Debug Module, the DTM and the platform (spec/00_scope.md R10, R14). NHARTS is the length of
the list of harts; ABSTRACT_REG_SUPPORT and the other per-hart parameters are in `HartCfg`. `regions` is the memory map of
the system bus. -/
structure Config where
  dmBase : Nat
  nextdm : Word
  hartsellen : Nat
  hasHasel : Bool
  hasHartreset : Bool
  progbufsize : Nat
  impebreak : Bool
  datacount : Nat
  hasAbstractauto : Bool
  autoexecMask : Word
  hasHartinfo : Bool
  hasAuth : Bool
  authGatingStrict : Bool
  devtreevalid : Bool
  devtreeaddr : BitVec 128
  sbasize : Nat
  sbaccess8 : Bool
  sbaccess16 : Bool
  sbaccess32 : Bool
  sbaccess64 : Bool
  sbaccess128 : Bool
  haltsum1Addr : Nat
  hasHaltsum1 : Bool
  hasHaltsum2 : Bool
  hasHaltsum3 : Bool
  quickAccess : Bool
  abits : Nat
  idle : Nat
  irlen : Nat
  idVersion : Nat
  idPart : Nat
  idManuf : Nat
  dmiCanFail : Bool
  activatingWriteAppliesFields : Bool
  haltKeptAcrossNdmreset : Bool
  notHaltedCmderr : BitVec 3
  cmdReservedNotSupported : Bool
  sbdata0ReadIncrWithoutRead : Bool
  sbaMisalignedPerformed : Bool
  sbaCoherent : Bool
  fetchCoherent : Bool
  dtmStatusReset : BitVec 2
  inResetUnavailable : Bool
  ndmresetClearsTriggers : Bool
  regions : List Region
  deriving DecidableEq, Repr

/-- What one hart instruction does to its hart, as data: the registers it writes, the bytes it stores, the load it made
(its address, and its value unless it faulted),
where the pc goes, the reservation, whether it synchronises instruction fetch, or the cause of the exception it raises
instead (then nothing else of it happens). Triggers look at it before it is applied (spec/45_triggers.md R543). -/
structure Effect where
  wrGpr : Option (Nat × XWord) := none
  wrFpr : Option (Nat × XWord) := none
  wrCsr : Option (Nat × XWord) := none
  store : Option (Nat × List Byte) := none
  load : Option (Nat × Option XWord) := none
  nextPc : Option XWord := none
  reserve : Option (Option XWord) := none
  fenceI : Bool := false
  exc : Option Nat := none
  deriving DecidableEq, Repr, Inhabited

/-- The free value number `n` of a register or of a field: any value (notes/assumptions/6.md). -/
opaque Config.freeWord : Nat → XWord

/-- The free choice number `n` between two behaviours the spec admits (notes/assumptions/6.md). -/
opaque Config.freeBit : Nat → Bool

/-- The free choice number `n` among several behaviours the spec admits (notes/assumptions/6.md). -/
opaque Config.freeNat : Nat → Nat

/-- AuthRead: a read of `authdata` in state `n` of the authentication module gives its next state and the value read
(spec/40_dmi_dm_access.md R296; spec/93_implementation_defined.md U5; notes/assumptions/19.md). -/
opaque Config.authRead : Nat → Nat × Word

/-- AuthWrite: a write of `authdata` in state `n` gives the next state (spec/40_dmi_dm_access.md R296). -/
opaque Config.authWrite : Nat → Word → Nat

/-- Whether the authentication check has passed in this state of the module (spec/10_state.md R51). -/
opaque Config.authPassed : Nat → Bool

/-- What an instruction word outside the modelled subset does, as a function of the word, of the pc, of the general and
the floating-point registers, of the bytes the hart's loads would read, and of the free-value counter
(notes/assumptions/1.md). -/
opaque Config.otherInsn :
  BitVec 32 → XWord → Vector XWord 32 → Vector XWord 32 → (Nat → Byte) → Nat → Effect

/-- Whether a match-1 trigger whose tdata2 has no 0 bit, or whose range exceeds maskmax, matches a value against tdata2
(spec/93_implementation_defined.md U31; notes/assumptions/31.md). -/
opaque Config.napotCorner : XWord → XWord → Bool

end Sys2Proof
end

