-- ==== Sys2Proof/Syntax.lean ====
section
/-! DEFINITION. The instructions: one constructor for every row of spec/opcode_table.json (96 rows), in the order of the
table's groups. -/

namespace Sys2Proof

/-- A DMI access to one Debug Module register: a read, or a write of a 32-bit value (spec/40_dmi_dm_access.md R280). -/
inductive DmAcc
  | read
  | write (value : Word)
  deriving DecidableEq, Repr

/-- What the debugger does with a JTAG instruction (spec/30_encoding.md R260, spec/46_jtag_dtm.md R581): ScanIR with its
value, or ScanDR of `tdi` through the data register it selects. 66 bits hold the longest data register, `dmi` with 32
address bits. -/
inductive IrOp
  | select
  | scan (tdi : BitVec 66)
  deriving DecidableEq, Repr

/-- The three ways a CSR instruction combines its source with the CSR (base ISA; notes/assumptions/36.md). -/
inductive CsrKind
  | rw
  | rs
  | rc
  deriving DecidableEq, Repr

/-- The operands of a CSR instruction: how it combines, whether the source is the 5-bit immediate `src` or the register
x`src`, and the destination register. -/
structure CsrOp where
  kind : CsrKind
  imm : Bool
  rd : BitVec 5
  src : BitVec 5
  deriving DecidableEq, Repr

/-- The instructions of the debug system (spec/30_encoding.md, opening): hart instructions, CSR accesses, abstract
commands, DMI and DTM scans, JTAG instructions, and accesses to the Debug Module's registers. -/
inductive Instr
  -- hart_insn32 and hart_insn16 (R250, R251)
  | dret
  | ebreak
  | cEbreak
  | cNop
  | wfi
  | ecall
  | mret
  | hret
  | sret
  | uret
  -- abstract_command (R242, R244, R245)
  | accessRegister (size : BitVec 3) (postexec transfer write : Bool) (regno : BitVec 16) (res23 res19 : Bool)
  | quickAccess (reserved : BitVec 24)
  | commandReservedCmdtype (cmdtype : BitVec 8) (control : BitVec 24)
  -- dmi_scan_in (R255): Update-DR of the dmi register
  | dmiNop (address data : Word)
  | dmiRead (address data : Word)
  | dmiWrite (address data : Word)
  | dmiOpReserved (address data : Word)
  -- dmi_scan_out (R255): Capture-DR of the dmi register
  | dmiStatusOk (address data : Word)
  | dmiStatusFailed (address data : Word)
  | dmiStatusBusy (address data : Word)
  -- dtmcs_scan_in (R256): Update-DR of the dtmcs register
  | dtmcsDmireset
  | dtmcsDmihardreset
  -- jtag_ir5 (R260)
  | bypass00 (op : IrOp)
  | idcode (op : IrOp)
  | dtmcs (op : IrOp)
  | dmi (op : IrOp)
  | reservedBypass12 (op : IrOp)
  | reservedBypass13 (op : IrOp)
  | reservedBypass14 (op : IrOp)
  | reservedBypass15 (op : IrOp)
  | reservedBypass16 (op : IrOp)
  | reservedBypass17 (op : IrOp)
  | bypass1f (op : IrOp)
  -- dm_register (R50)
  | data0 (a : DmAcc)
  | data1 (a : DmAcc)
  | data2 (a : DmAcc)
  | data3 (a : DmAcc)
  | data4 (a : DmAcc)
  | data5 (a : DmAcc)
  | data6 (a : DmAcc)
  | data7 (a : DmAcc)
  | data8 (a : DmAcc)
  | data9 (a : DmAcc)
  | data10 (a : DmAcc)
  | data11 (a : DmAcc)
  | dmcontrol (a : DmAcc)
  | dmstatus (a : DmAcc)
  | hartinfo (a : DmAcc)
  | hawindowsel (a : DmAcc)
  | hawindow (a : DmAcc)
  | abstractcs (a : DmAcc)
  | command (a : DmAcc)
  | abstractauto (a : DmAcc)
  | haltsum1 (a : DmAcc)
  | devtreeaddr0 (a : DmAcc)
  | devtreeaddr1 (a : DmAcc)
  | devtreeaddr2 (a : DmAcc)
  | devtreeaddr3 (a : DmAcc)
  | nextdm (a : DmAcc)
  | progbuf0 (a : DmAcc)
  | progbuf1 (a : DmAcc)
  | progbuf2 (a : DmAcc)
  | progbuf3 (a : DmAcc)
  | progbuf4 (a : DmAcc)
  | progbuf5 (a : DmAcc)
  | progbuf6 (a : DmAcc)
  | progbuf7 (a : DmAcc)
  | progbuf8 (a : DmAcc)
  | progbuf9 (a : DmAcc)
  | progbuf10 (a : DmAcc)
  | progbuf11 (a : DmAcc)
  | progbuf12 (a : DmAcc)
  | progbuf13 (a : DmAcc)
  | progbuf14 (a : DmAcc)
  | progbuf15 (a : DmAcc)
  | authdata (a : DmAcc)
  | haltsum2 (a : DmAcc)
  | haltsum3 (a : DmAcc)
  | sbaddress3 (a : DmAcc)
  | sbcs (a : DmAcc)
  | sbaddress0 (a : DmAcc)
  | sbaddress1 (a : DmAcc)
  | sbaddress2 (a : DmAcc)
  | sbdata0 (a : DmAcc)
  | sbdata1 (a : DmAcc)
  | sbdata2 (a : DmAcc)
  | sbdata3 (a : DmAcc)
  | haltsum0 (a : DmAcc)
  -- hart_csr (R120, R140)
  | dcsr (op : CsrOp)
  | dpc (op : CsrOp)
  | dscratch0 (op : CsrOp)
  | dscratch1 (op : CsrOp)
  | tselect (op : CsrOp)
  | tdata1 (op : CsrOp)
  | tdata2 (op : CsrOp)
  | tdata3 (op : CsrOp)
  deriving DecidableEq, Repr

end Sys2Proof
end

