-- ==== Sys2Proof/Machine/State.lean ====
section
/-! DEFINITION. The state of the debug system as plain data (spec/10_state.md R40 to R45, R120 to R186), the events that
move it, the two ways a step can stop, and the state after reset (spec/70_reset_and_hazards.md R715, R720). -/

namespace Sys2Proof.Machine

/-- Memory: (address, byte) pairs in one canonical form (`Mem.wf` of Machine/Ops.lean). -/
abbrev Mem := List Host.Cell

/-! ### JTAG DTM (R164, R168) -/

/-- The outstanding DMI transaction of the DTM (R168): none, still in progress, or answered by the DM. -/
inductive DmiPending
  | none
  | inProgress (address : Word) (acc : DmAcc)
  | finished (result : Word) (failed : Bool)
  deriving DecidableEq, Repr

/-- JTAG DTM state. `addrKnown` and `dataKnown` are the model's: whether the spec says what the next Capture-DR shows in
the address and data fields (notes/assumptions/25.md). `ir` is a number below
2^IRLEN, since IRLEN has no upper bound (spec/00_scope.md R10). `tdo` is what the last scan shifted out. -/
structure Dtm where
  ir : Nat
  status : BitVec 2
  address : Word
  data : Word
  pending : DmiPending
  addrKnown : Bool
  dataKnown : Bool
  tdo : BitVec 66
  deriving DecidableEq, Repr

/-! ### Debug Module -/

/-- Where the abstract command in progress stands (R60, R362, R380, R400); busy is 1 unless `idle`. `quickHalt`: a Quick
Access waits for its hart to halt; `progbuf`: the hart executes the Program Buffer. -/
inductive Phase
  | idle
  | started
  | quickHalt
  | progbuf
  deriving DecidableEq, Repr

/-- The registers of the Debug Module other than System Bus Access (R51 to R75), and the command in progress (R362). -/
structure Dm where
  dmactive : Bool
  ndmreset : Bool
  hartresetLatch : Bool
  hasel : Bool
  hartsel : BitVec 20
  hawindowsel : BitVec 15
  cmderr : BitVec 3
  phase : Phase
  latch : Word
  cmd : Word
  cmdHart : Nat
  quick : Bool
  defined : BitVec 12
  fetchBuf : Vector Word 16
  auto : Word
  data : Vector Word 12
  progbuf : Vector Word 16
  authenticated : Bool
  authbusy : Bool
  auth : Nat
  deriving DecidableEq, Repr

/-- The bus access in progress while sbbusy is 1, with the size and increment sampled at its start (R431, R437). -/
structure SbAccess where
  write : Bool
  bytes : Nat
  address : Nat
  data : BitVec 128
  inc : Bool
  deriving DecidableEq, Repr

/-- The System Bus Access block (R431). -/
structure Sb where
  busyerror : Bool
  readonaddr : Bool
  autoincrement : Bool
  readondata : Bool
  access : BitVec 3
  error : BitVec 3
  address : BitVec 128
  data : BitVec 128
  pending : Option SbAccess
  deriving DecidableEq, Repr

/-! ### Harts -/

/-- Per-hart state held conceptually in the DM (R44, R45). -/
structure Ctl where
  haltreq : Bool
  resumereq : Bool
  hartreset : Bool
  havereset : Bool
  resumeack : Bool
  mask : Bool
  deriving DecidableEq, Repr

/-- dcsr without xdebugver, which is a constant of the configuration (R121). -/
structure Dcsr where
  ebreakm : Bool
  ebreaks : Bool
  ebreaku : Bool
  stepie : Bool
  stopcount : Bool
  stoptime : Bool
  cause : BitVec 3
  step : Bool
  prv : BitVec 2
  deriving DecidableEq, Repr

/-- One trigger: its configuration, the writable fields of tdata1 (mcontrol R145, icount R146), tdata2 and tdata3. -/
structure Trigger where
  cfg : TrigCfg
  dmode : Bool
  hit : Bool
  select : Bool
  timing : Bool
  action : BitVec 6
  chain : Bool
  mtch : BitVec 4
  m : Bool
  s : Bool
  u : Bool
  execute : Bool
  store : Bool
  load : Bool
  count : BitVec 14
  tdata2 : XWord
  tdata3 : XWord
  deriving DecidableEq, Repr

/-- The hart's own trap registers, which the spec names but does not define (spec/60_exceptions.md R652, R670, R685). -/
structure SysRegs where
  mstatus : XWord
  mie : XWord
  mip : XWord
  mtvec : XWord
  mepc : XWord
  mcause : XWord
  mtval : XWord
  medeleg : XWord
  mideleg : XWord
  stvec : XWord
  sepc : XWord
  scause : XWord
  stval : XWord
  deriving DecidableEq, Repr

/-- One hart (R120 to R152, R180 to R186). `trapped`, `dueEntry` and `dueBreak` are the model's: the hart's present move
took a trap; a timing-1 trigger has matched whose entry to Debug Mode, or breakpoint exception, is still to come
(spec/45_triggers.md R548). -/
structure Hart where
  cfg : HartCfg
  ctl : Ctl
  debugMode : Bool
  inProgbuf : Bool
  avail : Bool
  inReset : Bool
  resetHalt : Bool
  priv : Priv
  pc : XWord
  gprs : Vector XWord 32
  fprs : Vector XWord 32
  dcsr : Dcsr
  dpc : XWord
  dscratch0 : XWord
  dscratch1 : XWord
  tselect : XWord
  trigs : List Trigger
  reservation : Option XWord
  sys : SysRegs
  cycle : BitVec 64
  instret : BitVec 64
  timer : BitVec 64
  csrs : List (Nat × XWord)
  trapped : Bool
  dueEntry : Bool
  dueBreak : Bool
  deriving DecidableEq, Repr

/-! ### Events -/

/-- What may happen next: an operation of the debugger (spec/46_jtag_dtm.md R581, spec/40_dmi_dm_access.md R280), a move
of one of the agents of spec/00_scope.md R30, or a move of the platform (notes/assumptions/3.md). -/
inductive Event
  | tapReset
  | scanIR (v : Nat)
  | scanDR (tdi : BitVec 66)
  | captureDR
  | updateDR (tdi : BitVec 66)
  | runIdle (n : Nat)
  | dmi (address : Word) (acc : DmAcc)
  | dtm
  | engine
  | bus
  | auth
  | hart (h : Nat)
  | extReset (asserted : Bool)
  | hartReset (h : Nat)
  | avail (h : Nat) (available : Bool)
  | setMip (h : Nat) (v : XWord)
  | tick (h : Nat) (n : Nat)
  | dropReservation (h : Nat)
  | busToHart (a : Nat)
  | hartToBus (a : Nat)
  | syncFetch (a : Nat)
  deriving DecidableEq, Repr

/-! ### The machine -/

/-- The whole state. `mem` is the memory as the system bus sees it; `hmem` the harts' view when SBA_COHERENT is false;
`imem` the fetch view when fetch is not coherent (spec/20_memory.md R225, R228). `queue`, `cur`, `rr`, `dmiOut` and `free`
are the model's own: the events to come, the hart whose instruction is executed, the round-robin position, the value the
last DMI read returned, and the number of the next free value. `cfg` is the configuration (R41), which no step changes. -/
structure State where
  cfg : Config
  dtm : Dtm
  dm : Dm
  sb : Sb
  harts : List Hart
  mem : Mem
  hmem : Mem
  imem : Mem
  extReset : Bool
  queue : List Event
  cur : Nat
  rr : Nat
  dmiOut : Word
  free : Nat
  deriving DecidableEq, Repr

/-- Why a step stops with a fault. -/
inductive Fault
  /-- A hart instruction is to be executed on a hart index that does not exist. Raised by every hart instruction; no run
  from reset reaches it, since only existing harts are scheduled. Safe: nothing is claimed of such a step. -/
  | noSuchHart
  deriving DecidableEq, Repr

/-- Why a step is refused. -/
inductive Refusal
  /-- The instruction has no meaning in this model. Raised by no arm of `exec`. Safe. -/
  | notModelled (mnemonic : String)
  deriving DecidableEq, Repr

/-! ### Reset values -/

/-- The DTM after power-up (spec/70_reset_and_hazards.md R715). -/
def Dtm.reset (c : Config) : Dtm where
  ir := 1
  status := c.dtmStatusReset
  address := 0
  data := 0
  pending := .none
  addrKnown := true
  dataKnown := true
  tdo := 0

/-- The DM's reset values (spec/10_state.md R110), which it holds after power-up and while dmactive is 0. -/
def Dm.reset (c : Config) : Dm where
  dmactive := false
  ndmreset := false
  hartresetLatch := false
  hasel := false
  hartsel := 0
  hawindowsel := 0
  cmderr := 0
  phase := .idle
  latch := 0
  cmd := 0
  cmdHart := 0
  quick := false
  defined := 0
  fetchBuf := Vector.replicate 16 0
  auto := 0
  data := Vector.replicate 12 0
  progbuf := Vector.replicate 16 0
  authenticated := !c.hasAuth
  authbusy := false
  auth := 0

/-- The reset values of System Bus Access (spec/10_state.md R90 to R98, R110): sbaccess is 2. -/
def Sb.reset : Sb where
  busyerror := false
  readonaddr := false
  autoincrement := false
  readondata := false
  access := 2
  error := 0
  address := 0
  data := 0
  pending := none

/-- dcsr after a hart reset (spec/10_state.md R121, spec/70_reset_and_hazards.md R714). -/
def Dcsr.reset (c : HartCfg) : Dcsr where
  ebreakm := false
  ebreaks := false
  ebreaku := false
  stepie := false
  stopcount := c.stopcountPreset
  stoptime := c.stoptimePreset
  cause := 0
  step := false
  prv := 3

/-- The timing of a trigger whose other fields of mcontrol are `fields`, when `written` is written to the bit: a value the
hardware fixes stays (spec/45_triggers.md R548). -/
def timingOf (c : TrigCfg) (fields : Nat) (written : Bool) : Bool :=
  match c.fixedTiming.find? fun p => fields &&& p.1 == p.2.1 with
  | some p => p.2.2
  | none => written

/-- A trigger after a hart reset (spec/45_triggers.md R570; tdata2, tdata3: spec/92_eei_decisions.md D8). A timing that the
hardware fixes has its fixed value (notes/assumptions/31.md). -/
def Trigger.reset (c : TrigCfg) : Trigger where
  cfg := c
  dmode := false
  hit := false
  select := false
  timing := timingOf c 0 false
  action := 0
  chain := false
  mtch := 0
  m := false
  s := false
  u := false
  execute := false
  store := false
  load := false
  count := 1
  tdata2 := 0
  tdata3 := 0

/-- The trap registers after power-up: DESIGN CHOICE 0 (notes/assumptions/7.md). -/
def SysRegs.reset : SysRegs where
  mstatus := 0
  mie := 0
  mip := 0
  mtvec := 0
  mepc := 0
  mcause := 0
  mtval := 0
  medeleg := 0
  mideleg := 0
  stvec := 0
  sepc := 0
  scause := 0
  stval := 0

/-- A hart after power-up (spec/70_reset_and_hazards.md R714 to R716, R720). -/
def Hart.reset (c : HartCfg) (trigs : List TrigCfg) : Hart where
  cfg := c
  ctl := { haltreq := false, resumereq := false, hartreset := false, havereset := true, resumeack := false, mask := false }
  debugMode := false
  inProgbuf := false
  avail := true
  inReset := false
  resetHalt := false
  priv := .m
  pc := BitVec.ofNat 128 c.resetPc
  gprs := Vector.replicate 32 0
  fprs := Vector.replicate 32 0
  dcsr := Dcsr.reset c
  dpc := 0
  dscratch0 := 0
  dscratch1 := 0
  tselect := 0
  trigs := trigs.map Trigger.reset
  reservation := none
  sys := SysRegs.reset
  cycle := 0
  instret := 0
  timer := 0
  csrs := []
  trapped := false
  dueEntry := false
  dueBreak := false

/-- A trigger of the minimal model: type 2, MASKMAX 0, HAS_HIT (spec/92_eei_decisions.md D32). What its fields support, and
that timing-1 actions may come late, is the model's choice (notes/assumptions/2.md). -/
def minimalTrigger : TrigCfg where
  kind := 2
  maskmax := 0
  hasHit := true
  hasSelect1 := true
  fixedTiming := []
  skids := true
  actions := [0, 1]
  hasChain := true
  matches_ := [0, 2, 3, 4, 5]
  hasM := true
  hasS := false
  hasU := false
  hasExecute := true
  hasStore := true
  hasLoad := true
  countMin := 1
  countMax := 1
  icountClearsModes := true
  badCombos := []

/-- The memory map of the minimal model, for the bus and for the hart: 64 KiB of RAM (notes/assumptions/10.md). -/
def minimalRegions : List Region := [{ base := 0x80000000, size := 0x10000, kind := .ram }]

/-- The hart of the minimal model (spec/92_eei_decisions.md D32). What D32 and spec/95_test_vectors.md do not give is the
model's choice (notes/assumptions/2.md): the C, M and A extensions, HAS_DSCRATCH1, no implemented FPR, CSR or abstract
register support beyond the mandatory, the memory map and the reset entry. -/
def minimalHart : HartCfg where
  xlen := 32
  ngpr := 32
  flen := 0
  hasC := true
  hasM := true
  hasA := true
  hasN := false
  privs := [.m]
  hasDret := true
  xdebugver := 4
  stepieWritable := false
  stopcountWritable := false
  stoptimeWritable := false
  stopcountPreset := false
  stoptimePreset := false
  nscratch := 1
  dataaccess := true
  datasize := 2
  dataaddr := 0x400
  hasDscratch0 := true
  hasDscratch1 := true
  progbufAddr := 0x300
  progbufClobbersDpc := false
  progbufIsRam := false
  tselBits := 1
  regSupport := []
  x0Writable := true
  csrList := []
  csrWidths := []
  regions := minimalRegions
  resetPc := 0x80000000
  mhartid := 0

/-- The configuration of the minimal model (spec/92_eei_decisions.md D32, parameters of the second kind at the defaults of
spec/00_scope.md R14, notes/assumptions/17.md). That ndmreset clears the triggers, and what else D32 leaves open, is the
model's choice (notes/assumptions/2.md). -/
def minimalConfig : Config where
  dmBase := 0
  nextdm := 0
  hartsellen := 1
  hasHasel := false
  hasHartreset := false
  progbufsize := 2
  impebreak := true
  datacount := 2
  hasAbstractauto := true
  autoexecMask := 0x00030003
  hasHartinfo := true
  hasAuth := false
  authGatingStrict := true
  devtreevalid := false
  devtreeaddr := 0
  sbasize := 32
  sbaccess8 := true
  sbaccess16 := true
  sbaccess32 := true
  sbaccess64 := false
  sbaccess128 := false
  haltsum1Addr := 0x13
  hasHaltsum1 := false
  hasHaltsum2 := false
  hasHaltsum3 := false
  quickAccess := false
  abits := 7
  idle := 1
  irlen := 5
  idVersion := 0
  idPart := 0
  idManuf := 0
  dmiCanFail := false
  activatingWriteAppliesFields := false
  haltKeptAcrossNdmreset := true
  notHaltedCmderr := 4
  cmdReservedNotSupported := false
  sbdata0ReadIncrWithoutRead := false
  sbaMisalignedPerformed := false
  sbaCoherent := true
  fetchCoherent := true
  dtmStatusReset := 0
  inResetUnavailable := true
  ndmresetClearsTriggers := true
  regions := minimalRegions

/-- The machine after power-up with a given configuration (spec/70_reset_and_hazards.md R715, R720): the DM inactive, the
harts running from their reset entry, the DTM at IDCODE, memory with nothing listed. -/
def State.resetWith (c : Config) (harts : List (HartCfg × List TrigCfg)) : State where
  cfg := c
  dtm := Dtm.reset c
  dm := Dm.reset c
  sb := Sb.reset
  harts := harts.map fun p => Hart.reset p.1 p.2
  mem := []
  hmem := []
  imem := []
  extReset := false
  queue := []
  cur := 0
  rr := 0
  dmiOut := 0
  free := 0

/-- The machine right after reset: the minimal model of spec/92_eei_decisions.md D32, powered up. -/
def State.reset : State := State.resetWith minimalConfig [(minimalHart, [minimalTrigger, minimalTrigger])]

end Sys2Proof.Machine
end

