-- ==== Sys2Proof/Machine/Flags.lean ====
section
/-! DEFINITION. The sticky status flags of spec/10_state.md R182 and their rules: write-1-to-clear (spec/40_dmi_dm_access.md
R286), first error wins (spec/42_abstract_commands.md R362), and the guards that an error puts on new work
(spec/60_exceptions.md R680). The hart has no condition codes (R182 B3). -/

namespace Sys2Proof.Machine

/-- Write-1-to-clear of a field: each written 1 clears its bit (R286). -/
def w1c {n : Nat} (cur w : BitVec n) : BitVec n := cur &&& ~~~w

/-- `set_cmderr`: the first error is kept (R362, spec/92_eei_decisions.md D22). -/
def setCmderr (e : BitVec 3) (d : Dm) : Dm := if d.cmderr = 0 then { d with cmderr := e } else d

/-- abstractcs.busy (R60). -/
def Dm.busy (d : Dm) : Bool := d.phase != .idle

/-- sbcs.sbbusy (R431). -/
def Sb.busy (b : Sb) : Bool := b.pending.isSome

/-- `errors_clear()` (spec/43_system_bus_access.md R437). -/
def Sb.errorsClear (b : Sb) : Bool := b.error == 0 && !b.busyerror

/-- sberror after an access ends or is refused (R450). -/
def setSberror (e : BitVec 3) (b : Sb) : Sb := { b with error := e }

/-- A busy violation sets sbbusyerror and does nothing else (R449). -/
def setSbbusyerror (b : Sb) : Sb := { b with busyerror := true }

/-- cmderr codes (spec/42_abstract_commands.md R368). -/
def errBusy : BitVec 3 := 1
/-- cmderr 2: the command is not supported (R368). -/
def errNotSupported : BitVec 3 := 2
/-- cmderr 3: an exception occurred while executing the command (R368). -/
def errException : BitVec 3 := 3
/-- cmderr 4: the hart was not in the expected state (R368). -/
def errHaltResume : BitVec 3 := 4
/-- cmderr 7: another reason (R368). -/
def errOther : BitVec 3 := 7

/-- sberror 1: a timeout (spec/43_system_bus_access.md R436). -/
def sbTimeout : BitVec 3 := 1
/-- sberror 2: a bad address (R436). -/
def sbBadAddress : BitVec 3 := 2
/-- sberror 3: another error, such as alignment (R436). -/
def sbOther : BitVec 3 := 3

/-- DTM status 2: an operation failed (spec/46_jtag_dtm.md R601). -/
def dtmFailed : BitVec 2 := 2
/-- DTM status 3: an operation was attempted while a DMI access was still in progress (R601). -/
def dtmBusy : BitVec 2 := 3

end Sys2Proof.Machine
end

