-- ==== Sys2Proof/Machine/Ops.lean ====
section
/-! DEFINITION. The named operations every meaning is built from: free values, memory, hart registers, hart status,
entry to Debug Mode and leaving it (the machine's trap and its return, spec/60_exceptions.md R652, R666), ordinary traps,
the end of an abstract command and of the Program Buffer, and the resets of a hart and of the DM. -/

namespace Sys2Proof.Machine

/-! ### Free values (notes/assumptions/6.md) -/

/-- Pass over `k` free values. -/
def State.bump (s : State) (k : Nat) : State := { s with free := s.free + k }

/-- A free choice among the members of a list. -/
def pick {α : Type} (n : Nat) (xs : List α) (dflt : α) : α := xs.getD (Config.freeNat n % xs.length) dflt

/-- A free 32-bit value. -/
def freeWord32 (n : Nat) : Word := (Config.freeWord n).setWidth 32

/-! ### Small vectors -/

/-- Element `i`, or `d` beyond the end. -/
def vget {α : Type} {n : Nat} (v : Vector α n) (i : Nat) (d : α) : α := v.toList.getD i d

/-- Put `x` at `i`; nothing beyond the end. -/
def vset {α : Type} {n : Nat} (v : Vector α n) (i : Nat) (x : α) : Vector α n := v.setIfInBounds i x

/-- The number whose bit `i` is `f i`, for `i < n`. -/
def packBits : Nat → (Nat → Bool) → Nat
  | 0, _ => 0
  | n + 1, f => packBits n f + (if f n then 2 ^ n else 0)

/-- AUTOEXEC_MASK: the bits abstractauto implements, only those of implemented data and progbuf words, none where the
register is absent (spec/42_abstract_commands.md R366); the reserved bits 15:12 are 0 (spec/40_dmi_dm_access.md R287). -/
def autoexecBits (c : Config) : Word :=
  if c.hasAbstractauto then
    c.autoexecMask &&&
      BitVec.ofNat 32 (packBits 32 fun i => decide (i < min c.datacount 12 ∨ (16 ≤ i ∧ i < 16 + c.progbufsize)))
  else 0

/-- A Bool as the bit at `lo`. -/
def bitAt (b : Bool) (lo : Nat) : Nat := if b then 2 ^ lo else 0

/-- The `n`-bit field of `x` at `lo`. -/
def getField {w : Nat} (x : BitVec w) (lo n : Nat) : Nat := x.toNat / 2 ^ lo % 2 ^ n

/-- `x` with its `n`-bit field at `lo` replaced. -/
def putField (x : XWord) (lo n v : Nat) : XWord :=
  (x &&& ~~~(BitVec.ofNat 128 ((2 ^ n - 1) * 2 ^ lo))) ||| BitVec.ofNat 128 (v % 2 ^ n * 2 ^ lo)

/-! ### Memory (spec/20_memory.md R204, R205, R212) -/

/-- What an address nothing has written reads as: DESIGN CHOICE 0 (notes/assumptions/9.md). -/
def unlistedByte : Byte := 0

/-- The canonical form: addresses strictly rising, no entry equal to what an unlisted address reads as. -/
abbrev Mem.wf (m : Mem) : Prop := m.Pairwise (fun x y => x.1 < y.1) ∧ ∀ c ∈ m, c.2 ≠ unlistedByte

/-- One byte. -/
def Mem.read : Mem → Nat → Byte
  | [], _ => unlistedByte
  | c :: m, a => if a = c.1 then c.2 else Mem.read m a

/-- Write one byte, keeping the canonical form. -/
def Mem.write : Mem → Nat → Byte → Mem
  | [], a, b => if b = unlistedByte then [] else [(a, b)]
  | c :: m, a, b =>
    if a < c.1 then (if b = unlistedByte then c :: m else (a, b) :: c :: m)
    else if a = c.1 then (if b = unlistedByte then m else (a, b) :: m)
    else c :: Mem.write m a b

/-- Write consecutive bytes from `a` up. -/
def Mem.writes : Mem → Nat → List Byte → Mem
  | m, _, [] => m
  | m, a, b :: bs => Mem.writes (m.write a b) (a + 1) bs

/-- `n` consecutive bytes from `a` up as one little-endian number (R212, spec/92_eei_decisions.md D11). -/
def Mem.readNat (m : Mem) : Nat → Nat → Nat
  | 0, _ => 0
  | n + 1, a => (m.read a).toNat + 2 ^ 8 * Mem.readNat m n (a + 1)

/-- `n` bytes of a number, least significant first. -/
def leBytes : Nat → Nat → List Byte
  | 0, _ => []
  | n + 1, v => BitVec.ofNat 8 v :: leBytes n (v / 2 ^ 8)

/-- What answers an access of `n` bytes at `a` under a memory map, the bus's (`Config.regions`) or a hart's
(`HartCfg.regions`): an access not inside one region is a bad address (R204). -/
def regionAt (regions : List Region) (a n : Nat) : RegionKind :=
  match regions.find? fun r => decide (r.base ≤ a ∧ a + n ≤ r.base + r.size) with
  | some r => r.kind
  | none => .bad

/-- The memory the harts' loads and stores see: the bus's when SBA_COHERENT (R225). -/
def State.dataView (s : State) : Mem := if s.cfg.sbaCoherent then s.mem else s.hmem

/-- The memory instruction fetch sees (R228). -/
def State.fetchView (s : State) : Mem := if s.cfg.fetchCoherent then s.dataView else s.imem

/-- Replace the memory the harts' loads and stores see. -/
def State.setDataView (s : State) (m : Mem) : State :=
  if s.cfg.sbaCoherent then { s with mem := m } else { s with hmem := m }

/-! ### Harts -/

/-- Change hart `h`; nothing if it does not exist. -/
def State.modHart (s : State) (h : Nat) (f : Hart → Hart) : State := { s with harts := s.harts.modify h f }

/-- The code of a privilege level (Table 4.5, spec/60_exceptions.md R688). -/
def privCode : Priv → BitVec 2
  | .u => 0
  | .s => 1
  | .m => 3

/-- The privilege level a code stands for; 2 has none (R688). -/
def privOfCode (c : BitVec 2) : Option Priv :=
  if c = 0 then some .u else if c = 1 then some .s else if c = 3 then some .m else none

/-- XLEN bits of a value (spec/00_scope.md R10). -/
def Hart.trunc (hart : Hart) (v : XWord) : XWord := BitVec.ofNat 128 (v.toNat % 2 ^ hart.cfg.xlen)

/-- The low `bits` bits of a number as a signed number in 128 bits. -/
def signed (bits v : Nat) : XWord :=
  BitVec.ofNat 128 (if v / 2 ^ (bits - 1) % 2 = 1 then v % 2 ^ bits + (2 ^ 128 - 2 ^ bits) else v % 2 ^ bits)

/-- A value as a signed XLEN-bit number in 128 bits. -/
def Hart.sext (hart : Hart) (v : XWord) : XWord := signed hart.cfg.xlen v.toNat

/-- The address bits a pc can hold: bit 0 is 0, bit 1 too without the C extension
(spec/93_implementation_defined.md U22; notes/assumptions/43.md). -/
def Hart.pcBits (hart : Hart) (v : XWord) : XWord :=
  BitVec.ofNat 128 ((hart.trunc v).toNat / (if hart.cfg.hasC then 2 else 4) * (if hart.cfg.hasC then 2 else 4))

/-- x`i`: x0 reads 0, and so does a register above the base ISA's count (spec/10_state.md R180). -/
def Hart.gpr (hart : Hart) (i : Nat) : XWord :=
  if i = 0 ∨ hart.cfg.ngpr ≤ i then 0 else vget hart.gprs i 0

/-- Write x`i`: a write to x0 is discarded (R180, spec/93_implementation_defined.md U12). -/
def Hart.setGpr (hart : Hart) (i : Nat) (v : XWord) : Hart :=
  if i = 0 ∨ hart.cfg.ngpr ≤ i then hart else { hart with gprs := vset hart.gprs i (hart.trunc v) }

/-- Write f`i`, FLEN bits (spec/30_encoding.md R247). -/
def Hart.setFpr (hart : Hart) (i : Nat) (v : XWord) : Hart :=
  { hart with fprs := vset hart.fprs i (BitVec.ofNat 128 (v.toNat % 2 ^ hart.cfg.flen)) }

/-- The privilege level a hart may take for a written code: the code's own level if the hart supports it, else any
supported level (spec/44_debug_mode.md R503). The debugger may change to every supported level
(notes/assumptions/43.md). -/
def Hart.legalPriv (hart : Hart) (n : Nat) (code : BitVec 2) : Priv :=
  match privOfCode code with
  | some p => if hart.cfg.privs.contains p then p else pick n hart.cfg.privs .m
  | none => pick n hart.cfg.privs .m

/-- Counters advance by one cycle, and by one retired instruction if `retired`, unless they are stopped in Debug Mode
(spec/44_debug_mode.md R486, spec/60_exceptions.md R690). That no other counter counts is notes/assumptions/37.md. -/
def Hart.countUp (hart : Hart) (retired : Bool) : Hart :=
  if hart.debugMode && hart.dcsr.stopcount then hart
  else { hart with cycle := hart.cycle + 1, instret := if retired then hart.instret + 1 else hart.instret }

/-- An instruction of `len` bytes completes: pc moves past it and it is counted. -/
def Hart.retire (hart : Hart) (len : Nat) : Hart :=
  { hart.countUp true with pc := hart.trunc (hart.pc + BitVec.ofNat 128 len) }

/-! ### Hart status (spec/41_reset_select_run.md R320) -/

/-- The four statuses of R320. -/
inductive HartStatus
  | nonexistent
  | unavailable
  | halted
  | running
  deriving DecidableEq, Repr

/-- The status of an existing hart. A hart held in reset reads as IN_RESET_STATUS says (spec/92_eei_decisions.md D26). -/
def Hart.status (c : Config) (hart : Hart) : HartStatus :=
  if !hart.avail then .unavailable
  else if hart.inReset then (if c.inResetUnavailable then .unavailable else .running)
  else if hart.debugMode then .halted
  else .running

/-- `status(h)`: every hart index has exactly one (R320). -/
def State.status (s : State) (h : Nat) : HartStatus :=
  match s.harts[h]? with
  | none => .nonexistent
  | some hart => hart.status s.cfg

/-- Whether the DM acts: active (R291) and authenticated (R294). -/
def State.dmLive (s : State) : Bool := s.dm.authenticated && s.dm.dmactive

/-- The hart hartsel names. -/
def State.hartsel (s : State) : Nat := s.dm.hartsel.toNat

/-- Whether existing hart `h` is among the currently selected harts (R316). -/
def State.isSelected (s : State) (h : Nat) (hart : Hart) : Bool := h == s.hartsel || (s.dm.hasel && hart.ctl.mask)

/-! ### Entry to Debug Mode and return (spec/60_exceptions.md R652, R666) -/

/-- How many dscratch registers hartinfo gives to the debugger: none where there is no hartinfo (R395). -/
def Hart.scratchGiven (hart : Hart) (c : Config) : Nat := if c.hasHartinfo then hart.cfg.nscratch else 0

/-- dscratch registers that hartinfo does not give to the debugger hold any value after a halt, a resume or an abstract
command (spec/93_implementation_defined.md U28; notes/assumptions/13.md). -/
def Hart.scrambleScratch (hart : Hart) (c : Config) (n : Nat) : Hart :=
  { hart with
    dscratch0 := if hart.scratchGiven c = 0 then hart.trunc (Config.freeWord n) else hart.dscratch0
    dscratch1 := if hart.scratchGiven c ≤ 1 then hart.trunc (Config.freeWord (n + 1)) else hart.dscratch1 }

/-- `enter_debug_mode` on the hart: cause, privilege and address are saved, the reservation may be lost (R652, R487). -/
def Hart.enterDebug (hart : Hart) (c : Config) (n : Nat) (cause : BitVec 3) (addr : XWord) : Hart :=
  { hart.scrambleScratch c (n + 1) with
    debugMode := true
    inProgbuf := false
    dcsr := { hart.dcsr with cause := cause, prv := privCode hart.priv }
    dpc := hart.trunc addr
    reservation := if Config.freeBit n then none else hart.reservation }

/-- Entry of hart `h` to Debug Mode with a cause of R650 and the address of Table 4.3 (R660). -/
def enterDebug (h : Nat) (cause : BitVec 3) (addr : XWord) (s : State) : State :=
  (s.modHart h fun hart => hart.enterDebug s.cfg s.free cause addr).bump 3

/-- Leaving Debug Mode: pc from dpc, privilege from dcsr.prv (spec/44_debug_mode.md R490). -/
def Hart.leaveDebug (hart : Hart) (c : Config) (n : Nat) : Hart :=
  { hart.scrambleScratch c (n + 1) with
    debugMode := false
    inProgbuf := false
    pc := hart.pcBits hart.dpc
    priv := hart.legalPriv n hart.dcsr.prv }

/-- The resume transition, or dret, on hart `h` (R490, R666). -/
def leaveDebug (h : Nat) (s : State) : State :=
  (s.modHart h fun hart => hart.leaveDebug s.cfg s.free).bump 3

/-! ### Ordinary traps (PRESUMED, the privileged ISA; spec/60_exceptions.md R651; notes/assumptions/1.md, 45.md) -/

/-- Whether a trap is delegated to S mode (spec/60_exceptions.md R686). -/
def Hart.delegated (hart : Hart) (isInt : Bool) (cause : Nat) : Bool :=
  hart.priv != .m && hart.cfg.privs.contains .s &&
    (if isInt then hart.sys.mideleg else hart.sys.medeleg).getLsbD cause

/-- The handler's address from a tvec register: vectored interrupts go to base + 4 * cause. -/
def tvecTarget (tvec : XWord) (isInt : Bool) (cause : Nat) : XWord :=
  BitVec.ofNat 128 (tvec.toNat / 4 * 4 + (if isInt && tvec.toNat % 4 == 1 then 4 * cause else 0))

/-- A trap into M or S mode: xepc, xcause, xtval, the mstatus stack, the privilege and the pc; `tval` is the value the
document leaves open (notes/assumptions/45.md). -/
def Hart.trap (hart : Hart) (isInt : Bool) (cause : Nat) (tval : XWord) : Hart :=
  let causeWord := BitVec.ofNat 128 (cause + (if isInt then 2 ^ (hart.cfg.xlen - 1) else 0))
  let ms := hart.sys.mstatus
  let hart := { hart.countUp false with trapped := true }
  if hart.delegated isInt cause then
    { hart with
      sys := { hart.sys with
        mstatus := putField (putField (putField ms 5 1 (getField ms 1 1)) 1 1 0) 8 1 (if hart.priv = .u then 0 else 1)
        sepc := hart.pc
        scause := causeWord
        stval := hart.trunc tval }
      priv := .s
      pc := hart.trunc (tvecTarget hart.sys.stvec isInt cause) }
  else
    { hart with
      sys := { hart.sys with
        mstatus := putField (putField (putField ms 7 1 (getField ms 3 1)) 3 1 0) 11 2 (privCode hart.priv).toNat
        mepc := hart.pc
        mcause := causeWord
        mtval := hart.trunc tval }
      priv := .m
      pc := hart.trunc (tvecTarget hart.sys.mtvec isInt cause) }

/-- Exception causes (PRESUMED; illegal instruction 2 and breakpoint 3: spec/60_exceptions.md R651). -/
def excIllegal : Nat := 2
/-- Breakpoint (R651). -/
def excBreakpoint : Nat := 3

/-! ### The end of an abstract command (spec/42_abstract_commands.md R362, R367) -/

/-- The data registers after a command: those it defined keep their value if it succeeded, all others hold any value
(R367). -/
def scrambleData (c : Config) (n : Nat) (keep : BitVec 12) (data : Vector Word 12) : Vector Word 12 :=
  Vector.ofFn fun i : Fin 12 =>
    if keep.getLsbD i.val || decide (c.datacount ≤ i.val) then vget data i.val 0 else freeWord32 (n + i.val)

/-- A command that did something ends: busy falls, an error sets cmderr, the data registers are as R367 says. -/
def finishCommand (err : Option (BitVec 3)) (s : State) : State :=
  let d := { s.dm with
    phase := .idle
    data := scrambleData s.cfg s.free (if err.isNone then s.dm.defined else 0) s.dm.data }
  let d := match err with
    | none => d
    | some e => setCmderr e d
  { s with dm := d }.bump 12

/-- A command that did nothing ends (R370) or is not supported (spec/30_encoding.md R245): only busy and cmderr change,
the data registers stay (notes/assumptions/12.md). -/
def finishQuiet (err : Option (BitVec 3)) (s : State) : State :=
  let d := { s.dm with phase := .idle }
  { s with dm := match err with
    | none => d
    | some e => setCmderr e d }

/-- dpc after the Program Buffer: any value on a hart whose Program Buffer clobbers it (R387); until the program ends dpc
stands as it was or as the program wrote it (notes/assumptions/56.md). -/
def Hart.clobberDpc (n : Nat) (hart : Hart) : Hart :=
  if hart.cfg.progbufClobbersDpc then { hart with dpc := hart.trunc (Config.freeWord n) } else hart

/-- The Program Buffer of hart `h` ends, with an error or without (R380): an Access Register command ends with it; a Quick
Access sets cmderr, resumes the hart and ends (R400). dpc is any value afterwards if PROGBUF_CLOBBERS_DPC (R387), also for
the resume of a Quick Access (notes/assumptions/23.md). -/
def endProgbuf (h : Nat) (err : Option (BitVec 3)) (s : State) : State :=
  let s := s.modHart h fun hart => { hart with inProgbuf := false }
  if s.dm.phase = .progbuf ∧ s.dm.cmdHart = h then
    let s := (s.modHart h (Hart.clobberDpc s.free)).bump 1
    finishCommand err (if s.dm.quick then leaveDebug h s else s)
  else s

/-- An exception on hart `h`: in Debug Mode it ends the Program Buffer with cmderr 3 and updates no register
(spec/44_debug_mode.md R483, R386); outside it is an ordinary trap (spec/60_exceptions.md R651). -/
def raise (h : Nat) (cause : Nat) (s : State) : State :=
  match s.harts[h]? with
  | none => s
  | some hart =>
    if hart.debugMode then endProgbuf h (some errException) s
    else (s.modHart h fun hart => hart.trap false cause (Config.freeWord s.free)).bump 1

/-! ### Resets -/

/-- The hart's reservation on an address is lost when another agent writes there (PRESUMED, notes/assumptions/38.md). -/
def Hart.breakReservation (hart : Hart) (a n : Nat) : Hart :=
  match hart.reservation with
  | some r => if r.toNat < a + n ∧ a < r.toNat + hart.cfg.xlen / 8 then { hart with reservation := none } else hart
  | none => hart

/-- A trigger's writable state at its reset values (spec/45_triggers.md R570). -/
def Trigger.cleared (t : Trigger) : Trigger := Trigger.reset t.cfg

/-- The Trigger Module at its reset values (spec/45_triggers.md R570). -/
def Hart.clearTriggers (hart : Hart) : Hart :=
  { hart with tselect := 0, trigs := hart.trigs.map Trigger.cleared }

/-- A reset of a hart (spec/70_reset_and_hazards.md R714). What the spec gives no value is a free value
(notes/assumptions/8.md); `system` says the reset is ndmreset or an external one, which remembers that the hart was halted
(R334), `clear` that the triggers are reset too, which ndmreset and an external reset may leave alone (R152). -/
def Hart.doReset (n : Nat) (system clear : Bool) (hart : Hart) : Hart :=
  let fw := fun k => hart.trunc (Config.freeWord (n + k))
  let hart := if clear then hart.clearTriggers else hart
  { hart with
    ctl := { hart.ctl with havereset := true }
    debugMode := false
    inProgbuf := false
    inReset := true
    resetHalt := system && hart.debugMode
    priv := .m
    pc := BitVec.ofNat 128 hart.cfg.resetPc
    gprs := Vector.ofFn fun i : Fin 32 => if i.val = 0 then 0 else fw i.val
    fprs := Vector.ofFn fun i : Fin 32 =>
      BitVec.ofNat 128 ((Config.freeWord (n + 32 + i.val)).toNat % 2 ^ hart.cfg.flen)
    dcsr := Dcsr.reset hart.cfg
    dpc := 0
    dscratch0 := fw 64
    dscratch1 := fw 65
    reservation := none
    sys := {
      mstatus := 0
      mie := fw 66
      mip := hart.sys.mip
      mtvec := fw 67
      mepc := hart.pcBits (fw 68)
      mcause := 0
      mtval := fw 69
      medeleg := fw 70
      mideleg := fw 71
      stvec := fw 72
      sepc := hart.pcBits (fw 73)
      scause := fw 74
      stval := fw 75 }
    cycle := (Config.freeWord (n + 76)).setWidth 64
    instret := (Config.freeWord (n + 77)).setWidth 64
    csrs := hart.cfg.csrList.mapIdx fun i num => (num, fw (80 + i))
    trapped := false
    dueEntry := false
    dueBreak := false }

/-- Reset hart `h`; `system` and `clear` as for `Hart.doReset`. An abstract command in progress on it ends, with no error
or with any of 3, 4, 7 (spec/93_implementation_defined.md U8; notes/assumptions/28.md). The platform's own reset of a hart
forgets a halt that a system reset had it remember (notes/assumptions/30.md). -/
def resetHart (system clear : Bool) (h : Nat) (s : State) : State :=
  match s.harts[h]? with
  | none => s
  | some hart =>
    let n := s.free
    let s := (s.modHart h (Hart.doReset (n + 1) system clear)).bump (100 + hart.cfg.csrList.length)
    if s.dm.phase ≠ .idle ∧ s.dm.cmdHart = h then
      finishCommand (pick n [none, some errException, some errHaltResume, some errOther] none)
        { s with dm := { s.dm with defined := 0 } }
    else s

/-- The reset signal of a hart: ndmreset, its own reset bit, or the platform's external reset (R710, R712). -/
def State.resetLine (s : State) (hart : Hart) : Bool := s.dm.ndmreset || s.extReset || hart.ctl.hartreset

/-- A hart that is in reset already when a reset signal of it is asserted: its havereset bit is set again, and its own reset
bit resets its triggers even where ndmreset does not (spec/41_reset_select_run.md R328, R329;
spec/70_reset_and_hazards.md R718). A command in progress on it goes on (notes/assumptions/28.md). -/
def Hart.stillInReset (hart : Hart) : Hart :=
  let hart := if hart.ctl.hartreset then hart.clearTriggers else hart
  { hart with ctl := { hart.ctl with havereset := true } }

/-- Harts 0 to `k` - 1 see their reset signals: a hart whose signal is asserted is reset, unless it is in reset already. Its
own reset bit always resets its triggers (R718), ndmreset and an external reset if they clear triggers (R152); with both,
the hart remembers that it was halted (notes/assumptions/30.md). Memory, data and progbuf are not changed (R713, R718: as
the platform says; notes/assumptions/52.md). -/
def applyResets : Nat → State → State
  | 0, s => s
  | k + 1, s =>
    let s := applyResets k s
    match s.harts[k]? with
    | none => s
    | some hart =>
      if s.resetLine hart then
        if hart.inReset then s.modHart k Hart.stillInReset
        else resetHart (s.dm.ndmreset || s.extReset) (hart.ctl.hartreset || s.cfg.ndmresetClearsTriggers) k s
      else s

/-- A bus write that is abandoned leaves any value in the bytes it could write (spec/93_implementation_defined.md U8) and
breaks no reservation (notes/assumptions/38.md). -/
def abandonBus (s : State) : State :=
  match s.sb.pending with
  | some p =>
    if p.write && regionAt s.cfg.regions p.address p.bytes == .ram then
      { s with mem := s.mem.writes p.address (leBytes p.bytes (Config.freeWord s.free).toNat) }.bump 1
    else s
  | none => s

/-- The per-hart bits the DM holds, on a DM reset: requests, acknowledgement and mask are 0, havereset may be cleared or
not (spec/41_reset_select_run.md R312, spec/70_reset_and_hazards.md R711). A Program Buffer in execution stops, and dpc is
then any value on a hart whose Program Buffer clobbers it (spec/93_implementation_defined.md U8, U34). -/
def Hart.dmReset (n : Nat) (hart : Hart) : Hart :=
  { (if hart.inProgbuf then hart.clobberDpc (n + 1) else hart) with
    inProgbuf := false
    ctl := {
      haltreq := false
      resumereq := false
      hartreset := false
      havereset := hart.ctl.havereset && Config.freeBit n
      resumeack := false
      mask := false } }

/-- `in_reset_window()` (spec/40_dmi_dm_access.md R290). -/
def State.inResetWindow (s : State) : Bool := s.dm.ndmreset || s.extReset

end Sys2Proof.Machine
end

