-- ==== Sys2Proof/Machine/Triggers.lean ====
section
/-! DEFINITION. The Trigger Module of a hart (spec/45_triggers.md): reading and writing its registers, what a match trigger
compares, chains, hits, and the instruction count trigger. When its answers are asked for: Machine/HartMove.lean. -/

namespace Sys2Proof.Machine

/-! ### Reading (spec/10_state.md R142 to R146) -/

/-- The fields of mcontrol below maskmax as a number (R145). -/
def Trigger.mcontrolFields (t : Trigger) : Nat :=
  bitAt t.hit 20 + bitAt t.select 19 + bitAt t.timing 18 + t.action.toNat * 2 ^ 12 + bitAt t.chain 11 +
    t.mtch.toNat * 2 ^ 7 + bitAt t.m 6 + bitAt t.s 4 + bitAt t.u 3 + bitAt t.execute 2 + bitAt t.store 1 + bitAt t.load 0

/-- tdata1 as a number: mcontrol for type 2, icount for type 3; of any other type only `type` reads non-zero (R534). -/
def Trigger.tdata1Nat (xlen : Nat) (t : Trigger) : Nat :=
  let type := t.cfg.kind * 2 ^ (xlen - 4)
  if t.cfg.kind = 2 then
    type + bitAt t.dmode (xlen - 5) + t.cfg.maskmax * 2 ^ (xlen - 11) + t.mcontrolFields
  else if t.cfg.kind = 3 then
    type + bitAt t.dmode (xlen - 5) + bitAt t.hit 24 + t.count.toNat * 2 ^ 10 + bitAt t.m 9 + bitAt t.s 7 +
      bitAt t.u 6 + t.action.toNat
  else type

/-- The trigger tselect reaches. -/
def Hart.trig? (hart : Hart) : Option Trigger := hart.trigs[hart.tselect.toNat]?

/-- A read of tdata1; 0 where tselect reaches no trigger (R531). -/
def Hart.tdata1 (hart : Hart) : XWord :=
  match hart.trig? with
  | some t => BitVec.ofNat 128 (t.tdata1Nat hart.cfg.xlen)
  | none => 0

/-- A read of tdata2. -/
def Hart.tdata2 (hart : Hart) : XWord :=
  match hart.trig? with
  | some t => t.tdata2
  | none => 0

/-- A read of tdata3. -/
def Hart.tdata3 (hart : Hart) : XWord :=
  match hart.trig? with
  | some t => t.tdata3
  | none => 0

/-! ### Writing (R532, R533, R540, R541, R560) -/

/-- A write of tselect: a valid index is stored, another one as its low TSEL bits (R532 leaves this to the implementation;
notes/assumptions/58.md); without triggers tselect reads 0 and ignores writes. -/
def Hart.writeTselect (hart : Hart) (v : XWord) : Hart :=
  if hart.trigs = [] then hart
  else if (hart.trunc v).toNat < hart.trigs.length then { hart with tselect := hart.trunc v }
  else { hart with tselect := BitVec.ofNat 128 (v.toNat % 2 ^ hart.cfg.tselBits) }

/-- The action a write stores: an unsupported value becomes 0; 1 needs dmode (R541, R547). -/
def legalAction (c : TrigCfg) (dmode : Bool) (a : BitVec 6) : BitVec 6 :=
  if c.actions.contains a.toNat && decide (a.toNat ≤ 4) && (a != 1 || dmode) then a else 0

/-- The match value a write stores: an unsupported value becomes 0; with maskmax 0 match 1 is unsupported (R541, R545). -/
def legalMatch (c : TrigCfg) (m : BitVec 4) : BitVec 4 :=
  if c.matches_.contains m.toNat && decide (m.toNat ≤ 5) && (m != 1 || c.maskmax != 0) then m else 0

/-- Whether a written value is an unsupported combination (spec/93_implementation_defined.md U31). -/
def badCombo (c : TrigCfg) (v : Nat) : Bool := c.badCombos.any fun p => v &&& p.1 == p.2

/-- A write of mcontrol: every unsupported field takes its reset value (R541); of an unsupported combination every field
does (U31). timing is what the hardware has for the fields as they now are (R548). `dmode` is the resulting dmode. -/
def Trigger.writeMcontrol (t : Trigger) (dmode : Bool) (v : XWord) : Trigger :=
  if badCombo t.cfg (v.toNat % 2 ^ 21) then
    { Trigger.reset t.cfg with dmode := dmode, tdata2 := t.tdata2, tdata3 := t.tdata3 }
  else
    let u := { t with
      timing := v.getLsbD 18
      dmode := dmode
      hit := t.cfg.hasHit && v.getLsbD 20
      select := t.cfg.hasSelect1 && v.getLsbD 19
      action := legalAction t.cfg dmode (BitVec.ofNat 6 (getField v 12 6))
      chain := t.cfg.hasChain && v.getLsbD 11
      mtch := legalMatch t.cfg (BitVec.ofNat 4 (getField v 7 4))
      m := t.cfg.hasM && v.getLsbD 6
      s := t.cfg.hasS && v.getLsbD 4
      u := t.cfg.hasU && v.getLsbD 3
      execute := t.cfg.hasExecute && v.getLsbD 2
      store := t.cfg.hasStore && v.getLsbD 1
      load := t.cfg.hasLoad && v.getLsbD 0 }
    { u with timing := timingOf t.cfg u.mcontrolFields (v.getLsbD 18) }

/-- The count a write of icount stores: an unsupported value becomes 1 (R541, R560). -/
def legalCount (c : TrigCfg) (n : BitVec 14) : BitVec 14 :=
  if c.countMin ≤ n.toNat ∧ n.toNat ≤ c.countMax then n else 1

/-- A write of icount (R560, R541). -/
def Trigger.writeIcount (t : Trigger) (dmode : Bool) (v : XWord) : Trigger :=
  if badCombo t.cfg (v.toNat % 2 ^ 25) then
    { Trigger.reset t.cfg with dmode := dmode, tdata2 := t.tdata2, tdata3 := t.tdata3 }
  else
    { t with
      dmode := dmode
      hit := t.cfg.hasHit && v.getLsbD 24
      count := legalCount t.cfg (BitVec.ofNat 14 (getField v 10 14))
      m := t.cfg.hasM && v.getLsbD 9
      s := t.cfg.hasS && v.getLsbD 7
      u := t.cfg.hasU && v.getLsbD 6
      action := legalAction t.cfg dmode (BitVec.ofNat 6 (getField v 0 6)) }

/-- A write of tdata1 from Debug Mode (`dbg`) or from M mode: only Debug Mode writes dmode (R533). -/
def Trigger.writeTdata1 (xlen : Nat) (dbg : Bool) (v : XWord) (t : Trigger) : Trigger :=
  let dmode := if dbg then v.getLsbD (xlen - 5) else t.dmode
  if t.cfg.kind = 2 then t.writeMcontrol dmode v
  else if t.cfg.kind = 3 then t.writeIcount dmode v
  else t

/-- A write of a tdata register of one trigger: M mode cannot write a trigger whose dmode is 1 (R533); a trigger of another
type than 2 or 3 ignores writes (R534). -/
def Trigger.writeTdata (xlen which : Nat) (dbg : Bool) (v : XWord) (t : Trigger) : Trigger :=
  if !dbg && t.dmode then t
  else if which = 1 then t.writeTdata1 xlen dbg v
  else if t.cfg.kind = 2 ∨ t.cfg.kind = 3 then (if which = 2 then { t with tdata2 := v } else { t with tdata3 := v })
  else t

/-- A write of tdata1, tdata2 or tdata3 of the trigger tselect reaches, from Debug Mode (`dbg`) or from M mode. -/
def Hart.writeTdata (hart : Hart) (which : Nat) (dbg : Bool) (v : XWord) : Hart :=
  { hart with
    trigs := hart.trigs.modify hart.tselect.toNat (Trigger.writeTdata hart.cfg.xlen which dbg (hart.trunc v)) }

/-! ### Matching (R542 to R546) -/

/-- What a trigger can look at in one instruction: its address (`none` where nothing could be fetched there and that counts
as no execution), its bits (if it could be fetched), the load and the store it makes with their lowest address and their
value (a load or AMO that faults has none) (R543, spec/92_eei_decisions.md D27; notes/assumptions/31.md). -/
structure Facts where
  pc : Option XWord
  insn : Option XWord
  load : Option (XWord × Option XWord)
  store : Option (XWord × Option XWord)
  deriving DecidableEq, Repr

/-- The index of the lowest 0 bit of `v` from `i` up, looking at `fuel` bits. -/
def lowestZero (v : Nat) : Nat → Nat → Option Nat
  | 0, _ => none
  | fuel + 1, i => if v / 2 ^ i % 2 = 0 then some i else lowestZero v fuel (i + 1)

/-- The match condition of R545 on a value. -/
def Trigger.holds (xlen : Nat) (t : Trigger) (v : XWord) : Bool :=
  let x := v.toNat
  let d := t.tdata2.toNat
  let h := 2 ^ (xlen / 2)
  match t.mtch.toNat with
  | 0 => x == d
  | 1 =>
    match lowestZero d xlen 0 with
    | some k =>
      if k + 1 ≤ t.cfg.maskmax then x / 2 ^ (k + 1) == d / 2 ^ (k + 1) else Config.napotCorner v t.tdata2
    | none => Config.napotCorner v t.tdata2
  | 2 => decide (d ≤ x)
  | 3 => decide (x < d)
  | 4 => (x % h) &&& (d / h) == d % h
  | 5 => (x / h) &&& (d / h) == d % h
  | _ => false

/-- Enabled at a privilege level (R542). -/
def Trigger.enabledAt (t : Trigger) : Priv → Bool
  | .m => t.m
  | .s => t.s
  | .u => t.u

/-- The match condition on a load or store: on its address, or with select 1 on its value if it has one (R543). -/
def Trigger.holdsAccess (xlen : Nat) (t : Trigger) (access : Option (XWord × Option XWord)) : Bool :=
  match access with
  | some (a, some v) => t.holds xlen (if t.select then v else a)
  | some (a, none) => !t.select && t.holds xlen a
  | none => false

/-- `raw`: an enabled type-2 trigger of this timing whose condition one of the instruction's values satisfies. -/
def Trigger.raw (xlen : Nat) (p : Priv) (timing : Bool) (f : Facts) (t : Trigger) : Bool :=
  t.cfg.kind == 2 && t.enabledAt p && t.timing == timing &&
    ((t.execute && (match if t.select then f.insn else f.pc with
        | some v => t.holds xlen v
        | none => false)) ||
      (t.load && t.holdsAccess xlen f.load) || (t.store && t.holdsAccess xlen f.store))

/-- `matches` along the list: a trigger is kept from matching while the one before it has chain set and does not match
(R546). `ok` says what the trigger before allows. -/
def chainMatches (xlen : Nat) (p : Priv) (timing : Bool) (f : Facts) : Bool → List Trigger → List Bool
  | _, [] => []
  | ok, t :: ts =>
    let m := t.raw xlen p timing f && ok
    m :: chainMatches xlen p timing f (!(t.cfg.kind == 2 && t.chain) || m) ts

/-- Which triggers match at this point of the instruction. -/
def Hart.trigMatches (hart : Hart) (p : Priv) (timing : Bool) (f : Facts) : List Bool :=
  chainMatches hart.cfg.xlen p timing f true hart.trigs

/-- Whether some trigger of this kind fires: it matches and its chain is 0 (R546). -/
def Hart.fires (hart : Hart) (ms : List Bool) (P : Trigger → Bool) : Bool :=
  (hart.trigs.zip ms).any fun p => p.2 && !p.1.chain && P p.1

/-- Whether some trigger fires with this action. -/
def Hart.firesWith (hart : Hart) (ms : List Bool) (action : BitVec 6) : Bool := hart.fires ms fun t => t.action == action

/-- Whether some trigger fires with this action that may act late (`skids`), or that acts at once (R548). -/
def Hart.firesSkidding (hart : Hart) (ms : List Bool) (action : BitVec 6) (skids : Bool) : Bool :=
  hart.fires ms fun t => t.action == action && t.cfg.skids == skids

/-- Set the hit bit of every trigger whose flag is true. -/
def markHits : List Bool → List Trigger → List Trigger
  | m :: ms, t :: ts => (if m then { t with hit := t.cfg.hasHit } else t) :: markHits ms ts
  | _, ts => ts

/-- Every matching trigger's hit bit is set, where it is implemented (R550, R551). -/
def Hart.setHits (hart : Hart) (ms : List Bool) : Hart :=
  { hart with trigs := markHits ms hart.trigs }

/-! ### Instruction count (R561) -/

/-- Whether this trigger fires on an instruction completed or an exception taken at privilege `p`. -/
def Trigger.countFires (p : Priv) (t : Trigger) : Bool := t.cfg.kind == 3 && t.enabledAt p && t.count == 1

/-- The count after an instruction completed or an exception taken at privilege `p` (R561, D28). -/
def Trigger.countDown (p : Priv) (t : Trigger) : Trigger :=
  if t.cfg.kind == 3 && t.enabledAt p then
    if t.count = 0 then t
    else if t.count = 1 then
      let t := { t with hit := t.cfg.hasHit }
      if t.cfg.icountClearsModes then { t with m := false, s := false, u := false } else { t with count := 0 }
    else { t with count := t.count - 1 }
  else t

/-- Whether an icount trigger fires with this action. -/
def Hart.countFiresWith (hart : Hart) (p : Priv) (action : BitVec 6) : Bool :=
  hart.trigs.any fun t => t.countFires p && t.action == action

/-- All instruction counts after an instruction completed or an exception taken. -/
def Hart.countDown (hart : Hart) (p : Priv) : Hart := { hart with trigs := hart.trigs.map (Trigger.countDown p) }

end Sys2Proof.Machine
end

