-- ==== Sys2Proof/Machine/Operands.lean ====
section
/-! DEFINITION. Every operand form: arguments in the data registers (spec/42_abstract_commands.md R363), CSRs as a CSR
instruction or Access Register names them (spec/44_debug_mode.md R500 to R505, spec/45_triggers.md R530 to R533), abstract
register numbers and their support (spec/30_encoding.md R247, spec/42_abstract_commands.md R371 to R375), and the operands of
CSR instructions. CSRs the spec names but does not define are PRESUMED (notes/assumptions/1.md). -/

namespace Sys2Proof.Machine

/-! ### Arguments (R363, R210) -/

/-- `words` data registers from index `first` up, least significant word first. -/
def argNat (data : Vector Word 12) (first : Nat) : Nat → Nat
  | 0 => 0
  | words + 1 => argNat data first words + (vget data (first + words) 0).toNat * 2 ^ (32 * words)

/-- Store a number into `words` data registers from index `first` up. -/
def setArg (data : Vector Word 12) (first : Nat) (v : Nat) : Nat → Vector Word 12
  | 0 => data
  | words + 1 => vset (setArg data first v words) (first + words) (BitVec.ofNat 32 (v / 2 ^ (32 * words)))

/-- The data registers `first` to `first + words - 1` as a mask. -/
def argMask (first words : Nat) : BitVec 12 :=
  BitVec.ofNat 12 (packBits 12 fun i => decide (first ≤ i ∧ i < first + words))

/-- The hart or a command stores a number into data registers, which it thereby defines (R367, R395). Words beyond data11
are dropped (notes/assumptions/40.md). -/
def storeArg (first words v : Nat) (s : State) : State :=
  { s with dm := { s.dm with
      data := setArg s.dm.data first v words
      defined := s.dm.defined ||| argMask first words } }

/-! ### CSRs -/

/-- The width the configuration gives a CSR, XLEN where it lists none. -/
def csrWidth (xlen : Nat) : List (Nat × Nat) → Nat → Nat
  | [], _ => xlen
  | p :: ps, num => if p.1 = num then p.2 else csrWidth xlen ps num

/-- A read of dcsr (R502). -/
def Hart.dcsrNat (hart : Hart) : Nat :=
  hart.cfg.xdebugver * 2 ^ 28 + bitAt hart.dcsr.ebreakm 15 + bitAt hart.dcsr.ebreaks 13 + bitAt hart.dcsr.ebreaku 12 +
    bitAt hart.dcsr.stepie 11 + bitAt hart.dcsr.stopcount 10 + bitAt hart.dcsr.stoptime 9 +
    hart.dcsr.cause.toNat * 2 ^ 6 + bitAt hart.dcsr.step 2 + hart.dcsr.prv.toNat

/-- The prv a write of dcsr stores: a supported code as written; for another one, the code as written or any supported
level (R503). Every supported level counts as permitted to the debugger (notes/assumptions/43.md). -/
def Hart.writtenPrv (hart : Hart) (n : Nat) (code : BitVec 2) : BitVec 2 :=
  match privOfCode code with
  | some p => if hart.cfg.privs.contains p then code else if Config.freeBit n then code else privCode (hart.legalPriv n code)
  | none => if Config.freeBit n then code else privCode (hart.legalPriv n code)

/-- A write of dcsr (R501); ebreaks and ebreaku are stored on a hart without S or U mode too (notes/assumptions/57.md). -/
def Hart.writeDcsr (hart : Hart) (n : Nat) (v : XWord) : Hart :=
  { hart with dcsr := { hart.dcsr with
      ebreakm := v.getLsbD 15
      ebreaks := v.getLsbD 13
      ebreaku := v.getLsbD 12
      stepie := hart.cfg.stepieWritable && v.getLsbD 11
      stopcount := if hart.cfg.stopcountWritable then v.getLsbD 10 else hart.cfg.stopcountPreset
      stoptime := if hart.cfg.stoptimeWritable then v.getLsbD 9 else hart.cfg.stoptimePreset
      step := v.getLsbD 2
      prv := hart.writtenPrv n (BitVec.ofNat 2 (getField v 0 2)) } }

/-- The bits of mstatus that sstatus shows (PRESUMED). -/
def sstatusMask (xlen : Nat) : XWord := BitVec.ofNat 128 (0x000de133 + 2 ^ (xlen - 1))

/-- A CSR the configuration lists beyond those of State, by number. -/
def csrLookup : List (Nat × XWord) → Nat → XWord
  | [], _ => 0
  | p :: ps, num => if p.1 = num then p.2 else csrLookup ps num

/-- Store a listed CSR. -/
def csrStore : List (Nat × XWord) → Nat → XWord → List (Nat × XWord)
  | [], num, v => [(num, v)]
  | p :: ps, num, v => if p.1 = num then (num, v) :: ps else p :: csrStore ps num v

/-- The eight debug and trigger CSRs (spec/10_state.md R120, R140). -/
def isDebugCsr (num : Nat) : Bool := decide (0x7a0 ≤ num ∧ num ≤ 0x7a3 ∨ 0x7b0 ≤ num ∧ num ≤ 0x7b3)

/-- The index of the argument a CSR number shadows when hartinfo.dataaccess is 0 (R395, R206). Only a hart in Debug Mode
reaches the shadows, and only of a DM that acts (spec/60_exceptions.md R688, spec/40_dmi_dm_access.md R293); the debug and
trigger CSRs are never shadows (notes/assumptions/40.md). -/
def Hart.shadowCsr (hart : Hart) (s : State) (num : Nat) : Option Nat :=
  if hart.debugMode && s.dmLive && s.cfg.hasHartinfo && !hart.cfg.dataaccess && !isDebugCsr num &&
      decide (hart.cfg.dataaddr.toNat ≤ num) &&
      decide (num < hart.cfg.dataaddr.toNat + hart.cfg.datasize)
  then some (num - hart.cfg.dataaddr.toNat) else none

/-- The value of a CSR of a hart; none if it does not exist. A shadow of what lies beyond data11 reads 0
(notes/assumptions/40.md). A program reads dpc as it stands, also where it clobbers dpc (notes/assumptions/56.md). -/
def readCsr (s : State) (hart : Hart) (num : Nat) : Option XWord :=
  let supervisor := hart.cfg.privs.contains .s
  let half := fun (v : BitVec 64) => some (hart.trunc (v.setWidth 128))
  let high := fun (v : BitVec 64) => if hart.cfg.xlen = 32 then some (BitVec.ofNat 128 (v.toNat / 2 ^ 32)) else none
  match hart.shadowCsr s num with
  | some k => some (BitVec.ofNat 128 (argNat s.dm.data (k * (hart.cfg.xlen / 32)) (hart.cfg.xlen / 32)))
  | none =>
    match num with
    | 0x7b0 => some (BitVec.ofNat 128 hart.dcsrNat)
    | 0x7b1 => some hart.dpc
    | 0x7b2 => if hart.cfg.hasDscratch0 then some hart.dscratch0 else none
    | 0x7b3 => if hart.cfg.hasDscratch1 then some hart.dscratch1 else none
    | 0x7a0 => some hart.tselect
    | 0x7a1 => some hart.tdata1
    | 0x7a2 => some hart.tdata2
    | 0x7a3 => some hart.tdata3
    | 0x300 => some hart.sys.mstatus
    | 0x302 => if supervisor then some hart.sys.medeleg else none
    | 0x303 => if supervisor then some hart.sys.mideleg else none
    | 0x304 => some hart.sys.mie
    | 0x305 => some hart.sys.mtvec
    | 0x341 => some hart.sys.mepc
    | 0x342 => some hart.sys.mcause
    | 0x343 => some hart.sys.mtval
    | 0x344 => some hart.sys.mip
    | 0x100 => if supervisor then some (hart.sys.mstatus &&& sstatusMask hart.cfg.xlen) else none
    | 0x104 => if supervisor then some (hart.sys.mie &&& hart.sys.mideleg) else none
    | 0x105 => if supervisor then some hart.sys.stvec else none
    | 0x141 => if supervisor then some hart.sys.sepc else none
    | 0x142 => if supervisor then some hart.sys.scause else none
    | 0x143 => if supervisor then some hart.sys.stval else none
    | 0x144 => if supervisor then some (hart.sys.mip &&& hart.sys.mideleg) else none
    | 0xc00 => half hart.cycle
    | 0xc01 => half hart.timer
    | 0xc02 => half hart.instret
    | 0xb00 => half hart.cycle
    | 0xb02 => half hart.instret
    | 0xc80 => high hart.cycle
    | 0xc81 => high hart.timer
    | 0xc82 => high hart.instret
    | 0xb80 => high hart.cycle
    | 0xb82 => high hart.instret
    | 0xf14 => some (BitVec.ofNat 128 hart.cfg.mhartid)
    | _ => if hart.cfg.csrList.contains num then some (csrLookup hart.csrs num) else none

/-- A counter's low XLEN bits replaced. -/
def counterLow (xlen : Nat) (c : BitVec 64) (v : XWord) : BitVec 64 :=
  if xlen = 32 then BitVec.ofNat 64 (c.toNat / 2 ^ 32 * 2 ^ 32 + v.toNat % 2 ^ 32) else v.setWidth 64

/-- A counter's high half replaced. -/
def counterHigh (c : BitVec 64) (v : XWord) : BitVec 64 :=
  BitVec.ofNat 64 (v.toNat % 2 ^ 32 * 2 ^ 32 + c.toNat % 2 ^ 32)

/-- The hart after a write of one of its own CSRs, from Debug Mode (`dbg`) or not; `n` numbers a free value. Bits that
software cannot write keep their value: the interrupt-pending bits the platform drives (all but SSIP, STIP, SEIP and their U
forms). A write of a dscratch register that hartinfo does not give to the debugger is stored, and breaks nothing
(notes/assumptions/13.md). -/
def Hart.writeCsr (hart : Hart) (dbg : Bool) (n num : Nat) (v : XWord) : Hart :=
  let v := hart.trunc v
  let sys := hart.sys
  let masked := fun (old mask : XWord) => (old &&& ~~~mask) ||| (v &&& mask)
  match num with
  | 0x7b0 => hart.writeDcsr n v
  | 0x7b1 => { hart with dpc := hart.pcBits v }
  | 0x7b2 => { hart with dscratch0 := v }
  | 0x7b3 => { hart with dscratch1 := v }
  | 0x7a0 => hart.writeTselect v
  | 0x7a1 => hart.writeTdata 1 dbg v
  | 0x7a2 => hart.writeTdata 2 dbg v
  | 0x7a3 => hart.writeTdata 3 dbg v
  | 0x300 => { hart with sys := { sys with mstatus := v } }
  | 0x302 => { hart with sys := { sys with medeleg := v } }
  | 0x303 => { hart with sys := { sys with mideleg := v } }
  | 0x304 => { hart with sys := { sys with mie := v } }
  | 0x305 => { hart with sys := { sys with mtvec := v } }
  | 0x341 => { hart with sys := { sys with mepc := hart.pcBits v } }
  | 0x342 => { hart with sys := { sys with mcause := v } }
  | 0x343 => { hart with sys := { sys with mtval := v } }
  | 0x344 => { hart with sys := { sys with mip := masked sys.mip 0x333 } }
  | 0x100 => { hart with sys := { sys with mstatus := masked sys.mstatus (sstatusMask hart.cfg.xlen) } }
  | 0x104 => { hart with sys := { sys with mie := masked sys.mie sys.mideleg } }
  | 0x105 => { hart with sys := { sys with stvec := v } }
  | 0x141 => { hart with sys := { sys with sepc := hart.pcBits v } }
  | 0x142 => { hart with sys := { sys with scause := v } }
  | 0x143 => { hart with sys := { sys with stval := v } }
  | 0x144 => { hart with sys := { sys with mip := masked sys.mip (sys.mideleg &&& 0x333) } }
  | 0xb00 => { hart with cycle := counterLow hart.cfg.xlen hart.cycle v }
  | 0xb02 => { hart with instret := counterLow hart.cfg.xlen hart.instret v }
  | 0xb80 => { hart with cycle := counterHigh hart.cycle v }
  | 0xb82 => { hart with instret := counterHigh hart.instret v }
  | _ =>
    if hart.cfg.csrList.contains num then
      let width := csrWidth hart.cfg.xlen hart.cfg.csrWidths num
      { hart with csrs := csrStore hart.csrs num (BitVec.ofNat 128 (v.toNat % 2 ^ width)) }
    else hart

/-- Write a CSR of hart `h`, from Debug Mode (`dbg`) or not; a shadow CSR writes the data registers (R395). -/
def writeCsr (dbg : Bool) (h num : Nat) (v : XWord) (s : State) : State :=
  match s.harts[h]? with
  | none => s
  | some hart =>
    match hart.shadowCsr s num with
    | some k => storeArg (k * (hart.cfg.xlen / 32)) (hart.cfg.xlen / 32) v.toNat s
    | none => (s.modHart h fun hart => hart.writeCsr dbg s.free num v).bump 1

/-- Whether a CSR is read-only: the read-only bits of its number are the base ISA's (PRESUMED, notes/assumptions/36.md). A
shadow of the data registers is written whatever its number is (R395). -/
def Hart.csrReadOnly (hart : Hart) (s : State) (num : Nat) : Bool :=
  num / 2 ^ 10 % 4 == 3 && (hart.shadowCsr s num).isNone

/-- Whether a CSR instruction may access a CSR: the debug registers only from Debug Mode (R500), which otherwise acts as
machine mode (R481), the trigger registers from machine and Debug Mode (R530); a read-only CSR is not written. The privilege
bits of a CSR number are the base ISA's (PRESUMED, notes/assumptions/36.md). -/
def Hart.csrAccess (hart : Hart) (s : State) (num : Nat) (write : Bool) : Bool :=
  (hart.debugMode || decide (num / 2 ^ 8 % 4 ≤ (privCode hart.priv).toNat)) && !(write && hart.csrReadOnly s num) &&
    (hart.debugMode || !(decide (0x7b0 ≤ num) && decide (num ≤ 0x7b3)))

/-! ### CSR instructions (PRESUMED format, notes/assumptions/36.md) -/

/-- The source value: the immediate or the register. -/
def csrSource (op : CsrOp) (hart : Hart) : XWord :=
  if op.imm then op.src.setWidth 128 else hart.gpr op.src.toNat

/-- Whether it writes: a set or clear with source field 0 does not. -/
def csrWrites (op : CsrOp) : Bool := op.kind == .rw || op.src != 0

/-- The value it writes. -/
def csrResult (op : CsrOp) (hart : Hart) (old : XWord) : XWord :=
  match op.kind with
  | .rw => csrSource op hart
  | .rs => old ||| csrSource op hart
  | .rc => old &&& ~~~(csrSource op hart)

/-- Whether the instruction is carried out on this hart, rather than an illegal instruction. -/
def csrAllowed (op : CsrOp) (s : State) (hart : Hart) (num : Nat) : Bool :=
  hart.csrAccess s num (csrWrites op) && (readCsr s hart num).isSome

/-- A CSR instruction on CSR `num`, executed by hart `h`: the old value goes to rd, the new one to the CSR. The
instruction is counted after its write, so a write of dcsr.stopcount is counted under the new value (R486, R501 and R690 do
not say; notes/assumptions/37.md). -/
def csrInsn (num : Nat) (op : CsrOp) (h : Nat) (s : State) : State :=
  match s.harts[h]? with
  | none => s
  | some hart =>
    match csrAllowed op s hart num, readCsr s hart num with
    | true, some old =>
      let s := if csrWrites op then writeCsr hart.debugMode h num (csrResult op hart old) s else s
      s.modHart h fun hart => (hart.setGpr op.rd.toNat old).retire 4
    | _, _ => raise h excIllegal s

/-! ### Abstract register numbers (spec/30_encoding.md R247) -/

/-- What a regno selects. -/
inductive RegRef
  | csr (num : Nat)
  | gpr (i : Nat)
  | fpr (i : Nat)
  | custom
  | unmapped
  deriving DecidableEq, Repr

/-- Decoding of regno (R247, R203). -/
def regRef (regno : Nat) : RegRef :=
  if regno < 0x1000 then .csr regno
  else if regno < 0x1020 then .gpr (regno - 0x1000)
  else if regno < 0x1040 then .fpr (regno - 0x1020)
  else if regno < 0xc000 then .unmapped
  else .custom

/-- The register's actual size in bits (R372, spec/30_encoding.md R247). That of a regno 0xc000 to 0xffff is the
implementation's; the model takes XLEN (notes/assumptions/54.md). -/
def Hart.regSize (hart : Hart) : RegRef → Nat
  | .fpr _ => hart.cfg.flen
  | .csr num => csrWidth hart.cfg.xlen hart.cfg.csrWidths num
  | _ => hart.cfg.xlen

/-- The rows of ABSTRACT_REG_SUPPORT for this regno, size field and direction. With every size a register that can be
read can be read (R372). -/
def Hart.supportRows (hart : Hart) (regno : Nat) (size : BitVec 3) (write : Bool) : List RegSupport :=
  hart.cfg.regSupport.filter fun r =>
    decide (r.lo ≤ regno ∧ regno ≤ r.hi) && r.write == write && (!write || r.sizes.contains size.toNat)

/-- The transfers every halted hart supports (R371, R387): every size of a read of a GPR, a write of its whole width; and of
dpc where the Program Buffer clobbers it. -/
def Hart.mandatory (hart : Hart) (regno : Nat) (size : BitVec 3) (write : Bool) : Bool :=
  (match regRef regno with
    | .gpr _ => true
    | _ => regno == 0x07b1 && hart.cfg.progbufClobbersDpc) && (!write || 8 * 2 ^ size.toNat == hart.cfg.xlen)

/-- ABSTRACT_REG_SUPPORT on a halted hart (R371, R372). -/
def Hart.supportedHalted (hart : Hart) (regno : Nat) (size : BitVec 3) (write : Bool) : Bool :=
  hart.mandatory regno size write || !(hart.supportRows regno size write).isEmpty

/-- ABSTRACT_REG_SUPPORT on a running hart (R371). -/
def Hart.supportedRunning (hart : Hart) (regno : Nat) (size : BitVec 3) (write : Bool) : Bool :=
  (hart.supportRows regno size write).any (·.running)

/-- Whether the register exists: a GPR below the base ISA's count, an existing CSR that is written only if it can be, a
floating-point register of a hart that has them. -/
def regExists (s : State) (hart : Hart) (write : Bool) : RegRef → Bool
  | .csr num => (readCsr s hart num).isSome && !(write && hart.csrReadOnly s num)
  | .gpr i => decide (i < hart.cfg.ngpr)
  | .fpr _ => decide (0 < hart.cfg.flen)
  | .custom => true
  | .unmapped => false

/-- The cmderr of a transfer that cannot be done, none if it can (R371 to R373, R243, R363, R247; picks:
notes/assumptions/20.md). A transfer that a running hart supports is done on a hart in reset that reads as running too
(notes/assumptions/20.md); that dcsr and dscratch of a running hart are among what may be supported is
notes/assumptions/53.md. `n` numbers the free choice. -/
def transferError (s : State) (n h : Nat) (size : BitVec 3) (write : Bool) (regno : Nat) : Option (BitVec 3) :=
  let width := 8 * 2 ^ size.toNat
  let ref := regRef regno
  match s.harts[h]? with
  | none => some (pick n [errNotSupported, errHaltResume, errOther] errNotSupported)
  | some hart =>
    if hart.status s.cfg = .unavailable then
      some (pick n [errNotSupported, errHaltResume, errOther] errNotSupported)
    else if size.toNat < 2 ∨ 4 < size.toNat then some errNotSupported
    else if s.cfg.datacount < width / 32 then some errNotSupported
    else if hart.regSize ref < width then some errNotSupported
    else if ref = .gpr 0 ∧ write ∧ !hart.cfg.x0Writable then some errNotSupported
    else if ref = .unmapped then some errNotSupported
    else if !regExists s hart write ref then
      match ref with
      | .csr _ => some (pick n [errNotSupported, errException] errNotSupported)
      | _ => some errNotSupported
    else if hart.status s.cfg = .halted then
      if hart.supportedHalted regno size write then none else some errNotSupported
    else if hart.supportedRunning regno size write then none
    else if hart.supportedHalted regno size write then some s.cfg.notHaltedCmderr
    else some errNotSupported

/-- The value of a register as Access Register reads it: on a running hart dpc is an alias for the pc (R374). A read of a
regno 0xc000 to 0xffff gives any value (spec/93_implementation_defined.md U11; notes/assumptions/54.md). -/
def readReg (s : State) (hart : Hart) (n : Nat) : RegRef → XWord
  | .csr num => if num = 0x7b1 ∧ !hart.debugMode then hart.pc else (readCsr s hart num).getD 0
  | .gpr i => hart.gpr i
  | .fpr i => vget hart.fprs i 0
  | .custom => Config.freeWord n
  | .unmapped => 0

/-- The value a write of `width` bits stores in a register of `size` bits: the bits above `width` are any value (R375;
notes/assumptions/21.md). -/
def widened (n width size v : Nat) : XWord :=
  BitVec.ofNat 128
    (if width < size then v % 2 ^ width + (Config.freeWord n).toNat / 2 ^ width * 2 ^ width % 2 ^ size else v % 2 ^ width)

/-- Access Register's write of a register (R375): a CSR write obeys the CSR's own rules as one from Debug Mode does, on a
running hart too (notes/assumptions/53.md). A write of a regno 0xc000 to 0xffff has no effect the model shows
(spec/93_implementation_defined.md U11; notes/assumptions/54.md). A hart that is held in reset keeps its reset values
(spec/60_exceptions.md R664; notes/assumptions/20.md). -/
def writeReg (h : Nat) (ref : RegRef) (v : XWord) (s : State) : State :=
  match s.harts[h]? with
  | none => s
  | some hart =>
    if hart.inReset then s
    else
      match ref with
      | .csr num =>
        if num = 0x7b1 ∧ !hart.debugMode then s.modHart h fun hart => { hart with pc := hart.pcBits v }
        else writeCsr true h num v s
      | .gpr i => s.modHart h fun hart => hart.setGpr i v
      | .fpr i => s.modHart h fun hart => hart.setFpr i v
      | .custom => s
      | .unmapped => s

end Sys2Proof.Machine
end

