-- ==== Sys2Proof/Machine/DebugInsns.lean ====
section
/-! DEFINITION. The hart instructions of the table (spec/44_debug_mode.md R490 to R495, spec/42_abstract_commands.md R383),
executed by hart `s.cur`, in Debug Mode (from the Program Buffer) and outside it. What they do outside Debug Mode beyond
what the document says is the privileged ISA's (PRESUMED, notes/assumptions/1.md). -/

namespace Sys2Proof.Machine

/-- Run a meaning on the executing hart. -/
def onHart (s : State) (f : Hart → State) : Host.Outcome State Fault Refusal :=
  match s.harts[s.cur]? with
  | some hart => .next (f hart)
  | none => .fault .noSuchHart

/-- Hart `s.cur` completes an instruction of `len` bytes that does nothing else. -/
def retireCur (len : Nat) (s : State) : State := s.modHart s.cur fun hart => hart.retire len

/-- An instruction whose behaviour in Debug Mode is undefined (R495): it raises an exception, which ends the Program
Buffer, or it is passed over; which one is a free choice (notes/assumptions/14.md). -/
def undefinedInDebug (s : State) : State :=
  if Config.freeBit s.free then raise s.cur excIllegal (s.bump 1) else retireCur 4 (s.bump 1)

/-- Whether an ebreak at this privilege enters Debug Mode (R492). -/
def Hart.ebreakEnabled (hart : Hart) : Bool :=
  match hart.priv with
  | .m => hart.dcsr.ebreakm
  | .s => hart.dcsr.ebreaks
  | .u => hart.dcsr.ebreaku

/-- ebreak of either length: in Debug Mode it ends the Program Buffer without updating dpc or dcsr (R491); outside, with
the privilege's bit set it enters Debug Mode with cause 1 and its own address, counted only if stopcount is 0 (R492, R690);
otherwise it is a breakpoint exception. Whether the ebreak that ends the Program Buffer is counted is not stated: a free
choice, unless stopcount is 1 (notes/assumptions/37.md). -/
def breakAt (hart : Hart) (s : State) : State :=
  if hart.debugMode then
    let s := if Config.freeBit s.free then s.modHart s.cur fun hart => hart.countUp true else s
    endProgbuf s.cur none (s.bump 1)
  else if hart.ebreakEnabled then
    let s := if hart.dcsr.stopcount then s else s.modHart s.cur fun hart => hart.countUp true
    enterDebug s.cur 1 hart.pc s
  else raise s.cur excBreakpoint s

/-- dret (R490): in Debug Mode, on a hart that has it, pc from dpc and privilege from dcsr.prv; a command whose Program
Buffer contained it ends without error and resumeack is unchanged (spec/93_implementation_defined.md U26,
notes/assumptions/15.md). dpc is read as it stands, also where the Program Buffer clobbers it (R387 does not speak of dret;
notes/assumptions/15.md). No counter counts it (notes/assumptions/37.md). Anywhere else an illegal instruction. -/
def execDret (s : State) : Host.Outcome State Fault Refusal :=
  onHart s fun hart =>
    if hart.debugMode && hart.cfg.hasDret then
      let s := leaveDebug s.cur s
      if s.dm.phase = .progbuf ∧ s.dm.cmdHart = s.cur then finishCommand none s else s
    else raise s.cur excIllegal s

/-- ebreak (R491, R492). -/
def execEbreak (s : State) : Host.Outcome State Fault Refusal :=
  onHart s fun hart => breakAt hart s

/-- c.ebreak behaves as ebreak (R493); without the C extension it is an illegal instruction (spec/30_encoding.md R253). -/
def execCEbreak (s : State) : Host.Outcome State Fault Refusal :=
  onHart s fun hart => if hart.cfg.hasC then breakAt hart s else raise s.cur excIllegal s

/-- c.nop (R383). -/
def execCNop (s : State) : Host.Outcome State Fault Refusal :=
  onHart s fun hart => if hart.cfg.hasC then retireCur 2 s else raise s.cur excIllegal s

/-- wfi: a nop in Debug Mode (R494); outside, the ISA lets it complete at any time, and it does so at once
(spec/92_eei_decisions.md D31; notes/assumptions/35.md). -/
def execWfi (s : State) : Host.Outcome State Fault Refusal :=
  onHart s fun _ => retireCur 4 s

/-- ecall: undefined in Debug Mode (R495); outside, an environment call exception from the current privilege (PRESUMED
causes 8, 9, 11). -/
def execEcall (s : State) : Host.Outcome State Fault Refusal :=
  onHart s fun hart =>
    if hart.debugMode then undefinedInDebug s else raise s.cur (8 + (privCode hart.priv).toNat) s

/-- A trap return's mstatus: xIE from xPIE, xPIE 1, xPP the least privilege (PRESUMED). -/
def returnStatus (ms : XWord) (ie pie pp ppLen : Nat) (least : Nat) : XWord :=
  putField (putField (putField ms ie 1 (getField ms pie 1)) pie 1 1) pp ppLen least

/-- mret: undefined in Debug Mode (R495); outside, in machine mode it returns from a trap (PRESUMED), otherwise it is an
illegal instruction. -/
def execMret (s : State) : Host.Outcome State Fault Refusal :=
  onHart s fun hart =>
    if hart.debugMode then undefinedInDebug s
    else if hart.priv = .m then
      (s.modHart s.cur fun hart =>
        let ms := returnStatus hart.sys.mstatus 3 7 11 2 (if hart.cfg.privs.contains .u then 0 else 3)
        { hart.countUp true with
          pc := hart.pcBits hart.sys.mepc
          priv := hart.legalPriv s.free (BitVec.ofNat 2 (getField hart.sys.mstatus 11 2))
          sys := { hart.sys with mstatus := ms } }).bump 1
    else raise s.cur excIllegal s

/-- hret: undefined in Debug Mode (R495); outside, an illegal instruction: there is no hypervisor mode (Table 4.5). -/
def execHret (s : State) : Host.Outcome State Fault Refusal :=
  onHart s fun hart => if hart.debugMode then undefinedInDebug s else raise s.cur excIllegal s

/-- sret: undefined in Debug Mode (R495); outside, in S or M mode of a hart that has S mode it returns from a trap
(PRESUMED), otherwise it is an illegal instruction. -/
def execSret (s : State) : Host.Outcome State Fault Refusal :=
  onHart s fun hart =>
    if hart.debugMode then undefinedInDebug s
    else if hart.priv ≠ .u ∧ hart.cfg.privs.contains .s then
      s.modHart s.cur fun hart =>
        { hart.countUp true with
          pc := hart.pcBits hart.sys.sepc
          priv := if getField hart.sys.mstatus 8 1 = 0 then .u else .s
          sys := { hart.sys with mstatus := returnStatus hart.sys.mstatus 1 5 8 1 0 } }
    else raise s.cur excIllegal s

/-- uret: undefined in Debug Mode (R495); outside, on a hart with user-level interrupts it returns from a trap (PRESUMED;
uepc is CSR 0x041), otherwise it is an illegal instruction. -/
def execUret (s : State) : Host.Outcome State Fault Refusal :=
  onHart s fun hart =>
    if hart.debugMode then undefinedInDebug s
    else if hart.cfg.hasN then
      s.modHart s.cur fun hart =>
        let ms := putField (putField hart.sys.mstatus 0 1 (getField hart.sys.mstatus 4 1)) 4 1 1
        { hart.countUp true with
          pc := hart.pcBits (csrLookup hart.csrs 0x041)
          priv := .u
          sys := { hart.sys with mstatus := ms } }
    else raise s.cur excIllegal s

end Sys2Proof.Machine
end

