-- ==== Sys2Proof/Machine/DebugCsrs.lean ====
section
/-! DEFINITION. The CSR rows of the table: the CSR instructions on the core debug registers (spec/44_debug_mode.md R500 to
R505) and on the trigger registers (spec/45_triggers.md R530 to R533), executed by hart `s.cur`. Access Register reaches the
same registers through Machine/Operands.lean. -/

namespace Sys2Proof.Machine

/-- A CSR instruction on dcsr: from Debug Mode only (R500 to R503). -/
def execDcsr (op : CsrOp) (s : State) : Host.Outcome State Fault Refusal :=
  onHart s fun _ => csrInsn 0x7b0 op s.cur s

/-- A CSR instruction on dpc: from Debug Mode only (R500, R504). -/
def execDpc (op : CsrOp) (s : State) : Host.Outcome State Fault Refusal :=
  onHart s fun _ => csrInsn 0x7b1 op s.cur s

/-- A CSR instruction on dscratch0: from Debug Mode only, if it is implemented (R500, R505). -/
def execDscratch0 (op : CsrOp) (s : State) : Host.Outcome State Fault Refusal :=
  onHart s fun _ => csrInsn 0x7b2 op s.cur s

/-- A CSR instruction on dscratch1: from Debug Mode only, if it is implemented (R500, R505). -/
def execDscratch1 (op : CsrOp) (s : State) : Host.Outcome State Fault Refusal :=
  onHart s fun _ => csrInsn 0x7b3 op s.cur s

/-- A CSR instruction on tselect: from machine and Debug Mode (R530, R532). -/
def execTselect (op : CsrOp) (s : State) : Host.Outcome State Fault Refusal :=
  onHart s fun _ => csrInsn 0x7a0 op s.cur s

/-- A CSR instruction on tdata1: from machine and Debug Mode, dmode protecting the trigger (R530, R533). -/
def execTdata1 (op : CsrOp) (s : State) : Host.Outcome State Fault Refusal :=
  onHart s fun _ => csrInsn 0x7a1 op s.cur s

/-- A CSR instruction on tdata2 (R530, R533). -/
def execTdata2 (op : CsrOp) (s : State) : Host.Outcome State Fault Refusal :=
  onHart s fun _ => csrInsn 0x7a2 op s.cur s

/-- A CSR instruction on tdata3 (R530, R533). -/
def execTdata3 (op : CsrOp) (s : State) : Host.Outcome State Fault Refusal :=
  onHart s fun _ => csrInsn 0x7a3 op s.cur s

end Sys2Proof.Machine
end

