-- ==== Sys2Proof/Machine/Commands.lean ====
section
/-! DEFINITION. Abstract commands (spec/42_abstract_commands.md R360 to R400): starting one, and what the command engine
does with the command it has started, on the hart `s.dm.cmdHart`. -/

namespace Sys2Proof.Machine

/-- `start_command` (R362): busy is set, the hart is the one hartsel names now, and the Program Buffer is as it stands now
(spec/20_memory.md R228). The engine executes the command in a later step. -/
def startCommand (v : Word) (s : State) : State :=
  { s with dm := { s.dm with
      phase := .started
      cmd := v
      cmdHart := s.hartsel
      quick := false
      defined := 0
      fetchBuf := s.dm.progbuf } }

/-- `autoexec` (R366): the command in `command` is executed again unless cmderr is set. -/
def autoexec (s : State) : State := if s.dm.cmderr = 0 then startCommand s.dm.latch s else s

/-- The hart starts at the first byte of progbuf0 (R380, R381). -/
def startProgbuf (h : Nat) (s : State) : State :=
  { s with dm := { s.dm with phase := .progbuf } }.modHart h fun hart =>
    { hart with inProgbuf := true, pc := hart.trunc (BitVec.ofNat 128 hart.cfg.progbufAddr) }

/-- The debugger can make no assumptions about the contents of dscratch between commands (spec/10_state.md R124;
notes/assumptions/13.md). -/
def scrambleForCommand (h : Nat) (s : State) : State :=
  (s.modHart h fun hart =>
    { hart with
      dscratch0 := hart.trunc (Config.freeWord s.free)
      dscratch1 := hart.trunc (Config.freeWord (s.free + 1)) }).bump 2

/-- The cmderr of a command for a hart that is not there or not available (R373; spec/93_implementation_defined.md U16). -/
def unavailableError (n : Nat) : BitVec 3 := pick n [errNotSupported, errHaltResume, errOther] errNotSupported

/-- Why the Program Buffer cannot be executed on hart `h`, none if it can: no buffer (R391), no hart, or a hart that is
not halted (R373). -/
def postexecError (s : State) (n h : Nat) : Option (BitVec 3) :=
  match s.harts[h]? with
  | none => some (unavailableError n)
  | some hart =>
    if s.cfg.progbufsize = 0 then some errNotSupported
    else if hart.status s.cfg = .unavailable then some (unavailableError n)
    else if hart.status s.cfg = .halted then none
    else some s.cfg.notHaltedCmderr

/-- The transfer of Access Register (R374, R375): register to arg0, or arg0 to register. -/
def doTransfer (h : Nat) (size : BitVec 3) (write : Bool) (regno : Nat) (s : State) : State :=
  let width := 8 * 2 ^ size.toNat
  let ref := regRef regno
  match s.harts[h]? with
  | none => s
  | some hart =>
    if write then
      writeReg h ref (widened s.free width (hart.regSize ref) (argNat s.dm.data 0 (width / 32))) (s.bump 1)
    else storeArg 0 (width / 32) ((readReg s hart s.free ref).toNat % 2 ^ width) (s.bump 1)

/-- The cmderr of a command that asks for nothing: an error for a hart that is not there or not available (R373,
spec/93_implementation_defined.md U16); the data registers are then any value (R367). -/
def idleCommandError (s : State) (h : Nat) : Option (BitVec 3) :=
  match s.status h with
  | .nonexistent => some (unavailableError s.free)
  | .unavailable => some (unavailableError s.free)
  | .halted => none
  | .running => none

/-- Access Register (R370): the transfer, then the Program Buffer; the first failure ends it, and a failure of the second
step may be detected before the first is done (notes/assumptions/22.md). -/
def execAccessRegister (size : BitVec 3) (postexec transfer write : Bool) (regno : BitVec 16) (res23 res19 : Bool)
    (s : State) : Host.Outcome State Fault Refusal :=
  .next <|
    let h := s.dm.cmdHart
    if (res23 || res19) && s.cfg.cmdReservedNotSupported then finishCommand (some errNotSupported) s
    else if !transfer && !postexec then
      match idleCommandError s h with
      | some e => finishCommand (some e) (s.bump 1)
      | none => finishQuiet none s
    else
      let n := s.free
      let s := scrambleForCommand h (s.bump 3)
      let early := Config.freeBit n
      let err1 := if transfer then transferError s (n + 1) h size write regno.toNat else none
      let err2 := if postexec then postexecError s (n + 2) h else none
      match err1, err2 with
      | some e, none => finishCommand (some e) s
      | some e, some e' => finishCommand (some (if early then e' else e)) s
      | none, some e' =>
        finishCommand (some e') (if transfer && !early then doTransfer h size write regno.toNat s else s)
      | none, none =>
        let s := if transfer then doTransfer h size write regno.toNat s else s
        if postexec then startProgbuf h s else finishCommand none s

/-- Quick Access (R400, R244): refused on a halted hart; on a running one it waits for the hart to halt (`Phase.quickHalt`),
executes the Program Buffer and resumes the hart (`endProgbuf`). Where it is not implemented, cmderr 2 and nothing else
(R245). -/
def execQuickAccess (reserved : BitVec 24) (s : State) : Host.Outcome State Fault Refusal :=
  .next <|
    let h := s.dm.cmdHart
    if !s.cfg.quickAccess then finishQuiet (some errNotSupported) s
    else if reserved ≠ 0 ∧ s.cfg.cmdReservedNotSupported then finishCommand (some errNotSupported) s
    else
      let n := s.free
      let s := scrambleForCommand h (s.bump 1)
      match s.harts[h]? with
      | none => finishCommand (some (unavailableError n)) s
      | some hart =>
        if hart.status s.cfg = .unavailable then finishCommand (some (unavailableError n)) s
        else if hart.status s.cfg = .halted then finishCommand (some errHaltResume) s
        else if s.cfg.progbufsize = 0 then finishCommand (some errNotSupported) s
        else { s with dm := { s.dm with phase := .quickHalt, quick := true } }

/-- A reserved cmdtype, 2 to 255: cmderr 2 and nothing else (R245). -/
def execCommandReservedCmdtype (_cmdtype : BitVec 8) (_control : BitVec 24) (s : State) :
    Host.Outcome State Fault Refusal :=
  .next (finishQuiet (some errNotSupported) s)

end Sys2Proof.Machine
end

