-- ==== Sys2Proof/Machine/DmAccess.lean ====
section
/-! DEFINITION. What stands in front of every DM register access (spec/40_dmi_dm_access.md R281 to R297): presence, the
reset window, authentication, dmactive. The value a read returns is left in `State.dmiOut`. -/

namespace Sys2Proof.Machine

/-- The result of a DMI read. -/
def answer (v : Word) (s : State) : State := { s with dmiOut := v }

/-- A DMI read whose value the spec does not fix (notes/assumptions/6.md). -/
def answerFree (s : State) : State := (answer (freeWord32 s.free) s).bump 1

/-- An access to a DM register other than dmcontrol, dmstatus and authdata, in the order of R281 and R282: an
unimplemented register reads 0 and ignores writes (R288); in the reset window a read gives any value and an access may have
its effect or not (R290); unauthenticated, reads give 0 (or any value where gating is not strict) and writes are ignored
(R294); while dmactive is 0 reads have no side effect and writes none at all (R291). -/
def dmAccess (present : Bool) (a : DmAcc) (rd : State → State × Word) (wr : Word → State → State) (s : State) : State :=
  match a with
  | .read =>
    if !present then answer 0 s
    else if s.inResetWindow then
      answerFree (if s.dmLive && Config.freeBit s.free then (rd (s.bump 1)).1 else s.bump 1)
    else if !s.dm.authenticated then (if s.cfg.authGatingStrict then answer 0 s else answerFree s)
    else if !s.dm.dmactive then answer (rd s).2 (s.bump ((rd s).1.free - s.free))
    else answer (rd s).2 (rd s).1
  | .write v =>
    if !present then s
    else if s.inResetWindow then (if s.dmLive && Config.freeBit s.free then wr v (s.bump 1) else s.bump 1)
    else if !s.dmLive then s
    else wr v s

/-- A register that is only read, without side effect: writes have no effect (R282). -/
def dmReadOnly (present : Bool) (a : DmAcc) (value : State → Word) (s : State) : State :=
  dmAccess present a (fun s => (s, value s)) (fun _ s => s) s

end Sys2Proof.Machine
end

