-- ==== Sys2Proof/Machine/DmAbstract.lean ====
section
/-! DEFINITION. The registers of the abstract command interface: abstractcs, command, abstractauto, data0 to data11,
progbuf0 to progbuf15 (spec/42_abstract_commands.md R361 to R367). -/

namespace Sys2Proof.Machine

/-- A busy violation: cmderr 1 and nothing else (R364). -/
def busyViolation (s : State) : State := { s with dm := setCmderr errBusy s.dm }

/-! ### abstractcs, command, abstractauto -/

/-- A read of abstractcs (R365). -/
def readAbstractcs (s : State) : Word :=
  BitVec.ofNat 32 (s.cfg.progbufsize * 2 ^ 24 + bitAt s.dm.busy 12 + s.dm.cmderr.toNat * 2 ^ 8 + s.cfg.datacount)

/-- A write of abstractcs: write-1-to-clear of cmderr, bit by bit (R365); while busy, a violation (R364). -/
def writeAbstractcs (v : Word) (s : State) : State :=
  if s.dm.busy then busyViolation s
  else { s with dm := { s.dm with cmderr := w1c s.dm.cmderr (BitVec.ofNat 3 (getField v 8 3)) } }

/-- abstractcs. -/
def execAbstractcs (a : DmAcc) (s : State) : Host.Outcome State Fault Refusal :=
  .next (dmAccess true a (fun s => (s, readAbstractcs s)) writeAbstractcs s)

/-- A write of command (R361): a violation while busy, ignored while cmderr is set, else the command starts. -/
def writeCommand (v : Word) (s : State) : State :=
  if s.dm.busy then busyViolation s
  else if s.dm.cmderr ≠ 0 then s
  else startCommand v { s with dm := { s.dm with latch := v } }

/-- command: both fields are write-only, so it reads 0 (R61). -/
def execCommand (a : DmAcc) (s : State) : Host.Outcome State Fault Refusal :=
  .next (dmAccess true a (fun s => (s, 0)) writeCommand s)

/-- A write of abstractauto: only supported bits are stored (R366); while busy, a violation (R364). -/
def writeAbstractauto (v : Word) (s : State) : State :=
  if s.dm.busy then busyViolation s else { s with dm := { s.dm with auto := v &&& autoexecBits s.cfg } }

/-- abstractauto, where it is present (R62). -/
def execAbstractauto (a : DmAcc) (s : State) : Host.Outcome State Fault Refusal :=
  .next (dmAccess s.cfg.hasAbstractauto a (fun s => (s, s.dm.auto)) writeAbstractauto s)

/-! ### data and progbuf -/

/-- After an access with abstractauto bit `bit` (R366). -/
def autoexecBit (bit : Nat) (s : State) : State := if s.dm.auto.getLsbD bit then autoexec s else s

/-- A read of a data or progbuf register whose value is `v`: while busy a violation and any value, no autoexec (R364);
else the value, then autoexec (R366). -/
def bufferRead (bit : Nat) (v : Word) (s : State) : State × Word :=
  if s.dm.busy then ((busyViolation s).bump 1, freeWord32 s.free) else (autoexecBit bit s, v)

/-- A write of a data or progbuf register that stores as `store` says: while busy a violation that changes no value
(R364); else the store, then autoexec (R366). -/
def bufferWrite (bit : Nat) (store : State → State) (s : State) : State :=
  if s.dm.busy then busyViolation s else autoexecBit bit (store s)

/-- Access to data register `i`, present below DATACOUNT (R70). -/
def dataAccess (i : Nat) (a : DmAcc) (s : State) : State :=
  dmAccess (decide (i < s.cfg.datacount)) a (fun s => bufferRead i (vget s.dm.data i 0) s)
    (fun v => bufferWrite i fun s => { s with dm := { s.dm with data := vset s.dm.data i v } }) s

/-- Access to Program Buffer word `i`, present below PROGBUFSIZE (R71). -/
def progbufAccess (i : Nat) (a : DmAcc) (s : State) : State :=
  dmAccess (decide (i < s.cfg.progbufsize)) a (fun s => bufferRead (16 + i) (vget s.dm.progbuf i 0) s)
    (fun v => bufferWrite (16 + i) fun s => { s with dm := { s.dm with progbuf := vset s.dm.progbuf i v } }) s

/-- data0 (R70). -/
def execData0 (a : DmAcc) (s : State) : Host.Outcome State Fault Refusal := .next (dataAccess 0 a s)

/-- data1 (R70). -/
def execData1 (a : DmAcc) (s : State) : Host.Outcome State Fault Refusal := .next (dataAccess 1 a s)

/-- data2 (R70). -/
def execData2 (a : DmAcc) (s : State) : Host.Outcome State Fault Refusal := .next (dataAccess 2 a s)

/-- data3 (R70). -/
def execData3 (a : DmAcc) (s : State) : Host.Outcome State Fault Refusal := .next (dataAccess 3 a s)

/-- data4 (R70). -/
def execData4 (a : DmAcc) (s : State) : Host.Outcome State Fault Refusal := .next (dataAccess 4 a s)

/-- data5 (R70). -/
def execData5 (a : DmAcc) (s : State) : Host.Outcome State Fault Refusal := .next (dataAccess 5 a s)

/-- data6 (R70). -/
def execData6 (a : DmAcc) (s : State) : Host.Outcome State Fault Refusal := .next (dataAccess 6 a s)

/-- data7 (R70). -/
def execData7 (a : DmAcc) (s : State) : Host.Outcome State Fault Refusal := .next (dataAccess 7 a s)

/-- data8 (R70). -/
def execData8 (a : DmAcc) (s : State) : Host.Outcome State Fault Refusal := .next (dataAccess 8 a s)

/-- data9 (R70). -/
def execData9 (a : DmAcc) (s : State) : Host.Outcome State Fault Refusal := .next (dataAccess 9 a s)

/-- data10 (R70). -/
def execData10 (a : DmAcc) (s : State) : Host.Outcome State Fault Refusal := .next (dataAccess 10 a s)

/-- data11 (R70). -/
def execData11 (a : DmAcc) (s : State) : Host.Outcome State Fault Refusal := .next (dataAccess 11 a s)

/-- progbuf0 (R71). -/
def execProgbuf0 (a : DmAcc) (s : State) : Host.Outcome State Fault Refusal := .next (progbufAccess 0 a s)

/-- progbuf1 (R71). -/
def execProgbuf1 (a : DmAcc) (s : State) : Host.Outcome State Fault Refusal := .next (progbufAccess 1 a s)

/-- progbuf2 (R71). -/
def execProgbuf2 (a : DmAcc) (s : State) : Host.Outcome State Fault Refusal := .next (progbufAccess 2 a s)

/-- progbuf3 (R71). -/
def execProgbuf3 (a : DmAcc) (s : State) : Host.Outcome State Fault Refusal := .next (progbufAccess 3 a s)

/-- progbuf4 (R71). -/
def execProgbuf4 (a : DmAcc) (s : State) : Host.Outcome State Fault Refusal := .next (progbufAccess 4 a s)

/-- progbuf5 (R71). -/
def execProgbuf5 (a : DmAcc) (s : State) : Host.Outcome State Fault Refusal := .next (progbufAccess 5 a s)

/-- progbuf6 (R71). -/
def execProgbuf6 (a : DmAcc) (s : State) : Host.Outcome State Fault Refusal := .next (progbufAccess 6 a s)

/-- progbuf7 (R71). -/
def execProgbuf7 (a : DmAcc) (s : State) : Host.Outcome State Fault Refusal := .next (progbufAccess 7 a s)

/-- progbuf8 (R71). -/
def execProgbuf8 (a : DmAcc) (s : State) : Host.Outcome State Fault Refusal := .next (progbufAccess 8 a s)

/-- progbuf9 (R71). -/
def execProgbuf9 (a : DmAcc) (s : State) : Host.Outcome State Fault Refusal := .next (progbufAccess 9 a s)

/-- progbuf10 (R71). -/
def execProgbuf10 (a : DmAcc) (s : State) : Host.Outcome State Fault Refusal := .next (progbufAccess 10 a s)

/-- progbuf11 (R71). -/
def execProgbuf11 (a : DmAcc) (s : State) : Host.Outcome State Fault Refusal := .next (progbufAccess 11 a s)

/-- progbuf12 (R71). -/
def execProgbuf12 (a : DmAcc) (s : State) : Host.Outcome State Fault Refusal := .next (progbufAccess 12 a s)

/-- progbuf13 (R71). -/
def execProgbuf13 (a : DmAcc) (s : State) : Host.Outcome State Fault Refusal := .next (progbufAccess 13 a s)

/-- progbuf14 (R71). -/
def execProgbuf14 (a : DmAcc) (s : State) : Host.Outcome State Fault Refusal := .next (progbufAccess 14 a s)

/-- progbuf15 (R71). -/
def execProgbuf15 (a : DmAcc) (s : State) : Host.Outcome State Fault Refusal := .next (progbufAccess 15 a s)

end Sys2Proof.Machine
end

