-- ==== Sys2Proof/Machine/DmBus.lean ====
section
/-! DEFINITION. System Bus Access (spec/43_system_bus_access.md R430 to R457): sbcs, sbaddress0 to 3, sbdata0 to 3, and the
bus master's own step. -/

namespace Sys2Proof.Machine

/-! ### Starting and completing an access (R437) -/

/-- Whether sbaccess selects a supported size (R434, R438). -/
def sizeSupported (c : Config) (access : BitVec 3) : Bool :=
  match access.toNat with
  | 0 => c.sbaccess8
  | 1 => c.sbaccess16
  | 2 => c.sbaccess32
  | 3 => c.sbaccess64
  | 4 => c.sbaccess128
  | _ => false

/-- Width in bits of the implemented sbdata registers (R431). -/
def sbdataWidth (c : Config) : Nat := if c.sbaccess128 then 128 else if c.sbaccess64 then 64 else 32

/-- `start_access` (R437): an unsupported size or a misaligned address that is not performed gives sberror 3 (R438,
spec/20_memory.md R216); otherwise sbbusy is set, with size, address, data and increment sampled now. -/
def startAccess (write : Bool) (s : State) : State :=
  let b := s.sb
  let n := 2 ^ b.access.toNat
  if !sizeSupported s.cfg b.access then { s with sb := setSberror sbOther b }
  else if b.address.toNat % n ≠ 0 ∧ !s.cfg.sbaMisalignedPerformed then { s with sb := setSberror sbOther b }
  else
    { s with sb := { b with
        pending := some { write, bytes := n, address := b.address.toNat, data := b.data, inc := b.autoincrement } } }

/-- The platform's answer to the pending access: none, or the sberror code (R436). -/
def busError (s : State) (p : SbAccess) : Option (BitVec 3) :=
  match regionAt s.cfg.regions p.address p.bytes with
  | .ram => none
  | .device => none
  | .timeout => some sbTimeout
  | .bad => some sbBadAddress
  | .other => some sbOther

/-- sbdata after a successful read of `v`: the bits above the access are any value (spec/20_memory.md R211;
notes/assumptions/42.md). -/
def sbdataAfterRead (c : Config) (n : Nat) (p : SbAccess) (v : Nat) : BitVec 128 :=
  BitVec.ofNat 128
    (v % 2 ^ (8 * p.bytes) + (Config.freeWord n).toNat / 2 ^ (8 * p.bytes) * 2 ^ (8 * p.bytes) % 2 ^ sbdataWidth c)

/-- sbaddress after an access that succeeded (R439, R432). -/
def incremented (c : Config) (address : BitVec 128) (bytes : Nat) : BitVec 128 :=
  BitVec.ofNat 128 ((address.toNat + bytes) % 2 ^ c.sbasize)

/-- The bus master completes the pending access (R437): data, or a sticky error; the increment only on success; sbbusy
falls. During a system reset the access may be dropped (notes/assumptions/28.md). A write breaks the harts' reservations
only where the bus is coherent with them (notes/assumptions/38.md). -/
def busComplete (s : State) : State :=
  match s.sb.pending with
  | none => s
  | some p =>
    let idle := { s.sb with pending := none }
    if s.inResetWindow && Config.freeBit (s.free + 1) then { s with sb := idle }.bump 2
    else
      match busError s p with
      | some e => { s with sb := setSberror e idle }.bump 2
      | none =>
        let b := if p.inc then { idle with address := incremented s.cfg s.sb.address p.bytes } else idle
        if p.write then
          if regionAt s.cfg.regions p.address p.bytes = .ram then
            let harts :=
              if s.cfg.sbaCoherent then s.harts.map fun hart => hart.breakReservation p.address p.bytes else s.harts
            { s with sb := b, mem := s.mem.writes p.address (leBytes p.bytes p.data.toNat), harts := harts }.bump 2
          else { s with sb := b }.bump 2
        else
          let v := if regionAt s.cfg.regions p.address p.bytes = .ram then s.mem.readNat p.bytes p.address
            else (Config.freeWord s.free).toNat
          { s with sb := { b with data := sbdataAfterRead s.cfg (s.free + 1) p v } }.bump 2

/-! ### sbcs (R433) -/

/-- A read of sbcs (R90). -/
def readSbcs (s : State) : Word :=
  BitVec.ofNat 32
    (2 ^ 29 + bitAt s.sb.busyerror 22 + bitAt s.sb.busy 21 + bitAt s.sb.readonaddr 20 + s.sb.access.toNat * 2 ^ 17 +
      bitAt s.sb.autoincrement 16 + bitAt s.sb.readondata 15 + s.sb.error.toNat * 2 ^ 12 + s.cfg.sbasize * 2 ^ 5 +
      bitAt s.cfg.sbaccess128 4 + bitAt s.cfg.sbaccess64 3 + bitAt s.cfg.sbaccess32 2 + bitAt s.cfg.sbaccess16 1 +
      bitAt s.cfg.sbaccess8 0)

/-- A write of sbcs (R433): no bus access starts. -/
def writeSbcs (v : Word) (s : State) : State :=
  { s with sb := { s.sb with
      readonaddr := v.getLsbD 20
      access := BitVec.ofNat 3 (getField v 17 3)
      autoincrement := v.getLsbD 16
      readondata := v.getLsbD 15
      busyerror := s.sb.busyerror && !v.getLsbD 22
      error := w1c s.sb.error (BitVec.ofNat 3 (getField v 12 3)) } }

/-- sbcs, present if SBASIZE is not 0 (R50). -/
def execSbcs (a : DmAcc) (s : State) : Host.Outcome State Fault Refusal :=
  .next (dmAccess (decide (0 < s.cfg.sbasize)) a (fun s => (s, readSbcs s)) writeSbcs s)

/-! ### sbaddress (R440 to R442) -/

/-- `x` with its 32-bit slice `k` replaced. -/
def putSlice (x : BitVec 128) (k : Nat) (v : Word) : BitVec 128 :=
  (x &&& ~~~(BitVec.ofNat 128 ((2 ^ 32 - 1) * 2 ^ (32 * k)))) ||| BitVec.ofNat 128 (v.toNat * 2 ^ (32 * k))

/-- The 32-bit slice `k` of `x`. -/
def getSlice (x : BitVec 128) (k : Nat) : Word := BitVec.ofNat 32 (x.toNat / 2 ^ (32 * k))

/-- A read of sbaddress<k>: the current slice, no side effect (R441); while an incrementing access is in progress the
value before or after the increment. -/
def readSbaddress (k : Nat) (s : State) : State × Word :=
  match s.sb.pending with
  | some p =>
    if p.inc && Config.freeBit s.free then (s.bump 1, getSlice (incremented s.cfg s.sb.address p.bytes) k)
    else (s.bump 1, getSlice s.sb.address k)
  | none => (s, getSlice s.sb.address k)

/-- sbaddress with slice `k` written; bits at SBASIZE and above read 0 (R432). -/
def writtenAddress (c : Config) (x : BitVec 128) (k : Nat) (v : Word) : BitVec 128 :=
  BitVec.ofNat 128 ((putSlice x k v).toNat % 2 ^ c.sbasize)

/-- A write of sbaddress<k>: while busy, sbbusyerror and nothing else (R440, R442). -/
def writeSbaddress (k : Nat) (v : Word) (s : State) : State :=
  if s.sb.busy then { s with sb := setSbbusyerror s.sb }
  else { s with sb := { s.sb with address := writtenAddress s.cfg s.sb.address k v } }

/-- A write of sbaddress0 (R440): the address is stored even when an error is set; a read starts if sbreadonaddr is set
and no error is. -/
def writeSbaddress0 (v : Word) (s : State) : State :=
  let t := writeSbaddress 0 v s
  if !s.sb.busy && s.sb.errorsClear && s.sb.readonaddr then startAccess false t else t

/-- sbaddress0 (R91). -/
def execSbaddress0 (a : DmAcc) (s : State) : Host.Outcome State Fault Refusal :=
  .next (dmAccess (decide (0 < s.cfg.sbasize)) a (readSbaddress 0) writeSbaddress0 s)

/-- sbaddress1 (R92). -/
def execSbaddress1 (a : DmAcc) (s : State) : Host.Outcome State Fault Refusal :=
  .next (dmAccess (decide (33 ≤ s.cfg.sbasize)) a (readSbaddress 1) (writeSbaddress 1) s)

/-- sbaddress2 (R93). -/
def execSbaddress2 (a : DmAcc) (s : State) : Host.Outcome State Fault Refusal :=
  .next (dmAccess (decide (65 ≤ s.cfg.sbasize)) a (readSbaddress 2) (writeSbaddress 2) s)

/-- sbaddress3 (R94). -/
def execSbaddress3 (a : DmAcc) (s : State) : Host.Outcome State Fault Refusal :=
  .next (dmAccess (decide (97 ≤ s.cfg.sbasize)) a (readSbaddress 3) (writeSbaddress 3) s)

/-! ### sbdata (R444 to R448) -/

/-- A read of sbdata<k>, k not 0: while busy, sbbusyerror and any value; else the slice (R448). -/
def readSbdata (k : Nat) (s : State) : State × Word :=
  if s.sb.busy then ({ s with sb := setSbbusyerror s.sb }.bump 1, freeWord32 s.free) else (s, getSlice s.sb.data k)

/-- A write of sbdata<k>, k not 0: while busy, sbbusyerror and nothing else; else the slice (R448). -/
def writeSbdata (k : Nat) (v : Word) (s : State) : State :=
  if s.sb.busy then { s with sb := setSbbusyerror s.sb }
  else { s with sb := { s.sb with data := putSlice s.sb.data k v } }

/-- A read of sbdata0 (R446): the value, then the next bus read if sbreadondata is set, when no error is set. -/
def readSbdata0 (s : State) : State × Word :=
  if s.sb.busy then ({ s with sb := setSbbusyerror s.sb }.bump 1, freeWord32 s.free)
  else
    let v := getSlice s.sb.data 0
    if !s.sb.errorsClear then (s, v)
    else if s.sb.readondata then (startAccess false s, v)
    else if s.sb.autoincrement && s.cfg.sbdata0ReadIncrWithoutRead then
      ({ s with sb := { s.sb with address := incremented s.cfg s.sb.address (2 ^ s.sb.access.toNat) } }, v)
    else (s, v)

/-- A write of sbdata0 (R444): with an error set nothing at all; else the value is stored and a bus write starts. -/
def writeSbdata0 (v : Word) (s : State) : State :=
  if s.sb.busy then { s with sb := setSbbusyerror s.sb }
  else if !s.sb.errorsClear then s
  else startAccess true { s with sb := { s.sb with data := putSlice s.sb.data 0 v } }

/-- Whether the block is there at all (R430). -/
def hasSba (c : Config) : Bool := decide (0 < c.sbasize)

/-- Whether any bus access size is supported (R95). -/
def anySize (c : Config) : Bool := c.sbaccess8 || c.sbaccess16 || c.sbaccess32 || c.sbaccess64 || c.sbaccess128

/-- sbdata0 (R95, R430). -/
def execSbdata0 (a : DmAcc) (s : State) : Host.Outcome State Fault Refusal :=
  .next (dmAccess (hasSba s.cfg && anySize s.cfg) a readSbdata0 writeSbdata0 s)

/-- sbdata1 (R96, R430). -/
def execSbdata1 (a : DmAcc) (s : State) : Host.Outcome State Fault Refusal :=
  .next (dmAccess (hasSba s.cfg && (s.cfg.sbaccess64 || s.cfg.sbaccess128)) a (readSbdata 1) (writeSbdata 1) s)

/-- sbdata2 (R97, R430). -/
def execSbdata2 (a : DmAcc) (s : State) : Host.Outcome State Fault Refusal :=
  .next (dmAccess (hasSba s.cfg && s.cfg.sbaccess128) a (readSbdata 2) (writeSbdata 2) s)

/-- sbdata3 (R98, R430). -/
def execSbdata3 (a : DmAcc) (s : State) : Host.Outcome State Fault Refusal :=
  .next (dmAccess (hasSba s.cfg && s.cfg.sbaccess128) a (readSbdata 3) (writeSbdata 3) s)

end Sys2Proof.Machine
end

