-- ==== Sys2Proof/WellFormed.lean ====
section
/-! DEFINITION. Which terms of `Instr` an encoding admits. -/

namespace Sys2Proof

/-- A scan value fits a data register of `n` bits (spec/30_encoding.md R240); selecting is always well formed. -/
def IrOp.fits (n : Nat) : IrOp → Bool
  | .select => true
  | .scan tdi => decide (tdi.toNat < 2 ^ n)

/-- Well-formed instructions: a reserved cmdtype is one of 2 to 255 (spec/30_encoding.md R245), a BYPASS scan is 1 bit, an
IDCODE or dtmcs scan 32 bits (R240). Every other operand is admitted at every value of its type. -/
def Instr.wellFormed : Instr → Bool
  | .commandReservedCmdtype cmdtype _ => decide (2 ≤ cmdtype.toNat)
  | .bypass00 op => op.fits 1
  | .idcode op => op.fits 32
  | .dtmcs op => op.fits 32
  | .reservedBypass12 op => op.fits 1
  | .reservedBypass13 op => op.fits 1
  | .reservedBypass14 op => op.fits 1
  | .reservedBypass15 op => op.fits 1
  | .reservedBypass16 op => op.fits 1
  | .reservedBypass17 op => op.fits 1
  | .bypass1f op => op.fits 1
  | _ => true

end Sys2Proof
end

