-- ==== Sys2Proof/Decode.lean ====
section
/-! DEFINITION. The decoder of every encoding space of spec/30_encoding.md, total and rejecting by name, and after it the
encoder. A word is a natural number: bit 0 is the least significant bit of the first word. Marks: the encodings of hart
instructions other than dret, and the CSR instructions' format, are PRESUMED (notes/assumptions/36.md). -/

namespace Sys2Proof

/-- The encoding spaces (spec/30_encoding.md, opening and R260): hart instructions, abstract commands, dmi scans in and
out, dtmcs scans, JTAG instructions, and DMI accesses of a DM register. -/
inductive Space
  | hart
  | command
  | dmiIn
  | dmiOut
  | dtmcsIn
  | ir
  | dm
  deriving DecidableEq, Repr

/-- Why a word is not one of the table's instructions. `otherHartInsn` is a base-ISA instruction (spec/30_encoding.md
R252), `unlistedIr` selects BYPASS (R260), `noRegister` is a DMI offset without a register (R50), `reservedStatus` is
status 1 (R265), `noEffect` is a dtmcs scan that writes neither W1 bit (R256), `tooWide` a scan longer than its register. -/
inductive Reject
  | otherHartInsn
  | unlistedIr
  | noRegister
  | reservedStatus
  | noEffect
  | tooWide
  deriving DecidableEq, Repr

/-- The `n` bits of `w` from bit `lo` up. -/
def bits (w lo n : Nat) : BitVec n := BitVec.ofNat n (w / 2 ^ lo)

/-- Bit `lo` of `w`. -/
def bit (w lo : Nat) : Bool := decide (w / 2 ^ lo % 2 = 1)

/-! ### Hart instructions (R250, R251, R120, R140) -/

/-- The CSR rows of the table by CSR number. -/
def csrRow : Nat → Option (CsrOp → Instr)
  | 0x7b0 => some .dcsr
  | 0x7b1 => some .dpc
  | 0x7b2 => some .dscratch0
  | 0x7b3 => some .dscratch1
  | 0x7a0 => some .tselect
  | 0x7a1 => some .tdata1
  | 0x7a2 => some .tdata2
  | 0x7a3 => some .tdata3
  | _ => none

/-- The combination and source of a CSR instruction, from funct3 (PRESUMED, notes/assumptions/36.md). -/
def csrKind : Nat → Option (CsrKind × Bool)
  | 1 => some (.rw, false)
  | 2 => some (.rs, false)
  | 3 => some (.rc, false)
  | 5 => some (.rw, true)
  | 6 => some (.rs, true)
  | 7 => some (.rc, true)
  | _ => none

/-- A CSR instruction's operands, if the word is one (opcode SYSTEM with a CSR funct3). -/
def csrOperands (w : Nat) : Option CsrOp :=
  if w % 2 ^ 7 = 0x73 then
    match csrKind (w / 2 ^ 12 % 8) with
    | some (kind, imm) => some { kind, imm, rd := bits w 7 5, src := bits w 15 5 }
    | none => none
  else none

/-- A 32-bit hart instruction word. -/
def decodeHart32 (w : Nat) : Except Reject Instr :=
  if w = 0x7b200073 then .ok .dret
  else if w = 0x00100073 then .ok .ebreak
  else if w = 0x10500073 then .ok .wfi
  else if w = 0x00000073 then .ok .ecall
  else if w = 0x30200073 then .ok .mret
  else if w = 0x20200073 then .ok .hret
  else if w = 0x10200073 then .ok .sret
  else if w = 0x00200073 then .ok .uret
  else
    match csrOperands w, csrRow (w / 2 ^ 20 % 2 ^ 12) with
    | some op, some row => .ok (row op)
    | _, _ => .error .otherHartInsn

/-- A 16-bit hart instruction (its two low bits are not 11, spec/30_encoding.md R253). -/
def decodeHart16 (w : Nat) : Except Reject Instr :=
  if w = 0x9002 then .ok .cEbreak
  else if w = 0x0001 then .ok .cNop
  else .error .otherHartInsn

/-- The instruction at the low end of `w`: 16 bits, or 32 bits where the two low bits are 11 (R253). -/
def decodeHart (w : Nat) : Except Reject Instr :=
  if w % 4 = 3 then decodeHart32 (w % 2 ^ 32) else decodeHart16 (w % 2 ^ 16)

/-- The length in bytes of the instruction at the low end of `w` (R253). -/
def insnLength (w : Nat) : Nat := if w % 4 = 3 then 4 else 2

/-! ### Abstract commands (R241 to R246) -/

/-- The 32-bit value written to `command`. -/
def decodeCommand (w : Nat) : Instr :=
  if w / 2 ^ 24 % 2 ^ 8 = 0 then
    .accessRegister (bits w 20 3) (bit w 18) (bit w 17) (bit w 16) (bits w 0 16) (bit w 23) (bit w 19)
  else if w / 2 ^ 24 % 2 ^ 8 = 1 then .quickAccess (bits w 0 24)
  else .commandReservedCmdtype (bits w 24 8) (bits w 0 24)

/-! ### DMI and DTM scans (R255, R256) -/

/-- The value shifted into the dmi register: address, data, op. -/
def decodeDmiIn (w : Nat) : Instr :=
  if w % 4 = 0 then .dmiNop (bits w 34 32) (bits w 2 32)
  else if w % 4 = 1 then .dmiRead (bits w 34 32) (bits w 2 32)
  else if w % 4 = 2 then .dmiWrite (bits w 34 32) (bits w 2 32)
  else .dmiOpReserved (bits w 34 32) (bits w 2 32)

/-- The value captured from the dmi register: address, data, status. -/
def decodeDmiOut (w : Nat) : Except Reject Instr :=
  if w % 4 = 0 then .ok (.dmiStatusOk (bits w 34 32) (bits w 2 32))
  else if w % 4 = 2 then .ok (.dmiStatusFailed (bits w 34 32) (bits w 2 32))
  else if w % 4 = 3 then .ok (.dmiStatusBusy (bits w 34 32) (bits w 2 32))
  else .error .reservedStatus

/-- The value shifted into dtmcs. A hard reset does all that dmireset does, so bit 17 is looked at first
(spec/46_jtag_dtm.md R591, R592). -/
def decodeDtmcsIn (w : Nat) : Except Reject Instr :=
  if bit w 17 then .ok .dtmcsDmihardreset
  else if bit w 16 then .ok .dtmcsDmireset
  else .error .noEffect

/-! ### JTAG instructions (R260) -/

/-- The rows of Table 6.1, with the width in bits of the data register each selects. -/
def irRow : Nat → Option (Nat × (IrOp → Instr))
  | 0x00 => some (1, .bypass00)
  | 0x01 => some (32, .idcode)
  | 0x10 => some (32, .dtmcs)
  | 0x11 => some (66, .dmi)
  | 0x12 => some (1, .reservedBypass12)
  | 0x13 => some (1, .reservedBypass13)
  | 0x14 => some (1, .reservedBypass14)
  | 0x15 => some (1, .reservedBypass15)
  | 0x16 => some (1, .reservedBypass16)
  | 0x17 => some (1, .reservedBypass17)
  | 0x1f => some (1, .bypass1f)
  | _ => none

/-- The JTAG instruction with this IR value, used in this way. -/
def decodeIrCode (code : Nat) (op : IrOp) : Except Reject Instr :=
  match irRow code with
  | some (width, row) => if op.fits width then .ok (row op) else .error .tooWide
  | none => .error .unlistedIr

/-- An IR word of this model: the IR value in bits 7:0, bit 8 set for a scan, the value shifted in above. -/
def decodeIr (w : Nat) : Except Reject Instr :=
  decodeIrCode (w % 2 ^ 8) (if bit w 8 then .scan (bits w 9 66) else .select)

/-! ### Debug Module registers (R50) -/

/-- Table 3.7 by offset, but for haltsum1, whose offset is a parameter (spec/90_conflicts.md C1). -/
def dmRow : Nat → Option (DmAcc → Instr)
  | 0x04 => some .data0
  | 0x05 => some .data1
  | 0x06 => some .data2
  | 0x07 => some .data3
  | 0x08 => some .data4
  | 0x09 => some .data5
  | 0x0a => some .data6
  | 0x0b => some .data7
  | 0x0c => some .data8
  | 0x0d => some .data9
  | 0x0e => some .data10
  | 0x0f => some .data11
  | 0x10 => some .dmcontrol
  | 0x11 => some .dmstatus
  | 0x12 => some .hartinfo
  | 0x14 => some .hawindowsel
  | 0x15 => some .hawindow
  | 0x16 => some .abstractcs
  | 0x17 => some .command
  | 0x18 => some .abstractauto
  | 0x19 => some .devtreeaddr0
  | 0x1a => some .devtreeaddr1
  | 0x1b => some .devtreeaddr2
  | 0x1c => some .devtreeaddr3
  | 0x1d => some .nextdm
  | 0x20 => some .progbuf0
  | 0x21 => some .progbuf1
  | 0x22 => some .progbuf2
  | 0x23 => some .progbuf3
  | 0x24 => some .progbuf4
  | 0x25 => some .progbuf5
  | 0x26 => some .progbuf6
  | 0x27 => some .progbuf7
  | 0x28 => some .progbuf8
  | 0x29 => some .progbuf9
  | 0x2a => some .progbuf10
  | 0x2b => some .progbuf11
  | 0x2c => some .progbuf12
  | 0x2d => some .progbuf13
  | 0x2e => some .progbuf14
  | 0x2f => some .progbuf15
  | 0x30 => some .authdata
  | 0x34 => some .haltsum2
  | 0x35 => some .haltsum3
  | 0x37 => some .sbaddress3
  | 0x38 => some .sbcs
  | 0x39 => some .sbaddress0
  | 0x3a => some .sbaddress1
  | 0x3b => some .sbaddress2
  | 0x3c => some .sbdata0
  | 0x3d => some .sbdata1
  | 0x3e => some .sbdata2
  | 0x3f => some .sbdata3
  | 0x40 => some .haltsum0
  | _ => none

/-- The register at a DMI offset, where haltsum1 is at `haltsum1Addr` unless another register is there. -/
def dmRowAt (haltsum1Addr offset : Nat) : Option (DmAcc → Instr) :=
  match dmRow offset with
  | some row => some row
  | none => if offset = haltsum1Addr then some .haltsum1 else none

/-- A DMI access at an offset. -/
def decodeDmAt (haltsum1Addr offset : Nat) (a : DmAcc) : Except Reject Instr :=
  match dmRowAt haltsum1Addr offset with
  | some row => .ok (row a)
  | none => .error .noRegister

/-- The offset the tables of this model use for haltsum1: the value spec/92_eei_decisions.md D1 recommends. -/
def haltsum1Default : Nat := 0x13

/-- A DM register word of this model: the offset in bits 31:0, the value in bits 63:32, bit 64 set for a write. -/
def decodeDm (w : Nat) : Except Reject Instr :=
  decodeDmAt haltsum1Default (w % 2 ^ 32) (if bit w 64 then .write (bits w 32 32) else .read)

/-! ### All spaces -/

/-- The instruction a word of a space stands for. -/
def decode : Space → Nat → Except Reject Instr
  | .hart, w => decodeHart w
  | .command, w => .ok (decodeCommand w)
  | .dmiIn, w => .ok (decodeDmiIn w)
  | .dmiOut, w => decodeDmiOut w
  | .dtmcsIn, w => decodeDtmcsIn w
  | .ir, w => decodeIr w
  | .dm, w => decodeDm w

/-- Bytes, the one at the lowest address first, as one number (little-endian, spec/92_eei_decisions.md D11). -/
def bytesToNat : List Byte → Nat
  | [] => 0
  | b :: bs => b.toNat + 2 ^ 8 * bytesToNat bs

/-- `n` bytes of a number, the least significant first. -/
def natToBytes : Nat → Nat → List Byte
  | 0, _ => []
  | n + 1, w => BitVec.ofNat 8 w :: natToBytes n (w / 2 ^ 8)

/-- Decode bytes as they lie in memory. -/
def decodeBytes (sp : Space) (bs : List Byte) : Except Reject Instr := decode sp (bytesToNat bs)

/-! ### The encoder -/

/-- One bit of a word. -/
def flag (b : Bool) (lo : Nat) : Nat := if b then 2 ^ lo else 0

/-- funct3 of a CSR instruction. -/
def CsrOp.funct3 (op : CsrOp) : Nat :=
  (match op.kind with
    | .rw => 1
    | .rs => 2
    | .rc => 3) + (if op.imm then 4 else 0)

/-- A CSR instruction's word. -/
def csrWord (csr : Nat) (op : CsrOp) : Nat :=
  csr * 2 ^ 20 + op.src.toNat * 2 ^ 15 + op.funct3 * 2 ^ 12 + op.rd.toNat * 2 ^ 7 + 0x73

/-- A dmi scan value (R255). -/
def dmiWord (address data : Word) (op : Nat) : Nat := address.toNat * 2 ^ 34 + data.toNat * 2 ^ 2 + op

/-- An IR word. -/
def irWord (code : Nat) : IrOp → Nat
  | .select => code
  | .scan tdi => code + 2 ^ 8 + tdi.toNat * 2 ^ 9

/-- A DM register word. -/
def dmWord (offset : Nat) : DmAcc → Nat
  | .read => offset
  | .write v => offset + v.toNat * 2 ^ 32 + 2 ^ 64

/-- The space and the word of an instruction. -/
def encode : Instr → Space × Nat
  | .dret => (.hart, 0x7b200073)
  | .ebreak => (.hart, 0x00100073)
  | .cEbreak => (.hart, 0x9002)
  | .cNop => (.hart, 0x0001)
  | .wfi => (.hart, 0x10500073)
  | .ecall => (.hart, 0x00000073)
  | .mret => (.hart, 0x30200073)
  | .hret => (.hart, 0x20200073)
  | .sret => (.hart, 0x10200073)
  | .uret => (.hart, 0x00200073)
  | .accessRegister size postexec transfer write regno res23 res19 =>
    (.command, flag res23 23 + size.toNat * 2 ^ 20 + flag res19 19 + flag postexec 18 + flag transfer 17 +
      flag write 16 + regno.toNat)
  | .quickAccess reserved => (.command, 2 ^ 24 + reserved.toNat)
  | .commandReservedCmdtype cmdtype control => (.command, cmdtype.toNat * 2 ^ 24 + control.toNat)
  | .dmiNop address data => (.dmiIn, dmiWord address data 0)
  | .dmiRead address data => (.dmiIn, dmiWord address data 1)
  | .dmiWrite address data => (.dmiIn, dmiWord address data 2)
  | .dmiOpReserved address data => (.dmiIn, dmiWord address data 3)
  | .dmiStatusOk address data => (.dmiOut, dmiWord address data 0)
  | .dmiStatusFailed address data => (.dmiOut, dmiWord address data 2)
  | .dmiStatusBusy address data => (.dmiOut, dmiWord address data 3)
  | .dtmcsDmireset => (.dtmcsIn, 2 ^ 16)
  | .dtmcsDmihardreset => (.dtmcsIn, 2 ^ 17)
  | .bypass00 op => (.ir, irWord 0x00 op)
  | .idcode op => (.ir, irWord 0x01 op)
  | .dtmcs op => (.ir, irWord 0x10 op)
  | .dmi op => (.ir, irWord 0x11 op)
  | .reservedBypass12 op => (.ir, irWord 0x12 op)
  | .reservedBypass13 op => (.ir, irWord 0x13 op)
  | .reservedBypass14 op => (.ir, irWord 0x14 op)
  | .reservedBypass15 op => (.ir, irWord 0x15 op)
  | .reservedBypass16 op => (.ir, irWord 0x16 op)
  | .reservedBypass17 op => (.ir, irWord 0x17 op)
  | .bypass1f op => (.ir, irWord 0x1f op)
  | .data0 a => (.dm, dmWord 0x04 a)
  | .data1 a => (.dm, dmWord 0x05 a)
  | .data2 a => (.dm, dmWord 0x06 a)
  | .data3 a => (.dm, dmWord 0x07 a)
  | .data4 a => (.dm, dmWord 0x08 a)
  | .data5 a => (.dm, dmWord 0x09 a)
  | .data6 a => (.dm, dmWord 0x0a a)
  | .data7 a => (.dm, dmWord 0x0b a)
  | .data8 a => (.dm, dmWord 0x0c a)
  | .data9 a => (.dm, dmWord 0x0d a)
  | .data10 a => (.dm, dmWord 0x0e a)
  | .data11 a => (.dm, dmWord 0x0f a)
  | .dmcontrol a => (.dm, dmWord 0x10 a)
  | .dmstatus a => (.dm, dmWord 0x11 a)
  | .hartinfo a => (.dm, dmWord 0x12 a)
  | .hawindowsel a => (.dm, dmWord 0x14 a)
  | .hawindow a => (.dm, dmWord 0x15 a)
  | .abstractcs a => (.dm, dmWord 0x16 a)
  | .command a => (.dm, dmWord 0x17 a)
  | .abstractauto a => (.dm, dmWord 0x18 a)
  | .haltsum1 a => (.dm, dmWord haltsum1Default a)
  | .devtreeaddr0 a => (.dm, dmWord 0x19 a)
  | .devtreeaddr1 a => (.dm, dmWord 0x1a a)
  | .devtreeaddr2 a => (.dm, dmWord 0x1b a)
  | .devtreeaddr3 a => (.dm, dmWord 0x1c a)
  | .nextdm a => (.dm, dmWord 0x1d a)
  | .progbuf0 a => (.dm, dmWord 0x20 a)
  | .progbuf1 a => (.dm, dmWord 0x21 a)
  | .progbuf2 a => (.dm, dmWord 0x22 a)
  | .progbuf3 a => (.dm, dmWord 0x23 a)
  | .progbuf4 a => (.dm, dmWord 0x24 a)
  | .progbuf5 a => (.dm, dmWord 0x25 a)
  | .progbuf6 a => (.dm, dmWord 0x26 a)
  | .progbuf7 a => (.dm, dmWord 0x27 a)
  | .progbuf8 a => (.dm, dmWord 0x28 a)
  | .progbuf9 a => (.dm, dmWord 0x29 a)
  | .progbuf10 a => (.dm, dmWord 0x2a a)
  | .progbuf11 a => (.dm, dmWord 0x2b a)
  | .progbuf12 a => (.dm, dmWord 0x2c a)
  | .progbuf13 a => (.dm, dmWord 0x2d a)
  | .progbuf14 a => (.dm, dmWord 0x2e a)
  | .progbuf15 a => (.dm, dmWord 0x2f a)
  | .authdata a => (.dm, dmWord 0x30 a)
  | .haltsum2 a => (.dm, dmWord 0x34 a)
  | .haltsum3 a => (.dm, dmWord 0x35 a)
  | .sbaddress3 a => (.dm, dmWord 0x37 a)
  | .sbcs a => (.dm, dmWord 0x38 a)
  | .sbaddress0 a => (.dm, dmWord 0x39 a)
  | .sbaddress1 a => (.dm, dmWord 0x3a a)
  | .sbaddress2 a => (.dm, dmWord 0x3b a)
  | .sbdata0 a => (.dm, dmWord 0x3c a)
  | .sbdata1 a => (.dm, dmWord 0x3d a)
  | .sbdata2 a => (.dm, dmWord 0x3e a)
  | .sbdata3 a => (.dm, dmWord 0x3f a)
  | .haltsum0 a => (.dm, dmWord 0x40 a)
  | .dcsr op => (.hart, csrWord 0x7b0 op)
  | .dpc op => (.hart, csrWord 0x7b1 op)
  | .dscratch0 op => (.hart, csrWord 0x7b2 op)
  | .dscratch1 op => (.hart, csrWord 0x7b3 op)
  | .tselect op => (.hart, csrWord 0x7a0 op)
  | .tdata1 op => (.hart, csrWord 0x7a1 op)
  | .tdata2 op => (.hart, csrWord 0x7a2 op)
  | .tdata3 op => (.hart, csrWord 0x7a3 op)

/-! ### The host's question -/

/-- A row of spec/opcode_table.json from its first word, as the table numbers bits. The table's formats overlap as
numbers; notes/assumptions/5.md says which row each number is read as. -/
def decodeTableWord (nbits w : Nat) : Option Instr :=
  if nbits ≤ 8 then
    if w % 2 ^ 8 < 4 then some (decodeDmiIn (w % 2 ^ 8))
    else (decodeIrCode (w % 2 ^ 8) .select).toOption
  else if nbits ≤ 16 then
    match csrRow (w % 2 ^ 16) with
    | some row => some (row { kind := .rs, imm := false, rd := 0, src := 0 })
    | none => (decodeHart16 (w % 2 ^ 16)).toOption
  else if nbits ≤ 24 then (decodeDtmcsIn (w % 2 ^ 24)).toOption
  else if nbits ≤ 32 then
    match decodeHart (w % 2 ^ 32), dmRowAt haltsum1Default (w % 2 ^ 32) with
    | .ok i, _ => if w % 4 = 3 then some i else some (decodeCommand (w % 2 ^ 32))
    | .error _, some row => some (row .read)
    | .error _, none =>
      if w % 2 ^ 32 = 2 ^ 16 then some .dtmcsDmireset
      else if w % 2 ^ 32 = 2 ^ 17 then some .dtmcsDmihardreset
      else some (decodeCommand (w % 2 ^ 32))
  else some (decodeDmiIn w)

end Sys2Proof
end

