-- ==== Sys2Proof/Machine/DmControl.lean ====
section
/-! DEFINITION. dmcontrol, dmstatus, the hart array mask window and authdata (spec/41_reset_select_run.md R310 to R334,
spec/40_dmi_dm_access.md R293 to R297). -/

namespace Sys2Proof.Machine

/-! ### DM reset (R312, R711) -/

/-- A command that has not yet run is abandoned at an arbitrary point: what it could have written holds any value
(spec/93_implementation_defined.md U8). A command that would do nothing, or is not supported as a whole (R370,
spec/30_encoding.md R245, R246), writes nothing; every other one may have written the dscratch registers (spec/10_state.md
R124), and an Access Register whose transfer does not fail (R370) its register and, with a Program Buffer that can run,
a dpc that this clobbers (R387). -/
def abandonCommand (s : State) : State :=
  let h := s.dm.cmdHart
  let n := s.free
  if s.dm.phase ≠ .started then s
  else
    match decodeCommand s.dm.cmd.toNat with
    | .accessRegister size postexec transfer write regno res23 res19 =>
      if (res23 || res19) && s.cfg.cmdReservedNotSupported || !transfer && !postexec then s
      else
        let t := scrambleForCommand h (s.bump 4)
        if transfer && (transferError s n h size write regno.toNat).isSome then t
        else
          let t := if transfer && write then writeReg h (regRef regno.toNat) (Config.freeWord (n + 1)) t else t
          if postexec && (postexecError s (n + 2) h).isNone then t.modHart h (Hart.clobberDpc (n + 3)) else t
    | .quickAccess reserved =>
      if !s.cfg.quickAccess || reserved != 0 && s.cfg.cmdReservedNotSupported then s
      else scrambleForCommand h (s.bump 4)
    | _ => s

/-- `reset_dm()` (R312, R711): every piece of DM state takes its reset value; harts and DTM are not reset. -/
def resetDm (s : State) : State :=
  let s := abandonCommand (abandonBus s)
  let harts := s.harts.mapIdx fun k hart => hart.dmReset (s.free + 2 * k)
  { s with dm := Dm.reset s.cfg, sb := Sb.reset, harts := harts }.bump (2 * s.harts.length)

/-! ### Writing dmcontrol (R311) -/

/-- What the write of dmcontrol does to a selected hart (R311): its requests, its reset bit, the acknowledgement of
havereset; lowering resumereq lowers resumeack (R326). A write that only means to change hartsel does this too (R337). -/
def Hart.applyControl (c : Config) (v : Word) (hart : Hart) : Hart :=
  { hart with ctl := { hart.ctl with
      haltreq := v.getLsbD 31
      resumereq := v.getLsbD 30
      resumeack := hart.ctl.resumeack && v.getLsbD 30
      hartreset := if c.hasHartreset then v.getLsbD 29 else hart.ctl.hartreset
      havereset := hart.ctl.havereset && !v.getLsbD 28 } }

/-- hartsel as a write of dmcontrol gives it: the low half in bits 25:16, the high half in bits 15:6, HARTSELLEN bits
implemented (R52, R314). -/
def writtenHartsel (c : Config) (v : Word) : BitVec 20 :=
  BitVec.ofNat 20 ((getField v 6 10 * 2 ^ 10 + getField v 16 10) % 2 ^ c.hartsellen)

/-- The fields of a dmcontrol write on an active DM: selection first, then the requests of the harts selected by this
same write, then the reset signals (R311). So a write of hartsel also writes the request bits of the hart it newly selects,
as in the debugger's walk over the halt summaries (R337). -/
def writeDmcontrolFields (v : Word) (s : State) : State :=
  let s := { s with dm := { s.dm with
      hasel := s.cfg.hasHasel && v.getLsbD 26
      hartsel := writtenHartsel s.cfg v } }
  let harts := s.harts.mapIdx fun k hart => if s.isSelected k hart then hart.applyControl s.cfg v else hart
  let s := { s with
    harts := harts
    dm := { s.dm with hartresetLatch := s.cfg.hasHartreset && v.getLsbD 29, ndmreset := v.getLsbD 1 } }
  applyResets s.harts.length s

/-- A write of dmcontrol (R311): dmactive written 0 resets the DM and applies nothing else; unauthenticated, only dmactive
is written (R294); the write that activates the DM applies its other fields if ACTIVATING_WRITE_APPLIES_FIELDS. -/
def writeDmcontrol (v : Word) (s : State) : State :=
  if !v.getLsbD 0 then resetDm s
  else
    let wasActive := s.dm.dmactive
    let s := { s with dm := { s.dm with dmactive := true } }
    if !s.dm.authenticated then s
    else if !wasActive && !s.cfg.activatingWriteAppliesFields then s
    else writeDmcontrolFields v s

/-- A read of dmcontrol (R331); unauthenticated, dmactive alone (R294). -/
def readDmcontrol (s : State) : Word :=
  if !s.dm.authenticated then BitVec.ofNat 32 (bitAt s.dm.dmactive 0)
  else
    BitVec.ofNat 32 (bitAt s.dm.hartresetLatch 29 + bitAt s.dm.hasel 26 + getField s.dm.hartsel 0 10 * 2 ^ 16 +
      getField s.dm.hartsel 10 10 * 2 ^ 6 + bitAt s.dm.ndmreset 1 + bitAt s.dm.dmactive 0)

/-- dmcontrol: accessible even in the reset window, unauthenticated and inactive (R290, R291, R294). -/
def execDmcontrol (a : DmAcc) (s : State) : Host.Outcome State Fault Refusal :=
  match a with
  | .read => .next (answer (readDmcontrol s) s)
  | .write v => .next (writeDmcontrol v s)

/-! ### dmstatus (R51, R321) -/

/-- The selected harts that exist. -/
def State.selectedHarts (s : State) : List Hart :=
  (s.harts.mapIdx fun k hart => (s.isSelected k hart, hart)).filterMap fun p => if p.1 then some p.2 else none

/-- `∀ h ∈ selected()` of a per-hart condition; a hartsel that names no hart counts as `nonexistent` says. -/
def State.allSelected (s : State) (nonexistent : Bool) (f : Hart → Bool) : Bool :=
  s.selectedHarts.all f && (decide (s.hartsel < s.harts.length) || nonexistent)

/-- `∃ h ∈ selected()` of a per-hart condition. -/
def State.anySelected (s : State) (nonexistent : Bool) (f : Hart → Bool) : Bool :=
  s.selectedHarts.any f || (!decide (s.hartsel < s.harts.length) && nonexistent)

/-- Whether a hart has this status. -/
def Hart.hasStatus (c : Config) (st : HartStatus) (hart : Hart) : Bool := hart.status c == st

/-- A read of dmstatus (R51, R321); unauthenticated, authbusy and version alone (R294). -/
def readDmstatus (s : State) : Word :=
  let d := s.dm
  if !d.authenticated then BitVec.ofNat 32 (bitAt d.authbusy 6 + 2)
  else
    BitVec.ofNat 32
      (bitAt s.cfg.impebreak 22 +
        bitAt (s.allSelected false fun h => h.ctl.havereset) 19 + bitAt (s.anySelected false fun h => h.ctl.havereset) 18 +
        bitAt (s.allSelected false fun h => h.ctl.resumeack) 17 + bitAt (s.anySelected false fun h => h.ctl.resumeack) 16 +
        bitAt (s.allSelected true fun _ => false) 15 + bitAt (s.anySelected true fun _ => false) 14 +
        bitAt (s.allSelected false (Hart.hasStatus s.cfg .unavailable)) 13 +
        bitAt (s.anySelected false (Hart.hasStatus s.cfg .unavailable)) 12 +
        bitAt (s.allSelected false (Hart.hasStatus s.cfg .running)) 11 +
        bitAt (s.anySelected false (Hart.hasStatus s.cfg .running)) 10 +
        bitAt (s.allSelected false (Hart.hasStatus s.cfg .halted)) 9 +
        bitAt (s.anySelected false (Hart.hasStatus s.cfg .halted)) 8 +
        2 ^ 7 + bitAt d.authbusy 6 + bitAt s.cfg.devtreevalid 4 + 2)

/-- dmstatus: read-only (R51). It is readable unauthenticated and inactive; in the reset window a read gives any value
(R290). -/
def execDmstatus (a : DmAcc) (s : State) : Host.Outcome State Fault Refusal :=
  match a with
  | .read => .next (if s.inResetWindow then answerFree s else answer (readDmstatus s) s)
  | .write _ => .next s

/-! ### The hart array mask (R317, R56, R57) -/

/-- The implemented bits of hawindowsel: those needed to reach 2^HARTSELLEN harts (spec/92_eei_decisions.md D6). -/
def writtenHawindowsel (c : Config) (v : Word) : BitVec 15 := BitVec.ofNat 15 (getField v 0 15 % 2 ^ (c.hartsellen - 5))

/-- hawindowsel (R317). -/
def execHawindowsel (a : DmAcc) (s : State) : Host.Outcome State Fault Refusal :=
  .next (dmAccess s.cfg.hasHasel a (fun s => (s, s.dm.hawindowsel.setWidth 32))
    (fun v s => { s with dm := { s.dm with hawindowsel := writtenHawindowsel s.cfg v } }) s)

/-- Whether hart index `h` has a mask bit: it exists and hartsel can reach it (D6). -/
def State.maskable (s : State) (h : Nat) : Bool := decide (h < 2 ^ s.cfg.hartsellen)

/-- A read of hawindow: bit i is the mask bit of hart hawindowsel * 32 + i (R57). -/
def readHawindow (s : State) : Word :=
  BitVec.ofNat 32 (packBits 32 fun i =>
    match s.harts[s.dm.hawindowsel.toNat * 32 + i]? with
    | some hart => s.maskable (s.dm.hawindowsel.toNat * 32 + i) && hart.ctl.mask
    | none => false)

/-- A write of hawindow: the mask bits of the 32 harts of the window (R317). -/
def writeHawindow (v : Word) (s : State) : State :=
  let first := s.dm.hawindowsel.toNat * 32
  { s with harts := s.harts.mapIdx fun k hart =>
      if first ≤ k ∧ k < first + 32 ∧ s.maskable k then
        { hart with ctl := { hart.ctl with mask := v.getLsbD (k - first) } }
      else hart }

/-- hawindow (R317). -/
def execHawindow (a : DmAcc) (s : State) : Host.Outcome State Fault Refusal :=
  .next (dmAccess s.cfg.hasHasel a (fun s => (s, readHawindow s)) writeHawindow s)

/-! ### Authentication (R293 to R297) -/

/-- A read of authdata, a step of the serial protocol (R296): the module becomes busy. -/
def readAuthdata (s : State) : State × Word :=
  let p := Config.authRead s.dm.auth
  ({ s with dm := { s.dm with auth := p.1, authbusy := true } }, p.2)

/-- A write of authdata (R296). -/
def writeAuthdata (v : Word) (s : State) : State :=
  { s with dm := { s.dm with auth := Config.authWrite s.dm.auth v, authbusy := true } }

/-- authdata (R75, R296): accessible without authentication (R294). Without HAS_AUTH it reads 0 and ignores writes. While
authbusy is set a read gives any value and either access may be lost (spec/93_implementation_defined.md U5). -/
def execAuthdata (a : DmAcc) (s : State) : Host.Outcome State Fault Refusal :=
  .next <|
    match a with
    | .read =>
      if !s.cfg.hasAuth then (if s.inResetWindow then answerFree s else answer 0 s)
      else if s.inResetWindow || (s.dm.authbusy && s.dm.dmactive) then
        answerFree (if s.dm.dmactive && Config.freeBit s.free then (readAuthdata (s.bump 1)).1 else s.bump 1)
      else if !s.dm.dmactive then answer 0 s
      else answer (readAuthdata s).2 (readAuthdata s).1
    | .write v =>
      if !s.cfg.hasAuth || !s.dm.dmactive then s
      else if s.inResetWindow || s.dm.authbusy then
        (if Config.freeBit s.free then writeAuthdata v (s.bump 1) else s.bump 1)
      else writeAuthdata v s

/-- The authentication module finishes: authbusy falls, and authenticated is set if the check has passed (R296). -/
def authComplete (s : State) : State :=
  if s.dm.authbusy then
    { s with dm := { s.dm with
        authbusy := false
        authenticated := s.dm.authenticated || Config.authPassed s.dm.auth } }
  else s

end Sys2Proof.Machine
end

