-- ==== Sys2Proof/Machine/DmInfo.lean ====
section
/-! DEFINITION. The read-only registers: hartinfo, devtreeaddr0 to 3, nextdm, haltsum0 to 3 (spec/10_state.md R55, R65,
R66, R80 to R83; spec/41_reset_select_run.md R336). -/

namespace Sys2Proof.Machine

/-- hartinfo of a hart (R55). -/
def hartinfoOf (c : HartCfg) : Word :=
  BitVec.ofNat 32 (c.nscratch % 16 * 2 ^ 20 + bitAt c.dataaccess 16 + c.datasize % 16 * 2 ^ 12 + c.dataaddr.toNat)

/-- A read of hartinfo describes hart hartsel (R318); of a hart that does not exist its fields are any values and its
reserved bits 0 (notes/assumptions/49.md). -/
def readHartinfo (s : State) : State × Word :=
  match s.harts[s.hartsel]? with
  | some hart => (s, hartinfoOf hart.cfg)
  | none => (s.bump 1, freeWord32 s.free &&& 0x00f1ffff)

/-- hartinfo (R55): read-only; reads 0 where it is not present. -/
def execHartinfo (a : DmAcc) (s : State) : Host.Outcome State Fault Refusal :=
  .next (dmAccess s.cfg.hasHartinfo a readHartinfo (fun _ s => s) s)

/-- devtreeaddr0 (R65): bits 31:0. -/
def execDevtreeaddr0 (a : DmAcc) (s : State) : Host.Outcome State Fault Refusal :=
  .next (dmReadOnly true a (fun s => BitVec.ofNat 32 (s.cfg.devtreeaddr.toNat / 2 ^ 0)) s)

/-- devtreeaddr1 (R65): bits 63:32. -/
def execDevtreeaddr1 (a : DmAcc) (s : State) : Host.Outcome State Fault Refusal :=
  .next (dmReadOnly true a (fun s => BitVec.ofNat 32 (s.cfg.devtreeaddr.toNat / 2 ^ 32)) s)

/-- devtreeaddr2 (R65): bits 95:64. -/
def execDevtreeaddr2 (a : DmAcc) (s : State) : Host.Outcome State Fault Refusal :=
  .next (dmReadOnly true a (fun s => BitVec.ofNat 32 (s.cfg.devtreeaddr.toNat / 2 ^ 64)) s)

/-- devtreeaddr3 (R65): bits 127:96. -/
def execDevtreeaddr3 (a : DmAcc) (s : State) : Host.Outcome State Fault Refusal :=
  .next (dmReadOnly true a (fun s => BitVec.ofNat 32 (s.cfg.devtreeaddr.toNat / 2 ^ 96)) s)

/-- nextdm (R66). -/
def execNextdm (a : DmAcc) (s : State) : Host.Outcome State Fault Refusal :=
  .next (dmReadOnly true a (fun s => s.cfg.nextdm) s)

/-- Whether some halted hart has an index `k` with `k / 2 ^ (5 * level) = group`; `i` is the index of the list's head. -/
def anyHalted (c : Config) (level group : Nat) : Nat → List Hart → Bool
  | _, [] => false
  | i, hart :: harts =>
    (i / 2 ^ (5 * level) == group && hart.status c == .halted) || anyHalted c level group (i + 1) harts

/-- haltsum<level> (R336): bit i says whether a hart of group i of the window hartsel selects is halted. It ignores hasel
and the hart array mask. -/
def haltsum (level : Nat) (s : State) : Word :=
  BitVec.ofNat 32 (packBits 32 fun i => anyHalted s.cfg level (s.hartsel / 2 ^ (5 * level + 5) * 32 + i) 0 s.harts)

/-- haltsum0 (R80, R336). -/
def execHaltsum0 (a : DmAcc) (s : State) : Host.Outcome State Fault Refusal :=
  .next (dmReadOnly true a (haltsum 0) s)

/-- haltsum1 (R81, R336). -/
def execHaltsum1 (a : DmAcc) (s : State) : Host.Outcome State Fault Refusal :=
  .next (dmReadOnly s.cfg.hasHaltsum1 a (haltsum 1) s)

/-- haltsum2 (R82, R336). -/
def execHaltsum2 (a : DmAcc) (s : State) : Host.Outcome State Fault Refusal :=
  .next (dmReadOnly s.cfg.hasHaltsum2 a (haltsum 2) s)

/-- haltsum3 (R83, R336). -/
def execHaltsum3 (a : DmAcc) (s : State) : Host.Outcome State Fault Refusal :=
  .next (dmReadOnly s.cfg.hasHaltsum3 a (haltsum 3) s)

end Sys2Proof.Machine
end

