-- ==== Sys2Proof/Machine/Jtag.lean ====
section
/-! DEFINITION. The JTAG DTM (spec/46_jtag_dtm.md R581 to R607): the TAP's instruction register, the data registers IDCODE,
dtmcs, dmi and BYPASS, and the sticky status of the dmi register. -/

namespace Sys2Proof.Machine

/-! ### Scans -/

/-- The value a scan shifts out. -/
def shiftOut (v : BitVec 66) (s : State) : State := { s with dtm := { s.dtm with tdo := v } }

/-- ScanIR: the value selects the data register from Update-IR on (R581, R585); what it shifts out is not given by the
source (notes/assumptions/25.md). -/
def selectIr (code : Nat) (s : State) : State :=
  (shiftOut ((Config.freeWord s.free).setWidth 66)
    { s with dtm := { s.dtm with ir := code % 2 ^ s.cfg.irlen } }).bump 1

/-- ScanDR of BYPASS: the single bit 0 leaves, nothing changes (R587). -/
def scanBypass (s : State) : State := shiftOut 0 s

/-- A JTAG instruction that selects BYPASS. -/
def bypassInsn (code : Nat) (op : IrOp) (s : State) : State :=
  match op with
  | .select => selectIr code s
  | .scan _ => scanBypass s

/-! ### IDCODE and dtmcs -/

/-- The value of IDCODE (spec/10_state.md R160). -/
def idcodeValue (c : Config) : Nat :=
  c.idVersion % 2 ^ 4 * 2 ^ 28 + c.idPart % 2 ^ 16 * 2 ^ 12 + c.idManuf % 2 ^ 11 * 2 ^ 1 + 1

/-- Capture-DR of dtmcs (R590). -/
def dtmcsValue (s : State) : Nat := s.cfg.idle * 2 ^ 12 + s.dtm.status.toNat * 2 ^ 10 + s.cfg.abits * 2 ^ 4 + 1

/-- dmireset clears the sticky status; an outstanding transaction goes on (R591). -/
def dmireset (s : State) : State := { s with dtm := { s.dtm with status := 0 } }

/-- `dtm_hard_reset()` (R592): the outstanding transaction is forgotten, and status, address and data take their reset
values; ir is not changed. Whether a forgotten access had been made in the DM is the event order's
(notes/assumptions/3.md). -/
def dmihardreset (s : State) : State :=
  { s with dtm := { s.dtm with
      status := s.cfg.dtmStatusReset
      address := 0
      data := 0
      pending := .none
      addrKnown := true
      dataKnown := true } }

/-- Update-DR of dtmcs: only bits 17 and 16 have an effect, and a hard reset subsumes the other (R590, R256). -/
def updateDtmcs (tdi : Nat) (s : State) : State :=
  if bit tdi 17 then dmihardreset s else if bit tdi 16 then dmireset s else s

/-! ### dmi (R600, R601) -/

/-- The address bits the DTM has. -/
def dmiAddress (c : Config) (a : Word) : Word := BitVec.ofNat 32 (a.toNat % 2 ^ c.abits)

/-- What Capture-DR of dmi will show: status, address, data, and the DTM after it. A sticky status stays; a transaction
still in progress makes it 3; one that failed makes it 2; one that is finished leaves its result in data (R600). -/
def captureReport (s : State) : BitVec 2 × Word × Word :=
  let a := if s.dtm.addrKnown then s.dtm.address else dmiAddress s.cfg (freeWord32 s.free)
  let d := if s.dtm.dataKnown then s.dtm.data else freeWord32 (s.free + 1)
  if s.dtm.status ≠ 0 then (s.dtm.status, a, d)
  else
    match s.dtm.pending with
    | .none => (0, a, d)
    | .inProgress _ _ => (dtmBusy, a, d)
    | .finished r failed => if failed then (dtmFailed, a, d) else (0, a, r)

/-- The value a capture shifts out. -/
def captureWord (status : BitVec 2) (address data : Word) : BitVec 66 :=
  BitVec.ofNat 66 (dmiWord address data status.toNat)

/-- A capture whose status is 0: the result is in data, the finished transaction is gone (R600). With a sticky status
(spec/46_jtag_dtm.md R601) the capture can only repeat it. -/
def captureOk (address data : Word) (s : State) : State :=
  if s.dtm.status ≠ 0 then shiftOut (captureWord s.dtm.status address data) (s.bump 2)
  else
    let pending := match s.dtm.pending with
      | .finished _ _ => DmiPending.none
      | p => p
    (shiftOut (captureWord 0 address data) { s with dtm := { s.dtm with data := data, pending := pending } }).bump 2

/-- A capture whose status is 2: the failed transaction is gone and the status is sticky (R600, R601). -/
def captureFailed (address data : Word) (s : State) : State :=
  if s.dtm.status ≠ 0 then shiftOut (captureWord s.dtm.status address data) (s.bump 2)
  else
    (shiftOut (captureWord dtmFailed address data)
      { s with dtm := { s.dtm with status := dtmFailed, pending := .none } }).bump 2

/-- A capture whose status is 3: the transaction goes on and the status is sticky (R600, R601). -/
def captureBusy (address data : Word) (s : State) : State :=
  if s.dtm.status ≠ 0 then shiftOut (captureWord s.dtm.status address data) (s.bump 2)
  else (shiftOut (captureWord dtmBusy address data) { s with dtm := { s.dtm with status := dtmBusy } }).bump 2

/-- Capture-DR of dmi (R600). -/
def captureDmi (s : State) : State :=
  let r := captureReport s
  if r.1 = dtmFailed then captureFailed r.2.1 r.2.2 s
  else if r.1 = dtmBusy then captureBusy r.2.1 r.2.2 s
  else captureOk r.2.1 r.2.2 s

/-- Update-DR of dmi that starts nothing (R600): with a sticky status nothing at all; else address and data are stored,
and what the next capture shows in them is not specified (R255). -/
def updateNop (address data : Word) (s : State) : State :=
  if s.dtm.status ≠ 0 then s
  else
    { s with dtm := { s.dtm with
        address := dmiAddress s.cfg address
        data := data
        addrKnown := false
        dataKnown := false } }

/-- Update-DR of dmi that starts a transaction (R600, R604): with a sticky status nothing at all; one transaction at a
time: while another is still in progress the status becomes 3 and the scan is ignored (notes/assumptions/26.md). -/
def updateStart (address data : Word) (acc : DmAcc) (s : State) : State :=
  if s.dtm.status ≠ 0 then s
  else
    match s.dtm.pending with
    | .inProgress _ _ => { s with dtm := { s.dtm with status := dtmBusy } }
    | _ =>
      { s with dtm := { s.dtm with
          address := dmiAddress s.cfg address
          data := data
          addrKnown := false
          dataKnown := true
          pending := .inProgress (dmiAddress s.cfg address) acc } }

/-- Update-DR of dmi with a 66-bit scan value (R255, R600). -/
def updateDmi (tdi : Nat) (s : State) : State :=
  let address := bits tdi 34 32
  let data := bits tdi 2 32
  if tdi % 4 = 1 then updateStart address data .read s
  else if tdi % 4 = 2 then updateStart address data (.write data) s
  else updateNop address data s

/-! ### The rows of the table -/

/-- BYPASS, encoding 0x00 (R585, R587). -/
def execBypass00 (op : IrOp) (s : State) : Host.Outcome State Fault Refusal := .next (bypassInsn 0x00 op s)

/-- IDCODE (R586): a scan returns the preset value and ignores what is shifted in. -/
def execIdcode (op : IrOp) (s : State) : Host.Outcome State Fault Refusal :=
  match op with
  | .select => .next (selectIr 0x01 s)
  | .scan _ => .next (shiftOut (BitVec.ofNat 66 (idcodeValue s.cfg)) s)

/-- dtmcs (R590): a scan captures the status word, then applies dmihardreset or dmireset. -/
def execDtmcs (op : IrOp) (s : State) : Host.Outcome State Fault Refusal :=
  match op with
  | .select => .next (selectIr 0x10 s)
  | .scan tdi => .next (updateDtmcs tdi.toNat (shiftOut (BitVec.ofNat 66 (dtmcsValue s)) s))

/-- dmi (R600): a scan captures the result of the previous operation, then starts the next one. -/
def execDmi (op : IrOp) (s : State) : Host.Outcome State Fault Refusal :=
  match op with
  | .select => .next (selectIr 0x11 s)
  | .scan tdi => .next (updateDmi tdi.toNat (captureDmi s))

/-- Reserved for future RISC-V debugging: selects BYPASS (R260). -/
def execReservedBypass12 (op : IrOp) (s : State) : Host.Outcome State Fault Refusal := .next (bypassInsn 0x12 op s)

/-- Reserved for future RISC-V debugging: selects BYPASS (R260). -/
def execReservedBypass13 (op : IrOp) (s : State) : Host.Outcome State Fault Refusal := .next (bypassInsn 0x13 op s)

/-- Reserved for future RISC-V debugging: selects BYPASS (R260). -/
def execReservedBypass14 (op : IrOp) (s : State) : Host.Outcome State Fault Refusal := .next (bypassInsn 0x14 op s)

/-- Reserved for future RISC-V standards: selects BYPASS (R260). -/
def execReservedBypass15 (op : IrOp) (s : State) : Host.Outcome State Fault Refusal := .next (bypassInsn 0x15 op s)

/-- Reserved for future RISC-V standards: selects BYPASS (R260). -/
def execReservedBypass16 (op : IrOp) (s : State) : Host.Outcome State Fault Refusal := .next (bypassInsn 0x16 op s)

/-- Reserved for future RISC-V standards: selects BYPASS (R260). -/
def execReservedBypass17 (op : IrOp) (s : State) : Host.Outcome State Fault Refusal := .next (bypassInsn 0x17 op s)

/-- BYPASS, encoding 0x1f (R585, R587). -/
def execBypass1f (op : IrOp) (s : State) : Host.Outcome State Fault Refusal := .next (bypassInsn 0x1f op s)

/-- dmi op 0, nop (R255): nothing is sent over the DMI. -/
def execDmiNop (address data : Word) (s : State) : Host.Outcome State Fault Refusal := .next (updateNop address data s)

/-- dmi op 1, read (R600). -/
def execDmiRead (address data : Word) (s : State) : Host.Outcome State Fault Refusal :=
  .next (updateStart address data .read s)

/-- dmi op 2, write (R600). -/
def execDmiWrite (address data : Word) (s : State) : Host.Outcome State Fault Refusal :=
  .next (updateStart address data (.write data) s)

/-- dmi op 3, reserved: treated as a nop (spec/93_implementation_defined.md U30; notes/assumptions/26.md). -/
def execDmiOpReserved (address data : Word) (s : State) : Host.Outcome State Fault Refusal :=
  .next (updateNop address data s)

/-- Capture-DR of dmi with status 0 (R600). -/
def execDmiStatusOk (address data : Word) (s : State) : Host.Outcome State Fault Refusal :=
  .next (captureOk address data s)

/-- Capture-DR of dmi with status 2 (R600, R601). -/
def execDmiStatusFailed (address data : Word) (s : State) : Host.Outcome State Fault Refusal :=
  .next (captureFailed address data s)

/-- Capture-DR of dmi with status 3 (R600, R601). -/
def execDmiStatusBusy (address data : Word) (s : State) : Host.Outcome State Fault Refusal :=
  .next (captureBusy address data s)

/-- Update-DR of dtmcs with dmireset (R591). -/
def execDtmcsDmireset (s : State) : Host.Outcome State Fault Refusal := .next (dmireset s)

/-- Update-DR of dtmcs with dmihardreset (R592). -/
def execDtmcsDmihardreset (s : State) : Host.Outcome State Fault Refusal := .next (dmihardreset s)

/-- `TapReset` (R581, R607): ir selects IDCODE; whether the sticky status, the outstanding transaction and the address and
data fields are kept or reset are free choices (spec/93_implementation_defined.md U32; notes/assumptions/24.md). The DM is
not reset. -/
def tapReset (s : State) : State :=
  let d := { s.dtm with ir := 1 }
  let d := if Config.freeBit s.free then { d with status := s.cfg.dtmStatusReset } else d
  let d := if Config.freeBit (s.free + 1) then { d with pending := .none } else d
  let d := if Config.freeBit (s.free + 2) then { d with address := 0, data := 0, addrKnown := true, dataKnown := true } else d
  { s with dtm := d }.bump 3

end Sys2Proof.Machine
end

