-- ==== Sys2Proof/Machine/Dispatch.lean ====
section
/-! DEFINITION. One arm for each constructor of Instr, each one direct call of its meaning. -/

namespace Sys2Proof.Machine

def exec (i : Instr) (s : State) : Host.Outcome State Fault Refusal :=
  match i with
  | .dret => Sys2Proof.Machine.execDret s
  | .ebreak => Sys2Proof.Machine.execEbreak s
  | .cEbreak => Sys2Proof.Machine.execCEbreak s
  | .cNop => Sys2Proof.Machine.execCNop s
  | .wfi => Sys2Proof.Machine.execWfi s
  | .ecall => Sys2Proof.Machine.execEcall s
  | .mret => Sys2Proof.Machine.execMret s
  | .hret => Sys2Proof.Machine.execHret s
  | .sret => Sys2Proof.Machine.execSret s
  | .uret => Sys2Proof.Machine.execUret s
  | .accessRegister size postexec transfer write regno res23 res19 => Sys2Proof.Machine.execAccessRegister size postexec transfer write regno res23 res19 s
  | .quickAccess reserved => Sys2Proof.Machine.execQuickAccess reserved s
  | .commandReservedCmdtype cmdtype control => Sys2Proof.Machine.execCommandReservedCmdtype cmdtype control s
  | .dmiNop address data => Sys2Proof.Machine.execDmiNop address data s
  | .dmiRead address data => Sys2Proof.Machine.execDmiRead address data s
  | .dmiWrite address data => Sys2Proof.Machine.execDmiWrite address data s
  | .dmiOpReserved address data => Sys2Proof.Machine.execDmiOpReserved address data s
  | .dmiStatusOk address data => Sys2Proof.Machine.execDmiStatusOk address data s
  | .dmiStatusFailed address data => Sys2Proof.Machine.execDmiStatusFailed address data s
  | .dmiStatusBusy address data => Sys2Proof.Machine.execDmiStatusBusy address data s
  | .dtmcsDmireset => Sys2Proof.Machine.execDtmcsDmireset s
  | .dtmcsDmihardreset => Sys2Proof.Machine.execDtmcsDmihardreset s
  | .bypass00 op => Sys2Proof.Machine.execBypass00 op s
  | .idcode op => Sys2Proof.Machine.execIdcode op s
  | .dtmcs op => Sys2Proof.Machine.execDtmcs op s
  | .dmi op => Sys2Proof.Machine.execDmi op s
  | .reservedBypass12 op => Sys2Proof.Machine.execReservedBypass12 op s
  | .reservedBypass13 op => Sys2Proof.Machine.execReservedBypass13 op s
  | .reservedBypass14 op => Sys2Proof.Machine.execReservedBypass14 op s
  | .reservedBypass15 op => Sys2Proof.Machine.execReservedBypass15 op s
  | .reservedBypass16 op => Sys2Proof.Machine.execReservedBypass16 op s
  | .reservedBypass17 op => Sys2Proof.Machine.execReservedBypass17 op s
  | .bypass1f op => Sys2Proof.Machine.execBypass1f op s
  | .data0 a => Sys2Proof.Machine.execData0 a s
  | .data1 a => Sys2Proof.Machine.execData1 a s
  | .data2 a => Sys2Proof.Machine.execData2 a s
  | .data3 a => Sys2Proof.Machine.execData3 a s
  | .data4 a => Sys2Proof.Machine.execData4 a s
  | .data5 a => Sys2Proof.Machine.execData5 a s
  | .data6 a => Sys2Proof.Machine.execData6 a s
  | .data7 a => Sys2Proof.Machine.execData7 a s
  | .data8 a => Sys2Proof.Machine.execData8 a s
  | .data9 a => Sys2Proof.Machine.execData9 a s
  | .data10 a => Sys2Proof.Machine.execData10 a s
  | .data11 a => Sys2Proof.Machine.execData11 a s
  | .dmcontrol a => Sys2Proof.Machine.execDmcontrol a s
  | .dmstatus a => Sys2Proof.Machine.execDmstatus a s
  | .hartinfo a => Sys2Proof.Machine.execHartinfo a s
  | .hawindowsel a => Sys2Proof.Machine.execHawindowsel a s
  | .hawindow a => Sys2Proof.Machine.execHawindow a s
  | .abstractcs a => Sys2Proof.Machine.execAbstractcs a s
  | .command a => Sys2Proof.Machine.execCommand a s
  | .abstractauto a => Sys2Proof.Machine.execAbstractauto a s
  | .haltsum1 a => Sys2Proof.Machine.execHaltsum1 a s
  | .devtreeaddr0 a => Sys2Proof.Machine.execDevtreeaddr0 a s
  | .devtreeaddr1 a => Sys2Proof.Machine.execDevtreeaddr1 a s
  | .devtreeaddr2 a => Sys2Proof.Machine.execDevtreeaddr2 a s
  | .devtreeaddr3 a => Sys2Proof.Machine.execDevtreeaddr3 a s
  | .nextdm a => Sys2Proof.Machine.execNextdm a s
  | .progbuf0 a => Sys2Proof.Machine.execProgbuf0 a s
  | .progbuf1 a => Sys2Proof.Machine.execProgbuf1 a s
  | .progbuf2 a => Sys2Proof.Machine.execProgbuf2 a s
  | .progbuf3 a => Sys2Proof.Machine.execProgbuf3 a s
  | .progbuf4 a => Sys2Proof.Machine.execProgbuf4 a s
  | .progbuf5 a => Sys2Proof.Machine.execProgbuf5 a s
  | .progbuf6 a => Sys2Proof.Machine.execProgbuf6 a s
  | .progbuf7 a => Sys2Proof.Machine.execProgbuf7 a s
  | .progbuf8 a => Sys2Proof.Machine.execProgbuf8 a s
  | .progbuf9 a => Sys2Proof.Machine.execProgbuf9 a s
  | .progbuf10 a => Sys2Proof.Machine.execProgbuf10 a s
  | .progbuf11 a => Sys2Proof.Machine.execProgbuf11 a s
  | .progbuf12 a => Sys2Proof.Machine.execProgbuf12 a s
  | .progbuf13 a => Sys2Proof.Machine.execProgbuf13 a s
  | .progbuf14 a => Sys2Proof.Machine.execProgbuf14 a s
  | .progbuf15 a => Sys2Proof.Machine.execProgbuf15 a s
  | .authdata a => Sys2Proof.Machine.execAuthdata a s
  | .haltsum2 a => Sys2Proof.Machine.execHaltsum2 a s
  | .haltsum3 a => Sys2Proof.Machine.execHaltsum3 a s
  | .sbaddress3 a => Sys2Proof.Machine.execSbaddress3 a s
  | .sbcs a => Sys2Proof.Machine.execSbcs a s
  | .sbaddress0 a => Sys2Proof.Machine.execSbaddress0 a s
  | .sbaddress1 a => Sys2Proof.Machine.execSbaddress1 a s
  | .sbaddress2 a => Sys2Proof.Machine.execSbaddress2 a s
  | .sbdata0 a => Sys2Proof.Machine.execSbdata0 a s
  | .sbdata1 a => Sys2Proof.Machine.execSbdata1 a s
  | .sbdata2 a => Sys2Proof.Machine.execSbdata2 a s
  | .sbdata3 a => Sys2Proof.Machine.execSbdata3 a s
  | .haltsum0 a => Sys2Proof.Machine.execHaltsum0 a s
  | .dcsr op => Sys2Proof.Machine.execDcsr op s
  | .dpc op => Sys2Proof.Machine.execDpc op s
  | .dscratch0 op => Sys2Proof.Machine.execDscratch0 op s
  | .dscratch1 op => Sys2Proof.Machine.execDscratch1 op s
  | .tselect op => Sys2Proof.Machine.execTselect op s
  | .tdata1 op => Sys2Proof.Machine.execTdata1 op s
  | .tdata2 op => Sys2Proof.Machine.execTdata2 op s
  | .tdata3 op => Sys2Proof.Machine.execTdata3 op s

end Sys2Proof.Machine
end

