-- ==== Sys2Proof/Machine/Compressed.lean ====
section
/-! DEFINITION. The compressed instructions a Program Buffer may hold on a hart with the C extension
(spec/42_abstract_commands.md R381, spec/30_encoding.md R253): the 32-bit instruction each stands for. The document does not
define them (PRESUMED, notes/assumptions/1.md). c.ebreak and c.nop are rows of the table. -/

namespace Sys2Proof.Machine

/-- The `n` bits of `w` from bit `lo` up, placed at bit `at_`. -/
def moved (w lo n at_ : Nat) : Nat := w / 2 ^ lo % 2 ^ n * 2 ^ at_

/-- A `bits`-bit immediate sign-extended to `size` bits. -/
def extendTo (bits size v : Nat) : Nat := if v / 2 ^ (bits - 1) % 2 = 1 then v + (2 ^ size - 2 ^ bits) else v

/-- An I-type word. -/
def iWord (imm rs1 f3 rd op : Nat) : Nat := imm % 2 ^ 12 * 2 ^ 20 + rs1 * 2 ^ 15 + f3 * 2 ^ 12 + rd * 2 ^ 7 + op

/-- An S-type word. -/
def sWord (imm rs2 rs1 f3 op : Nat) : Nat :=
  imm / 2 ^ 5 % 2 ^ 7 * 2 ^ 25 + rs2 * 2 ^ 20 + rs1 * 2 ^ 15 + f3 * 2 ^ 12 + imm % 2 ^ 5 * 2 ^ 7 + op

/-- An R-type word. -/
def rWord (f7 rs2 rs1 f3 rd op : Nat) : Nat :=
  f7 * 2 ^ 25 + rs2 * 2 ^ 20 + rs1 * 2 ^ 15 + f3 * 2 ^ 12 + rd * 2 ^ 7 + op

/-- A J-type word: jal. -/
def jWord (imm rd : Nat) : Nat :=
  moved imm 20 1 31 + moved imm 1 10 21 + moved imm 11 1 20 + moved imm 12 8 12 + rd * 2 ^ 7 + 0x6f

/-- A B-type word: beq (`f3` 0) or bne (1) against x0. -/
def bWord (imm rs1 f3 : Nat) : Nat :=
  moved imm 12 1 31 + moved imm 5 6 25 + rs1 * 2 ^ 15 + f3 * 2 ^ 12 + moved imm 1 4 8 + moved imm 11 1 7 + 0x63

/-- Quadrant 0: loads and stores of x8 to x15 and f8 to f15, c.addi4spn. -/
def expandQuadrant0 (xlen w : Nat) : Option Nat :=
  let r2 := 8 + moved w 2 3 0
  let r1 := 8 + moved w 7 3 0
  let imm4 := moved w 10 3 3 + moved w 6 1 2 + moved w 5 1 6
  let imm8 := moved w 10 3 3 + moved w 5 2 6
  let imm16 := moved w 11 2 4 + moved w 10 1 8 + moved w 5 2 6
  match w / 2 ^ 13 % 8 with
  | 0 =>
    let imm := moved w 11 2 4 + moved w 7 4 6 + moved w 6 1 2 + moved w 5 1 3
    if imm = 0 then none else some (iWord imm 2 0 r2 0x13)
  | 1 => some (if xlen = 128 then iWord imm16 r1 2 r2 0x0f else iWord imm8 r1 3 r2 0x07)
  | 2 => some (iWord imm4 r1 2 r2 0x03)
  | 3 => some (if xlen = 32 then iWord imm4 r1 2 r2 0x07 else iWord imm8 r1 3 r2 0x03)
  | 5 => some (if xlen = 128 then sWord imm16 r2 r1 4 0x23 else sWord imm8 r2 r1 3 0x27)
  | 6 => some (sWord imm4 r2 r1 2 0x23)
  | 7 => some (if xlen = 32 then sWord imm4 r2 r1 2 0x27 else sWord imm8 r2 r1 3 0x23)
  | _ => none

/-- The register arithmetic of quadrant 1. -/
def expandArith (xlen w : Nat) : Option Nat :=
  let r1 := 8 + moved w 7 3 0
  let r2 := 8 + moved w 2 3 0
  let shamt := moved w 12 1 5 + moved w 2 5 0
  match moved w 10 2 0 with
  | 0 => if shamt < xlen ∧ xlen ≠ 128 then some (iWord shamt r1 5 r1 0x13) else none
  | 1 => if shamt < xlen ∧ xlen ≠ 128 then some (iWord (shamt + 2 ^ 10) r1 5 r1 0x13) else none
  | 2 => some (iWord (extendTo 6 12 shamt) r1 7 r1 0x13)
  | _ =>
    match moved w 12 1 2 + moved w 5 2 0 with
    | 0 => some (rWord 0x20 r2 r1 0 r1 0x33)
    | 1 => some (rWord 0 r2 r1 4 r1 0x33)
    | 2 => some (rWord 0 r2 r1 6 r1 0x33)
    | 3 => some (rWord 0 r2 r1 7 r1 0x33)
    | 4 => if xlen = 32 then none else some (rWord 0x20 r2 r1 0 r1 0x3b)
    | 5 => if xlen = 32 then none else some (rWord 0 r2 r1 0 r1 0x3b)
    | _ => none

/-- Quadrant 1: arithmetic, jumps and branches. -/
def expandQuadrant1 (xlen w : Nat) : Option Nat :=
  let rd := moved w 7 5 0
  let imm := extendTo 6 12 (moved w 12 1 5 + moved w 2 5 0)
  let target := extendTo 12 21 (moved w 12 1 11 + moved w 11 1 4 + moved w 9 2 8 + moved w 8 1 10 + moved w 7 1 6 +
    moved w 6 1 7 + moved w 3 3 1 + moved w 2 1 5)
  let branch := extendTo 9 13 (moved w 12 1 8 + moved w 10 2 3 + moved w 5 2 6 + moved w 3 2 1 + moved w 2 1 5)
  match w / 2 ^ 13 % 8 with
  | 0 => some (iWord imm rd 0 rd 0x13)
  | 1 => if xlen = 32 then some (jWord target 1) else if rd = 0 then none else some (iWord imm rd 0 rd 0x1b)
  | 2 => some (iWord imm 0 0 rd 0x13)
  | 3 =>
    if rd = 2 then
      let sp := extendTo 10 12 (moved w 12 1 9 + moved w 6 1 4 + moved w 5 1 6 + moved w 3 2 7 + moved w 2 1 5)
      if sp = 0 then none else some (iWord sp 2 0 2 0x13)
    else if imm = 0 then none
    else some (extendTo 12 20 imm * 2 ^ 12 + rd * 2 ^ 7 + 0x37)
  | 4 => expandArith xlen w
  | 5 => some (jWord target 0)
  | 6 => some (bWord branch (8 + moved w 7 3 0) 0)
  | _ => some (bWord branch (8 + moved w 7 3 0) 1)

/-- Quadrant 2: loads and stores relative to x2, moves, jumps to a register. -/
def expandQuadrant2 (xlen w : Nat) : Option Nat :=
  let rd := moved w 7 5 0
  let rs2 := moved w 2 5 0
  let load4 := moved w 12 1 5 + moved w 4 3 2 + moved w 2 2 6
  let load8 := moved w 12 1 5 + moved w 5 2 3 + moved w 2 3 6
  let load16 := moved w 12 1 5 + moved w 6 1 4 + moved w 2 4 6
  let store4 := moved w 9 4 2 + moved w 7 2 6
  let store8 := moved w 10 3 3 + moved w 7 3 6
  let store16 := moved w 11 2 4 + moved w 7 4 6
  match w / 2 ^ 13 % 8 with
  | 0 =>
    let shamt := moved w 12 1 5 + moved w 2 5 0
    if shamt < xlen ∧ xlen ≠ 128 then some (iWord shamt rd 1 rd 0x13) else none
  | 1 =>
    if xlen = 128 then (if rd = 0 then none else some (iWord load16 2 2 rd 0x0f)) else some (iWord load8 2 3 rd 0x07)
  | 2 => if rd = 0 then none else some (iWord load4 2 2 rd 0x03)
  | 3 =>
    if xlen = 32 then some (iWord load4 2 2 rd 0x07)
    else if rd = 0 then none
    else some (iWord load8 2 3 rd 0x03)
  | 4 =>
    if w / 2 ^ 12 % 2 = 0 then
      if rs2 = 0 then (if rd = 0 then none else some (iWord 0 rd 0 0 0x67)) else some (rWord 0 rs2 0 0 rd 0x33)
    else if rs2 = 0 then (if rd = 0 then none else some (iWord 0 rd 0 1 0x67))
    else some (rWord 0 rs2 rd 0 rd 0x33)
  | 5 => some (if xlen = 128 then sWord store16 rs2 2 4 0x23 else sWord store8 rs2 2 3 0x27)
  | 6 => some (sWord store4 rs2 2 2 0x23)
  | _ => some (if xlen = 32 then sWord store4 rs2 2 2 0x27 else sWord store8 rs2 2 3 0x23)

/-- The 32-bit instruction a compressed one stands for; none for a reserved one. -/
def expandCompressed (xlen w : Nat) : Option Nat :=
  match w % 4 with
  | 0 => expandQuadrant0 xlen w
  | 1 => expandQuadrant1 xlen w
  | 2 => expandQuadrant2 xlen w
  | _ => none

end Sys2Proof.Machine
end

