-- ==== Sys2Proof/Machine/Base.lean ====
section
/-! DEFINITION. A hart's loads, stores and fetches (spec/20_memory.md R205, R206, R228; spec/42_abstract_commands.md R381,
R392, R395), and the instructions of the base ISA a Program Buffer or a program needs. The debug system does not define
these instructions (spec/30_encoding.md R252): the integer subset is PRESUMED, every other word is an opaque constant of
Config (notes/assumptions/1.md). -/

namespace Sys2Proof.Machine

/-! ### The two windows (R206; notes/assumptions/40.md) -/

/-- How far above `base` the address `a` lies, modulo 2^XLEN. -/
def Hart.offsetFrom (hart : Hart) (base a : Nat) : Nat :=
  (a + (2 ^ hart.cfg.xlen - base % 2 ^ hart.cfg.xlen)) % 2 ^ hart.cfg.xlen

/-- Whether the hart reaches the DM's registers: only in Debug Mode (spec/60_exceptions.md R688), and only those of a DM
that is active and authenticated (spec/40_dmi_dm_access.md R291, R293). -/
def Hart.reachesDm (hart : Hart) (s : State) : Bool := hart.debugMode && s.dmLive

/-- The hart address of `data0` when hartinfo.dataaccess is 1: sext(dataaddr) (R395). -/
def Hart.dataBase (hart : Hart) : Nat := (hart.trunc (hart.cfg.dataaddr.signExtend 128)).toNat

/-- The offset of address `a` in the data registers' window. -/
def Hart.dataOffset (hart : Hart) (a : Nat) : Nat := hart.offsetFrom hart.dataBase a

/-- Whether `n` bytes at `a` lie in the data registers' window (R395). -/
def Hart.inDataWindow (hart : Hart) (s : State) (a n : Nat) : Bool :=
  hart.reachesDm s && s.cfg.hasHartinfo && hart.cfg.dataaccess && decide (hart.dataOffset a + n ≤ 4 * hart.cfg.datasize)

/-- The offset of address `a` in the Program Buffer as hart sees it (R381, R392). -/
def Hart.progbufOffset (hart : Hart) (a : Nat) : Nat := hart.offsetFrom hart.cfg.progbufAddr a

/-- Whether `n` bytes at `a` lie in the Program Buffer as the hart's loads and stores see it (R392). -/
def inProgbufWindow (s : State) (hart : Hart) (a n : Nat) : Bool :=
  hart.reachesDm s && decide (hart.progbufOffset a + n ≤ 4 * s.cfg.progbufsize)

/-- Words as one number, the first the least significant. -/
def wordsNat : List Word → Nat
  | [] => 0
  | w :: ws => w.toNat + 2 ^ 32 * wordsNat ws

/-- `n` bytes at byte offset `o` of a number. -/
def sliceNat (v o n : Nat) : Nat := v / 2 ^ (8 * o) % 2 ^ (8 * n)

/-- A number with `n` bytes at byte offset `o` replaced by `x`. -/
def spliceNat (v o n x : Nat) : Nat :=
  v / 2 ^ (8 * (o + n)) * 2 ^ (8 * (o + n)) + x % 2 ^ (8 * n) * 2 ^ (8 * o) + v % 2 ^ (8 * o)

/-! ### Loads, stores, fetches -/

/-- What a load of `n` bytes at `a` gives, none for an access fault; `m` numbers its free values. Where the two windows
overlap the data registers answer (notes/assumptions/40.md). -/
def loadValue (s : State) (hart : Hart) (m a n : Nat) : Option Nat :=
  if hart.inDataWindow s a n then some (sliceNat (argNat s.dm.data 0 12) (hart.dataOffset a) n)
  else if inProgbufWindow s hart a n then
    if hart.cfg.progbufIsRam then some (sliceNat (wordsNat s.dm.progbuf.toList) (hart.progbufOffset a) n)
    else if Config.freeBit m then none
    else some ((Config.freeWord m).toNat % 2 ^ (8 * n))
  else
    match regionAt hart.cfg.regions a n with
    | .ram => some (s.dataView.readNat n a)
    | .device => some ((Config.freeWord m).toNat % 2 ^ (8 * n))
    | _ => none

/-- Whether a store of `n` bytes at `a` is an access fault (R392 for a Program Buffer that is not RAM). -/
def storeFaults (s : State) (hart : Hart) (m a n : Nat) : Bool :=
  if hart.inDataWindow s a n then false
  else if inProgbufWindow s hart a n then !hart.cfg.progbufIsRam && Config.freeBit m
  else
    match regionAt hart.cfg.regions a n with
    | .ram => false
    | .device => false
    | _ => true

/-- Other harts' reservations on these bytes are lost. -/
def breakOthers (h a n : Nat) (s : State) : State :=
  { s with harts := s.harts.mapIdx fun k hart => if k = h then hart else hart.breakReservation a n }

/-- A store of hart `h` that does not fault: into the data registers (one at or above DATACOUNT is storage of the hart
alone; where the windows overlap they come first: notes/assumptions/40.md), the Program Buffer, or memory. -/
def hartStore (h a : Nat) (bytes : List Byte) (s : State) : State :=
  match s.harts[h]? with
  | none => s
  | some hart =>
    let n := bytes.length
    if hart.inDataWindow s a n then
      let o := hart.dataOffset a
      let data := setArg s.dm.data 0 (spliceNat (argNat s.dm.data 0 12) o n (bytesToNat bytes)) 12
      { s with dm := { s.dm with data := data, defined := s.dm.defined ||| argMask (o / 4) ((o + n + 3) / 4 - o / 4) } }
    else if inProgbufWindow s hart a n then
      if hart.cfg.progbufIsRam then
        let v := spliceNat (wordsNat s.dm.progbuf.toList) (hart.progbufOffset a) n (bytesToNat bytes)
        { s with dm := { s.dm with progbuf := Vector.ofFn fun i : Fin 16 => BitVec.ofNat 32 (v / 2 ^ (32 * i.val)) } }
      else s
    else if regionAt hart.cfg.regions a n = .ram then breakOthers h a n (s.setDataView (s.dataView.writes a bytes))
    else s

/-- Half-word `k` of a word. -/
def halfOf (w : Word) (k : Nat) : Nat := w.toNat / 2 ^ (16 * k) % 2 ^ 16

/-- The 16 bits the hart fetches at `a`, none for an access fault. In the Program Buffer it fetches the words that stood
there when the command started, or what the program has stored there last: of two stores without fence.i between never
the first (spec/20_memory.md R228 and spec/93_implementation_defined.md U21 do not say; notes/assumptions/41.md). Only a
hart that executes the Program Buffer fetches from it (notes/assumptions/41.md), and before the data registers where the
two windows overlap (notes/assumptions/40.md). A fetch from a device faults or gives any value
(notes/assumptions/10.md). -/
def fetchHalf (s : State) (hart : Hart) (m a : Nat) : Option Nat :=
  let o := hart.progbufOffset a
  if hart.inProgbuf && decide (o < 4 * s.cfg.progbufsize) then
    let i := o / 4
    let w := if Config.freeBit m then vget s.dm.progbuf i 0 else vget s.dm.fetchBuf i 0
    some (halfOf (if vget s.dm.progbuf i 0 = vget s.dm.fetchBuf i 0 then vget s.dm.progbuf i 0 else w) (o / 2 % 2))
  else if hart.inDataWindow s a 2 then some (sliceNat (argNat s.dm.data 0 12) (hart.dataOffset a) 2)
  else
    match regionAt hart.cfg.regions a 2 with
    | .ram => some (s.fetchView.readNat 2 a)
    | .device => if Config.freeBit m then none else some ((Config.freeWord m).toNat % 2 ^ 16)
    | _ => none

/-- Whether address `a` lies in the word after the last progbuf word, where a hart that executes the Program Buffer finds
the implicit ebreak, if there is one (R380 (b), R382). -/
def Hart.atImplicitEbreak (hart : Hart) (s : State) (a : Nat) : Bool :=
  hart.inProgbuf && s.cfg.impebreak && decide (4 * s.cfg.progbufsize ≤ hart.progbufOffset a) &&
    decide (hart.progbufOffset a < 4 * s.cfg.progbufsize + 4)

/-- The word of ebreak (R382). -/
def ebreakWord : Nat := 0x00100073

/-- The instruction at the hart's pc, 16 or 32 bits (spec/30_encoding.md R253), none for an access fault. Each half of a
32-bit instruction is fetched by itself, old or new (notes/assumptions/41.md). A fetch that takes any part of the implicit
ebreak's word is that ebreak (R380 (b)). -/
def fetchInsn (s : State) (hart : Hart) (m : Nat) : Option Nat :=
  let next := (hart.trunc (hart.pc + 2)).toNat
  if hart.atImplicitEbreak s hart.pc.toNat then some ebreakWord
  else
    match fetchHalf s hart m hart.pc.toNat with
    | none => none
    | some lo =>
      if lo % 4 = 3 then
        if hart.atImplicitEbreak s next then some ebreakWord
        else
          match fetchHalf s hart (m + 1) next with
          | none => none
          | some hi => some (lo + hi * 2 ^ 16)
      else some lo

/-! ### The integer subset (PRESUMED) -/

/-- The 5-bit field at `lo`. -/
def field5 (w lo : Nat) : Nat := w / 2 ^ lo % 2 ^ 5

/-- I-type immediate. -/
def immI (w : Nat) : XWord := (BitVec.ofNat 12 (w / 2 ^ 20)).signExtend 128

/-- S-type immediate. -/
def immS (w : Nat) : XWord := (BitVec.ofNat 12 (w / 2 ^ 25 % 2 ^ 7 * 2 ^ 5 + w / 2 ^ 7 % 2 ^ 5)).signExtend 128

/-- B-type immediate. -/
def immB (w : Nat) : XWord :=
  (BitVec.ofNat 13 (w / 2 ^ 31 % 2 * 2 ^ 12 + w / 2 ^ 7 % 2 * 2 ^ 11 + w / 2 ^ 25 % 2 ^ 6 * 2 ^ 5 +
    w / 2 ^ 8 % 2 ^ 4 * 2)).signExtend 128

/-- U-type immediate. -/
def immU (w : Nat) : XWord := (BitVec.ofNat 32 (w / 2 ^ 12 % 2 ^ 20 * 2 ^ 12)).signExtend 128

/-- J-type immediate. -/
def immJ (w : Nat) : XWord :=
  (BitVec.ofNat 21 (w / 2 ^ 31 % 2 * 2 ^ 20 + w / 2 ^ 12 % 2 ^ 8 * 2 ^ 12 + w / 2 ^ 20 % 2 * 2 ^ 11 +
    w / 2 ^ 21 % 2 ^ 10 * 2)).signExtend 128

/-- A comparison or arithmetic result of `xlen` bits, by funct3; `alt` is bit 30 (sub, sra). Operands are `xlen` bits
wide. -/
def alu (xlen f3 : Nat) (alt : Bool) (a b : XWord) : XWord :=
  let sh := b.toNat % xlen
  let r : XWord := match f3 with
    | 0 => if alt then a - b else a + b
    | 1 => a <<< sh
    | 2 => if (signed xlen a.toNat).slt (signed xlen b.toNat) then 1 else 0
    | 3 => if a.ult b then 1 else 0
    | 4 => a ^^^ b
    | 5 => if alt then (signed xlen a.toNat).sshiftRight sh else a >>> sh
    | 6 => a ||| b
    | _ => a &&& b
  BitVec.ofNat 128 (r.toNat % 2 ^ xlen)

/-- A branch condition, by funct3; none for an undefined one. -/
def branchTaken (hart : Hart) (f3 : Nat) (a b : XWord) : Option Bool :=
  match f3 with
  | 0 => some (a == b)
  | 1 => some (a != b)
  | 4 => some ((hart.sext a).slt (hart.sext b))
  | 5 => some (!(hart.sext a).slt (hart.sext b))
  | 6 => some (a.ult b)
  | 7 => some (!a.ult b)
  | _ => none

/-- The effect of a jump to `target`: a target the pc cannot hold is an address-misaligned exception (cause 0). -/
def jumpTo (hart : Hart) (target : XWord) (e : Effect) : Effect :=
  if !hart.cfg.hasC && target.toNat % 4 != 0 then { exc := some 0 } else { e with nextPc := some (hart.trunc target) }

/-- A load of `n` bytes at `a` whose value is used as `use` says: a misaligned one may raise exception 4, a refused one
raises 5. -/
def loadWith (s : State) (hart : Hart) (m a n : Nat) (use : Nat → Effect) : Effect :=
  if a % n != 0 && Config.freeBit m then { exc := some 4, load := some (a, none) }
  else
    match loadValue s hart (m + 1) a n with
    | none => { exc := some 5, load := some (a, none) }
    | some v => { use v with load := some (a, some (BitVec.ofNat 128 v)) }

/-- A load of `n` bytes at `a` for x`rd`. -/
def loadEffect (s : State) (hart : Hart) (m rd a n : Nat) (isSigned : Bool) : Effect :=
  loadWith s hart m a n fun v =>
    { wrGpr := some (rd, hart.trunc (if isSigned then signed (8 * n) v else BitVec.ofNat 128 v)) }

/-- A store of the low `n` bytes of `v` at `a`: a misaligned one may raise exception 6, a refused one raises 7. -/
def storeEffect (s : State) (hart : Hart) (m a n : Nat) (v : XWord) : Effect :=
  if a % n != 0 && Config.freeBit m then { exc := some 6, store := some (a, leBytes n v.toNat) }
  else if storeFaults s hart (m + 1) a n then { exc := some 7, store := some (a, leBytes n v.toNat) }
  else { store := some (a, leBytes n v.toNat) }

/-- The opaque effect of a word outside the subset, a function of everything the hart could use. -/
def otherEffect (s : State) (hart : Hart) (m w : Nat) : Effect :=
  Config.otherInsn (BitVec.ofNat 32 w) hart.pc hart.gprs hart.fprs
    (fun a => BitVec.ofNat 8 ((loadValue s hart (m + 1) a 1).getD 0)) m

/-- LR and SC of `n` bytes: LR reserves its address, SC stores if the reservation is still held; an SC that fails shows
the triggers no store (notes/assumptions/31.md). -/
def lrScEffect (s : State) (hart : Hart) (m w n : Nat) : Effect :=
  let a := hart.gpr (field5 w 15)
  let rd := field5 w 7
  let b := hart.gpr (field5 w 20)
  if w / 2 ^ 27 % 2 ^ 5 = 2 then
    if a.toNat % n ≠ 0 then { exc := some 4, load := some (a.toNat, none) }
    else { loadEffect s hart m rd a.toNat n true with reserve := some (some a) }
  else if a.toNat % n ≠ 0 then { exc := some 6, store := some (a.toNat, leBytes n b.toNat) }
  else if hart.reservation = some a then
    { storeEffect s hart m a.toNat n b with
      wrGpr := some (rd, 0)
      reserve := some none }
  else { wrGpr := some (rd, 1), reserve := some none }

/-- What an AMO stores: its funct5, the old value and the register's, as `bits`-bit numbers; none for an undefined one. -/
def amoResult (f5 bits old b : Nat) : Option Nat :=
  match f5 with
  | 0x00 => some ((old + b) % 2 ^ bits)
  | 0x01 => some b
  | 0x04 => some (old ^^^ b)
  | 0x08 => some (old ||| b)
  | 0x0c => some (old &&& b)
  | 0x10 => some (if (signed bits old).slt (signed bits b) then old else b)
  | 0x14 => some (if (signed bits old).slt (signed bits b) then b else old)
  | 0x18 => some (min old b)
  | 0x1c => some (max old b)
  | _ => none

/-- An AMO of `n` bytes: the old value goes to rd, the result to memory. A misaligned one raises exception 6, a refused one
7; then the value it would have stored is not known (an empty list of bytes). -/
def amoEffect (s : State) (hart : Hart) (m w n : Nat) : Effect :=
  let a := (hart.gpr (field5 w 15)).toNat
  let failed := fun cause => { exc := some cause, load := some (a, none), store := some (a, []) }
  if a % n ≠ 0 then failed 6
  else
    match loadValue s hart (m + 1) a n, storeFaults s hart (m + 2) a n with
    | some old, false =>
      match amoResult (w / 2 ^ 27 % 2 ^ 5) (8 * n) old ((hart.gpr (field5 w 20)).toNat % 2 ^ (8 * n)) with
      | some new =>
        { wrGpr := some (field5 w 7, hart.trunc (signed (8 * n) old))
          load := some (a, some (BitVec.ofNat 128 old))
          store := some (a, leBytes n new) }
      | none => otherEffect s hart m w
    | _, _ => failed 7

/-- The word of an atomic instruction of `n` bytes. -/
def atomicEffect (s : State) (hart : Hart) (m w n : Nat) : Effect :=
  let f5 := w / 2 ^ 27 % 2 ^ 5
  if f5 = 2 ∨ f5 = 3 then lrScEffect s hart m w n
  else if (amoResult f5 (8 * n) 0 0).isSome then amoEffect s hart m w n
  else otherEffect s hart m w

/-- A product or quotient of `bits` bits, by funct3; a division by 0 gives all ones and leaves the dividend as the
remainder. -/
def mulDiv (bits f3 a b : Nat) : XWord :=
  let sa := (signed bits a).toInt
  let sb := (signed bits b).toInt
  let r : Int := match f3 with
    | 0 => a * b
    | 1 => sa * sb / 2 ^ bits
    | 2 => sa * b / 2 ^ bits
    | 3 => a * b / 2 ^ bits
    | 4 => if b = 0 then -1 else sa.tdiv sb
    | 5 => if b = 0 then -1 else a / b
    | 6 => if b = 0 then a else sa.tmod sb
    | _ => if b = 0 then a else a % b
  BitVec.ofNat 128 (r % 2 ^ bits).toNat

/-- A result of 32 bits in a register of a 64-bit hart. -/
def wide (hart : Hart) (v : XWord) : XWord := hart.trunc (signed 32 v.toNat)

/-- A value of `8 * n` bits in a floating-point register: the bits above it are 1. -/
def nanBox (hart : Hart) (n v : Nat) : XWord := BitVec.ofNat 128 (v + (2 ^ hart.cfg.flen - 2 ^ (8 * n)))

/-- Loads and stores of floating-point registers, of 2^`f3` bytes at `a`; the hart must have registers of that width. -/
def fpMemory (s : State) (hart : Hart) (m w : Nat) (store : Bool) (a : Nat) : Effect :=
  let f3 := w / 2 ^ 12 % 8
  let n := 2 ^ f3
  if 2 ≤ f3 ∧ f3 ≤ 4 ∧ 8 * n ≤ hart.cfg.flen then
    if store then storeEffect s hart m a n (vget hart.fprs (field5 w 20) 0)
    else loadWith s hart m a n fun v => { wrFpr := some (field5 w 7, nanBox hart n v) }
  else otherEffect s hart m w

/-- The moves between register files, of 32 or 64 bits (fmv.x.w, fmv.w.x, fmv.x.d, fmv.d.x); floating-point arithmetic is
opaque. -/
def fpMove (s : State) (hart : Hart) (m w : Nat) : Effect :=
  let n := if w / 2 ^ 25 % 2 = 1 then 8 else 4
  let kind := w / 2 ^ 26 % 2 ^ 6
  if w / 2 ^ 12 % 8 = 0 ∧ field5 w 20 = 0 ∧ 8 * n ≤ hart.cfg.flen ∧ 8 * n ≤ hart.cfg.xlen ∧ (kind = 0x38 ∨ kind = 0x3c) then
    if kind = 0x38 then
      { wrGpr := some (field5 w 7, hart.trunc (signed (8 * n) ((vget hart.fprs (field5 w 15) 0).toNat % 2 ^ (8 * n)))) }
    else { wrFpr := some (field5 w 7, nanBox hart n ((hart.gpr (field5 w 15)).toNat % 2 ^ (8 * n))) }
  else otherEffect s hart m w

/-- What the instruction `w` of `len` bytes does to the hart (PRESUMED, the base ISA); CSR instructions and the table's rows
are not among these. -/
def wordEffect (s : State) (hart : Hart) (m len w : Nat) : Effect :=
  let xlen := hart.cfg.xlen
  let rd := field5 w 7
  let f3 := w / 2 ^ 12 % 8
  let a := hart.gpr (field5 w 15)
  let b := hart.gpr (field5 w 20)
  let f7 := w / 2 ^ 25 % 2 ^ 7
  let alt := decide (w / 2 ^ 30 % 2 = 1)
  let link : Effect := { wrGpr := some (rd, hart.trunc (hart.pc + BitVec.ofNat 128 len)) }
  let loadAddr := (hart.trunc (a + immI w)).toNat
  let storeAddr := (hart.trunc (a + immS w)).toNat
  let other := otherEffect s hart m w
  match w % 2 ^ 7 with
  | 0x37 => { wrGpr := some (rd, hart.trunc (immU w)) }
  | 0x17 => { wrGpr := some (rd, hart.trunc (hart.pc + immU w)) }
  | 0x6f => jumpTo hart (hart.trunc (hart.pc + immJ w)) link
  | 0x67 => jumpTo hart (BitVec.ofNat 128 (loadAddr / 2 * 2)) link
  | 0x63 =>
    match branchTaken hart f3 a b with
    | some true => jumpTo hart (hart.trunc (hart.pc + immB w)) {}
    | some false => {}
    | none => other
  | 0x03 =>
    match f3 with
    | 0 => loadEffect s hart m rd loadAddr 1 true
    | 1 => loadEffect s hart m rd loadAddr 2 true
    | 2 => loadEffect s hart m rd loadAddr 4 true
    | 3 => if 64 ≤ xlen then loadEffect s hart m rd loadAddr 8 true else other
    | 4 => loadEffect s hart m rd loadAddr 1 false
    | 5 => loadEffect s hart m rd loadAddr 2 false
    | 6 => if 64 ≤ xlen then loadEffect s hart m rd loadAddr 4 false else other
    | _ => if 128 ≤ xlen then loadEffect s hart m rd loadAddr 8 false else other
  | 0x23 =>
    match f3 with
    | 0 => storeEffect s hart m storeAddr 1 b
    | 1 => storeEffect s hart m storeAddr 2 b
    | 2 => storeEffect s hart m storeAddr 4 b
    | 3 => if 64 ≤ xlen then storeEffect s hart m storeAddr 8 b else other
    | 4 => if 128 ≤ xlen then storeEffect s hart m storeAddr 16 b else other
    | _ => other
  | 0x07 => fpMemory s hart m w false loadAddr
  | 0x27 => fpMemory s hart m w true storeAddr
  | 0x53 => fpMove s hart m w
  | 0x13 =>
    let imm := hart.trunc (immI w)
    let high := (imm.toNat % 2 ^ 12) / xlen
    if f3 = 1 then
      if high = 0 then { wrGpr := some (rd, alu xlen 1 false a imm) } else other
    else if f3 = 5 then
      if high = 0 ∨ high = 2 ^ 10 / xlen then { wrGpr := some (rd, alu xlen 5 alt a imm) } else other
    else { wrGpr := some (rd, alu xlen f3 false a imm) }
  | 0x33 =>
    if f7 = 0 ∨ (f7 = 0x20 ∧ (f3 = 0 ∨ f3 = 5)) then { wrGpr := some (rd, alu xlen f3 alt a b) }
    else if f7 = 1 ∧ hart.cfg.hasM then { wrGpr := some (rd, mulDiv xlen f3 a.toNat b.toNat) }
    else other
  | 0x1b =>
    if xlen = 64 ∧ (f3 = 0 ∨ (f3 = 1 ∧ f7 = 0) ∨ (f3 = 5 ∧ (f7 = 0 ∨ f7 = 0x20))) then
      let low := fun (v : XWord) => (v.setWidth 32).setWidth 128
      { wrGpr := some (rd, wide hart (alu 32 f3 (f3 == 5 && alt) (low a) (low (immI w)))) }
    else other
  | 0x3b =>
    if xlen = 64 ∧ ((f7 = 0 ∧ (f3 = 0 ∨ f3 = 1 ∨ f3 = 5)) ∨ (f7 = 0x20 ∧ (f3 = 0 ∨ f3 = 5))) then
      let low := fun (v : XWord) => (v.setWidth 32).setWidth 128
      { wrGpr := some (rd, wide hart (alu 32 f3 alt (low a) (low b))) }
    else if xlen = 64 ∧ hart.cfg.hasM ∧ f7 = 1 ∧ (f3 = 0 ∨ 4 ≤ f3) then
      { wrGpr := some (rd, wide hart (mulDiv 32 f3 (a.toNat % 2 ^ 32) (b.toNat % 2 ^ 32))) }
    else other
  | 0x0f =>
    if f3 = 0 then {}
    else if f3 = 1 then { fenceI := true }
    else if f3 = 2 ∧ 128 ≤ xlen then loadEffect s hart m rd loadAddr 16 true
    else other
  | 0x2f =>
    if 2 ≤ f3 ∧ f3 ≤ 4 ∧ 8 * 2 ^ f3 ≤ xlen ∧ hart.cfg.hasA then atomicEffect s hart m w (2 ^ f3) else other
  | _ => other

/-- What the instruction `w` does: a compressed one does what the 32-bit instruction it stands for does
(spec/30_encoding.md R253). -/
def baseEffect (s : State) (hart : Hart) (m w : Nat) : Effect :=
  if w % 4 = 3 then wordEffect s hart m 4 w
  else if hart.cfg.hasC && w != 0 then
    match expandCompressed hart.cfg.xlen w with
    | some v => wordEffect s hart m 2 v
    | none => otherEffect s hart m w
  else { exc := some excIllegal }

/-! ### Applying an effect -/

/-- `fence.i` on hart `h`: its later fetches see memory, and the Program Buffer it executes, as they are now
(spec/20_memory.md R228). -/
def syncFetchAll (h : Nat) (s : State) : State :=
  let fetchBuf := if s.dm.phase = .progbuf ∧ s.dm.cmdHart = h then s.dm.progbuf else s.dm.fetchBuf
  { s with
    imem := if s.cfg.fetchCoherent then s.imem else s.dataView
    dm := { s.dm with fetchBuf := fetchBuf } }

/-- The store of an effect. -/
def effectStore (h : Nat) (e : Effect) (s : State) : State :=
  match e.store with
  | some (a, bytes) => hartStore h a bytes s
  | none => s

/-- The CSR write of an effect; one outside what the hart may access is not made. -/
def effectCsr (h : Nat) (e : Effect) (s : State) : State :=
  match e.wrCsr, s.harts[h]? with
  | some (num, v), some hart => if hart.csrAccess s num true then writeCsr hart.debugMode h num v s else s
  | _, _ => s

/-- The registers an effect of an instruction of `len` bytes writes, and the move of the pc. -/
def Hart.finishEffect (len : Nat) (e : Effect) (hart : Hart) : Hart :=
  let hart := match e.wrGpr with
    | some (i, v) => hart.setGpr i v
    | none => hart
  let hart := match e.wrFpr with
    | some (i, v) => hart.setFpr i v
    | none => hart
  let hart := { hart.retire len with reservation := e.reserve.getD hart.reservation }
  match e.nextPc with
  | some t => { hart with pc := hart.pcBits t }
  | none => hart

/-- Apply what an instruction of `len` bytes does to hart `h`: its exception, or its stores and register writes and the
move of the pc. -/
def applyEffect (h len : Nat) (e : Effect) (s : State) : State :=
  match e.exc with
  | some cause => raise h cause s
  | none =>
    let s := effectCsr h e (effectStore h e s)
    (if e.fenceI then syncFetchAll h s else s).modHart h (Hart.finishEffect len e)

end Sys2Proof.Machine
end

