-- ==== Sys2Proof/Machine/HartMove.lean ====
section
/-! DEFINITION. One move of a hart (spec/41_reset_select_run.md R340; spec/60_exceptions.md R650 to R672): leaving reset,
resuming, entering Debug Mode at an instruction boundary by the priority of R655, taking an interrupt, or executing one
instruction of its program or of the Program Buffer; and what follows an instruction: timing-1 triggers, instruction counts,
single step. -/

namespace Sys2Proof.Machine

/-- What is left to do after the meaning of an instruction has run: nothing; hand a DMI access's result to the DTM; or the
end of a running hart's instruction, executed at privilege `p`. -/
inductive After
  | none
  | dtm (write : Bool)
  | hart (h : Nat) (p : Priv) (facts : Facts)
  deriving DecidableEq, Repr

/-- A move: an instruction to be executed by `exec` in a state, or a change of state without one. -/
inductive Move
  | run (i : Instr) (s : State) (a : After)
  | quiet (s : State)

/-! ### Requests -/

/-- A Quick Access waits for hart `h` to halt (R400). -/
def quickPending (s : State) (h : Nat) : Bool := s.dm.phase == .quickHalt && s.dm.cmdHart == h

/-- Entry to Debug Mode for a reason other than a halt request: a Quick Access waiting for the hart ends with cmderr 4
(R400). -/
def enterOther (h : Nat) (cause : BitVec 3) (addr : XWord) (s : State) : State :=
  let t := enterDebug h cause addr s
  if quickPending s h then finishCommand (some errHaltResume) t else t

/-- Entry to Debug Mode on a halt request, or on a Quick Access's internal one, which then starts the Program Buffer; with
both, the outcome of the Quick Access is a free choice (spec/93_implementation_defined.md U19; notes/assumptions/23.md). -/
def enterRequested (h : Nat) (haltreq : Bool) (pc : XWord) (s : State) : State :=
  let t := enterDebug h 3 pc (s.bump 1)
  if quickPending s h then
    if haltreq && Config.freeBit s.free then finishCommand (some errHaltResume) t else startProgbuf h t
  else t

/-- Whether the hart is asked to halt. -/
def wantsHalt (s : State) (h : Nat) (hart : Hart) : Bool := hart.ctl.haltreq || quickPending s h

/-! ### The end of a running hart's instruction -/

/-- Single step (R670): with dcsr.step set, Debug Mode is entered at the next pc with cause 4, or 3 if a halt request is
pending at that boundary. -/
def stepEnd (h : Nat) (s : State) : State :=
  match s.harts[h]? with
  | none => s
  | some hart =>
    if hart.debugMode || !hart.dcsr.step then s
    else if wantsHalt s h hart then enterRequested h hart.ctl.haltreq hart.pc s
    else enterDebug h 4 hart.pc s

/-- The breakpoint exception of triggers with action 0 (R547), at an instruction boundary: an exception taken, which the
instruction counts see (R561), at the privilege the hart has then, which is the one after an instruction that changed it
(R561 does not say; notes/assumptions/34.md); a count that fires on it enters Debug Mode at the handler's first
instruction (R563), or raises the next breakpoint exception. `fuel` bounds these: each takes another count that reaches
0. Then single step. -/
def breakpoints (h : Nat) : Nat → State → State
  | 0, s => stepEnd h s
  | fuel + 1, s =>
    match s.harts[h]? with
    | none => s
    | some hart =>
      let t := (raise h excBreakpoint s).modHart h (Hart.countDown · hart.priv)
      if hart.countFiresWith hart.priv 1 then enterOther h 2 ((t.harts[h]?.map (·.pc)).getD 0) t
      else if hart.countFiresWith hart.priv 0 then breakpoints h fuel t
      else stepEnd h t

/-- Whether an action of the triggers is to be taken now: it fires at once, or it may come late (`due` from before, or now)
and does not wait on (R548; notes/assumptions/31.md). -/
def actsNow (hart : Hart) (p : Priv) (ms : List Bool) (due hold : Bool) (action : BitVec 6) : Bool :=
  hart.firesSkidding ms action false || hart.countFiresWith p action ||
    ((due || hart.firesSkidding ms action true) && !hold)

/-- The hart after the triggers have looked at an instruction: hits, counts, and the actions that wait on (an entry to Debug
Mode where `holdEntry`, a breakpoint exception where `holdBreak`). -/
def Hart.afterTriggers (hart : Hart) (p : Priv) (ms : List Bool) (holdEntry holdBreak : Bool) : Hart :=
  { (hart.setHits ms).countDown p with
    dueEntry := (hart.dueEntry || hart.firesSkidding ms 1 true) && holdEntry
    dueBreak := (hart.dueBreak || hart.firesSkidding ms 0 true) && holdBreak }

/-- After an instruction of hart `h` completed or trapped at privilege `p`: timing-1 triggers of a completed instruction
and instruction counts (R548, R561), action 1 before action 0 (R551), then single step. In single step an entry to Debug
Mode does not wait on: the cause is 2, not 4 (R551, R670). An instruction that entered Debug Mode (an ebreak) ends here, and
ends a Quick Access that waited with cmderr 4 (R400). A timing-1 trigger is compared with the settings it has after the
instruction, also one that wrote them (R542 does not say; notes/assumptions/31.md). No trigger acts after an ebreak that
entered Debug Mode (R655 and R561 do not say; notes/assumptions/31.md). -/
def finishHart (h : Nat) (p : Priv) (f : Facts) (s : State) : State :=
  match s.harts[h]? with
  | none => s
  | some hart =>
    if hart.debugMode then (if quickPending s h then finishCommand (some errHaltResume) s else s)
    else
      let ms := if hart.trapped then [] else hart.trigMatches p true f
      let hold := Config.freeBit s.free
      let holdEntry := !hart.dcsr.step && hold
      let t := (s.modHart h fun hart => hart.afterTriggers p ms holdEntry hold).bump 1
      if actsNow hart p ms hart.dueEntry holdEntry 1 then enterOther h 2 hart.pc t
      else if actsNow hart p ms hart.dueBreak hold 0 then breakpoints h (hart.trigs.length + 1) t
      else stepEnd h t

/-! ### Interrupts (PRESUMED, the privileged ISA; spec/60_exceptions.md R685; notes/assumptions/33.md) -/

/-- Interrupt causes from the highest priority down. -/
def interruptOrder : List Nat := [11, 3, 7, 9, 1, 5, 8, 0, 4]

/-- Whether an interrupt is pending, enabled, and not masked at the hart's privilege. -/
def Hart.interruptReady (hart : Hart) (c : Nat) : Bool :=
  hart.sys.mip.getLsbD c && hart.sys.mie.getLsbD c &&
    (if hart.cfg.privs.contains .s && hart.sys.mideleg.getLsbD c then
      hart.priv == .u || (hart.priv == .s && hart.sys.mstatus.getLsbD 1)
    else hart.priv != .m || hart.sys.mstatus.getLsbD 3)

/-- The interrupt the hart takes at this boundary: none in single step unless stepie is set (R671). -/
def Hart.interrupt (hart : Hart) : Option Nat :=
  if hart.dcsr.step && !hart.dcsr.stepie then none else interruptOrder.find? hart.interruptReady

/-! ### Leaving reset and resuming -/

/-- A hart leaves reset (R334, R664): it halts with cause 3 at its reset entry before executing anything if its halt
request is set, or if it was halted when a system reset came and HALT_KEPT_ACROSS_NDMRESET, with dmactive 1 at this
moment (notes/assumptions/29.md); else it runs. It has its reset values: it took them when the reset was asserted
(`Hart.doReset`) and nothing has written them since (`writeReg`). Its havereset bit is set, whatever was acknowledged
while it was in reset (R313, R328, R329). A Quick Access that waits for the hart ends as at any other halt (R400): a
kept halt is another reason, with the halt request the outcome is open (U19). -/
def leaveReset (h : Nat) (hart : Hart) (s : State) : State :=
  let t := s.modHart h fun hart =>
    { hart with inReset := false, resetHalt := false, ctl := { hart.ctl with havereset := true } }
  let entry := BitVec.ofNat 128 hart.cfg.resetPc
  if hart.ctl.haltreq then enterRequested h true entry t
  else if hart.resetHalt && s.cfg.haltKeptAcrossNdmreset && s.dm.dmactive then enterOther h 3 entry t
  else t

/-- Whether the resume transition of R325 is enabled for a halted hart. -/
def resumeEnabled (s : State) (h : Nat) (hart : Hart) : Bool :=
  hart.ctl.resumereq && !hart.ctl.haltreq && !hart.ctl.resumeack && !(s.dm.busy && s.dm.cmdHart == h)

/-- The resume transition (R325): the hart leaves Debug Mode and acknowledges. -/
def resumeHart (h : Nat) (s : State) : State :=
  (leaveDebug h s).modHart h fun hart => { hart with ctl := { hart.ctl with resumeack := true } }

/-! ### One instruction -/

/-- The instruction word `w`, executed by hart `h`: a row of the table is left to `exec`, another CSR instruction or
base-ISA instruction is carried out here; `e` is its effect if it is one of these. -/
def wordMove (h : Nat) (w : Nat) (e : Effect) (s : State) (a : After) (fin : State → State) : Move :=
  match decodeHart w with
  | .ok i => .run i s a
  | .error _ =>
    match if w % 4 = 3 then csrOperands w else none with
    | some op => .quiet (fin (csrInsn (w / 2 ^ 20 % 2 ^ 12) op h s))
    | none => .quiet (fin (applyEffect h (insnLength w) e s))

/-- Whether a word is a table row or a CSR instruction, whose effect is not an `Effect`. -/
def isRowOrCsr (w : Nat) : Bool := (decodeHart w).isOk || (w % 4 == 3 && (csrOperands w).isSome)

/-- The effect of the fetched word on a hart, empty for a table row or a CSR instruction. -/
def effectOf (s : State) (hart : Hart) (m w : Nat) : Effect := if isRowOrCsr w then {} else baseEffect s hart m w

/-- The effect of what was fetched: empty if the fetch faulted. -/
def fetchedEffect (s : State) (hart : Hart) (m : Nat) : Option Nat → Effect
  | some w => effectOf s hart m w
  | none => {}

/-- What the triggers see of an instruction (R543). Whether an address whose fetch faults counts as executed is a free
choice, numbered `n`, and a value wider than XLEN is shown whole (notes/assumptions/31.md). -/
def factsOf (hart : Hart) (n : Nat) (fetched : Option Nat) (e : Effect) : Facts where
  pc := if fetched.isSome || Config.freeBit n then some hart.pc else none
  insn := fetched.map (BitVec.ofNat 128)
  load := e.load.map fun p => (BitVec.ofNat 128 p.1, p.2)
  store := e.store.map fun p =>
    (BitVec.ofNat 128 p.1, if p.2.isEmpty then none else some (BitVec.ofNat 128 (bytesToNat p.2)))

/-- Whether the fetched word is an ebreak that enters Debug Mode (R492, R493). -/
def entersByEbreak (hart : Hart) (fetched : Option Nat) : Bool :=
  hart.ebreakEnabled &&
    match fetched with
    | some w => w % 2 ^ 32 == 0x00100073 || (hart.cfg.hasC && w == 0x9002)
    | none => false

/-- A move of a hart in Debug Mode: an instruction of the Program Buffer (R380, an exception on its fetch ends it, R386),
the resume transition, or nothing but a cycle that the counters may see (R690). -/
def debugMove (h : Nat) (hart : Hart) (s : State) : Move :=
  if hart.inProgbuf then
    let m := s.free
    let t := s.bump 8
    match fetchInsn s hart m with
    | none => .quiet (raise h 1 t)
    | some w => wordMove h w (effectOf s hart (m + 2) w) t .none id
  else if resumeEnabled s h hart then .quiet (resumeHart h s)
  else .quiet (s.modHart h fun hart => hart.countUp false)

/-- A move of a running hart, by the priority of R655 and the order of R656, R670: a timing-0 trigger with action 1; an
ebreak that enters Debug Mode; a halt request; an interrupt; a timing-0 trigger with action 0; the instruction. The hart
executes no instruction between a halt request and its entry (R662 allows any number; notes/assumptions/3.md). -/
def runMove (h : Nat) (hart : Hart) (s : State) : Move :=
  let m := s.free
  let t := s.bump 8
  let fetched := fetchInsn s hart m
  let e := fetchedEffect s hart (m + 2) fetched
  let f := factsOf hart (m + 6) fetched e
  let p := hart.priv
  let ms := hart.trigMatches p false f
  let hit := t.modHart h fun hart => hart.setHits ms
  if hart.firesWith ms 1 then .quiet (enterOther h 2 hart.pc hit)
  else if wantsHalt s h hart && !entersByEbreak hart fetched then .quiet (enterRequested h hart.ctl.haltreq hart.pc t)
  else if hart.interrupt.isSome && !entersByEbreak hart fetched then
    .quiet (stepEnd h (t.modHart h fun hart => hart.trap true (hart.interrupt.getD 0) (Config.freeWord (m + 7))))
  else if hart.firesWith ms 0 && !entersByEbreak hart fetched then
    .quiet (finishHart h p f (raise h excBreakpoint hit))
  else
    match fetched with
    | none => .quiet (finishHart h p f (raise h 1 hit))
    | some w => wordMove h w e hit (.hart h p f) (finishHart h p f)

/-- One move of hart `h`: nothing while it is unavailable or held in reset. A command already started on a hart that is
unavailable waits for it (notes/assumptions/55.md). -/
def hartMove (h : Nat) (s : State) : Move :=
  let s := { s with cur := h }
  match s.harts[h]? with
  | none => .quiet s
  | some hart =>
    if !hart.avail then .quiet s
    else if hart.inReset then (if s.resetLine hart then .quiet s else .quiet (leaveReset h hart s))
    else
      let s := s.modHart h fun hart => { hart with trapped := false }
      if hart.debugMode then debugMove h hart s else runMove h hart s

end Sys2Proof.Machine
end

