-- ==== Sys2Proof/Machine/Sched.lean ====
section
/-! DEFINITION. What happens next: the next event of the queue, or, when the queue is empty, the next pending activity
(spec/00_scope.md R30, spec/92_eei_decisions.md D33; notes/assumptions/3.md). -/

namespace Sys2Proof.Machine

/-- Whether a DMI address is in this DM's range, offsets 0x00 to 0x40 and that of haltsum1 (spec/10_state.md R50). -/
def inDmRange (c : Config) (a : Nat) : Bool :=
  decide (c.dmBase ≤ a) && (decide (a - c.dmBase ≤ 0x40) || a - c.dmBase == c.haltsum1Addr)

/-- What is left to do after an instruction: see `After`. The result of a write is any value (spec/46_jtag_dtm.md R600). -/
def finish (a : After) (s : State) : State :=
  match a with
  | .none => s
  | .dtm write =>
    { s with dtm := { s.dtm with
        pending := .finished (if write then freeWord32 s.free else s.dmiOut) false } }.bump 1
  | .hart h p f => finishHart h p f s

/-- A DMI access that reaches no register of this DM: inside the DM's range it reads 0 and a write has no effect
(spec/10_state.md R50); outside it reads any value, a write is ignored (spec/93_implementation_defined.md U1). -/
def missAccess (inside : Bool) (acc : DmAcc) (s : State) : State :=
  match acc with
  | .read => if inside then answer 0 s else answerFree s
  | .write _ => s

/-- One DMI access (spec/40_dmi_dm_access.md R281, R282). Where no DM is at address 0, a read of address 0x11 gives 0:
version 0 says so (R292); a DM_BASE other than 0 is taken to mean that none is (notes/assumptions/27.md). Outside every DM
an access may otherwise fail if DMI_CAN_FAIL (R284). -/
def dmiMove (address : Word) (acc : DmAcc) (a : After) (s : State) : Move :=
  if inDmRange s.cfg address.toNat then
    match decodeDmAt s.cfg.haltsum1Addr (address.toNat - s.cfg.dmBase) acc with
    | .ok i => .run i s a
    | .error _ => .quiet (finish a (missAccess true acc s))
  else if address = 0x11 then .quiet (finish a (missAccess true acc (s.bump 1)))
  else if s.cfg.dmiCanFail && Config.freeBit s.free && a != .none then
    .quiet ({ s with dtm := { s.dtm with pending := .finished 0 true } }.bump 1)
  else .quiet (finish a (missAccess false acc (s.bump 1)))

/-- The DTM lets its outstanding transaction reach the DM (spec/46_jtag_dtm.md R603). -/
def dtmMove (s : State) : Move :=
  match s.dtm.pending with
  | .inProgress address acc =>
    dmiMove address acc (.dtm (match acc with
      | .read => false
      | .write _ => true)) s
  | _ => .quiet s

/-- The command engine executes the command it has started (spec/42_abstract_commands.md R362). -/
def engineMove (s : State) : Move :=
  if s.dm.phase = .started then .run (decodeCommand s.dm.cmd.toNat) s .none else .quiet s

/-- The width of the data register the IR selects (spec/30_encoding.md R240). -/
def drWidth (s : State) : Nat :=
  match s.dtm.ir with
  | 0x01 => 32
  | 0x10 => 32
  | 0x11 => s.cfg.abits + 34
  | _ => 1

/-- ScanIR: an IR value that is not listed selects BYPASS (spec/46_jtag_dtm.md R585). -/
def scanIrMove (v : Nat) (s : State) : Move :=
  match decodeIrCode (v % 2 ^ s.cfg.irlen) .select with
  | .ok i => .run i s .none
  | .error _ => .quiet (selectIr v s)

/-- ScanDR of the register the IR selects (R581); a scan longer than the register leaves its low bits in it. -/
def scanDrMove (tdi : BitVec 66) (s : State) : Move :=
  match decodeIrCode s.dtm.ir (.scan (BitVec.ofNat 66 (tdi.toNat % 2 ^ drWidth s))) with
  | .ok i => .run i s .none
  | .error _ => .quiet (scanBypass s)

/-- The row of dmi_scan_out a capture of dmi is (spec/30_encoding.md R255). -/
def captureInsn (s : State) : Instr :=
  let r := captureReport s
  if r.1 = dtmFailed then .dmiStatusFailed r.2.1 r.2.2
  else if r.1 = dtmBusy then .dmiStatusBusy r.2.1 r.2.2
  else .dmiStatusOk r.2.1 r.2.2

/-- Capture-DR alone. -/
def captureMove (s : State) : Move :=
  match s.dtm.ir with
  | 0x11 => .run (captureInsn s) s .none
  | 0x10 => .quiet (shiftOut (BitVec.ofNat 66 (dtmcsValue s)) s)
  | 0x01 => .quiet (shiftOut (BitVec.ofNat 66 (idcodeValue s.cfg)) s)
  | _ => .quiet (scanBypass s)

/-- Update-DR alone. -/
def updateMove (tdi : BitVec 66) (s : State) : Move :=
  let v := tdi.toNat % 2 ^ drWidth s
  match s.dtm.ir with
  | 0x11 => .run (decodeDmiIn v) s .none
  | 0x10 =>
    match decodeDtmcsIn v with
    | .ok i => .run i s .none
    | .error _ => .quiet s
  | _ => .quiet s

/-- Time passes for hart `h`: its timer advances unless stoptime stops it in Debug Mode (spec/60_exceptions.md R690). -/
def Hart.tick (n : Nat) (hart : Hart) : Hart :=
  if hart.debugMode && hart.dcsr.stoptime then hart else { hart with timer := hart.timer + BitVec.ofNat 64 n }

/-- The move an event stands for. While a hart is unavailable its state is kept (spec/60_exceptions.md R698 leaves open what
a powered-down hart keeps; notes/assumptions/55.md). -/
def eventMove (e : Event) (s : State) : Move :=
  match e with
  | .tapReset => .quiet (tapReset s)
  | .scanIR v => scanIrMove v s
  | .scanDR tdi => scanDrMove tdi s
  | .captureDR => captureMove s
  | .updateDR tdi => updateMove tdi s
  | .runIdle _ => .quiet s
  | .dmi address acc => dmiMove address acc .none s
  | .dtm => dtmMove s
  | .engine => engineMove s
  | .bus => .quiet (busComplete s)
  | .auth => .quiet (authComplete s)
  | .hart h => hartMove h s
  | .extReset b => .quiet (applyResets s.harts.length { s with extReset := b })
  | .hartReset h => .quiet (resetHart false true h s)
  | .avail h b => .quiet (s.modHart h fun hart => { hart with avail := b })
  | .setMip h v => .quiet (s.modHart h fun hart => { hart with sys := { hart.sys with mip := hart.trunc v } })
  | .tick h n => .quiet (s.modHart h (Hart.tick n))
  | .dropReservation h =>
    .quiet (s.modHart h fun hart => if hart.debugMode then { hart with reservation := none } else hart)
  | .busToHart a => .quiet { s with hmem := if s.cfg.sbaCoherent then s.hmem else s.hmem.write a (s.mem.read a) }
  | .hartToBus a => .quiet { s with mem := if s.cfg.sbaCoherent then s.mem else s.mem.write a (s.hmem.read a) }
  | .syncFetch a => .quiet { s with imem := if s.cfg.fetchCoherent then s.imem else s.imem.write a (s.dataView.read a) }

/-- The zero-latency instance of D33, when the queue is empty: the DTM, then the command engine, the bus master, the
authentication module, and when none of them is busy the harts in turn. -/
def idleMove (s : State) : Move :=
  match s.dtm.pending with
  | .inProgress _ _ => dtmMove s
  | _ =>
    if s.dm.phase = .started then engineMove s
    else if s.sb.busy then .quiet (busComplete s)
    else if s.dm.authbusy then .quiet (authComplete s)
    else hartMove (s.rr % s.harts.length) { s with rr := (s.rr + 1) % s.harts.length }

/-- The next move of the machine. -/
def nextMove (s : State) : Move :=
  match s.queue with
  | [] => idleMove s
  | e :: q => eventMove e { s with queue := q }

end Sys2Proof.Machine
end

