-- ==== Sys2Proof/Machine/Step.lean ====
section
/-! DEFINITION. One step of the machine: the next move, its instruction run by `exec`, and what is left to do after it; and
how the host places an instruction for the next step. -/

namespace Sys2Proof.Machine

/-- One step: `nextMove` names an instruction and the state it runs in, or a change of state without one. -/
def step (s : State) : Host.Outcome State Fault Refusal :=
  match nextMove s with
  | .quiet t => .next t
  | .run i t a =>
    match exec i t with
    | .next u => .next (finish a u)
    | .fault r => .fault r
    | .refused r => .refused r

/-- The state in which hart 0 fetches these bytes next: at its pc, in every view of memory, the hart available, out of
reset, running and not asked to halt. -/
def State.placeHart (s : State) (w : Nat) : State :=
  let pc := match s.harts[0]? with
    | some hart => hart.pc.toNat
    | none => 0
  let bytes := natToBytes 4 w
  let s := s.modHart 0 fun hart =>
    { hart with avail := true, inReset := false, debugMode := false, inProgbuf := false, ctl := { hart.ctl with haltreq := false } }
  { s with
    mem := s.mem.writes pc bytes
    hmem := s.hmem.writes pc bytes
    imem := s.imem.writes pc bytes
    queue := [.hart 0] }

/-- `s` with a row of spec/opcode_table.json where the next step takes it from, in the way of its encoding space
(notes/assumptions/4.md): hart 0's fetch, the command the engine has started, an Update-DR of dmi or dtmcs, a Capture-DR of
dmi, a ScanIR, or a DMI read of the register. -/
def State.withFetchWord (s : State) (nbits w : Nat) : State :=
  match (decodeTableWord nbits w).map encode with
  | none => s
  | some (.hart, v) => s.placeHart v
  | some (.command, v) =>
    { s with
      dm := { s.dm with phase := .started, cmd := BitVec.ofNat 32 v, cmdHart := s.hartsel }
      queue := [.engine] }
  | some (.dmiIn, v) =>
    { s with dtm := { s.dtm with ir := 0x11, status := 0 }, queue := [.updateDR (BitVec.ofNat 66 v)] }
  | some (.dmiOut, _) => { s with dtm := { s.dtm with ir := 0x11 }, queue := [.captureDR] }
  | some (.dtmcsIn, v) => { s with dtm := { s.dtm with ir := 0x10 }, queue := [.updateDR (BitVec.ofNat 66 v)] }
  | some (.ir, v) => { s with queue := [.scanIR (v % 2 ^ 8)] }
  | some (.dm, v) => { s with queue := [.dmi (BitVec.ofNat 32 (s.cfg.dmBase + v % 2 ^ 32)) .read] }

end Sys2Proof.Machine
end

