-- ==== Sys2Proof/Safety.lean ====
section
/-! DEFINITION. What counts as a good state: the invariants of the machine, each a property the spec gives the registers,
and what a configuration must satisfy for them. -/

namespace Sys2Proof.Machine

/-! ### Memory -/

/-- Every memory of the machine is in canonical form. -/
def State.memoryOk (s : State) : Prop := s.mem.wf ∧ s.hmem.wf ∧ s.imem.wf

/-- Every byte of every view of memory reads in `t` as in `s`. -/
def State.sameBytes (s t : State) : Prop :=
  ∀ a, t.mem.read a = s.mem.read a ∧ t.hmem.read a = s.hmem.read a ∧ t.imem.read a = s.imem.read a

/-! ### The configuration never changes (spec/10_state.md R41) -/

/-- The configuration of a hart: its own and its triggers'. -/
def Hart.fixedPart (hart : Hart) : HartCfg × List TrigCfg := (hart.cfg, hart.trigs.map (·.cfg))

/-- The configuration of the machine. -/
def State.fixedPart (s : State) : Config × List (HartCfg × List TrigCfg) := (s.cfg, s.harts.map Hart.fixedPart)

/-- What a trigger's parameters may be (spec/00_scope.md R10; spec/10_state.md R145, R146): the types of Table 5.1, and a
count that can hold 1; hardware whose count cannot be 0 clears the mode bits instead (spec/45_triggers.md R561). -/
def TrigCfg.legal (c : TrigCfg) : Prop :=
  c.kind ∈ [0, 1, 2, 3, 15] ∧ c.maskmax < 64 ∧ c.countMin ≤ 1 ∧ 1 ≤ c.countMax ∧ c.countMax < 2 ^ 14 ∧
    (c.countMin = 1 → c.icountClearsModes = true)

/-- What a hart's parameters may be (R10, and R11 (c)). -/
def HartCfg.legal (c : HartCfg) : Prop :=
  c.xlen ∈ [32, 64, 128] ∧ c.nscratch ≤ 15 ∧ c.datasize ≤ 12 ∧ c.xdebugver ∈ [0, 4, 15] ∧ .m ∈ c.privs

/-- What the parameters of a machine may be: the ranges of spec/00_scope.md R10 and R14, and the constraints (a) to (f) of
R11. -/
def legalParameters (c : Config) (harts : List (HartCfg × List TrigCfg)) : Prop :=
  (1 ≤ harts.length ∧ harts.length ≤ 2 ^ 20) ∧ c.hartsellen ≤ 20 ∧ c.progbufsize ≤ 16 ∧ c.datacount ≤ 12 ∧
    c.sbasize ≤ 127 ∧ (7 ≤ c.abits ∧ c.abits ≤ 32) ∧ c.idle ≤ 7 ∧ 5 ≤ c.irlen ∧
    (c.idVersion < 2 ^ 4 ∧ c.idPart < 2 ^ 16 ∧ c.idManuf < 2 ^ 11) ∧
    (32 < harts.length → c.hasHaltsum1 = true) ∧ (1024 < harts.length → c.hasHaltsum2 = true) ∧
    (32768 < harts.length → c.hasHaltsum3 = true) ∧
    (c.notHaltedCmderr = 2 ∨ c.notHaltedCmderr = 4) ∧ (c.dtmStatusReset = 0 ∨ c.dtmStatusReset = 2) ∧
    (c.progbufsize = 1 → c.impebreak = true) ∧ (0 < c.progbufsize ∨ 0 < c.sbasize) ∧
    ∀ h ∈ harts, HartCfg.legal h.1 ∧ h.1.xlen / 32 ≤ c.datacount ∧ ∀ t ∈ h.2, TrigCfg.legal t

/-! ### The Debug Transport Module -/

/-- The sticky status is not the reserved code 1 (spec/30_encoding.md R265, spec/46_jtag_dtm.md R601), and the address has
ABITS bits (spec/10_state.md R162). -/
def State.dtmOk (s : State) : Prop := s.dtm.status ≠ 1 ∧ s.dtm.address.toNat < 2 ^ s.cfg.abits

/-! ### The Debug Module -/

/-- The registers of the DM hold what their fields can hold: HARTSELLEN bits of hartsel (spec/41_reset_select_run.md R311,
R314), only supported bits of abstractauto (spec/10_state.md R62), no hasel and no hartreset where they are not implemented
(R316, R328). -/
def State.dmOk (s : State) : Prop :=
  s.dm.hartsel.toNat < 2 ^ s.cfg.hartsellen ∧ s.dm.auto &&& ~~~autoexecBits s.cfg = 0 ∧
    (s.cfg.hasHasel = false → s.dm.hasel = false) ∧ (s.cfg.hasHartreset = false → s.dm.hartresetLatch = false)

/-- The registers of System Bus Access hold what their fields can hold: sberror is 0 to 3 (spec/43_system_bus_access.md
R436), sbaddress has SBASIZE bits (R432). -/
def State.sbOk (s : State) : Prop := s.sb.error.toNat < 4 ∧ s.sb.address.toNat < 2 ^ s.cfg.sbasize

/-- While dmactive is 0 every register of the DM holds its reset value, and no hart has a request, an acknowledgement or a
mask bit (spec/40_dmi_dm_access.md R291, spec/41_reset_select_run.md R312). -/
def State.inactiveOk (s : State) : Prop :=
  s.dm.dmactive = false →
    s.dm = Dm.reset s.cfg ∧ s.sb = Sb.reset ∧
      ∀ hart ∈ s.harts, hart.ctl.haltreq = false ∧ hart.ctl.resumereq = false ∧ hart.ctl.hartreset = false ∧
        hart.ctl.resumeack = false ∧ hart.ctl.mask = false

/-! ### Harts -/

/-- The modes of a hart fit together: it executes the Program Buffer only in Debug Mode (spec/41_reset_select_run.md
R340), a hart in Debug Mode has one of the four causes of spec/60_exceptions.md R650 in dcsr.cause, and 5 to 7 never
appear there. -/
def Hart.modesOk (hart : Hart) : Prop :=
  (hart.inProgbuf = true → hart.debugMode = true) ∧ (hart.debugMode = true → 1 ≤ hart.dcsr.cause.toNat) ∧
    hart.dcsr.cause.toNat ≤ 4

/-- What the configuration of a hart must say of its privilege levels: machine mode is always there, and the lower levels
are where something needs them. -/
def privsOk (c : HartCfg) : Prop :=
  .m ∈ c.privs ∧ (c.hasN = true → .u ∈ c.privs) ∧ (.s ∈ c.privs → .u ∈ c.privs)

/-- The hart runs at a privilege level it supports (spec/44_debug_mode.md R503). -/
def Hart.privOk (hart : Hart) : Prop := privsOk hart.cfg → hart.priv ∈ hart.cfg.privs

/-- The fields of a trigger hold legal values: action 1 only with dmode (spec/45_triggers.md R541, R547), no reserved action
and no reserved match, and a hit bit only where it is implemented (R550). -/
def Trigger.ok (t : Trigger) : Prop :=
  (t.action = 1 → t.dmode = true) ∧ t.action.toNat ≤ 4 ∧ t.mtch.toNat ≤ 5 ∧ (t.hit = true → t.cfg.hasHit = true)

/-- Every trigger of a hart is legal. -/
def Hart.triggersOk (hart : Hart) : Prop := ∀ t ∈ hart.trigs, t.ok

/-- A property of every hart. -/
def State.everyHart (s : State) (P : Hart → Prop) : Prop := ∀ hart ∈ s.harts, P hart

/-! ### What the statements speak of -/

/-- The DM answers accesses by each register's own rule: active, authenticated, and outside the reset window
(spec/40_dmi_dm_access.md R281, R290, R291, R294). -/
def State.dmReady (s : State) : Prop :=
  s.dm.dmactive = true ∧ s.dm.authenticated = true ∧ s.dm.ndmreset = false ∧ s.extReset = false

/-- Hart index `h` is among the currently selected harts (spec/41_reset_select_run.md R316). -/
def State.selects (s : State) (h : Nat) : Prop :=
  h = s.dm.hartsel.toNat ∨ (s.dm.hasel = true ∧ ∃ hart, s.harts[h]? = some hart ∧ hart.ctl.mask = true)

/-- Outside the DM and hart `h`, `t` is `s` up to the number of the next free value: configuration, DTM, System Bus Access,
every byte of memory, external reset, events, the scheduler, the last answer, and every other hart. -/
def State.sameElsewhere (s : State) (h : Nat) (t : State) : Prop :=
  t.cfg = s.cfg ∧ t.dtm = s.dtm ∧ t.sb = s.sb ∧ s.sameBytes t ∧ t.extReset = s.extReset ∧ t.queue = s.queue ∧
    t.cur = s.cur ∧ t.rr = s.rr ∧ t.dmiOut = s.dmiOut ∧ t.harts.length = s.harts.length ∧
    ∀ k, k ≠ h → t.harts[k]? = s.harts[k]?

/-- Outside hart `h`, `t` is `s` up to the number of the next free value. -/
def State.onlyHart (s : State) (h : Nat) (t : State) : Prop := s.sameElsewhere h t ∧ t.dm = s.dm

/-- `new` is `old` but for the pc and the counters, and with stopcount 1 in Debug Mode the counters too are as they were
(spec/44_debug_mode.md R486, spec/60_exceptions.md R690). -/
def Hart.onlyMovesOn (old new : Hart) : Prop :=
  new = { old with pc := new.pc, cycle := new.cycle, instret := new.instret } ∧
    (old.debugMode = true → old.dcsr.stopcount = true → new.cycle = old.cycle ∧ new.instret = old.instret)

/-- The general registers after an instruction that gives `v` to register `rd`: x0 and a register the hart does not have
discard it, every other register is as it was (spec/10_state.md R180). -/
def Hart.rdGets (old : Hart) (rd : Nat) (v : XWord) (new : Hart) : Prop :=
  ∀ j, j < 32 → new.gpr j = if j = rd ∧ j ≠ 0 ∧ j < old.cfg.ngpr then old.trunc v else old.gpr j

/-- Hart `h` takes an ordinary exception `cause` (outside Debug Mode; spec/60_exceptions.md R651) and nothing else happens:
what the trap does to the hart is `Hart.trap`, with any trap value. -/
def State.takesException (s : State) (h cause : Nat) (t : State) : Prop :=
  s.onlyHart h t ∧ ∃ hart tval, s.harts[h]? = some hart ∧ t.harts[h]? = some (hart.trap false cause tval)

/-- The twelve rows data0 to data11. -/
def dataRows : List (DmAcc → Instr) :=
  [.data0, .data1, .data2, .data3, .data4, .data5, .data6, .data7, .data8, .data9, .data10, .data11]

/-- The sixteen rows progbuf0 to progbuf15. -/
def progbufRows : List (DmAcc → Instr) :=
  [.progbuf0, .progbuf1, .progbuf2, .progbuf3, .progbuf4, .progbuf5, .progbuf6, .progbuf7, .progbuf8, .progbuf9, .progbuf10,
    .progbuf11, .progbuf12, .progbuf13, .progbuf14, .progbuf15]

/-- The rows of DM registers that may be absent, each with its presence condition (spec/10_state.md R50,
spec/43_system_bus_access.md R430). -/
def optionalRows (c : Config) : List ((DmAcc → Instr) × Bool) :=
  (dataRows.mapIdx fun i row => (row, decide (i < c.datacount))) ++
    (progbufRows.mapIdx fun i row => (row, decide (i < c.progbufsize))) ++
    [(.hartinfo, c.hasHartinfo), (.abstractauto, c.hasAbstractauto), (.hawindowsel, c.hasHasel),
      (.hawindow, c.hasHasel), (.haltsum1, c.hasHaltsum1), (.haltsum2, c.hasHaltsum2), (.haltsum3, c.hasHaltsum3),
      (.sbcs, decide (0 < c.sbasize)), (.sbaddress0, decide (0 < c.sbasize)),
      (.sbaddress1, decide (33 ≤ c.sbasize)), (.sbaddress2, decide (65 ≤ c.sbasize)),
      (.sbaddress3, decide (97 ≤ c.sbasize)),
      (.sbdata0, decide (0 < c.sbasize) &&
        (c.sbaccess8 || c.sbaccess16 || c.sbaccess32 || c.sbaccess64 || c.sbaccess128)),
      (.sbdata1, decide (0 < c.sbasize) && (c.sbaccess64 || c.sbaccess128)),
      (.sbdata2, decide (0 < c.sbasize) && c.sbaccess128), (.sbdata3, decide (0 < c.sbasize) && c.sbaccess128)]

/-- Every DM register row but dmcontrol, dmstatus and authdata, which alone are accessible without authentication. -/
def gatedRows : List (DmAcc → Instr) :=
  dataRows ++ progbufRows ++
    [.hartinfo, .hawindowsel, .hawindow, .abstractcs, .command, .abstractauto, .haltsum0, .haltsum1, .haltsum2, .haltsum3,
      .devtreeaddr0, .devtreeaddr1, .devtreeaddr2, .devtreeaddr3, .nextdm, .sbcs, .sbaddress0, .sbaddress1, .sbaddress2,
      .sbaddress3, .sbdata0, .sbdata1, .sbdata2, .sbdata3]

/-- The rows of hart instructions that are no CSR accesses. -/
def hartRows : List Instr := [.dret, .ebreak, .cEbreak, .cNop, .wfi, .ecall, .mret, .hret, .sret, .uret]

/-- The eight rows of debug and trigger CSRs, with their CSR numbers (spec/10_state.md R120, R140). -/
def csrRows : List ((CsrOp → Instr) × Nat) :=
  [(.dcsr, 0x7b0), (.dpc, 0x7b1), (.dscratch0, 0x7b2), (.dscratch1, 0x7b3), (.tselect, 0x7a0), (.tdata1, 0x7a1),
    (.tdata2, 0x7a2), (.tdata3, 0x7a3)]

/-- The eleven JTAG instruction rows with their encodings (spec/30_encoding.md R260). -/
def irRows : List ((IrOp → Instr) × Nat) :=
  [(.bypass00, 0x00), (.idcode, 0x01), (.dtmcs, 0x10), (.dmi, 0x11), (.reservedBypass12, 0x12), (.reservedBypass13, 0x13),
    (.reservedBypass14, 0x14), (.reservedBypass15, 0x15), (.reservedBypass16, 0x16), (.reservedBypass17, 0x17),
    (.bypass1f, 0x1f)]

/-- The eight JTAG instruction rows that select BYPASS. -/
def bypassRows : List (IrOp → Instr) :=
  [.bypass00, .reservedBypass12, .reservedBypass13, .reservedBypass14, .reservedBypass15, .reservedBypass16,
    .reservedBypass17, .bypass1f]

/-- A Bool as bit `lo` of a word. -/
def wordBit (b : Bool) (lo : Nat) : Word := (BitVec.ofBool b).setWidth 32 <<< lo

/-! ### Together -/

/-- A good state. -/
def State.ok (s : State) : Prop :=
  s.memoryOk ∧ s.dtmOk ∧ s.dmOk ∧ s.sbOk ∧ s.inactiveOk ∧ s.everyHart Hart.modesOk ∧ s.everyHart Hart.privOk ∧
    s.everyHart Hart.triggersOk

end Sys2Proof.Machine
end

