-- ==== Sys2Proof/Certificates/Slice0/Obligations.lean ====
section
/-! DEFINITION. The statements about the machine, one definition per obligation, each with the rule of spec/ it formalises.
A value the model chose is named with its log entry (notes/assumptions/). -/

section
open Sys2Proof Sys2Proof.Machine

/-! ### Encodings -/

/-- Every well-formed instruction of every encoding space is what its encoding decodes to (spec/30_encoding.md R242 to R260,
spec/10_state.md R50, R120, R140; the words of the JTAG and DM register spaces are the model's, notes/assumptions/36.md). -/
def Obligations.DecodeEncode : Prop :=
  ∀ i : Instr, i.wellFormed = true → decode (encode i).1 (encode i).2 = .ok i

/-- No bit of a command word, of a value shifted into dmi, or of a value captured from dmi is dropped: the word is the
encoding of what it decodes to (R241, R242, R255). -/
def Obligations.WordsLossless : Prop :=
  (∀ w, w < 2 ^ 32 → (decodeCommand w).wellFormed = true ∧ encode (decodeCommand w) = (.command, w)) ∧
  (∀ w, w < 2 ^ 66 → encode (decodeDmiIn w) = (.dmiIn, w)) ∧
  (∀ w i, w < 2 ^ 66 → decodeDmiOut w = .ok i → encode i = (.dmiOut, w)) ∧
  (∀ w, decodeDmiOut w = .error .reservedStatus ↔ w % 4 = 1)

/-- Words written out in the spec decode to the instruction they stand for (R250, R251, R242, R244, R255, R256,
R260); the word of c.ebreak is PRESUMED (notes/assumptions/36.md). -/
def Obligations.SpecWordsDecode : Prop :=
  decode .hart 0x7b200073 = .ok .dret ∧ decode .hart 0x9002 = .ok .cEbreak ∧
  decode .command 0x00221008 = .ok (.accessRegister 2 false true false 0x1008 false false) ∧
  decode .command 0x01000000 = .ok (.quickAccess 0) ∧
  decode .dmiIn 0x04400000001 = .ok (.dmiRead 0x11 0) ∧
  decode .dmiIn 0x04200000006 = .ok (.dmiWrite 0x10 0x80000001) ∧
  decode .dtmcsIn 0x00010000 = .ok .dtmcsDmireset ∧ decode .dtmcsIn 0x00020000 = .ok .dtmcsDmihardreset ∧
  decode .ir 0x1f = .ok (.bypass1f .select)

/-! ### A step runs the decoded instruction -/

/-- When hart `h` is to move and executes the Program Buffer, the step is `exec` of the instruction at its pc, in the state
in which eight free values are passed over and the hart is the executing one (spec/42_abstract_commands.md R380). -/
def Obligations.StepRunsProgramBufferInstruction : Prop :=
  ∀ (s : State) (h : Nat) (q : List Event) (hart : Hart) (w : Nat) (i : Instr),
    s.queue = .hart h :: q → s.harts[h]? = some hart → hart.avail = true → hart.inReset = false →
    hart.debugMode = true → hart.inProgbuf = true →
    let r := { s with queue := q, cur := h }.modHart h fun x => { x with trapped := false }
    fetchInsn r hart r.free = some w → decodeHart w = .ok i →
    step s = exec i (r.bump 8)

/-- When hart `h` is to move, runs, and nothing precedes its instruction (no trigger enabled at its privilege, no halt
request, no Quick Access waiting, no interrupt to take), the step is `exec` of the instruction at its pc followed by what
ends an instruction: triggers after it, instruction counts and single step (spec/60_exceptions.md R656, R670). -/
def Obligations.StepRunsProgramInstruction : Prop :=
  ∀ (s : State) (h : Nat) (q : List Event) (hart : Hart) (w : Nat) (i : Instr),
    s.queue = .hart h :: q → s.harts[h]? = some hart → hart.avail = true → hart.inReset = false →
    hart.debugMode = false → (∀ trig ∈ hart.trigs, trig.enabledAt hart.priv = false) → hart.ctl.haltreq = false →
    s.dm.phase ≠ .quickHalt → hart.interrupt = none →
    let r := { s with queue := q, cur := h }.modHart h fun x => { x with trapped := false }
    fetchInsn r hart r.free = some w → decodeHart w = .ok i →
    step s = match exec i (r.bump 8) with
      | .next u => .next (finishHart h hart.priv (factsOf hart (s.free + 6) (some w) {}) u)
      | .fault f => .fault f
      | .refused f => .refused f

/-- The command engine's step is `exec` of the command it has started; a DMI access's step is `exec` of the access to the
register at its offset; the step of the DTM's transaction is that access too, after which the transaction is finished
and, for a read, its result is what was read (spec/42_abstract_commands.md R362, spec/46_jtag_dtm.md R600, R603). A
ScanIR, ScanDR, Update-DR or Capture-DR step is `exec` of the JTAG instruction or scan it decodes to
(spec/46_jtag_dtm.md R581, R585, R590, R600). -/
def Obligations.StepRunsAccessesAndScans : Prop :=
  ((∀ (s : State) (q : List Event), s.queue = .engine :: q → s.dm.phase = .started →
      step s = exec (decodeCommand s.dm.cmd.toNat) { s with queue := q }) ∧
    (∀ (s : State) (q : List Event) (address : Word) (acc : DmAcc) (i : Instr), s.queue = .dmi address acc :: q →
      inDmRange s.cfg address.toNat = true →
      decodeDmAt s.cfg.haltsum1Addr (address.toNat - s.cfg.dmBase) acc = .ok i →
      step s = exec i { s with queue := q }) ∧
    (∀ (s u : State) (q : List Event) (address : Word) (acc : DmAcc) (i : Instr), s.queue = .dtm :: q →
      s.dtm.pending = .inProgress address acc → inDmRange s.cfg address.toNat = true →
      decodeDmAt s.cfg.haltsum1Addr (address.toNat - s.cfg.dmBase) acc = .ok i → exec i { s with queue := q } = .next u →
      ∃ result, step s =
          .next { u with dtm := { u.dtm with pending := .finished result false }, free := u.free + 1 } ∧
        (acc = .read → result = u.dmiOut))) ∧
  ((∀ (s : State) (q : List Event) (v : Nat) (i : Instr), s.queue = .scanIR v :: q →
      decodeIrCode (v % 2 ^ s.cfg.irlen) .select = .ok i → step s = exec i { s with queue := q }) ∧
    (∀ (s : State) (q : List Event) (tdi : BitVec 66) (i : Instr), s.queue = .scanDR tdi :: q →
      decodeIrCode s.dtm.ir (.scan (BitVec.ofNat 66 (tdi.toNat % 2 ^ drWidth s))) = .ok i →
      step s = exec i { s with queue := q }) ∧
    (∀ (s : State) (q : List Event) (tdi : BitVec 66), s.queue = .updateDR tdi :: q → s.dtm.ir = 0x11 →
      step s = exec (decodeDmiIn (tdi.toNat % 2 ^ (s.cfg.abits + 34))) { s with queue := q }) ∧
    (∀ (s : State) (q : List Event) (tdi : BitVec 66) (i : Instr), s.queue = .updateDR tdi :: q → s.dtm.ir = 0x10 →
      decodeDtmcsIn (tdi.toNat % 2 ^ 32) = .ok i → step s = exec i { s with queue := q }) ∧
    (∀ (s : State) (q : List Event), s.queue = .captureDR :: q → s.dtm.ir = 0x11 →
      step s = exec (captureInsn { s with queue := q }) { s with queue := q }))

/-! ### Reset and invariants -/

/-- The state after power-up: what R110, R570, R714, R715, R716 and R720 give; where R720 names the spec's own decision (0
for dpc, tselect, tdata2, tdata3, data, progbuf, hawindowsel and the mask: D6, D7, D8, notes/assumptions/51.md;
DTM_STATUS_RESET: notes/assumptions/17.md) it is the decided value. timing is 0 where the hardware does not fix it. The
pc, the general and floating-point registers, the dscratch registers, the trap registers and the ordinary CSRs, at 0 or at
the configured entry, are the model's choice (notes/assumptions/7.md) and are not stated here. -/
def Obligations.PowerUpValues : Prop :=
  ∀ (c : Config) (hs : List (HartCfg × List TrigCfg)),
    let s := State.resetWith c hs
    s.dm.dmactive = false ∧ s.dm.ndmreset = false ∧ s.dm.hartresetLatch = false ∧ s.dm.hasel = false ∧ s.dm.hartsel = 0 ∧
    s.dm.hawindowsel = 0 ∧ s.dm.cmderr = 0 ∧ s.dm.busy = false ∧ s.dm.latch = 0 ∧ s.dm.auto = 0 ∧
    (∀ i, i < 12 → vget s.dm.data i 0 = 0) ∧ (∀ i, i < 16 → vget s.dm.progbuf i 0 = 0) ∧
    s.dm.authenticated = !c.hasAuth ∧ s.dm.authbusy = false ∧ s.sb.access = 2 ∧ s.sb.error = 0 ∧
    s.sb.busyerror = false ∧ s.sb.busy = false ∧ s.sb.readonaddr = false ∧ s.sb.autoincrement = false ∧
    s.sb.readondata = false ∧ s.sb.address = 0 ∧ s.sb.data = 0 ∧ s.dtm.ir = 1 ∧ s.dtm.address = 0 ∧ s.dtm.data = 0 ∧
    s.dtm.status = c.dtmStatusReset ∧ s.dtm.pending = .none ∧
    ∀ hart ∈ s.harts, hart.debugMode = false ∧ hart.inReset = false ∧ hart.priv = .m ∧ hart.ctl.haltreq = false ∧
      hart.ctl.resumereq = false ∧ hart.ctl.hartreset = false ∧ hart.ctl.havereset = true ∧ hart.ctl.resumeack = false ∧
      hart.ctl.mask = false ∧ hart.dcsr.ebreakm = false ∧ hart.dcsr.ebreaks = false ∧ hart.dcsr.ebreaku = false ∧
      hart.dcsr.stepie = false ∧ hart.dcsr.cause = 0 ∧ hart.dcsr.step = false ∧ hart.dcsr.prv = 3 ∧
      hart.dcsr.stopcount = hart.cfg.stopcountPreset ∧ hart.dcsr.stoptime = hart.cfg.stoptimePreset ∧ hart.dpc = 0 ∧
      hart.reservation = none ∧ hart.tselect = 0 ∧
      ∀ t ∈ hart.trigs, t.dmode = false ∧ t.hit = false ∧ t.select = false ∧ (t.cfg.fixedTiming = [] → t.timing = false) ∧
        t.action = 0 ∧ t.chain = false ∧ t.mtch = 0 ∧ t.m = false ∧ t.s = false ∧ t.u = false ∧ t.execute = false ∧
        t.store = false ∧ t.load = false ∧ t.count = 1 ∧ t.tdata2 = 0 ∧ t.tdata3 = 0

/-- The model's reset state has parameters within the ranges and constraints (a) to (f) of spec/00_scope.md R10, R11 and
R14. A machine is in a good state right after power-up, whatever its configuration, where DTM_STATUS_RESET is not the
reserved status 1; the model's reset state is one. -/
def Obligations.ResetIsGood : Prop :=
  legalParameters State.reset.fixedPart.1 State.reset.fixedPart.2 ∧
  State.reset.ok ∧
  ∀ (c : Config) (hs : List (HartCfg × List TrigCfg)), c.dtmStatusReset ≠ 1 → (State.resetWith c hs).ok

/-- Every step keeps every memory in canonical form, the hart's view and the fetch view included. -/
def Obligations.StepKeepsMemoryCanonical : Prop :=
  ∀ s t : State, s.memoryOk → step s = .next t → t.memoryOk

/-- Every step keeps every hart's modes consistent: the Program Buffer is executed only in Debug Mode, a hart in Debug Mode
has a cause 1 to 4, and causes 5 to 7 never appear (spec/60_exceptions.md R650). -/
def Obligations.StepKeepsHartModes : Prop :=
  ∀ s t : State, s.everyHart Hart.modesOk → step s = .next t → t.everyHart Hart.modesOk

/-- Every step keeps every hart at a privilege level it supports (spec/44_debug_mode.md R503). Every step keeps every
trigger legal: action 1 only with dmode, no reserved action or match value, and no hit bit where it is not implemented
(spec/45_triggers.md R541, R547, R550). -/
def Obligations.StepKeepsHartsLegal : Prop :=
  (∀ s t : State, s.everyHart Hart.privOk → step s = .next t → t.everyHart Hart.privOk) ∧
  (∀ s t : State, s.everyHart Hart.triggersOk → step s = .next t → t.everyHart Hart.triggersOk)

/-- Every step keeps the fields of the DTM, of the DM and of System Bus Access within what they can hold
(spec/30_encoding.md R265, spec/41_reset_select_run.md R314, spec/42_abstract_commands.md R366,
spec/43_system_bus_access.md R432, R436). -/
def Obligations.StepKeepsFieldsLegal : Prop :=
  (∀ s t : State, s.cfg.dtmStatusReset ≠ 1 → s.dtmOk → step s = .next t → t.dtmOk) ∧
  (∀ s t : State, s.dmOk → step s = .next t → t.dmOk) ∧
  (∀ s t : State, s.sbOk → step s = .next t → t.sbOk)

/-- While dmactive is 0 the DM's registers hold their reset values, whatever happens: every step keeps it so until
dmactive is 1 (spec/40_dmi_dm_access.md R291, spec/70_reset_and_hazards.md R711). -/
def Obligations.StepKeepsInactiveDmReset : Prop :=
  ∀ s t : State, s.inactiveOk → step s = .next t → t.inactiveOk

/-- No step changes the configuration: of the machine, of a hart, or of a trigger (spec/10_state.md R41). -/
def Obligations.StepKeepsConfiguration : Prop :=
  ∀ s t : State, step s = .next t → t.fixedPart = s.fixedPart

/-! ### Frames -/

/-- What an instruction leaves alone whenever it completes, in every state. A hart instruction or CSR access changes its
own hart, and of the DM only what ends a command (phase, cmderr, data); no byte of memory. An abstract command changes the
hart it is for, and of the DM only the command in progress, cmderr and data. A JTAG instruction or scan changes the DTM
alone. An access to a DM register other than dmcontrol changes no hart but for the mask bits a write of hawindow writes,
no byte of memory and nothing of the DTM (spec/41_reset_select_run.md R317, R318, spec/42_abstract_commands.md R376,
spec/46_jtag_dtm.md R587, R592). -/
def Obligations.InstructionFrames : Prop :=
  ∀ s t : State,
    (∀ i : Instr, i ∈ hartRows ∨ (∃ row num op, (row, num) ∈ csrRows ∧ i = row op) → exec i s = .next t →
      s.sameElsewhere s.cur t ∧
      t.dm = { s.dm with phase := t.dm.phase, cmderr := t.dm.cmderr, data := t.dm.data }) ∧
    (∀ i : Instr, (encode i).1 = .command → exec i s = .next t →
      s.sameElsewhere s.dm.cmdHart t ∧
      t.dm = { s.dm with
        phase := t.dm.phase
        cmderr := t.dm.cmderr
        data := t.dm.data
        defined := t.dm.defined
        quick := t.dm.quick }) ∧
    (∀ i : Instr, (encode i).1 ∈ [Space.dmiIn, .dmiOut, .dtmcsIn, .ir] → exec i s = .next t →
      t = { s with dtm := t.dtm, free := t.free }) ∧
    (∀ row ∈ gatedRows ++ [Instr.dmstatus, .authdata], ∀ a, exec (row a) s = .next t →
      t.cfg = s.cfg ∧ t.dtm = s.dtm ∧ s.sameBytes t ∧ t.extReset = s.extReset ∧ t.queue = s.queue ∧ t.cur = s.cur ∧
      t.rr = s.rr ∧ t.harts.length = s.harts.length ∧
      (∀ (k : Nat) (old new : Hart), s.harts[k]? = some old → t.harts[k]? = some new →
        new = { old with ctl := { old.ctl with mask := new.ctl.mask } }) ∧
      ((∀ v, row a ≠ .hawindow (.write v)) → t.harts = s.harts))

/-! ### Entering and leaving Debug Mode -/

/-- Entry to Debug Mode writes dcsr.cause, dcsr.prv and dpc, the hart is then halted, the reservation may be lost, and
nothing else changes (spec/60_exceptions.md R652), but for dscratch registers that hartinfo does not give to the debugger
(model's choice, notes/assumptions/13.md). -/
def Obligations.EntryToDebugMode : Prop :=
  ∀ (s : State) (h : Nat) (cause : BitVec 3) (a : XWord) (hart : Hart), s.harts[h]? = some hart →
    ∃ new, (enterDebug h cause a s).harts[h]? = some new ∧ s.onlyHart h (enterDebug h cause a s) ∧
      new.debugMode = true ∧ new.inProgbuf = false ∧
      new.dcsr = { hart.dcsr with cause := cause, prv := privCode hart.priv } ∧ new.dpc = hart.trunc a ∧
      (new.reservation = hart.reservation ∨ new.reservation = none) ∧
      (s.cfg.hasHartinfo = true → 1 ≤ hart.cfg.nscratch → new.dscratch0 = hart.dscratch0) ∧
      (s.cfg.hasHartinfo = true → 2 ≤ hart.cfg.nscratch → new.dscratch1 = hart.dscratch1) ∧
      (hart.avail = true → hart.inReset = false → new.status s.cfg = .halted) ∧
      new = { hart with
        debugMode := true
        inProgbuf := false
        dcsr := new.dcsr
        dpc := new.dpc
        reservation := new.reservation
        dscratch0 := new.dscratch0
        dscratch1 := new.dscratch1 }

/-- A halted hart whose resume request is set, unacknowledged, and not held by a halt request or by a command (the
hold-off by a command: R325's own inference, notes/assumptions/50.md), resumes at its next move: pc from dpc, without the
bits a pc cannot hold (notes/assumptions/43.md), privilege from dcsr.prv, resumeack set; dscratch may change
(notes/assumptions/13.md). Without such a request it stays as it is, but for its counters (spec/41_reset_select_run.md
R322, R324, R325, spec/44_debug_mode.md R480, R490, spec/60_exceptions.md R666). -/
def Obligations.ResumeTransition : Prop :=
  ∀ (s : State) (h : Nat) (q : List Event) (hart : Hart), s.queue = .hart h :: q → s.harts[h]? = some hart →
    hart.avail = true → hart.inReset = false → hart.debugMode = true → hart.inProgbuf = false →
    (hart.ctl.resumereq = true ∧ hart.ctl.haltreq = false ∧ hart.ctl.resumeack = false ∧
        ¬(s.dm.busy = true ∧ s.dm.cmdHart = h) →
      ∃ t new, step s = .next t ∧ t.harts[h]? = some new ∧ { s with queue := q, cur := h }.onlyHart h t ∧
        new.debugMode = false ∧ new.status s.cfg = .running ∧ new.ctl = { hart.ctl with resumeack := true } ∧
        new.pc = hart.pcBits hart.dpc ∧
        (hart.dpc.toNat % 4 = 0 → hart.dpc.toNat < 2 ^ hart.cfg.xlen → new.pc = hart.dpc) ∧
        (∀ p, privOfCode hart.dcsr.prv = some p → p ∈ hart.cfg.privs → new.priv = p) ∧
        new = { hart with
          debugMode := false
          ctl := new.ctl
          pc := new.pc
          priv := new.priv
          dscratch0 := new.dscratch0
          dscratch1 := new.dscratch1
          trapped := false }) ∧
    (¬(hart.ctl.resumereq = true ∧ hart.ctl.haltreq = false ∧ hart.ctl.resumeack = false ∧
        ¬(s.dm.busy = true ∧ s.dm.cmdHart = h)) →
      ∃ t new, step s = .next t ∧ t.harts[h]? = some new ∧ { s with queue := q, cur := h }.onlyHart h t ∧
        new = { hart with cycle := new.cycle, trapped := false })

/-- A running hart with a halt request halts at its next move with cause 3, whatever interrupt is pending; that it
executes no instruction first is the model's choice, R662 allows any number (notes/assumptions/3.md). A hart that leaves
reset with a halt request halts with cause 3 at its reset entry, and one without (and not halted before a system reset)
runs from there. Here no trigger is enabled and no ebreak enters Debug Mode (spec/41_reset_select_run.md R323, R334,
spec/60_exceptions.md R662, R664; the debug entry before an interrupt: notes/assumptions/50.md). -/
def Obligations.HaltRequest : Prop :=
  ∀ (s : State) (h : Nat) (q : List Event) (hart : Hart), s.queue = .hart h :: q → s.harts[h]? = some hart →
    hart.avail = true → hart.debugMode = false → s.dm.phase ≠ .quickHalt →
    (hart.inReset = false → hart.ctl.haltreq = true → hart.ebreakEnabled = false →
        (∀ trig ∈ hart.trigs, trig.enabledAt hart.priv = false) →
      ∃ t new, step s = .next t ∧ t.harts[h]? = some new ∧ { s with queue := q, cur := h }.onlyHart h t ∧
        new.status s.cfg = .halted ∧ new.dcsr = { hart.dcsr with cause := 3, prv := privCode hart.priv } ∧
        new.dpc = hart.trunc hart.pc ∧ new.sys = hart.sys ∧ new.gprs = hart.gprs ∧ new.ctl = hart.ctl) ∧
    (hart.inReset = true → s.resetLine hart = false → hart.ctl.haltreq = true →
      ∃ t new, step s = .next t ∧ t.harts[h]? = some new ∧ { s with queue := q, cur := h }.onlyHart h t ∧
        new.status s.cfg = .halted ∧ new.dcsr = { hart.dcsr with cause := 3, prv := privCode hart.priv } ∧
        new.dpc = hart.trunc (BitVec.ofNat 128 hart.cfg.resetPc) ∧ new.ctl = { hart.ctl with havereset := true } ∧
        new.gprs = hart.gprs) ∧
    (hart.inReset = true → s.resetLine hart = false → hart.ctl.haltreq = false → hart.resetHalt = false →
      ∃ t, step s = .next t ∧ { s with queue := q, cur := h }.onlyHart h t ∧
        t.harts[h]? = some { hart with inReset := false, ctl := { hart.ctl with havereset := true } })

/-- The priority of the causes (spec/60_exceptions.md R655): a trigger before an ebreak and a halt request, an ebreak before
a halt request, a halt request before single step. The trigger is one that executes "before" at the pc, with action 1 and
chain 0; its hit bit is set (spec/45_triggers.md R546, R547, R548, R550, spec/60_exceptions.md R660). An instruction stands
at the pc. Trigger and ebreak come before an interrupt too, whatever is pending (R656 leaves this open; D30,
notes/assumptions/50.md). In single step a timing-1 trigger with action 1 that matches the instruction is the cause when
the instruction has completed, whatever the hardware does with such actions elsewhere (R551, R670). -/
def Obligations.EntryPriority : Prop :=
  (∀ (s : State) (h : Nat) (q : List Event) (hart : Hart) (trig : Trigger), s.queue = .hart h :: q →
    s.harts[h]? = some hart → hart.avail = true → hart.inReset = false → hart.debugMode = false →
    s.dm.phase ≠ .quickHalt → hart.trigs = [trig] → trig.cfg.kind = 2 → trig.enabledAt hart.priv = true →
    trig.execute = true → trig.select = false → trig.timing = false → trig.chain = false → trig.action = 1 →
    trig.mtch = 0 → trig.tdata2 = hart.pc →
    let r := { s with queue := q, cur := h }.modHart h fun x => { x with trapped := false }
    fetchInsn r hart r.free ≠ none →
    ∃ t new, step s = .next t ∧ t.harts[h]? = some new ∧ { s with queue := q, cur := h }.onlyHart h t ∧
      new.status s.cfg = .halted ∧ new.dcsr = { hart.dcsr with cause := 2, prv := privCode hart.priv } ∧
      new.dpc = hart.trunc hart.pc ∧ new.trigs = [{ trig with hit := trig.cfg.hasHit }] ∧ new.gprs = hart.gprs) ∧
  (∀ (s : State) (h : Nat) (q : List Event) (hart : Hart), s.queue = .hart h :: q → s.harts[h]? = some hart →
    hart.avail = true → hart.inReset = false → hart.debugMode = false → s.dm.phase ≠ .quickHalt →
    (∀ trig ∈ hart.trigs, trig.enabledAt hart.priv = false) → hart.ebreakEnabled = true →
    let r := { s with queue := q, cur := h }.modHart h fun x => { x with trapped := false }
    fetchInsn r hart r.free = some 0x00100073 →
    ∃ t new, step s = .next t ∧ t.harts[h]? = some new ∧ { s with queue := q, cur := h }.onlyHart h t ∧
      new.status s.cfg = .halted ∧ new.dcsr = { hart.dcsr with cause := 1, prv := privCode hart.priv } ∧
      new.dpc = hart.trunc hart.pc) ∧
  (∀ (s : State) (h : Nat) (hart : Hart), s.harts[h]? = some hart → hart.debugMode = false → hart.dcsr.step = true →
    s.dm.phase ≠ .quickHalt →
    ∃ new, (stepEnd h s).harts[h]? = some new ∧ s.onlyHart h (stepEnd h s) ∧ new.debugMode = true ∧
      new.dcsr = { hart.dcsr with cause := if hart.ctl.haltreq then 3 else 4, prv := privCode hart.priv } ∧
      new.dpc = hart.trunc hart.pc) ∧
  (∀ (s : State) (h : Nat) (hart : Hart) (trig : Trigger) (p : Priv) (f : Facts), s.harts[h]? = some hart →
    hart.debugMode = false → hart.trapped = false → hart.dcsr.step = true → s.dm.phase ≠ .quickHalt →
    hart.trigs = [trig] → trig.raw hart.cfg.xlen p true f = true → trig.chain = false → trig.action = 1 →
    ∃ new, (finishHart h p f s).harts[h]? = some new ∧ s.onlyHart h (finishHart h p f s) ∧ new.debugMode = true ∧
      new.dcsr = { hart.dcsr with cause := 2, prv := privCode hart.priv } ∧ new.dpc = hart.trunc hart.pc ∧
      new.trigs = [{ trig with hit := trig.cfg.hasHit }])

/-- Single step (spec/60_exceptions.md R670, R671): with step set a running hart executes one instruction and halts with
cause 4 at the next pc. Where no interrupt may be taken (stepie 0 whatever is pending, or none ready): wfi, which outside
Debug Mode completes at once (notes/assumptions/35.md), halts at the instruction after it; a jump and a taken branch halt
at their target; an instruction that traps, here ecall, takes its trap first (its number is the privileged ISA's:
PRESUMED, notes/assumptions/1.md, as are jal and the branches) and halts at the handler's first instruction, at the
handler's privilege. With stepie 1 a ready interrupt is taken instead and the hart halts at its handler (D29,
notes/assumptions/33.md, 50.md). No trigger is enabled or has an action still to come. -/
def Obligations.SingleStep : Prop :=
  ∀ (s : State) (h : Nat) (q : List Event) (hart : Hart) (w : Nat), s.queue = .hart h :: q → s.harts[h]? = some hart →
    hart.avail = true → hart.inReset = false → hart.debugMode = false → s.dm.phase ≠ .quickHalt →
    hart.dcsr.step = true → hart.ctl.haltreq = false → (∀ trig ∈ hart.trigs, trig.enabledAt hart.priv = false) →
    hart.dueEntry = false → hart.dueBreak = false →
    let r := { s with queue := q, cur := h }.modHart h fun x => { x with trapped := false }
    let halts := fun (p : Priv) (pc : XWord) (sys : SysRegs) (t : State) (new : Hart) =>
      { s with queue := q, cur := h }.onlyHart h t ∧ t.harts[h]? = some new ∧ new.debugMode = true ∧
        new.dcsr = { hart.dcsr with cause := 4, prv := privCode p } ∧ new.dpc = pc ∧ new.sys = sys
    fetchInsn r hart r.free = some w →
    (hart.dcsr.stepie = false ∨ (∀ c ∈ interruptOrder, hart.interruptReady c = false) →
      (decodeHart w = .ok .wfi →
        ∃ t new, step s = .next t ∧ halts hart.priv (hart.trunc (hart.pc + 4)) hart.sys t new ∧ new.gprs = hart.gprs) ∧
      (w % 2 ^ 7 = 0x6f → hart.cfg.hasC = true ∨ (hart.trunc (hart.pc + immJ w)).toNat % 4 = 0 →
        ∃ t new, step s = .next t ∧ halts hart.priv (hart.pcBits (hart.pc + immJ w)) hart.sys t new ∧
          hart.rdGets (field5 w 7) (hart.pc + 4) new) ∧
      (w % 2 ^ 7 = 0x63 → hart.cfg.hasC = true ∨ (hart.trunc (hart.pc + immB w)).toNat % 4 = 0 →
        branchTaken hart (w / 2 ^ 12 % 8) (hart.gpr (field5 w 15)) (hart.gpr (field5 w 20)) = some true →
        ∃ t new, step s = .next t ∧ halts hart.priv (hart.pcBits (hart.pc + immB w)) hart.sys t new ∧
          new.gprs = hart.gprs) ∧
      (decodeHart w = .ok .ecall →
        ∃ t new tval, let trapped := hart.trap false (8 + (privCode hart.priv).toNat) tval
          step s = .next t ∧ halts trapped.priv trapped.pc trapped.sys t new ∧ new.gprs = hart.gprs)) ∧
    (∀ c, hart.dcsr.stepie = true → hart.ebreakEnabled = false → interruptOrder.find? hart.interruptReady = some c →
      ∃ t new tval, let trapped := hart.trap true c tval
        step s = .next t ∧ halts trapped.priv trapped.pc trapped.sys t new ∧ new.gprs = hart.gprs)

/-- Interrupts (spec/44_debug_mode.md R482, spec/60_exceptions.md R672; which interrupt is ready and comes first
is the privileged ISA's: PRESUMED, notes/assumptions/33.md, 1.md). A running hart with no trigger enabled, no halt
request and no ebreak that enters Debug Mode, and not in single step (that is SingleStep's), takes the ready interrupt of
the highest priority before its next instruction; with none ready it executes the instruction, here wfi
(notes/assumptions/35.md). In Debug Mode interrupts are masked, whatever is pending: a halted hart that is not to resume
takes none, and a wfi in the Program Buffer is executed. An interrupt that becomes pending changes only mip. -/
def Obligations.Interrupts : Prop :=
  ∀ (s : State) (h : Nat) (q : List Event) (hart : Hart), s.harts[h]? = some hart →
    let ready := fun (c : Nat) => hart.sys.mip.getLsbD c = true ∧ hart.sys.mie.getLsbD c = true ∧
      if .s ∈ hart.cfg.privs ∧ hart.sys.mideleg.getLsbD c = true then
        hart.priv = .u ∨ (hart.priv = .s ∧ hart.sys.mstatus.getLsbD 1 = true)
      else hart.priv ≠ .m ∨ hart.sys.mstatus.getLsbD 3 = true
    let order : List Nat := [11, 3, 7, 9, 1, 5, 8, 0, 4]
    let after := { s with queue := q, cur := h }
    let r := after.modHart h fun x => { x with trapped := false }
    (∀ v, s.queue = .setMip h v :: q → ∃ t, step s = .next t ∧ { s with queue := q }.onlyHart h t ∧
      t.harts[h]? = some { hart with sys := { hart.sys with mip := hart.trunc v } }) ∧
    (s.queue = .hart h :: q → hart.avail = true → hart.inReset = false → hart.debugMode = false →
      s.dm.phase ≠ .quickHalt → hart.ctl.haltreq = false → (∀ trig ∈ hart.trigs, trig.enabledAt hart.priv = false) →
      (∀ i c : Nat, hart.ebreakEnabled = false → hart.dcsr.step = false → order[i]? = some c → ready c →
        (∀ j c', j < i → order[j]? = some c' → ¬ready c') →
        ∃ t tval, step s = .next t ∧ after.onlyHart h t ∧ t.harts[h]? = some (hart.trap true c tval)) ∧
      (∀ w, (∀ c ∈ order, ¬ready c) → hart.dcsr.step = false → hart.dueEntry = false → hart.dueBreak = false →
        fetchInsn r hart r.free = some w → decodeHart w = .ok .wfi →
        ∃ t new, step s = .next t ∧ after.onlyHart h t ∧ t.harts[h]? = some new ∧
          new = { hart with pc := hart.trunc (hart.pc + 4), cycle := new.cycle, instret := new.instret,
                            trapped := false })) ∧
    (s.queue = .hart h :: q → hart.avail = true → hart.inReset = false → hart.debugMode = true →
      (hart.inProgbuf = false → hart.ctl.resumereq = false → ∃ t new, step s = .next t ∧ after.onlyHart h t ∧
        t.harts[h]? = some new ∧ new = { hart with cycle := new.cycle, trapped := false }) ∧
      (∀ w, hart.inProgbuf = true → fetchInsn r hart r.free = some w → decodeHart w = .ok .wfi →
        ∃ t new, step s = .next t ∧ after.onlyHart h t ∧ t.harts[h]? = some new ∧
          new = { hart with pc := hart.trunc (hart.pc + 4), cycle := new.cycle, instret := new.instret,
                            trapped := false }))

/-! ### Triggers -/

/-- What each match value compares (spec/45_triggers.md R545): equality, at least, less than, the two masked halves, and
the naturally aligned range of match 1 where the range is within maskmax. Chains (spec/45_triggers.md R546): a trigger
matches where its own condition holds and the trigger before it, if its chain is 1, matches too; a trigger fires where it
matches and its own chain is 0. Instruction counts (spec/45_triggers.md R561): at an enabled privilege a count above 1
goes down by 1, a count of 1 fires and goes to 0 or clears the mode bits, as the implementation has it; at another
privilege, and with a count of 0 (model's reading of D28, notes/assumptions/34.md), nothing changes. -/
def Obligations.TriggerMatching : Prop :=
  (∀ (xlen : Nat) (t : Trigger) (v : XWord),
      (t.mtch = 0 → (t.holds xlen v = true ↔ v = t.tdata2)) ∧
      (t.mtch = 1 → ∀ k, k < xlen → k + 1 ≤ t.cfg.maskmax → t.tdata2.toNat.testBit k = false →
        (∀ j, j < k → t.tdata2.toNat.testBit j = true) →
        (t.holds xlen v = true ↔ v.toNat / 2 ^ (k + 1) = t.tdata2.toNat / 2 ^ (k + 1))) ∧
      (t.mtch = 2 → (t.holds xlen v = true ↔ t.tdata2.toNat ≤ v.toNat)) ∧
      (t.mtch = 3 → (t.holds xlen v = true ↔ v.toNat < t.tdata2.toNat)) ∧
      (t.mtch = 4 → (t.holds xlen v = true ↔
        (v.toNat % 2 ^ (xlen / 2)) &&& (t.tdata2.toNat / 2 ^ (xlen / 2)) = t.tdata2.toNat % 2 ^ (xlen / 2))) ∧
      (t.mtch = 5 → (t.holds xlen v = true ↔
        (v.toNat / 2 ^ (xlen / 2)) &&& (t.tdata2.toNat / 2 ^ (xlen / 2)) = t.tdata2.toNat % 2 ^ (xlen / 2)))) ∧
  ((∀ (xlen : Nat) (p : Priv) (timing : Bool) (f : Facts) (ts : List Trigger), (∀ t ∈ ts, t.cfg.kind = 2) →
      let ms := chainMatches xlen p timing f true ts
      ms.length = ts.length ∧
      ∀ (i : Nat) (t : Trigger) (m : Bool), ts[i]? = some t → ms[i]? = some m →
        (m = true ↔ t.raw xlen p timing f = true ∧
          ∀ j u, i = j + 1 → ts[j]? = some u → u.chain = false ∨ ms[j]? = some true)) ∧
    (∀ (hart : Hart) (ms : List Bool) (a : BitVec 6), hart.firesWith ms a = true ↔
      ∃ (i : Nat) (t : Trigger), hart.trigs[i]? = some t ∧ ms[i]? = some true ∧ t.chain = false ∧ t.action = a)) ∧
  (∀ (p : Priv) (t : Trigger), t.cfg.kind = 3 →
    (t.enabledAt p = false ∨ t.count = 0 → t.countDown p = t ∧ t.countFires p = false) ∧
    (t.enabledAt p = true → 1 < t.count.toNat →
      t.countDown p = { t with count := t.count - 1 } ∧ t.countFires p = false) ∧
    (t.enabledAt p = true → t.count = 1 →
      t.countFires p = true ∧
      (t.cfg.icountClearsModes = false → t.countDown p = { t with hit := t.cfg.hasHit, count := 0 }) ∧
      (t.cfg.icountClearsModes = true →
        t.countDown p = { t with hit := t.cfg.hasHit, m := false, s := false, u := false })))

/-- What a trigger that fires does, inside a step (spec/45_triggers.md R543, R547, R548, R550, R561, R563). The hart has
this one trigger, enabled, with chain 0 and match 0; no halt request, no interrupt and no action still to come; it is
not stepped and no ebreak enters Debug Mode. The trigger looks at the pc, at the instruction's bits (select 1), at the
address of the load or store the instruction makes, or at its value (select 1): what is compared is D27
(notes/assumptions/31.md). With timing 0, action 1 enters Debug Mode with cause 2 before the instruction, and action 0
takes a breakpoint exception there (number 3: PRESUMED, notes/assumptions/1.md). With timing 1 a wfi completes first and
dpc is the next pc; hardware that may act later either acts then or keeps the action and goes on
(notes/assumptions/31.md). An instruction count of 1 fires after the instruction, here wfi (notes/assumptions/35.md):
action 1 enters Debug Mode at the next pc, action 0 is a breakpoint exception there. Where the breakpoint exception is
taken, and so the mepc it saves (the instruction's own address with timing 0, the next pc with timing 1 and for a
count), is the model's reading (N44; DEDUCED, notes/assumptions/32.md). What lw and sw look like to a trigger is
PRESUMED (notes/assumptions/1.md). -/
def Obligations.TriggerActions : Prop :=
  ∀ (s : State) (h : Nat) (q : List Event) (hart : Hart) (trig : Trigger) (w : Nat), s.queue = .hart h :: q →
    s.harts[h]? = some hart → hart.avail = true → hart.inReset = false → hart.debugMode = false →
    s.dm.phase ≠ .quickHalt → hart.ctl.haltreq = false → hart.ebreakEnabled = false → hart.interrupt = none →
    hart.dcsr.step = false → hart.dueEntry = false → hart.dueBreak = false → hart.trigs = [trig] →
    trig.enabledAt hart.priv = true → trig.chain = false → trig.mtch = 0 →
    let after := { s with queue := q, cur := h }
    let r := after.modHart h fun x => { x with trapped := false }
    let e := effectOf r hart (s.free + 2) w
    let hits := (trig.execute = true ∧ trig.tdata2 = if trig.select then BitVec.ofNat 128 w else hart.pc) ∨
      (trig.load = true ∧ ∃ a v, e.load = some (a, v) ∧
        if trig.select then v = some trig.tdata2 else BitVec.ofNat 128 a = trig.tdata2) ∨
      (trig.store = true ∧ ∃ a bytes, e.store = some (a, bytes) ∧ bytes ≠ [] ∧
        BitVec.ofNat 128 (if trig.select then bytesToNat bytes else a) = trig.tdata2)
    let fired := { hart with trapped := false, trigs := [{ trig with hit := trig.cfg.hasHit }] }
    let next := { hart with pc := hart.trunc (hart.pc + 4), trapped := false }
    let enters := fun (at_ : Hart) (t : State) (new : Hart) =>
      new.status s.cfg = .halted ∧ new.dcsr = { hart.dcsr with cause := 2, prv := privCode hart.priv } ∧
      new.dpc = hart.trunc at_.pc ∧ new.trigs = at_.trigs ∧ new.gprs = hart.gprs ∧ new.sys = hart.sys ∧ t.dm = s.dm
    fetchInsn r hart r.free = some w →
    (trig.cfg.kind = 2 → trig.timing = false → hits →
      (trig.action = 1 → ∃ t new, step s = .next t ∧ after.onlyHart h t ∧ t.harts[h]? = some new ∧ enters fired t new) ∧
      (trig.action = 0 → ∃ t tval, step s = .next t ∧ after.onlyHart h t ∧
        t.harts[h]? = some (fired.trap false 3 tval))) ∧
    (trig.cfg.kind = 2 → trig.timing = true → trig.execute = true → trig.select = false → trig.tdata2 = hart.pc →
      decodeHart w = .ok .wfi →
      let done := { next with trigs := fired.trigs }
      (trig.action = 1 → ∃ t new, step s = .next t ∧ after.onlyHart h t ∧ t.harts[h]? = some new ∧
        (enters done t new ∨ (trig.cfg.skids = true ∧
          new = { done with cycle := new.cycle, instret := new.instret, dueEntry := true }))) ∧
      (trig.action = 0 → ∃ t new tval, step s = .next t ∧ after.onlyHart h t ∧ t.harts[h]? = some new ∧
        (new = { done.trap false 3 tval with cycle := new.cycle, instret := new.instret } ∨
          (trig.cfg.skids = true ∧ new = { done with cycle := new.cycle, instret := new.instret, dueBreak := true })))) ∧
    (trig.cfg.kind = 3 → trig.count = 1 → decodeHart w = .ok .wfi →
      let done := { next with trigs := [if trig.cfg.icountClearsModes then
        { trig with hit := trig.cfg.hasHit, m := false, s := false, u := false }
        else { trig with hit := trig.cfg.hasHit, count := 0 }] }
      (trig.action = 1 → ∃ t new, step s = .next t ∧ after.onlyHart h t ∧ t.harts[h]? = some new ∧ enters done t new) ∧
      (trig.action = 0 → ∃ t new tval, step s = .next t ∧ after.onlyHart h t ∧ t.harts[h]? = some new ∧
        new = { done.trap false 3 tval with cycle := new.cycle, instret := new.instret })) ∧
    (w % 2 ^ 7 = 0x03 → w / 2 ^ 12 % 8 = 2 →
      ∃ v, e.load = some ((hart.trunc (hart.gpr (field5 w 15) + immI w)).toNat, v)) ∧
    (w % 2 ^ 7 = 0x23 → w / 2 ^ 12 % 8 = 2 →
      e.store = some ((hart.trunc (hart.gpr (field5 w 15) + immS w)).toNat, leBytes 4 (hart.gpr (field5 w 20)).toNat))

/-! ### Hart instructions -/

/-- wfi moves on by 4 bytes and does nothing else, in Debug Mode (spec/44_debug_mode.md R494) and, where the ISA lets it
complete at once, outside (notes/assumptions/35.md); c.nop moves on by 2 bytes on a hart with the C extension
(spec/42_abstract_commands.md R383), and without it is, like c.ebreak, an illegal instruction (exception number 2: PRESUMED,
notes/assumptions/1.md). -/
def Obligations.WfiAndCNop : Prop :=
  ∀ (s : State) (hart : Hart), s.harts[s.cur]? = some hart →
    (∃ t new, exec .wfi s = .next t ∧ s.onlyHart s.cur t ∧ t.harts[s.cur]? = some new ∧ hart.onlyMovesOn new ∧
      new.pc = hart.trunc (hart.pc + 4)) ∧
    (hart.cfg.hasC = true → ∃ t new, exec .cNop s = .next t ∧ s.onlyHart s.cur t ∧ t.harts[s.cur]? = some new ∧
      hart.onlyMovesOn new ∧ new.pc = hart.trunc (hart.pc + 2)) ∧
    (hart.cfg.hasC = false → hart.debugMode = false →
      ∃ t, exec .cNop s = .next t ∧ s.takesException s.cur 2 t ∧ exec .cEbreak s = .next t)

/-- dret (spec/44_debug_mode.md R490): in Debug Mode pc comes from dpc, without the bits a pc cannot hold
(notes/assumptions/43.md), and the privilege from dcsr.prv, and the hart leaves Debug Mode; dscratch may change
(notes/assumptions/13.md); that no counter counts the dret, and that dpc is read and left unclobbered, is the model's
choice (notes/assumptions/37.md, 15.md); a command whose Program Buffer holds the dret ends without error (model's
choice, notes/assumptions/15.md). Outside Debug Mode it is an illegal instruction (exception number 2: PRESUMED,
notes/assumptions/1.md). -/
def Obligations.Dret : Prop :=
  ∀ (s : State) (hart : Hart), s.harts[s.cur]? = some hart →
    (hart.debugMode = true → hart.cfg.hasDret = true →
      ∃ t new, exec .dret s = .next t ∧ s.sameElsewhere s.cur t ∧ t.harts[s.cur]? = some new ∧
        new.debugMode = false ∧ new.pc = hart.pcBits hart.dpc ∧
        (hart.dpc.toNat % 4 = 0 → hart.dpc.toNat < 2 ^ hart.cfg.xlen → new.pc = hart.dpc) ∧
        (∀ p, privOfCode hart.dcsr.prv = some p → p ∈ hart.cfg.privs → new.priv = p) ∧
        new = { hart with
          debugMode := false
          inProgbuf := false
          pc := new.pc
          priv := new.priv
          dscratch0 := new.dscratch0
          dscratch1 := new.dscratch1 } ∧
        (s.dm.phase = .progbuf ∧ s.dm.cmdHart = s.cur → t.dm = { s.dm with phase := .idle, data := t.dm.data }) ∧
        (¬(s.dm.phase = .progbuf ∧ s.dm.cmdHart = s.cur) → t.dm = s.dm)) ∧
    (hart.debugMode = false → ∃ t, exec .dret s = .next t ∧ s.takesException s.cur 2 t)

/-- ebreak in Debug Mode, and c.ebreak with the C extension (spec/44_debug_mode.md R491, R493,
spec/42_abstract_commands.md R382, R367, R387): the Program Buffer ends without error, the hart stays in Debug Mode,
dcsr and dpc keep their values (dpc unless the Program Buffer clobbers it), and so do the data registers the command
defined. An exception in the Program Buffer (spec/42_abstract_commands.md R386, spec/44_debug_mode.md R483,
spec/60_exceptions.md R668): execution ends with cmderr 3 if no error was set (the first error is kept: D22,
notes/assumptions/50.md), the hart stays in Debug Mode and no register of it is updated (dpc only where the Program
Buffer clobbers it, R387). -/
def Obligations.ProgramBufferEnds : Prop :=
  (∀ (s : State) (hart : Hart) (i : Instr), s.harts[s.cur]? = some hart → hart.debugMode = true → s.dm.quick = false →
      i = .ebreak ∨ (i = .cEbreak ∧ hart.cfg.hasC = true) →
      ∃ t new, exec i s = .next t ∧ s.sameElsewhere s.cur t ∧ t.harts[s.cur]? = some new ∧
        new = { hart with inProgbuf := false, dpc := new.dpc, cycle := new.cycle, instret := new.instret } ∧
        (hart.cfg.progbufClobbersDpc = false → new.dpc = hart.dpc) ∧
        (hart.dcsr.stopcount = true → new.cycle = hart.cycle ∧ new.instret = hart.instret) ∧
        (s.dm.phase = .progbuf ∧ s.dm.cmdHart = s.cur → t.dm = { s.dm with phase := .idle, data := t.dm.data } ∧
          ∀ k, k < 12 → s.dm.defined.getLsbD k = true → vget t.dm.data k 0 = vget s.dm.data k 0) ∧
        (¬(s.dm.phase = .progbuf ∧ s.dm.cmdHart = s.cur) → t.dm = s.dm)) ∧
  (∀ (s : State) (h cause : Nat) (hart : Hart), s.harts[h]? = some hart → hart.debugMode = true →
      s.dm.phase = .progbuf → s.dm.cmdHart = h → s.dm.quick = false →
      ∃ new, (raise h cause s).harts[h]? = some new ∧ s.sameElsewhere h (raise h cause s) ∧
        new = { hart with inProgbuf := false, dpc := new.dpc } ∧
        (hart.cfg.progbufClobbersDpc = false → new.dpc = hart.dpc) ∧
        (raise h cause s).dm = { s.dm with
          phase := .idle
          data := (raise h cause s).dm.data
          cmderr := if s.dm.cmderr = 0 then 3 else s.dm.cmderr })

/-- ebreak outside Debug Mode, and c.ebreak with the C extension (spec/44_debug_mode.md R492, R493): with the bit of the
privilege set the hart enters Debug Mode with cause 1 and the ebreak's own address in dpc, its trap registers unchanged, and
not counted where stopcount is 1; otherwise it is a breakpoint exception (number 3: PRESUMED, notes/assumptions/1.md). -/
def Obligations.EbreakOutsideDebugMode : Prop :=
  ∀ (s : State) (hart : Hart) (i : Instr), s.harts[s.cur]? = some hart → hart.debugMode = false →
    i = .ebreak ∨ (i = .cEbreak ∧ hart.cfg.hasC = true) →
    let enters := (hart.priv = .m ∧ hart.dcsr.ebreakm = true) ∨ (hart.priv = .s ∧ hart.dcsr.ebreaks = true) ∨
      (hart.priv = .u ∧ hart.dcsr.ebreaku = true)
    (enters → ∃ t new, exec i s = .next t ∧ s.onlyHart s.cur t ∧ t.harts[s.cur]? = some new ∧ new.debugMode = true ∧
      new.dcsr = { hart.dcsr with cause := 1, prv := privCode hart.priv } ∧ new.dpc = hart.trunc hart.pc ∧
      new.sys = hart.sys ∧ new.gprs = hart.gprs ∧
      (hart.dcsr.stopcount = true → new.cycle = hart.cycle ∧ new.instret = hart.instret)) ∧
    (¬enters → ∃ t, exec i s = .next t ∧ s.takesException s.cur 3 t)

/-- ecall outside Debug Mode is the environment call exception of its privilege, hret is an illegal instruction (no
hypervisor mode: spec/60_exceptions.md R688, spec/10_state.md R121); the exception numbers are the privileged ISA's
(PRESUMED, notes/assumptions/1.md). mret in machine mode, sret in S or M mode of a hart with S mode, uret on a hart with
user-level interrupts, all outside Debug Mode (PRESUMED, the privileged ISA, notes/assumptions/1.md): the pc comes from
the saved pc, the privilege and the interrupt enable from their saved copies. Elsewhere they are illegal instructions. In
Debug Mode the spec leaves the behaviour of all five undefined (spec/44_debug_mode.md R495): the model takes either an
exception that ends the Program Buffer or a pass over the instruction, by a free choice (notes/assumptions/14.md). -/
def Obligations.TrapInstructions : Prop :=
  (∀ (s : State) (hart : Hart), s.harts[s.cur]? = some hart → hart.debugMode = false →
      (∃ t, exec .ecall s = .next t ∧
        s.takesException s.cur (match hart.priv with
          | .u => 8
          | .s => 9
          | .m => 11) t) ∧
      (∃ t, exec .hret s = .next t ∧ s.takesException s.cur 2 t)) ∧
  (∀ (s : State) (hart : Hart), s.harts[s.cur]? = some hart → hart.debugMode = false →
      (hart.priv = .m → ∃ t new, exec .mret s = .next t ∧ s.onlyHart s.cur t ∧ t.harts[s.cur]? = some new ∧
        new = { hart with pc := new.pc, priv := new.priv, cycle := new.cycle, instret := new.instret,
                          sys := { hart.sys with mstatus := new.sys.mstatus } } ∧
        new.pc = hart.pcBits hart.sys.mepc ∧
        (∀ p, privOfCode (hart.sys.mstatus.extractLsb' 11 2) = some p → p ∈ hart.cfg.privs → new.priv = p) ∧
        new.sys.mstatus.getLsbD 3 = hart.sys.mstatus.getLsbD 7 ∧ new.sys.mstatus.getLsbD 7 = true ∧
        (.u ∈ hart.cfg.privs → new.sys.mstatus.extractLsb' 11 2 = 0) ∧
        (∀ k, k ≠ 3 → k ≠ 7 → k ≠ 11 → k ≠ 12 → new.sys.mstatus.getLsbD k = hart.sys.mstatus.getLsbD k)) ∧
      (hart.priv ≠ .u → .s ∈ hart.cfg.privs → ∃ t new, exec .sret s = .next t ∧ s.onlyHart s.cur t ∧
        t.harts[s.cur]? = some new ∧
        new = { hart with pc := new.pc, priv := new.priv, cycle := new.cycle, instret := new.instret,
                          sys := { hart.sys with mstatus := new.sys.mstatus } } ∧
        new.pc = hart.pcBits hart.sys.sepc ∧ new.priv = (if hart.sys.mstatus.getLsbD 8 then .s else .u) ∧
        new.sys.mstatus.getLsbD 1 = hart.sys.mstatus.getLsbD 5 ∧ new.sys.mstatus.getLsbD 5 = true ∧
        new.sys.mstatus.getLsbD 8 = false ∧
        (∀ k, k ≠ 1 → k ≠ 5 → k ≠ 8 → new.sys.mstatus.getLsbD k = hart.sys.mstatus.getLsbD k)) ∧
      (hart.cfg.hasN = true → ∃ t new, exec .uret s = .next t ∧ s.onlyHart s.cur t ∧ t.harts[s.cur]? = some new ∧
        new = { hart with pc := new.pc, priv := .u, cycle := new.cycle, instret := new.instret,
                          sys := { hart.sys with mstatus := new.sys.mstatus } } ∧
        new.pc = hart.pcBits (csrLookup hart.csrs 0x041) ∧
        new.sys.mstatus.getLsbD 0 = hart.sys.mstatus.getLsbD 4 ∧ new.sys.mstatus.getLsbD 4 = true ∧
        (∀ k, k ≠ 0 → k ≠ 4 → new.sys.mstatus.getLsbD k = hart.sys.mstatus.getLsbD k)) ∧
      (hart.priv ≠ .m → ∃ t, exec .mret s = .next t ∧ s.takesException s.cur 2 t) ∧
      (hart.priv = .u ∨ .s ∉ hart.cfg.privs → ∃ t, exec .sret s = .next t ∧ s.takesException s.cur 2 t) ∧
      (hart.cfg.hasN = false → ∃ t, exec .uret s = .next t ∧ s.takesException s.cur 2 t)) ∧
  (∀ (s : State) (hart : Hart) (i : Instr), s.harts[s.cur]? = some hart → hart.debugMode = true →
    i ∈ [Instr.ecall, .mret, .hret, .sret, .uret] →
    ∃ t, exec i s = .next t ∧
      (t = endProgbuf s.cur (some 3) { s with free := s.free + 1 } ∨
        (s.onlyHart s.cur t ∧
          ∃ new, t.harts[s.cur]? = some new ∧ hart.onlyMovesOn new ∧ new.pc = hart.trunc (hart.pc + 4))))

/-- What an ordinary trap does to a hart (PRESUMED, notes/assumptions/1.md, 45.md; spec/60_exceptions.md R651, R670,
R686): the pc, the cause and any trap value are saved in the registers of the mode it goes to, MIE or SIE is stacked and
cleared, the privilege is saved, and the hart goes to the handler, an interrupt to its own entry where tvec says vectored.
Everything else stays but the cycle counter: the other mode's trap registers, the enables and the delegation, and every
other bit of mstatus. -/
def Obligations.TrapSaves : Prop :=
  ∀ (hart : Hart) (isInt : Bool) (cause : Nat) (tval : XWord),
    let new := hart.trap isInt cause tval
    let causeWord := BitVec.ofNat 128 (cause + if isInt then 2 ^ (hart.cfg.xlen - 1) else 0)
    let handler := fun (tvec : XWord) => hart.trunc (BitVec.ofNat 128
      (tvec.toNat / 4 * 4 + if isInt = true ∧ tvec.toNat % 4 = 1 then 4 * cause else 0))
    new = { hart with sys := new.sys, priv := new.priv, pc := new.pc, cycle := new.cycle, trapped := true } ∧
    (hart.delegated isInt cause = false →
      new.priv = .m ∧ new.pc = handler hart.sys.mtvec ∧
      new.sys = { hart.sys with
        mstatus := new.sys.mstatus
        mepc := hart.pc
        mcause := causeWord
        mtval := hart.trunc tval } ∧
      new.sys.mstatus.getLsbD 3 = false ∧ new.sys.mstatus.getLsbD 7 = hart.sys.mstatus.getLsbD 3 ∧
      new.sys.mstatus.extractLsb' 11 2 = privCode hart.priv ∧
      (∀ k, k ≠ 3 → k ≠ 7 → k ≠ 11 → k ≠ 12 → new.sys.mstatus.getLsbD k = hart.sys.mstatus.getLsbD k)) ∧
    (hart.delegated isInt cause = true →
      new.priv = .s ∧ new.pc = handler hart.sys.stvec ∧
      new.sys = { hart.sys with
        mstatus := new.sys.mstatus
        sepc := hart.pc
        scause := causeWord
        stval := hart.trunc tval } ∧
      new.sys.mstatus.getLsbD 1 = false ∧ new.sys.mstatus.getLsbD 5 = hart.sys.mstatus.getLsbD 1 ∧
      new.sys.mstatus.getLsbD 8 = (hart.priv == .s) ∧
      (∀ k, k ≠ 1 → k ≠ 5 → k ≠ 8 → new.sys.mstatus.getLsbD k = hart.sys.mstatus.getLsbD k))

/-! ### Debug and trigger CSRs -/

/-- A CSR instruction that only reads a debug or trigger CSR, in Debug Mode, or a trigger CSR in machine mode
(spec/44_debug_mode.md R500, R502, spec/45_triggers.md R530, R531; the instruction's format is PRESUMED,
notes/assumptions/36.md): rd gets the register's value and nothing else changes but the pc and the counters. dcsr reads as
R502 says; tdata1 of the trigger tselect names as its type's layout says (spec/10_state.md R142, R145, R146), tdata2 and
tdata3 as they stand, and all three 0 where tselect names no trigger. -/
def Obligations.CsrReads : Prop :=
  ∀ (s : State) (hart : Hart) (op : CsrOp), s.harts[s.cur]? = some hart →
    (∀ (row : CsrOp → Instr) (num : Nat) (old : XWord), (row, num) ∈ csrRows →
      hart.debugMode = true ∨ (hart.priv = .m ∧ num < 0x7b0) → readCsr s hart num = some old → csrWrites op = false →
      ∃ t new, exec (row op) s = .next t ∧ s.onlyHart s.cur t ∧ t.harts[s.cur]? = some new ∧
        new = { hart with pc := new.pc, gprs := new.gprs, cycle := new.cycle, instret := new.instret } ∧
        new.pc = hart.trunc (hart.pc + 4) ∧ hart.rdGets op.rd.toNat old new) ∧
    readCsr s hart 0x7b0 = some (BitVec.ofNat 128 hart.cfg.xdebugver <<< 28 |||
      (wordBit hart.dcsr.ebreakm 15 ||| wordBit hart.dcsr.ebreaks 13 ||| wordBit hart.dcsr.ebreaku 12 |||
        wordBit hart.dcsr.stepie 11 ||| wordBit hart.dcsr.stopcount 10 ||| wordBit hart.dcsr.stoptime 9 |||
        hart.dcsr.cause.setWidth 32 <<< 6 ||| wordBit hart.dcsr.step 2 ||| hart.dcsr.prv.setWidth 32).setWidth 128) ∧
    readCsr s hart 0x7b1 = some hart.dpc ∧
    (hart.cfg.hasDscratch0 = true → readCsr s hart 0x7b2 = some hart.dscratch0) ∧
    (hart.cfg.hasDscratch1 = true → readCsr s hart 0x7b3 = some hart.dscratch1) ∧
    readCsr s hart 0x7a0 = some hart.tselect ∧
    (hart.trigs[hart.tselect.toNat]? = none →
      readCsr s hart 0x7a1 = some 0 ∧ readCsr s hart 0x7a2 = some 0 ∧ readCsr s hart 0x7a3 = some 0) ∧
    (∀ trig : Trigger, hart.trigs[hart.tselect.toNat]? = some trig →
      readCsr s hart 0x7a2 = some trig.tdata2 ∧ readCsr s hart 0x7a3 = some trig.tdata3 ∧
      (hart.cfg.xlen = 32 ∨ hart.cfg.xlen = 64 ∨ hart.cfg.xlen = 128 → trig.cfg.kind < 16 → trig.cfg.maskmax < 64 →
        let type := BitVec.ofNat 128 trig.cfg.kind <<< (hart.cfg.xlen - 4)
        let dmode := (BitVec.ofBool trig.dmode).setWidth 128 <<< (hart.cfg.xlen - 5)
        readCsr s hart 0x7a1 = some (
          if trig.cfg.kind = 2 then
            type ||| dmode ||| BitVec.ofNat 128 trig.cfg.maskmax <<< (hart.cfg.xlen - 11) |||
              (wordBit trig.hit 20 ||| wordBit trig.select 19 ||| wordBit trig.timing 18 |||
                trig.action.setWidth 32 <<< 12 ||| wordBit trig.chain 11 ||| trig.mtch.setWidth 32 <<< 7 |||
                wordBit trig.m 6 ||| wordBit trig.s 4 ||| wordBit trig.u 3 ||| wordBit trig.execute 2 |||
                wordBit trig.store 1 ||| wordBit trig.load 0).setWidth 128
          else if trig.cfg.kind = 3 then
            type ||| dmode ||| (wordBit trig.hit 24 ||| trig.count.setWidth 32 <<< 10 ||| wordBit trig.m 9 |||
              wordBit trig.s 7 ||| wordBit trig.u 6 ||| trig.action.setWidth 32).setWidth 128
          else type)))

/-- A CSR instruction that writes dcsr, in Debug Mode (spec/44_debug_mode.md R501, R503): the writable fields take the
bits of the written value, cause and the reserved fields do not; a supported privilege level is stored as written, as the
model permits the debugger every one (model's choice, notes/assumptions/43.md). rd gets the old value and nothing else
changes but the pc and the counters. That ebreaks and ebreaku are stored on a hart without S or U mode too is the model's
choice (notes/assumptions/57.md). What the instruction writes (csrResult: write, set or clear) and what rd gets are
PRESUMED (notes/assumptions/36.md). -/
def Obligations.DcsrWrite : Prop :=
  ∀ (s : State) (hart : Hart) (op : CsrOp), s.harts[s.cur]? = some hart → hart.debugMode = true →
    csrWrites op = true →
    let old := BitVec.ofNat 128 hart.dcsrNat
    let v := hart.trunc (csrResult op hart old)
    ∃ t new, exec (.dcsr op) s = .next t ∧ s.onlyHart s.cur t ∧ t.harts[s.cur]? = some new ∧
      new = { hart with
        dcsr := new.dcsr
        pc := new.pc
        gprs := new.gprs
        cycle := new.cycle
        instret := new.instret } ∧
      new.dcsr = {
        ebreakm := v.getLsbD 15
        ebreaks := v.getLsbD 13
        ebreaku := v.getLsbD 12
        stepie := if hart.cfg.stepieWritable then v.getLsbD 11 else false
        stopcount := if hart.cfg.stopcountWritable then v.getLsbD 10 else hart.cfg.stopcountPreset
        stoptime := if hart.cfg.stoptimeWritable then v.getLsbD 9 else hart.cfg.stoptimePreset
        cause := hart.dcsr.cause
        step := v.getLsbD 2
        prv := new.dcsr.prv } ∧
      (∀ p, privOfCode (v.extractLsb' 0 2) = some p → p ∈ hart.cfg.privs → new.dcsr.prv = v.extractLsb' 0 2) ∧
      new.pc = hart.trunc (hart.pc + 4) ∧
      hart.rdGets op.rd.toNat old new

/-- CSR instructions that write dpc, dscratch0, dscratch1 and tselect (spec/44_debug_mode.md R504, R505,
spec/45_triggers.md R532): in Debug Mode each takes the written value, dpc without the bits a pc cannot hold
(notes/assumptions/43.md); tselect a valid index as written, and nothing on a hart without triggers. rd gets the old
value. What the instruction writes (csrResult: write, set or clear) and what rd gets are PRESUMED
(notes/assumptions/36.md). -/
def Obligations.DpcDscratchTselectWrite : Prop :=
  ∀ (s : State) (hart : Hart) (op : CsrOp), s.harts[s.cur]? = some hart → hart.debugMode = true →
    csrWrites op = true →
    (let v := hart.trunc (csrResult op hart hart.dpc)
      ∃ t new, exec (.dpc op) s = .next t ∧ s.onlyHart s.cur t ∧ t.harts[s.cur]? = some new ∧
        new.dpc = hart.pcBits v ∧ (v.toNat % 4 = 0 → new.dpc = v) ∧
        new = { hart with dpc := new.dpc, pc := hart.trunc (hart.pc + 4), gprs := new.gprs, cycle := new.cycle,
                          instret := new.instret } ∧
        hart.rdGets op.rd.toNat hart.dpc new) ∧
    (hart.cfg.hasDscratch0 = true →
      ∃ t new, exec (.dscratch0 op) s = .next t ∧ s.onlyHart s.cur t ∧ t.harts[s.cur]? = some new ∧
        new = { hart with dscratch0 := hart.trunc (csrResult op hart hart.dscratch0), pc := hart.trunc (hart.pc + 4),
                          gprs := new.gprs, cycle := new.cycle, instret := new.instret } ∧
        hart.rdGets op.rd.toNat hart.dscratch0 new) ∧
    (hart.cfg.hasDscratch1 = true →
      ∃ t new, exec (.dscratch1 op) s = .next t ∧ s.onlyHart s.cur t ∧ t.harts[s.cur]? = some new ∧
        new = { hart with dscratch1 := hart.trunc (csrResult op hart hart.dscratch1), pc := hart.trunc (hart.pc + 4),
                          gprs := new.gprs, cycle := new.cycle, instret := new.instret } ∧
        hart.rdGets op.rd.toNat hart.dscratch1 new) ∧
    (let v := hart.trunc (csrResult op hart hart.tselect)
      ∃ t new, exec (.tselect op) s = .next t ∧ s.onlyHart s.cur t ∧ t.harts[s.cur]? = some new ∧
        (hart.trigs = [] → new.tselect = hart.tselect) ∧ (v.toNat < hart.trigs.length → new.tselect = v) ∧
        new = { hart with tselect := new.tselect, pc := hart.trunc (hart.pc + 4), gprs := new.gprs, cycle := new.cycle,
                          instret := new.instret } ∧
        hart.rdGets op.rd.toNat hart.tselect new)

/-- CSR instructions that write tdata1, tdata2 and tdata3, from machine and from Debug Mode (spec/45_triggers.md R530,
R533, R534, R541, R560): they reach the trigger tselect names and no other; from machine mode a trigger with dmode 1 is
not written; only Debug Mode writes dmode; an unsupported action, match or count takes its reset value; timing keeps a
value the hardware fixes (R548). A trigger of another type than 2 and 3 ignores the write (R534). rd gets the old value.
What the instruction writes (csrResult: write, set or clear) and what rd gets are PRESUMED (notes/assumptions/36.md). A
combination the implementation does not support is not covered here (notes/assumptions/31.md). -/
def Obligations.TdataWrite : Prop :=
  ∀ (s : State) (hart : Hart) (trig : Trigger) (op : CsrOp), s.harts[s.cur]? = some hart →
    hart.debugMode = true ∨ hart.priv = .m → csrWrites op = true →
    hart.trigs[hart.tselect.toNat]? = some trig →
    let closed := (hart.debugMode = false ∧ trig.dmode = true) ∨ (trig.cfg.kind ≠ 2 ∧ trig.cfg.kind ≠ 3)
    let frame := fun (t : State) (new : Hart) (old : XWord) =>
      s.onlyHart s.cur t ∧ t.harts[s.cur]? = some new ∧
      new = { hart with trigs := new.trigs, pc := hart.trunc (hart.pc + 4), gprs := new.gprs, cycle := new.cycle,
                        instret := new.instret } ∧
      hart.rdGets op.rd.toNat old new ∧ new.trigs.length = hart.trigs.length ∧
      ∀ k, k ≠ hart.tselect.toNat → new.trigs[k]? = hart.trigs[k]?
    (∃ t new, exec (.tdata2 op) s = .next t ∧ frame t new trig.tdata2 ∧
      (closed → new.trigs = hart.trigs) ∧
      (¬closed → new.trigs[hart.tselect.toNat]? =
        some { trig with tdata2 := hart.trunc (csrResult op hart trig.tdata2) })) ∧
    (∃ t new, exec (.tdata3 op) s = .next t ∧ frame t new trig.tdata3 ∧
      (closed → new.trigs = hart.trigs) ∧
      (¬closed → new.trigs[hart.tselect.toNat]? =
        some { trig with tdata3 := hart.trunc (csrResult op hart trig.tdata3) })) ∧
    (∃ t new t', exec (.tdata1 op) s = .next t ∧ frame t new hart.tdata1 ∧ new.trigs[hart.tselect.toNat]? = some t' ∧
      (closed → t' = trig) ∧
      (¬closed → trig.cfg.badCombos = [] →
        let v := hart.trunc (csrResult op hart hart.tdata1)
        let a := v.extractLsb' (if trig.cfg.kind = 2 then 12 else 0) 6
        t'.dmode = (if hart.debugMode then v.getLsbD (hart.cfg.xlen - 5) else trig.dmode) ∧
        t'.action = (if a.toNat ∈ trig.cfg.actions ∧ a.toNat ≤ 4 ∧ (a = 1 → t'.dmode = true) then a else 0) ∧
        t'.cfg = trig.cfg ∧ t'.tdata2 = trig.tdata2 ∧ t'.tdata3 = trig.tdata3 ∧
        (trig.cfg.kind = 2 →
          let m := v.extractLsb' 7 4
          t'.mtch = (if m.toNat ∈ trig.cfg.matches_ ∧ m.toNat ≤ 5 ∧ (m = 1 → trig.cfg.maskmax ≠ 0) then m else 0) ∧
          t'.hit = (trig.cfg.hasHit && v.getLsbD 20) ∧ t'.select = (trig.cfg.hasSelect1 && v.getLsbD 19) ∧
          (trig.cfg.fixedTiming = [] → t'.timing = v.getLsbD 18) ∧
          (∀ b, trig.cfg.fixedTiming = [(0, 0, b)] → t'.timing = b) ∧ t'.chain = (trig.cfg.hasChain && v.getLsbD 11) ∧
          t'.m = (trig.cfg.hasM && v.getLsbD 6) ∧ t'.s = (trig.cfg.hasS && v.getLsbD 4) ∧
          t'.u = (trig.cfg.hasU && v.getLsbD 3) ∧ t'.execute = (trig.cfg.hasExecute && v.getLsbD 2) ∧
          t'.store = (trig.cfg.hasStore && v.getLsbD 1) ∧ t'.load = (trig.cfg.hasLoad && v.getLsbD 0)) ∧
        (trig.cfg.kind = 3 →
          t'.count = (if trig.cfg.countMin ≤ (v.extractLsb' 10 14).toNat ∧
            (v.extractLsb' 10 14).toNat ≤ trig.cfg.countMax then v.extractLsb' 10 14 else 1) ∧
          t'.hit = (trig.cfg.hasHit && v.getLsbD 24) ∧ t'.m = (trig.cfg.hasM && v.getLsbD 9) ∧
          t'.s = (trig.cfg.hasS && v.getLsbD 7) ∧ t'.u = (trig.cfg.hasU && v.getLsbD 6))))

/-- The debug CSRs are accessible from Debug Mode only, the trigger CSRs from machine and Debug Mode only; elsewhere the
access is an illegal instruction (exception number 2: PRESUMED, notes/assumptions/1.md). A dscratch register that is not
implemented raises an exception in Debug Mode, which ends the Program Buffer with cmderr 3 (spec/44_debug_mode.md R500,
R483, spec/45_triggers.md R530). -/
def Obligations.CsrRefused : Prop :=
  ∀ (s : State) (hart : Hart) (op : CsrOp), s.harts[s.cur]? = some hart →
    (∀ (row : CsrOp → Instr) (num : Nat), (row, num) ∈ csrRows → hart.debugMode = false →
      0x7b0 ≤ num ∨ hart.priv ≠ .m → ∃ t, exec (row op) s = .next t ∧ s.takesException s.cur 2 t) ∧
    (hart.debugMode = true → hart.cfg.hasDscratch0 = false →
      exec (.dscratch0 op) s = .next (endProgbuf s.cur (some 3) s)) ∧
    (hart.debugMode = true → hart.cfg.hasDscratch1 = false →
      exec (.dscratch1 op) s = .next (endProgbuf s.cur (some 3) s))

/-! ### dmcontrol, dmstatus and the selection -/

/-- A read of dmcontrol (spec/41_reset_select_run.md R331): the readable fields in their places, the write-only ones 0;
it changes nothing. In the hartreset position stands the value last written (D17, notes/assumptions/50.md).
Unauthenticated it shows dmactive alone (spec/40_dmi_dm_access.md R294). -/
def Obligations.DmcontrolRead : Prop :=
  ∀ s : State,
    (s.dm.authenticated = true → exec (.dmcontrol .read) s = .next { s with
      dmiOut := wordBit s.dm.hartresetLatch 29 ||| wordBit s.dm.hasel 26 |||
        (s.dm.hartsel.extractLsb' 0 10).setWidth 32 <<< 16 ||| (s.dm.hartsel.extractLsb' 10 10).setWidth 32 <<< 6 |||
        wordBit s.dm.ndmreset 1 ||| wordBit s.dm.dmactive 0 }) ∧
    (s.dm.authenticated = false → exec (.dmcontrol .read) s = .next { s with dmiOut := wordBit s.dm.dmactive 0 })

/-- A write of dmcontrol that keeps the DM active and asserts no reset (spec/41_reset_select_run.md R311, R326, R329): the
selection first, then the requests of the harts selected by this same write, and of no other hart: a write that means only
to change hartsel writes the request bits of the newly selected hart (R337's last sentence); lowering resumereq lowers
resumeack, ackhavereset clears havereset. Nothing else changes, the free-value number included. -/
def Obligations.DmcontrolWriteSelectsThenRequests : Prop :=
  ∀ (s : State) (v : Word), s.dm.dmactive = true → s.dm.authenticated = true → v.getLsbD 0 = true →
    v.getLsbD 1 = false → s.extReset = false → s.cfg.hasHartreset = false →
    (∀ hart ∈ s.harts, hart.ctl.hartreset = false) →
    ∃ t, exec (.dmcontrol (.write v)) s = .next t ∧
      t = { s with harts := t.harts, dm := { s.dm with
        hasel := s.cfg.hasHasel && v.getLsbD 26
        hartsel := t.dm.hartsel
        hartresetLatch := false
        ndmreset := false } } ∧
      (∀ i, i < 20 → t.dm.hartsel.getLsbD i =
        (decide (i < s.cfg.hartsellen) && if i < 10 then v.getLsbD (16 + i) else v.getLsbD (i - 4))) ∧
      t.harts.length = s.harts.length ∧
      ∀ (k : Nat) (hart : Hart), s.harts[k]? = some hart →
        (t.selects k → t.harts[k]? = some { hart with ctl := { hart.ctl with
          haltreq := v.getLsbD 31
          resumereq := v.getLsbD 30
          resumeack := hart.ctl.resumeack && v.getLsbD 30
          havereset := hart.ctl.havereset && !v.getLsbD 28 } }) ∧
        (¬t.selects k → t.harts[k]? = some hart)

/-- A write of dmcontrol with ndmreset 1 (spec/41_reset_select_run.md R311, R313, R329, spec/70_reset_and_hazards.md
R712, R714, R718): afterwards every hart is held in reset with havereset set; a hart that was not in reset has left
Debug Mode and its debug registers have their reset values (0 for dpc, and for tselect, tdata2 and tdata3 of triggers
that are reset: D8, notes/assumptions/51.md; a timing the hardware fixes has its fixed value: notes/assumptions/31.md).
The DM's registers stay but for the fields the write names (hasel, hartsel, hartreset, ndmreset), and, where a command
was in progress on a hart that is reset, what its end does (phase, cmderr, data). Each hart's request bits and mask stay
but for those the write gives the harts it selects. Triggers are reset where the hart's own hartreset bit is 1 or
NDMRESET clears them, and else stay (notes/assumptions/30.md). DTM and System Bus Access stay; that memory, data and
progbuf stay is the model's choice (notes/assumptions/52.md). -/
def Obligations.Ndmreset : Prop :=
  ∀ (s : State) (v : Word), s.dm.dmactive = true → s.dm.authenticated = true → v.getLsbD 0 = true →
    v.getLsbD 1 = true →
    ∃ t, exec (.dmcontrol (.write v)) s = .next t ∧ t.inResetWindow = true ∧
      t = { s with harts := t.harts, dm := t.dm, free := t.free } ∧
      t.dm = { s.dm with
        hasel := s.cfg.hasHasel && v.getLsbD 26
        hartsel := t.dm.hartsel
        hartresetLatch := s.cfg.hasHartreset && v.getLsbD 29
        ndmreset := true
        phase := t.dm.phase
        cmderr := t.dm.cmderr
        data := t.dm.data
        defined := t.dm.defined } ∧
      (∀ i, i < 20 → t.dm.hartsel.getLsbD i =
        (decide (i < s.cfg.hartsellen) && if i < 10 then v.getLsbD (16 + i) else v.getLsbD (i - 4))) ∧
      (s.dm.phase = .idle → t.dm.phase = .idle ∧ t.dm.cmderr = s.dm.cmderr ∧ t.dm.data = s.dm.data ∧
        t.dm.defined = s.dm.defined) ∧
      t.harts.length = s.harts.length ∧
      ∀ (k : Nat) (old new : Hart), s.harts[k]? = some old → t.harts[k]? = some new →
        new.inReset = true ∧
        (t.selects k → new.ctl = {
          haltreq := v.getLsbD 31
          resumereq := v.getLsbD 30
          hartreset := if s.cfg.hasHartreset then v.getLsbD 29 else old.ctl.hartreset
          havereset := true
          resumeack := old.ctl.resumeack && v.getLsbD 30
          mask := old.ctl.mask }) ∧
        (¬t.selects k → new.ctl = { old.ctl with havereset := true }) ∧
        (s.cfg.inResetUnavailable = true → new.status t.cfg = .unavailable) ∧
        (old.inReset = true → new = { old with ctl := new.ctl, tselect := new.tselect, trigs := new.trigs }) ∧
        (old.inReset = false → new.debugMode = false ∧ new.priv = .m ∧ new.dpc = 0 ∧ new.reservation = none ∧
          new.dcsr = Dcsr.reset old.cfg ∧ new.pc = BitVec.ofNat 128 old.cfg.resetPc) ∧
        (new.ctl.hartreset = true ∨ (old.inReset = false ∧ s.cfg.ndmresetClearsTriggers = true) →
          new.tselect = 0 ∧ new.trigs = old.trigs.map fun t => Trigger.reset t.cfg) ∧
        (¬(new.ctl.hartreset = true ∨ (old.inReset = false ∧ s.cfg.ndmresetClearsTriggers = true)) →
          new.tselect = old.tselect ∧ new.trigs = old.trigs)

/-- A write of dmcontrol on an active DM where hart resets are implemented, without ndmreset
(spec/41_reset_select_run.md R328, R329, spec/70_reset_and_hazards.md R714, R718, spec/45_triggers.md R570): with
hartreset 1 every selected hart is held in reset with havereset set and its triggers, debug registers, privilege, pc and
reservation at their reset values (0 for dpc, tselect, tdata2 and tdata3: D8, notes/assumptions/51.md; a timing the
hardware fixes has its fixed value: notes/assumptions/31.md); so is a hart that is not selected and has its own reset
bit 1, whose request bits stay. With hartreset 0 the reset bit of a selected hart is 0 and nothing else of it changes
but the bits of the write. A hart that is not selected, with its own reset bit 0, does not change. Of the DM only the
fields the write names change and, where a command was in progress on a hart that is reset, what its end does (phase,
cmderr, data). Memory (notes/assumptions/52.md), DTM and System Bus Access stay. How a hart leaves reset: HaltRequest
and ExternalReset. -/
def Obligations.HartReset : Prop :=
  ∀ (s : State) (v : Word), s.dm.dmactive = true → s.dm.authenticated = true → v.getLsbD 0 = true →
    v.getLsbD 1 = false → s.extReset = false → s.cfg.hasHartreset = true →
    let resets := fun (old new : Hart) =>
      new.inReset = true ∧ new.tselect = 0 ∧ (new.trigs = old.trigs.map fun t => Trigger.reset t.cfg) ∧
      (old.inReset = false → new.debugMode = false ∧ new.priv = .m ∧ new.dpc = 0 ∧ new.reservation = none ∧
        new.dcsr = Dcsr.reset old.cfg ∧ new.pc = BitVec.ofNat 128 old.cfg.resetPc)
    ∃ t, exec (.dmcontrol (.write v)) s = .next t ∧
      t = { s with harts := t.harts, free := t.free, dm := { s.dm with
        hasel := s.cfg.hasHasel && v.getLsbD 26
        hartsel := t.dm.hartsel
        hartresetLatch := v.getLsbD 29
        ndmreset := false
        phase := t.dm.phase
        cmderr := t.dm.cmderr
        data := t.dm.data
        defined := t.dm.defined } } ∧
      (s.dm.phase = .idle → t.dm.phase = .idle ∧ t.dm.cmderr = s.dm.cmderr ∧ t.dm.data = s.dm.data ∧
        t.dm.defined = s.dm.defined) ∧
      t.harts.length = s.harts.length ∧
      ∀ (k : Nat) (old new : Hart), s.harts[k]? = some old → t.harts[k]? = some new →
        (t.selects k → v.getLsbD 29 = true →
          resets old new ∧
          new.ctl = {
            haltreq := v.getLsbD 31
            resumereq := v.getLsbD 30
            hartreset := true
            havereset := true
            resumeack := old.ctl.resumeack && v.getLsbD 30
            mask := old.ctl.mask }) ∧
        (t.selects k → v.getLsbD 29 = false → new = { old with ctl := {
          haltreq := v.getLsbD 31
          resumereq := v.getLsbD 30
          hartreset := false
          havereset := old.ctl.havereset && !v.getLsbD 28
          resumeack := old.ctl.resumeack && v.getLsbD 30
          mask := old.ctl.mask } }) ∧
        (¬t.selects k → old.ctl.hartreset = true → resets old new ∧ new.ctl = { old.ctl with havereset := true }) ∧
        (¬t.selects k → old.ctl.hartreset = false → new = old)

/-- An external reset, and a hart's reset by the platform alone (spec/00_scope.md R30, spec/41_reset_select_run.md R329,
R334, spec/70_reset_and_hazards.md R712, R714). While the external reset is asserted every hart is held in reset,
havereset set; one that was not in reset has left Debug Mode, its dcsr and dpc at their reset values (0 for dpc: D8,
notes/assumptions/51.md). The triggers and tselect of a hart are reset where its own hartreset bit is 1, or where it was
not in reset and the reset clears triggers, and else stay (R152, notes/assumptions/30.md). The DM, the DTM and System
Bus Access stay, no command being in progress; memory, data and progbuf stay (model's choice, notes/assumptions/52.md).
Its release changes no hart. The platform's reset of one hart also resets its triggers; the zero of tselect, tdata2 and
tdata3 of a trigger that is reset is D8 (notes/assumptions/51.md), the value of a timing the hardware fixes
notes/assumptions/31.md's. A hart that was halted when a system reset came, with no halt request when it leaves reset,
halts again before executing anything where HALT_KEPT_ACROSS_NDMRESET and dmactive are set, with cause 3 at its reset
entry, and otherwise runs from there (U9: notes/assumptions/17.md, 29.md; with a Quick Access waiting for it:
QuickAccess). -/
def Obligations.ExternalReset : Prop :=
  (∀ (s : State) (q : List Event), s.queue = .extReset true :: q → s.dm.phase = .idle →
    ∃ t, step s = .next t ∧
      t = { s with queue := q, extReset := true, harts := t.harts, free := t.free } ∧
      t.harts.length = s.harts.length ∧
      ∀ (k : Nat) (old new : Hart), s.harts[k]? = some old → t.harts[k]? = some new →
        new.inReset = true ∧ new.ctl = { old.ctl with havereset := true } ∧
        (old.inReset = false → new.debugMode = false ∧ new.resetHalt = old.debugMode ∧ new.dpc = 0 ∧
          new.dcsr = Dcsr.reset old.cfg ∧ new.pc = BitVec.ofNat 128 old.cfg.resetPc ∧ new.priv = .m) ∧
        (old.ctl.hartreset = true ∨ (old.inReset = false ∧ s.cfg.ndmresetClearsTriggers = true) →
          new.tselect = 0 ∧ new.trigs = old.trigs.map fun t => Trigger.reset t.cfg) ∧
        (¬(old.ctl.hartreset = true ∨ (old.inReset = false ∧ s.cfg.ndmresetClearsTriggers = true)) →
          new.tselect = old.tselect ∧ new.trigs = old.trigs)) ∧
  (∀ (s : State) (q : List Event), s.queue = .extReset false :: q → s.dm.ndmreset = false →
    (∀ hart ∈ s.harts, hart.ctl.hartreset = false) → step s = .next { s with queue := q, extReset := false }) ∧
  (∀ (s : State) (h : Nat) (q : List Event) (old : Hart), s.queue = .hartReset h :: q → s.harts[h]? = some old →
    s.dm.phase = .idle →
    ∃ t new, step s = .next t ∧ { s with queue := q }.onlyHart h t ∧ t.harts[h]? = some new ∧ new.inReset = true ∧
      new.ctl = { old.ctl with havereset := true } ∧ new.debugMode = false ∧ new.dcsr = Dcsr.reset old.cfg ∧ new.dpc = 0 ∧
      new.tselect = 0 ∧ new.trigs = old.trigs.map fun t => Trigger.reset t.cfg) ∧
  (∀ (s : State) (h : Nat) (q : List Event) (hart : Hart), s.queue = .hart h :: q → s.harts[h]? = some hart →
    hart.avail = true → hart.inReset = true → s.resetLine hart = false → hart.ctl.haltreq = false →
    hart.resetHalt = true → s.dm.phase ≠ .quickHalt →
    let kept := s.cfg.haltKeptAcrossNdmreset = true ∧ s.dm.dmactive = true
    ∃ t new, step s = .next t ∧ { s with queue := q, cur := h }.onlyHart h t ∧ t.harts[h]? = some new ∧
      new.inReset = false ∧ new.resetHalt = false ∧ new.ctl = { hart.ctl with havereset := true } ∧
      (kept → new.status s.cfg = .halted ∧ new.dcsr = { hart.dcsr with cause := 3, prv := privCode hart.priv } ∧
        new.dpc = hart.trunc (BitVec.ofNat 128 hart.cfg.resetPc) ∧ new.gprs = hart.gprs) ∧
      (¬kept → new = { hart with inReset := false, resetHalt := false, ctl := new.ctl }))

/-- A write of dmcontrol with dmactive 0 resets the DM and does nothing else of what is written
(spec/41_reset_select_run.md R312, spec/70_reset_and_hazards.md R711): with no command about to be executed and
no bus access in progress the harts keep all but the bits the DM holds for them (havereset may be cleared or not), and
memory and DTM stay; a Program Buffer in execution stops, and dpc is then any value on a hart whose Program Buffer
clobbers it (spec/93_implementation_defined.md U8, U34, notes/assumptions/28.md). The write
that activates the DM sets dmactive and, in the model's default, nothing else (D20). That data, progbuf, hawindowsel and the
hart array mask are 0 after it is D6 and D7 (notes/assumptions/51.md). -/
def Obligations.DmReset : Prop :=
  ∀ (s : State) (v : Word),
    (v.getLsbD 0 = false → ∃ t, exec (.dmcontrol (.write v)) s = .next t ∧ t.dm = Dm.reset s.cfg ∧ t.sb = Sb.reset ∧
      t.dtm = s.dtm ∧ t.cfg = s.cfg ∧ t.extReset = s.extReset ∧ t.harts.length = s.harts.length ∧
      (∀ (k : Nat) (old new : Hart), s.harts[k]? = some old → t.harts[k]? = some new →
        new.ctl.haltreq = false ∧ new.ctl.resumereq = false ∧ new.ctl.hartreset = false ∧ new.ctl.resumeack = false ∧
        new.ctl.mask = false ∧ new.debugMode = old.debugMode ∧ new.inReset = old.inReset ∧
        (new.ctl.havereset = true → old.ctl.havereset = true)) ∧
      (s.dm.phase ≠ .started → s.sb.pending = none → s.sameBytes t ∧
        ∀ (k : Nat) (old new : Hart), s.harts[k]? = some old → t.harts[k]? = some new →
          new = { old with ctl := new.ctl, inProgbuf := false, dpc := new.dpc } ∧
          (old.inProgbuf = false ∨ old.cfg.progbufClobbersDpc = false → new.dpc = old.dpc))) ∧
    (v.getLsbD 0 = true → s.dm.dmactive = false → s.cfg.activatingWriteAppliesFields = false →
      exec (.dmcontrol (.write v)) s = .next { s with dm := { s.dm with dmactive := true } })

/-- A read of dmstatus (spec/41_reset_select_run.md R321, spec/10_state.md R51): each all bit is a universal, each any
bit an existential statement about the selected hart indexes, a nonexistent one counting as neither acknowledged nor
reset, and the four statuses excluding each other (both D19, notes/assumptions/50.md); the other bits are the constants
and authbusy; reserved bits are 0. The read changes nothing, and a write has no effect. -/
def Obligations.DmstatusRead : Prop :=
  ∀ s : State, s.dm.authenticated = true → s.dm.ndmreset = false → s.extReset = false →
    (∀ w, exec (.dmstatus (.write w)) s = .next s) ∧
    ∃ v : Word, exec (.dmstatus .read) s = .next { s with dmiOut := v } ∧
      (v.getLsbD 9 = true ↔ ∀ h, s.selects h → s.status h = .halted) ∧
      (v.getLsbD 8 = true ↔ ∃ h, s.selects h ∧ s.status h = .halted) ∧
      (v.getLsbD 11 = true ↔ ∀ h, s.selects h → s.status h = .running) ∧
      (v.getLsbD 10 = true ↔ ∃ h, s.selects h ∧ s.status h = .running) ∧
      (v.getLsbD 13 = true ↔ ∀ h, s.selects h → s.status h = .unavailable) ∧
      (v.getLsbD 12 = true ↔ ∃ h, s.selects h ∧ s.status h = .unavailable) ∧
      (v.getLsbD 15 = true ↔ ∀ h, s.selects h → s.status h = .nonexistent) ∧
      (v.getLsbD 14 = true ↔ ∃ h, s.selects h ∧ s.status h = .nonexistent) ∧
      (v.getLsbD 17 = true ↔ ∀ h, s.selects h → ∃ hart, s.harts[h]? = some hart ∧ hart.ctl.resumeack = true) ∧
      (v.getLsbD 16 = true ↔ ∃ h hart, s.selects h ∧ s.harts[h]? = some hart ∧ hart.ctl.resumeack = true) ∧
      (v.getLsbD 19 = true ↔ ∀ h, s.selects h → ∃ hart, s.harts[h]? = some hart ∧ hart.ctl.havereset = true) ∧
      (v.getLsbD 18 = true ↔ ∃ h hart, s.selects h ∧ s.harts[h]? = some hart ∧ hart.ctl.havereset = true) ∧
      v.getLsbD 22 = s.cfg.impebreak ∧ v.getLsbD 7 = true ∧ v.getLsbD 6 = s.dm.authbusy ∧
      v.getLsbD 4 = s.cfg.devtreevalid ∧ v.extractLsb' 0 4 = 2 ∧ v.getLsbD 5 = false ∧ v.extractLsb' 20 2 = 0 ∧
      v.extractLsb' 23 9 = 0

/-- The halt summaries (spec/41_reset_select_run.md R336): bit i of each says whether some hart of its group is halted, the
group being fixed by hartsel; hasel and the hart array mask play no part; writes have no effect. -/
def Obligations.HaltSummaries : Prop :=
  ∀ s : State, s.dmReady →
    let sel := s.dm.hartsel.toNat
    (∃ v : Word, exec (.haltsum0 .read) s = .next { s with dmiOut := v } ∧
      ∀ i, i < 32 → (v.getLsbD i = true ↔ s.status (sel / 32 * 32 + i) = .halted)) ∧
    (s.cfg.hasHaltsum1 = true → ∃ v : Word, exec (.haltsum1 .read) s = .next { s with dmiOut := v } ∧
      ∀ i, i < 32 → (v.getLsbD i = true ↔
        ∃ j, j < 32 ∧ s.status ((sel / 1024 * 32 + i) * 32 + j) = .halted)) ∧
    (s.cfg.hasHaltsum2 = true → ∃ v : Word, exec (.haltsum2 .read) s = .next { s with dmiOut := v } ∧
      ∀ i, i < 32 → (v.getLsbD i = true ↔
        ∃ j, j < 1024 ∧ s.status ((sel / 32768 * 32 + i) * 1024 + j) = .halted)) ∧
    (s.cfg.hasHaltsum3 = true → ∃ v : Word, exec (.haltsum3 .read) s = .next { s with dmiOut := v } ∧
      ∀ i, i < 32 → (v.getLsbD i = true ↔ ∃ j, j < 32768 ∧ s.status (i * 32768 + j) = .halted)) ∧
    (∀ row ∈ [Instr.haltsum0, .haltsum1, .haltsum2, .haltsum3], ∀ w, exec (row (.write w)) s = .next s)

/-- The hart array mask window (spec/41_reset_select_run.md R317, spec/10_state.md R56, R57): hawindowsel holds its
implemented bits (those that reach 2^HARTSELLEN harts: notes/assumptions/51.md); hawindow reads and writes the mask bits of
harts hawindowsel * 32 to hawindowsel * 32 + 31 that exist, and no request bit. -/
def Obligations.HartArrayMask : Prop :=
  ∀ (s : State) (v : Word), s.dmReady → s.cfg.hasHasel = true → s.harts.length ≤ 2 ^ s.cfg.hartsellen →
    exec (.hawindowsel .read) s = .next { s with dmiOut := s.dm.hawindowsel.setWidth 32 } ∧
    (∃ t, exec (.hawindowsel (.write v)) s = .next t ∧
      t = { s with dm := { s.dm with hawindowsel := t.dm.hawindowsel } } ∧
      ∀ i, i < 15 → t.dm.hawindowsel.getLsbD i = (decide (i + 5 < s.cfg.hartsellen) && v.getLsbD i)) ∧
    (∃ r : Word, exec (.hawindow .read) s = .next { s with dmiOut := r } ∧
      ∀ i, i < 32 → (r.getLsbD i = true ↔
        ∃ hart, s.harts[s.dm.hawindowsel.toNat * 32 + i]? = some hart ∧ hart.ctl.mask = true)) ∧
    (∃ t, exec (.hawindow (.write v)) s = .next t ∧ t = { s with harts := t.harts } ∧
      t.harts.length = s.harts.length ∧
      ∀ (k : Nat) (hart : Hart), s.harts[k]? = some hart →
        (k / 32 = s.dm.hawindowsel.toNat →
          t.harts[k]? = some { hart with ctl := { hart.ctl with mask := v.getLsbD (k % 32) } }) ∧
        (k / 32 ≠ s.dm.hawindowsel.toNat → t.harts[k]? = some hart))

/-- The authentication port (spec/40_dmi_dm_access.md R294, R295, R296): on an active DM that is not busy, with or
without authentication passed, a read or a write of authdata is one step of the opaque authentication module and sets
authbusy; when the module is done authbusy falls and authenticated is set if the check has passed. Without HAS_AUTH
authdata reads 0 and ignores writes (D7). The gates in front of the registers (spec/40_dmi_dm_access.md R290, R291,
R293): outside the reset window, while the DM is inactive or unauthenticated, a write of any register but dmcontrol,
dmstatus and authdata changes nothing, and a read changes nothing but the answer. The answer of an unauthenticated read
is 0 where gating is strict, and 0 (an absent register) or any value where it is not (notes/assumptions/19.md). The
answer of a read of an inactive DM is the register's reset value (0 for data, progbuf, hawindowsel and hawindow: D6, D7,
notes/assumptions/51.md) or Preset value. Unauthenticated, a write of dmcontrol sets dmactive and nothing else. -/
def Obligations.AuthenticationAndGates : Prop :=
  (∀ (s : State) (v : Word), s.dm.ndmreset = false → s.extReset = false →
    (s.cfg.hasAuth = true → s.dm.dmactive = true → s.dm.authbusy = false →
      exec (.authdata .read) s = .next { s with
        dmiOut := (Config.authRead s.dm.auth).2
        dm := { s.dm with auth := (Config.authRead s.dm.auth).1, authbusy := true } } ∧
      exec (.authdata (.write v)) s = .next { s with
        dm := { s.dm with auth := Config.authWrite s.dm.auth v, authbusy := true } }) ∧
    (s.cfg.hasAuth = false → exec (.authdata .read) s = .next { s with dmiOut := 0 } ∧
      exec (.authdata (.write v)) s = .next s) ∧
    (∀ q, s.queue = .auth :: q → s.dm.authbusy = true → step s = .next { s with
      queue := q
      dm := { s.dm with
        authbusy := false
        authenticated := s.dm.authenticated || Config.authPassed s.dm.auth } })) ∧
  (∀ (s : State) (v : Word), s.dm.ndmreset = false → s.extReset = false →
    (s.dm.dmactive = false ∨ s.dm.authenticated = false →
      ∀ row ∈ gatedRows, exec (row (.write v)) s = .next s ∧
        ∃ answer k, exec (row .read) s = .next { s with dmiOut := answer, free := s.free + k } ∧
          (s.dm.authenticated = false → (answer = 0 ∧ k = 0) ∨
            (s.cfg.authGatingStrict = false ∧ answer = freeWord32 s.free ∧ k = 1))) ∧
    (s.dm.dmactive = false → s.dm.authenticated = true → s.inactiveOk →
      (∀ row ∈ dataRows ++ progbufRows ++ [Instr.command, .abstractauto, .hawindowsel, .hawindow, .sbaddress0, .sbaddress1,
          .sbaddress2, .sbaddress3, .sbdata0, .sbdata1, .sbdata2, .sbdata3],
        exec (row .read) s = .next { s with dmiOut := 0 }) ∧
      (s.cfg.progbufsize ≤ 16 → s.cfg.datacount ≤ 12 → exec (.abstractcs .read) s = .next { s with
        dmiOut := BitVec.ofNat 32 s.cfg.progbufsize <<< 24 ||| BitVec.ofNat 32 s.cfg.datacount }) ∧
      (0 < s.cfg.sbasize → s.cfg.sbasize < 128 → exec (.sbcs .read) s = .next { s with
        dmiOut := 0x20040000 ||| BitVec.ofNat 32 s.cfg.sbasize <<< 5 ||| wordBit s.cfg.sbaccess128 4 |||
          wordBit s.cfg.sbaccess64 3 ||| wordBit s.cfg.sbaccess32 2 ||| wordBit s.cfg.sbaccess16 1 |||
          wordBit s.cfg.sbaccess8 0 }) ∧
      (∀ hart, s.cfg.hasHartinfo = true → s.harts[0]? = some hart → hart.cfg.nscratch < 16 → hart.cfg.datasize < 16 →
        exec (.hartinfo .read) s = .next { s with
          dmiOut := BitVec.ofNat 32 hart.cfg.nscratch <<< 20 ||| wordBit hart.cfg.dataaccess 16 |||
            BitVec.ofNat 32 hart.cfg.datasize <<< 12 ||| hart.cfg.dataaddr.setWidth 32 }) ∧
      (∀ (k : Nat) (row : DmAcc → Instr),
        [Instr.devtreeaddr0, .devtreeaddr1, .devtreeaddr2, .devtreeaddr3][k]? = some row →
        exec (row .read) s = .next { s with dmiOut := s.cfg.devtreeaddr.extractLsb' (32 * k) 32 }) ∧
      exec (.nextdm .read) s = .next { s with dmiOut := s.cfg.nextdm }) ∧
    (s.dm.authenticated = false → v.getLsbD 0 = true →
      exec (.dmcontrol (.write v)) s = .next { s with dm := { s.dm with dmactive := true } }) ∧
    (s.dm.authenticated = false → exec (.dmstatus .read) s = .next { s with
      dmiOut := wordBit s.dm.authbusy 6 ||| 2 }))

/-! ### Access to the DM's registers in general -/

/-- The registers that only inform (spec/10_state.md R55, R65, R66): hartinfo describes the hart hartsel names, and for
one that does not exist has any value with reserved bits 0 (notes/assumptions/49.md); devtreeaddr0 to 3 are the slices of
one 128-bit value, nextdm is a constant; writes have no effect (spec/40_dmi_dm_access.md R282). An unimplemented DM
register reads 0 and ignores writes, in every state (spec/40_dmi_dm_access.md R288). -/
def Obligations.InformationAndAbsentRegisters : Prop :=
  (∀ s : State, s.dmReady →
      (∀ hart, s.cfg.hasHartinfo = true → s.harts[s.dm.hartsel.toNat]? = some hart →
          hart.cfg.nscratch < 16 → hart.cfg.datasize < 16 →
        exec (.hartinfo .read) s = .next { s with
          dmiOut := BitVec.ofNat 32 hart.cfg.nscratch <<< 20 ||| wordBit hart.cfg.dataaccess 16 |||
            BitVec.ofNat 32 hart.cfg.datasize <<< 12 ||| hart.cfg.dataaddr.setWidth 32 }) ∧
      (s.cfg.hasHartinfo = true → s.harts[s.dm.hartsel.toNat]? = none →
        ∃ r, exec (.hartinfo .read) s = .next { s with dmiOut := r, free := s.free + 1 } ∧ r &&& 0xff0e0000 = 0) ∧
      exec (.devtreeaddr0 .read) s = .next { s with dmiOut := s.cfg.devtreeaddr.extractLsb' 0 32 } ∧
      exec (.devtreeaddr1 .read) s = .next { s with dmiOut := s.cfg.devtreeaddr.extractLsb' 32 32 } ∧
      exec (.devtreeaddr2 .read) s = .next { s with dmiOut := s.cfg.devtreeaddr.extractLsb' 64 32 } ∧
      exec (.devtreeaddr3 .read) s = .next { s with dmiOut := s.cfg.devtreeaddr.extractLsb' 96 32 } ∧
      exec (.nextdm .read) s = .next { s with dmiOut := s.cfg.nextdm } ∧
      ∀ row ∈ [Instr.hartinfo, .devtreeaddr0, .devtreeaddr1, .devtreeaddr2, .devtreeaddr3, .nextdm], ∀ w,
        exec (row (.write w)) s = .next s) ∧
  (∀ (s : State) (row : DmAcc → Instr) (v : Word), (row, false) ∈ optionalRows s.cfg →
      exec (row .read) s = .next { s with dmiOut := 0 } ∧ exec (row (.write v)) s = .next s)

/-! ### The abstract command interface -/

/-- abstractcs (spec/42_abstract_commands.md R365): a write clears the written 1 bits of cmderr and nothing else; a read
gives progbufsize, busy, cmderr and datacount in their places. -/
def Obligations.Abstractcs : Prop :=
  ∀ (s : State) (v : Word), s.dmReady →
    (s.dm.busy = false → exec (.abstractcs (.write v)) s = .next { s with
      dm := { s.dm with cmderr := s.dm.cmderr &&& ~~~(v.extractLsb' 8 3) } }) ∧
    (s.cfg.progbufsize ≤ 16 → s.cfg.datacount ≤ 12 → exec (.abstractcs .read) s = .next { s with
      dmiOut := BitVec.ofNat 32 s.cfg.progbufsize <<< 24 ||| wordBit s.dm.busy 12 ||| s.dm.cmderr.setWidth 32 <<< 8 |||
        BitVec.ofNat 32 s.cfg.datacount })

/-- command (spec/42_abstract_commands.md R361, R362): with an error set a write is ignored, the latched command
included (D21, notes/assumptions/50.md); otherwise it is latched and the command starts on the hart hartsel names, busy
at once. A read gives 0 (spec/10_state.md R61). abstractauto, where it is present, and the repetition of a command
(spec/42_abstract_commands.md R366): a write stores the supported bits, which are bits of implemented data and progbuf
words only, so bits 15:12 read 0 (D3, notes/assumptions/50.md); a read gives them. A read of a data or progbuf
word returns the value it had, a write stores; then, with the word's bit set, no error and no command in progress, the
latched command starts again; otherwise nothing more happens. -/
def Obligations.CommandAndAutoexec : Prop :=
  (∀ (s : State) (v : Word), s.dmReady →
    exec (.command .read) s = .next { s with dmiOut := 0 } ∧
    (s.dm.busy = false → s.dm.cmderr ≠ 0 → exec (.command (.write v)) s = .next s) ∧
    (s.dm.busy = false → s.dm.cmderr = 0 →
      ∃ t, exec (.command (.write v)) s = .next t ∧ t.dm.busy = true ∧
        t = { s with dm := { s.dm with
          latch := v
          cmd := v
          phase := .started
          cmdHart := s.dm.hartsel.toNat
          quick := false
          defined := 0
          fetchBuf := s.dm.progbuf } })) ∧
  (∀ (s : State) (v : Word), s.dmReady → s.dm.busy = false →
    (s.cfg.hasAbstractauto = true → exec (.abstractauto .read) s = .next { s with dmiOut := s.dm.auto } ∧
      ∃ w : Word, exec (.abstractauto (.write v)) s = .next { s with dm := { s.dm with auto := w } } ∧
        ∀ i, i < 32 → w.getLsbD i = (v.getLsbD i && s.cfg.autoexecMask.getLsbD i &&
          (decide (i < min s.cfg.datacount 12) || decide (16 ≤ i ∧ i < 16 + s.cfg.progbufsize)))) ∧
    let again := fun (bit : Nat) (t : State) =>
      if s.dm.auto.getLsbD bit = true ∧ s.dm.cmderr = 0 then
        { t with dm := { t.dm with
          cmd := s.dm.latch
          phase := .started
          cmdHart := s.dm.hartsel.toNat
          quick := false
          defined := 0
          fetchBuf := t.dm.progbuf } }
      else t
    (∀ (i : Nat) (row : DmAcc → Instr), dataRows[i]? = some row → i < s.cfg.datacount →
      exec (row .read) s = .next (again i { s with dmiOut := vget s.dm.data i 0 }) ∧
      exec (row (.write v)) s = .next (again i { s with dm := { s.dm with data := vset s.dm.data i v } }) ∧
      ∀ k, k < 12 → vget (vset s.dm.data i v) k 0 = if k = i then v else vget s.dm.data k 0) ∧
    (∀ (i : Nat) (row : DmAcc → Instr), progbufRows[i]? = some row → i < s.cfg.progbufsize →
      exec (row .read) s = .next (again (16 + i) { s with dmiOut := vget s.dm.progbuf i 0 }) ∧
      exec (row (.write v)) s = .next (again (16 + i) { s with dm := { s.dm with progbuf := vset s.dm.progbuf i v } }) ∧
      ∀ k, k < 16 → vget (vset s.dm.progbuf i v) k 0 = if k = i then v else vget s.dm.progbuf k 0))

/-- Accesses while a command is in progress (spec/42_abstract_commands.md R364): a write of command, abstractcs,
abstractauto, data or progbuf sets cmderr 1 if it was 0 (the first error is kept: D22) and changes nothing else (the
write-1-to-clear of abstractcs and the write of abstractauto are dropped: D21; both notes/assumptions/50.md); a read of
data or progbuf does so and returns any value; a read of abstractcs, abstractauto or command raises no error. -/
def Obligations.BusyAccesses : Prop :=
  ∀ (s : State) (v : Word), s.dmReady → s.dm.busy = true →
    let violated := { s with dm := { s.dm with cmderr := if s.dm.cmderr = 0 then 1 else s.dm.cmderr } }
    (∀ row ∈ [Instr.command, .abstractcs] ++ (if s.cfg.hasAbstractauto then [Instr.abstractauto] else []),
      exec (row (.write v)) s = .next violated ∧
      ∃ r, exec (row .read) s = .next { s with dmiOut := r }) ∧
    (∀ (i : Nat) (row : DmAcc → Instr),
      (dataRows[i]? = some row ∧ i < s.cfg.datacount) ∨ (progbufRows[i]? = some row ∧ i < s.cfg.progbufsize) →
      exec (row (.write v)) s = .next violated ∧
      ∃ r, exec (row .read) s = .next { violated with dmiOut := r, free := s.free + 1 })

/-! ### Abstract commands -/

/-- Access Register on a general register of a halted hart (spec/42_abstract_commands.md R363, R370, R371, R372, R374, R375,
R376, R380): a read of a size up to XLEN leaves the low bits of the register in arg0, least significant word first, without
error; a write of XLEN bits copies arg0 into it (x0 keeps reading 0); the hart is otherwise as it was but for dscratch
(notes/assumptions/13.md). With postexec the Program Buffer is then started. -/
def Obligations.AccessRegisterGpr : Prop :=
  ∀ (s : State) (hart : Hart) (size : BitVec 3) (regno : BitVec 16) (i : Nat) (postexec : Bool),
    s.harts[s.dm.cmdHart]? = some hart → hart.avail = true → hart.inReset = false → hart.debugMode = true →
    2 ≤ size.toNat → size.toNat ≤ 4 → 2 ^ size.toNat / 4 ≤ s.cfg.datacount → i < 32 → i < hart.cfg.ngpr →
    regno.toNat = 0x1000 + i → (postexec = true → 0 < s.cfg.progbufsize) →
    let ran := fun (t : State) (new : Hart) =>
      (postexec = false → t.dm.phase = .idle ∧ new.inProgbuf = hart.inProgbuf ∧ new.pc = hart.pc) ∧
      (postexec = true → t.dm.phase = .progbuf ∧ new.inProgbuf = true ∧
        new.pc = hart.trunc (BitVec.ofNat 128 hart.cfg.progbufAddr))
    (8 * 2 ^ size.toNat ≤ hart.cfg.xlen →
      ∃ t new, exec (.accessRegister size postexec true false regno false false) s = .next t ∧
        s.sameElsewhere s.dm.cmdHart t ∧
        t.dm = { s.dm with phase := t.dm.phase, data := t.dm.data, defined := t.dm.defined } ∧
        argNat t.dm.data 0 (2 ^ size.toNat / 4) = (hart.gpr i).toNat % 2 ^ (8 * 2 ^ size.toNat) ∧
        t.harts[s.dm.cmdHart]? = some new ∧ ran t new ∧
        new = { hart with
          inProgbuf := new.inProgbuf
          pc := new.pc
          dscratch0 := new.dscratch0
          dscratch1 := new.dscratch1 }) ∧
    (8 * 2 ^ size.toNat = hart.cfg.xlen → (i = 0 → hart.cfg.x0Writable = true) →
      ∃ t new, exec (.accessRegister size postexec true true regno false false) s = .next t ∧
        s.sameElsewhere s.dm.cmdHart t ∧ t.dm = { s.dm with phase := t.dm.phase, data := t.dm.data } ∧
        t.harts[s.dm.cmdHart]? = some new ∧ ran t new ∧
        (∀ j, j < 32 → new.gpr j =
          if j = i ∧ j ≠ 0 then BitVec.ofNat 128 (argNat s.dm.data 0 (2 ^ size.toNat / 4)) else hart.gpr j) ∧
        new = { hart with
          gprs := new.gprs
          inProgbuf := new.inProgbuf
          pc := new.pc
          dscratch0 := new.dscratch0
          dscratch1 := new.dscratch1 })

/-- Access Register on CSRs, on floating-point registers, on a running hart and with a narrow size
(spec/42_abstract_commands.md R371, R372, R373, R374, R375, R380, spec/10_state.md R183), where ABSTRACT_REG_SUPPORT has the
transfer. A read leaves the low bits of the register's value in arg0; on a running hart dpc stands for the pc. A write
stores arg0, and with a size below the register's its upper bits are any value (notes/assumptions/21.md); a CSR takes it by
its own rules, as from Debug Mode, on a running hart too (notes/assumptions/53.md; the bits a pc cannot hold: 43.md). With
postexec, on a halted hart, the Program Buffer is then started. Nothing else of the hart changes but dscratch
(notes/assumptions/13.md). A transfer that only a halted hart supports ends with NOT_HALTED_CMDERR on a running one (D23,
notes/assumptions/17.md, 20.md), unless an error was set before (the first error is kept: D22, notes/assumptions/50.md). -/
def Obligations.AccessRegisterElsewhere : Prop :=
  ∀ (s : State) (hart : Hart) (size : BitVec 3) (postexec write : Bool) (regno : BitVec 16),
    s.harts[s.dm.cmdHart]? = some hart → hart.avail = true → hart.inReset = false →
    2 ≤ size.toNat → size.toNat ≤ 4 → 2 ^ size.toNat / 4 ≤ s.cfg.datacount →
    (postexec = true → hart.debugMode = true ∧ 0 < s.cfg.progbufsize) →
    let num := regno.toNat
    let width := 8 * 2 ^ size.toNat
    let arg := argNat s.dm.data 0 (2 ^ size.toNat / 4)
    let supported := if hart.debugMode then hart.supportedHalted num size write else hart.supportedRunning num size write
    let becomes := fun (base : Hart) (t : State) (new : Hart) => t.harts[s.dm.cmdHart]? = some new ∧
      (postexec = false → t.dm.phase = .idle ∧ new.inProgbuf = base.inProgbuf ∧ new.pc = base.pc) ∧
      (postexec = true → t.dm.phase = .progbuf ∧ new.inProgbuf = true ∧
        new.pc = hart.trunc (BitVec.ofNat 128 hart.cfg.progbufAddr)) ∧
      new = { base with
        inProgbuf := new.inProgbuf
        pc := new.pc
        dscratch0 := new.dscratch0
        dscratch1 := new.dscratch1 }
    let reads := fun (v : XWord) => ∃ t new,
      exec (.accessRegister size postexec true false regno false false) s = .next t ∧
      s.sameElsewhere s.dm.cmdHart t ∧
      t.dm = { s.dm with phase := t.dm.phase, data := t.dm.data, defined := t.dm.defined } ∧
      argNat t.dm.data 0 (2 ^ size.toNat / 4) = v.toNat % 2 ^ width ∧ becomes hart t new
    let writes := fun (full : Nat) (after : XWord → Hart → Hart → Prop) => ∃ t new base value,
      exec (.accessRegister size postexec true true regno false false) s = .next t ∧
      s.sameElsewhere s.dm.cmdHart t ∧ t.dm = { s.dm with phase := t.dm.phase, data := t.dm.data } ∧
      value.toNat % 2 ^ width = arg ∧ (width = full → value.toNat = arg) ∧ becomes base t new ∧ after value base new
    (supported = true →
      (write = false → num < 0x1000 → num ≠ 0x7b2 → num ≠ 0x7b3 → (num = 0x7b1 → hart.debugMode = true) →
        width ≤ csrWidth hart.cfg.xlen hart.cfg.csrWidths num → ∀ v, readCsr s hart num = some v → reads v) ∧
      (write = false → num = 0x7b1 → hart.debugMode = false →
        width ≤ csrWidth hart.cfg.xlen hart.cfg.csrWidths num → reads hart.pc) ∧
      (write = false → 0x1020 ≤ num → num < 0x1040 → 0 < hart.cfg.flen → width ≤ hart.cfg.flen →
        reads (vget hart.fprs (num - 0x1020) 0)) ∧
      (write = true → num < 0x1000 → num / 2 ^ 10 % 4 ≠ 3 → readCsr s hart num ≠ none → hart.shadowCsr s num = none →
        (num = 0x7b1 → hart.debugMode = true) → width ≤ csrWidth hart.cfg.xlen hart.cfg.csrWidths num →
        writes (csrWidth hart.cfg.xlen hart.cfg.csrWidths num) fun value base new =>
          (num = 0x7b1 → new.dpc = hart.pcBits value) ∧ (num = 0x7b2 → new.dscratch0 = hart.trunc value) ∧
          (num = 0x7b3 → new.dscratch1 = hart.trunc value) ∧
          (num = 0x7a2 → ∀ trig, hart.trigs[hart.tselect.toNat]? = some trig → trig.cfg.kind = 2 ∨ trig.cfg.kind = 3 →
            new.trigs[hart.tselect.toNat]? = some { trig with tdata2 := hart.trunc value }) ∧
          (num = 0x341 → new.sys = { hart.sys with mepc := hart.pcBits value }) ∧
          ∃ n, base = hart.writeCsr true n num value) ∧
      (write = true → num = 0x7b1 → hart.debugMode = false →
        width ≤ csrWidth hart.cfg.xlen hart.cfg.csrWidths num →
        writes (csrWidth hart.cfg.xlen hart.cfg.csrWidths num) fun value base _ =>
          base = { hart with pc := hart.pcBits value }) ∧
      (write = true → 0x1020 ≤ num → num < 0x1040 → 0 < hart.cfg.flen → width ≤ hart.cfg.flen → hart.cfg.flen ≤ 128 →
        writes hart.cfg.flen fun value base new =>
          (∀ j, j < 32 → (vget new.fprs j 0).toNat =
            if j = num - 0x1020 then value.toNat % 2 ^ hart.cfg.flen else (vget hart.fprs j 0).toNat) ∧
          base = { hart with fprs := new.fprs }) ∧
      (write = true → 0x1000 ≤ num → num < 0x1000 + min 32 hart.cfg.ngpr → width ≤ hart.cfg.xlen →
        (num = 0x1000 → hart.cfg.x0Writable = true) →
        writes hart.cfg.xlen fun value base new =>
          (∀ j, j < 32 → new.gpr j = if j = num - 0x1000 ∧ j ≠ 0 then hart.trunc value else hart.gpr j) ∧
          base = { hart with gprs := new.gprs })) ∧
    (hart.debugMode = false → write = false → 0x1000 ≤ num → num < 0x1000 + min 32 hart.cfg.ngpr →
      width ≤ hart.cfg.xlen →
      (hart.supportedRunning num size false = true → reads (hart.gpr (num - 0x1000))) ∧
      (hart.supportedRunning num size false = false →
        ∃ t new, exec (.accessRegister size false true false regno false false) s = .next t ∧
          s.sameElsewhere s.dm.cmdHart t ∧
          t.dm = { s.dm with
            phase := .idle
            data := t.dm.data
            cmderr := if s.dm.cmderr = 0 then s.cfg.notHaltedCmderr else s.dm.cmderr } ∧
          t.harts[s.dm.cmdHart]? = some new ∧
          new = { hart with dscratch0 := new.dscratch0, dscratch1 := new.dscratch1 }))

/-- Commands that are turned away, or do nothing (spec/42_abstract_commands.md R363, R368, R370, R371, R372, R373, R391,
R400, spec/30_encoding.md R243, R245, R247). Each ends at once; the first error is kept (D22, notes/assumptions/50.md);
no register of a hart but dscratch (notes/assumptions/13.md) changes. That a size that is not listed, or above the
register's, gives cmderr 2 is D15 (notes/assumptions/50.md). Where two conditions hold at once (a running hart and a bad
size, a halted hart and a Quick Access without a Program Buffer) the code is the model's order of checks
(notes/assumptions/20.md, 23.md). A command that asks for nothing does nothing and succeeds, so the data registers stay
too (DEDUCED, notes/assumptions/12.md); for a hart that is unavailable or does not exist it fails: cmderr 2, 4 or 7
(notes/assumptions/20.md). A Program Buffer that finds its hart running gives NOT_HALTED_CMDERR (D23,
notes/assumptions/17.md, 20.md). Reserved bits written as 1 give cmderr 2 or are ignored (R246,
notes/assumptions/17.md). An undefined cmdtype, and Quick Access where it is not implemented, give cmderr 2 and change
nothing else (R245), the data registers stay here too (DEDUCED, notes/assumptions/12.md). -/
def Obligations.CommandsTurnedAway : Prop :=
  ∀ s : State,
    let failed := fun (e : BitVec 3) (t : State) => s.sameElsewhere s.dm.cmdHart t ∧
      t.dm = { s.dm with
        phase := .idle
        data := t.dm.data
        cmderr := if s.dm.cmderr = 0 then e else s.dm.cmderr } ∧
      ∀ hart, s.harts[s.dm.cmdHart]? = some hart → ∃ new, t.harts[s.dm.cmdHart]? = some new ∧
        new = { hart with dscratch0 := new.dscratch0, dscratch1 := new.dscratch1 }
    let notSupported := { s with dm := { s.dm with
      phase := .idle
      cmderr := if s.dm.cmderr = 0 then 2 else s.dm.cmderr } }
    (∀ cmdtype control, exec (.commandReservedCmdtype cmdtype control) s = .next notSupported) ∧
    (∀ reserved, s.cfg.quickAccess = false → exec (.quickAccess reserved) s = .next notSupported) ∧
    (∀ size write regno, s.status s.dm.cmdHart = .halted ∨ s.status s.dm.cmdHart = .running →
      exec (.accessRegister size false false write regno false false) s =
        .next { s with dm := { s.dm with phase := .idle } }) ∧
    (∀ size write regno, s.status s.dm.cmdHart = .unavailable ∨ s.status s.dm.cmdHart = .nonexistent →
      ∃ e ∈ [(2 : BitVec 3), 4, 7], ∃ t, exec (.accessRegister size false false write regno false false) s = .next t ∧
        failed e t ∧ t.harts = s.harts) ∧
    (∀ size postexec transfer write regno r23 r19, r23 = true ∨ r19 = true →
      (s.cfg.cmdReservedNotSupported = true →
        ∃ t, exec (.accessRegister size postexec transfer write regno r23 r19) s = .next t ∧ failed 2 t) ∧
      (s.cfg.cmdReservedNotSupported = false → exec (.accessRegister size postexec transfer write regno r23 r19) s =
        exec (.accessRegister size postexec transfer write regno false false) s)) ∧
    (∀ reserved, reserved ≠ 0 → s.cfg.quickAccess = true →
      (s.cfg.cmdReservedNotSupported = true → ∃ t, exec (.quickAccess reserved) s = .next t ∧ failed 2 t) ∧
      (s.cfg.cmdReservedNotSupported = false → exec (.quickAccess reserved) s = exec (.quickAccess 0) s)) ∧
    (∀ (hart : Hart) (size : BitVec 3) (write : Bool) (regno : BitVec 16), s.harts[s.dm.cmdHart]? = some hart →
      hart.avail = true → hart.inReset = false →
      size.toNat < 2 ∨ 4 < size.toNat ∨ s.cfg.datacount < 2 ^ size.toNat / 4 ∨
        (0x1000 ≤ regno.toNat ∧ regno.toNat < 0x1020 ∧ hart.cfg.xlen < 8 * 2 ^ size.toNat) ∨
        (regno.toNat < 0x1000 ∧ csrWidth hart.cfg.xlen hart.cfg.csrWidths regno.toNat < 8 * 2 ^ size.toNat) ∨
        (0x1040 ≤ regno.toNat ∧ regno.toNat < 0xc000) →
      ∃ t, exec (.accessRegister size false true write regno false false) s = .next t ∧ failed 2 t) ∧
    (∀ (hart : Hart) (size : BitVec 3) (regno : BitVec 16), s.harts[s.dm.cmdHart]? = some hart → hart.avail = true →
      hart.inReset = false → s.cfg.progbufsize = 0 →
      ∃ t, exec (.accessRegister size true false false regno false false) s = .next t ∧ failed 2 t) ∧
    (∀ (hart : Hart) (size : BitVec 3) (regno : BitVec 16), s.harts[s.dm.cmdHart]? = some hart → hart.avail = true →
      hart.inReset = false → hart.debugMode = false → 0 < s.cfg.progbufsize →
      ∃ t, exec (.accessRegister size true false false regno false false) s = .next t ∧
        failed s.cfg.notHaltedCmderr t) ∧
    (∀ hart : Hart, s.harts[s.dm.cmdHart]? = some hart → hart.avail = true → hart.inReset = false →
      hart.debugMode = true → s.cfg.quickAccess = true →
      ∃ t, exec (.quickAccess 0) s = .next t ∧ failed 4 t)

/-- Quick Access (spec/42_abstract_commands.md R400, D24): on a running hart it waits, busy; at the hart's next move, with
no halt request, trigger or ebreak before it, the hart halts with cause 3 and starts the Program Buffer; the ebreak that
ends the Program Buffer resumes the hart, without touching its resumeack; an exception sets cmderr 3 and the hart resumes
too (R400's own step). The internal halt comes before an interrupt, whatever is pending (D30, notes/assumptions/23.md,
50.md). The resume goes to dpc without the bits a pc cannot hold (notes/assumptions/43.md), or anywhere where the Program
Buffer clobbers dpc (R387, notes/assumptions/23.md); dscratch may change (notes/assumptions/13.md). A hart that it waits for
may be in reset: where the hart halts on leaving it, a kept halt (notes/assumptions/29.md) ends the command with cmderr 4
(the first error is kept: D22, notes/assumptions/50.md), and with a halt request it either ends so or starts the Program
Buffer (U19, notes/assumptions/23.md). -/
def Obligations.QuickAccess : Prop :=
  (∀ (s : State) (hart : Hart), s.harts[s.dm.cmdHart]? = some hart → hart.avail = true → hart.inReset = false →
    hart.debugMode = false → s.cfg.quickAccess = true → 0 < s.cfg.progbufsize →
    ∃ t new, exec (.quickAccess 0) s = .next t ∧ s.sameElsewhere s.dm.cmdHart t ∧ t.dm.busy = true ∧
      t.dm = { s.dm with phase := .quickHalt, quick := true } ∧ t.harts[s.dm.cmdHart]? = some new ∧
      new = { hart with dscratch0 := new.dscratch0, dscratch1 := new.dscratch1 }) ∧
  (∀ (s : State) (h : Nat) (q : List Event) (hart : Hart), s.queue = .hart h :: q → s.harts[h]? = some hart →
    hart.avail = true → hart.inReset = false → hart.debugMode = false → s.dm.phase = .quickHalt → s.dm.cmdHart = h →
    hart.ctl.haltreq = false → hart.ebreakEnabled = false → (∀ trig ∈ hart.trigs, trig.enabledAt hart.priv = false) →
    ∃ t new, step s = .next t ∧ { s with queue := q, cur := h }.sameElsewhere h t ∧
      t.dm = { s.dm with phase := .progbuf } ∧ t.harts[h]? = some new ∧ new.debugMode = true ∧
      new.inProgbuf = true ∧ new.dpc = hart.trunc hart.pc ∧
      new.dcsr = { hart.dcsr with cause := 3, prv := privCode hart.priv } ∧
      new.pc = hart.trunc (BitVec.ofNat 128 hart.cfg.progbufAddr)) ∧
  (∀ (s : State) (h : Nat) (q : List Event) (hart : Hart), s.queue = .hart h :: q → s.harts[h]? = some hart →
    hart.avail = true → hart.inReset = true → s.resetLine hart = false → s.dm.phase = .quickHalt → s.dm.cmdHart = h →
    let kept := hart.resetHalt = true ∧ s.cfg.haltKeptAcrossNdmreset = true ∧ s.dm.dmactive = true
    let halts := fun (t : State) (new : Hart) => step s = .next t ∧ { s with queue := q, cur := h }.sameElsewhere h t ∧
      t.harts[h]? = some new ∧ new.debugMode = true ∧ new.inReset = false ∧
      new.dcsr = { hart.dcsr with cause := 3, prv := privCode hart.priv } ∧
      new.dpc = hart.trunc (BitVec.ofNat 128 hart.cfg.resetPc)
    let failed := fun (t : State) => t.dm = { s.dm with
      phase := .idle
      data := t.dm.data
      cmderr := if s.dm.cmderr = 0 then 4 else s.dm.cmderr }
    (hart.ctl.haltreq = true → ∃ t new, halts t new ∧
      ((failed t ∧ new.inProgbuf = false) ∨ (t.dm = { s.dm with phase := .progbuf } ∧ new.inProgbuf = true))) ∧
    (hart.ctl.haltreq = false → kept → ∃ t new, halts t new ∧ failed t ∧ new.inProgbuf = false) ∧
    (hart.ctl.haltreq = false → ¬kept → ∃ t, step s = .next t ∧ { s with queue := q, cur := h }.onlyHart h t ∧
      t.harts[h]? = some { hart with
        inReset := false
        resetHalt := false
        ctl := { hart.ctl with havereset := true } })) ∧
  (∀ (s : State) (h : Nat) (err : Option (BitVec 3)) (hart : Hart), s.harts[h]? = some hart →
    s.dm.phase = .progbuf → s.dm.cmdHart = h → s.dm.quick = true →
    ∃ new, (endProgbuf h err s).harts[h]? = some new ∧ s.sameElsewhere h (endProgbuf h err s) ∧
      (endProgbuf h err s).dm.phase = .idle ∧
      (endProgbuf h err s).dm.cmderr = (match err with
        | none => s.dm.cmderr
        | some e => if s.dm.cmderr = 0 then e else s.dm.cmderr) ∧
      new.debugMode = false ∧ new.inProgbuf = false ∧
      (hart.cfg.progbufClobbersDpc = false → new.pc = hart.pcBits hart.dpc) ∧ new.ctl = hart.ctl ∧
      new.gprs = hart.gprs)

/-! ### System Bus Access -/

/-- sbcs (spec/43_system_bus_access.md R433, spec/10_state.md R90): a write stores the control fields, clears the written 1
bits of the two errors, and starts nothing; a read gives every field in its place. -/
def Obligations.Sbcs : Prop :=
  ∀ (s : State) (v : Word), s.dmReady → 0 < s.cfg.sbasize →
    exec (.sbcs (.write v)) s = .next { s with sb := { s.sb with
      readonaddr := v.getLsbD 20
      access := v.extractLsb' 17 3
      autoincrement := v.getLsbD 16
      readondata := v.getLsbD 15
      busyerror := s.sb.busyerror && !v.getLsbD 22
      error := s.sb.error &&& ~~~(v.extractLsb' 12 3) } } ∧
    (s.cfg.sbasize < 128 → exec (.sbcs .read) s = .next { s with
      dmiOut := 1 <<< 29 ||| wordBit s.sb.busyerror 22 ||| wordBit s.sb.busy 21 ||| wordBit s.sb.readonaddr 20 |||
        s.sb.access.setWidth 32 <<< 17 ||| wordBit s.sb.autoincrement 16 ||| wordBit s.sb.readondata 15 |||
        s.sb.error.setWidth 32 <<< 12 ||| BitVec.ofNat 32 s.cfg.sbasize <<< 5 ||| wordBit s.cfg.sbaccess128 4 |||
        wordBit s.cfg.sbaccess64 3 ||| wordBit s.cfg.sbaccess32 2 ||| wordBit s.cfg.sbaccess16 1 |||
        wordBit s.cfg.sbaccess8 0 })

/-- How a bus access starts (spec/43_system_bus_access.md R437, R438): with an unsupported size, or misaligned where that is
not performed, sberror is 3 and nothing else changes; otherwise the access is pending, its address, size, data and
increment sampled now, and sbbusy is 1. The end of a bus access (spec/43_system_bus_access.md R436, R437, R439,
spec/20_memory.md R212), outside a system reset: sbbusy falls; an error sets sberror and changes neither data nor
address nor memory; a write of RAM stores its bytes, least significant first, and no other byte, where memory is in
canonical form (which every step keeps: StepKeepsMemoryCanonical); a read of RAM leaves
its bytes in the low bits of sbdata, a read of a device any value; the address goes up by the size, modulo 2^SBASIZE,
after a success with autoincrement. The byte order (D11, notes/assumptions/11.md), the alignment rule (D13) and what stands
at an address (the configured regions, notes/assumptions/10.md) are not the source's. -/
def Obligations.BusAccess : Prop :=
  (∀ (s : State) (write : Bool),
      let n := 2 ^ s.sb.access.toNat
      let supported := (n = 1 ∧ s.cfg.sbaccess8 = true) ∨ (n = 2 ∧ s.cfg.sbaccess16 = true) ∨
        (n = 4 ∧ s.cfg.sbaccess32 = true) ∨ (n = 8 ∧ s.cfg.sbaccess64 = true) ∨ (n = 16 ∧ s.cfg.sbaccess128 = true)
      let good := supported ∧ (s.sb.address.toNat % n = 0 ∨ s.cfg.sbaMisalignedPerformed = true)
      (¬good → startAccess write s = { s with sb := { s.sb with error := 3 } }) ∧
      (good → (startAccess write s).sb.busy = true ∧
        startAccess write s = { s with sb := { s.sb with
          pending := some {
            write := write
            bytes := n
            address := s.sb.address.toNat
            data := s.sb.data
            inc := s.sb.autoincrement } } })) ∧
  (∀ (s : State) (q : List Event) (p : SbAccess), s.queue = .bus :: q → s.sb.pending = some p → s.dm.ndmreset = false →
      s.extReset = false →
      let kind := regionAt s.cfg.regions p.address p.bytes
      let addressAfter := if p.inc then BitVec.ofNat 128 ((s.sb.address.toNat + p.bytes) % 2 ^ s.cfg.sbasize)
        else s.sb.address
      (∀ e : BitVec 3, (kind = .timeout ∧ e = 1) ∨ (kind = .bad ∧ e = 2) ∨ (kind = .other ∧ e = 3) →
        ∃ k, step s = .next { s with queue := q, sb := { s.sb with pending := none, error := e }, free := s.free + k }) ∧
      (kind = .ram → p.write = true → s.memoryOk → ∃ t, step s = .next t ∧
        t.sb = { s.sb with pending := none, address := addressAfter } ∧ t.dm = s.dm ∧ t.dtm = s.dtm ∧
        (∀ j, j < p.bytes → t.mem.read (p.address + j) = p.data.extractLsb' (8 * j) 8) ∧
        (∀ a, a < p.address ∨ p.address + p.bytes ≤ a → t.mem.read a = s.mem.read a) ∧
        t.hmem = s.hmem ∧ t.imem = s.imem ∧
        ∀ (k : Nat) (old new : Hart), s.harts[k]? = some old → t.harts[k]? = some new →
          new = { old with reservation := new.reservation }) ∧
      (kind = .ram → p.write = false → ∃ t, step s = .next t ∧
        t.sb = { s.sb with pending := none, address := addressAfter, data := t.sb.data } ∧
        (∀ j, j < p.bytes → p.bytes ≤ 16 → t.sb.data.extractLsb' (8 * j) 8 = s.mem.read (p.address + j)) ∧
        t.dm = s.dm ∧ t.dtm = s.dtm ∧ t.harts = s.harts ∧ s.sameBytes t) ∧
      (kind = .device → ∃ t, step s = .next t ∧
        t.sb = { s.sb with pending := none, address := addressAfter, data := t.sb.data } ∧
        (p.write = true → t.sb.data = s.sb.data) ∧
        t.dm = s.dm ∧ t.dtm = s.dtm ∧ t.harts = s.harts ∧ s.sameBytes t))

/-- The address registers (spec/43_system_bus_access.md R432, R440, R441, R442): while the bus master is busy a write sets
sbbusyerror and does nothing else; otherwise it stores its 32-bit slice, even with an error set, and a write of sbaddress0
with sbreadonaddr set and no error starts a read. A read while idle gives the slice and changes nothing. The data registers
(spec/43_system_bus_access.md R444, R446, R448): while the bus master is busy an access sets sbbusyerror and does nothing
else, a read giving any value. Otherwise sbdata1 to 3 are read and written as they are; with an error set sbdata0 is not
written; without one a write of sbdata0 stores it and starts a bus write, and a read of it returns the value and then, with
sbreadondata set, starts a bus read; without it, where SBDATA0_READ_INCR_WITHOUT_READ, sbautoincrement alone raises the
address. That address bits at SBASIZE and above read 0 is D3, that sbdata0 is not stored while an error is set is D25 (both
notes/assumptions/50.md). -/
def Obligations.SbaddressAndSbdata : Prop :=
  (∀ (s : State) (v : Word), s.dmReady → ∀ (k : Nat) (row : DmAcc → Instr),
    [Instr.sbaddress0, .sbaddress1, .sbaddress2, .sbaddress3][k]? = some row → 32 * k < s.cfg.sbasize →
    (s.sb.busy = true → exec (row (.write v)) s = .next { s with sb := { s.sb with busyerror := true } }) ∧
    (s.sb.busy = false → exec (row .read) s = .next { s with dmiOut := s.sb.address.extractLsb' (32 * k) 32 }) ∧
    (s.sb.busy = false → ∃ t stored, exec (row (.write v)) s = .next t ∧
      stored = { s with sb := { s.sb with address := stored.sb.address } } ∧
      (∀ i, i < 128 → stored.sb.address.getLsbD i =
        (decide (i < s.cfg.sbasize) &&
          if 32 * k ≤ i ∧ i < 32 * k + 32 then v.getLsbD (i - 32 * k) else s.sb.address.getLsbD i)) ∧
      t = if k = 0 ∧ s.sb.readonaddr = true ∧ s.sb.error = 0 ∧ s.sb.busyerror = false then startAccess false stored
        else stored)) ∧
  (∀ (s : State) (v : Word), s.dmReady → ∀ (k : Nat) (row : DmAcc → Instr),
    [Instr.sbdata0, .sbdata1, .sbdata2, .sbdata3][k]? = some row → (row, true) ∈ optionalRows s.cfg →
    let clear := s.sb.error = 0 ∧ s.sb.busyerror = false
    (s.sb.busy = true → exec (row (.write v)) s = .next { s with sb := { s.sb with busyerror := true } } ∧
      ∃ r, exec (row .read) s = .next { s with
        sb := { s.sb with busyerror := true }
        dmiOut := r
        free := s.free + 1 }) ∧
    (s.sb.busy = false → k = 0 → ¬clear → exec (row (.write v)) s = .next s) ∧
    (s.sb.busy = false → (k = 0 → clear) → ∃ t stored, exec (row (.write v)) s = .next t ∧
      stored = { s with sb := { s.sb with data := stored.sb.data } } ∧
      (∀ i, i < 128 → stored.sb.data.getLsbD i =
        if 32 * k ≤ i ∧ i < 32 * k + 32 then v.getLsbD (i - 32 * k) else s.sb.data.getLsbD i) ∧
      t = if k = 0 then startAccess true stored else stored) ∧
    (s.sb.busy = false →
      exec (row .read) s = .next
        { (if k = 0 ∧ clear ∧ s.sb.readondata = true then startAccess false s
          else if k = 0 ∧ clear ∧ s.sb.autoincrement = true ∧ s.cfg.sbdata0ReadIncrWithoutRead = true then
            { s with sb := { s.sb with
              address := BitVec.ofNat 128 ((s.sb.address.toNat + 2 ^ s.sb.access.toNat) % 2 ^ s.cfg.sbasize) } }
          else s) with
          dmiOut := s.sb.data.extractLsb' (32 * k) 32 }))

/-! ### The JTAG DTM -/

/-- ScanIR, and the registers that only inform (spec/46_jtag_dtm.md R585, R586, R587, spec/10_state.md R160,
spec/30_encoding.md R260): each JTAG instruction selects its encoding, zero-extended, and changes nothing else but what
TDO showed, which the source does not give (notes/assumptions/25.md); a scan of BYPASS shifts out 0 and one of IDCODE
its preset value, and neither changes anything. A reset of the TAP selects IDCODE and resets neither the DM nor anything
else outside the DTM; whether the sticky status and the dmi fields are kept is open (spec/46_jtag_dtm.md R585, R607,
spec/70_reset_and_hazards.md R717; free choices, notes/assumptions/24.md). Bits that select no register of Table 6.1
select BYPASS. -/
def Obligations.JtagInstructions : Prop :=
  (∀ s : State,
      (∀ (row : IrOp → Instr) (code : Nat), (row, code) ∈ irRows → 5 ≤ s.cfg.irlen →
        ∃ t, exec (row .select) s = .next t ∧ t.dtm.ir = code ∧
          t = { s with dtm := { s.dtm with ir := t.dtm.ir, tdo := t.dtm.tdo }, free := t.free }) ∧
      (∀ row ∈ bypassRows, ∀ tdi, exec (row (.scan tdi)) s = .next { s with dtm := { s.dtm with tdo := 0 } }) ∧
      (s.cfg.idVersion < 16 → s.cfg.idPart < 65536 → s.cfg.idManuf < 2048 →
        ∀ tdi, exec (.idcode (.scan tdi)) s = .next { s with dtm := { s.dtm with
          tdo := BitVec.ofNat 66 s.cfg.idVersion <<< 28 ||| BitVec.ofNat 66 s.cfg.idPart <<< 12 |||
            BitVec.ofNat 66 s.cfg.idManuf <<< 1 ||| 1 } })) ∧
  ((∀ (s : State) (q : List Event), s.queue = .tapReset :: q →
      ∃ t, step s = .next t ∧ t.dtm.ir = 1 ∧ (t.dtm.status = s.dtm.status ∨ t.dtm.status = s.cfg.dtmStatusReset) ∧
        (t.dtm.pending = s.dtm.pending ∨ t.dtm.pending = .none) ∧
        t = { s with queue := q, dtm := t.dtm, free := t.free }) ∧
    (∀ (s : State) (q : List Event) (tdi : BitVec 66), s.queue = .scanDR tdi :: q → irRow s.dtm.ir = none →
      step s = .next { s with queue := q, dtm := { s.dtm with tdo := 0 } }))

/-- dtmcs (spec/46_jtag_dtm.md R590, R591, R592, spec/30_encoding.md R256): a scan captures idle, status, abits and
version 1; then bit 17 resets the DTM's DMI logic (address and data 0, the status at the parameter DTM_STATUS_RESET: D10,
notes/assumptions/17.md; the outstanding transaction forgotten), else bit 16 clears the sticky status alone, else nothing
happens. ir, the DM and everything else stay. -/
def Obligations.Dtmcs : Prop :=
  ∀ s : State,
    let hard := { s.dtm with
      status := s.cfg.dtmStatusReset
      address := 0
      data := 0
      pending := .none
      addrKnown := true
      dataKnown := true }
    exec .dtmcsDmihardreset s = .next { s with dtm := hard } ∧
    exec .dtmcsDmireset s = .next { s with dtm := { s.dtm with status := 0 } } ∧
    (s.cfg.idle < 8 → s.cfg.abits < 64 → ∀ tdi : BitVec 66,
      exec (.dtmcs (.scan tdi)) s = .next { s with dtm := { (if tdi.getLsbD 17 then hard
          else if tdi.getLsbD 16 then { s.dtm with status := 0 } else s.dtm) with
        tdo := BitVec.ofNat 66 s.cfg.idle <<< 12 ||| s.dtm.status.setWidth 66 <<< 10 |||
          BitVec.ofNat 66 s.cfg.abits <<< 4 ||| 1 } })

/-- Update-DR of dmi (spec/46_jtag_dtm.md R600, R601, R604, spec/30_encoding.md R255): with a sticky status it does nothing;
else op 1 and 2 start a read or a write of the address as the one outstanding transaction, unless one is still in progress,
when the status becomes 3 and nothing starts (model's choice for that corner, notes/assumptions/26.md); op 0 starts nothing,
and so does the reserved op 3 (notes/assumptions/26.md). -/
def Obligations.DmiUpdate : Prop :=
  ∀ (s : State) (address data : Word), s.cfg.abits ≤ 32 →
    let a := BitVec.ofNat 32 (address.toNat % 2 ^ s.cfg.abits)
    (s.dtm.status ≠ 0 → ∀ i ∈ [Instr.dmiNop address data, .dmiRead address data, .dmiWrite address data,
      .dmiOpReserved address data], exec i s = .next s) ∧
    (s.dtm.status = 0 → ∀ i ∈ [Instr.dmiNop address data, .dmiOpReserved address data],
      exec i s = .next { s with dtm := { s.dtm with
        address := a
        data := data
        addrKnown := false
        dataKnown := false } }) ∧
    (∀ (i : Instr) (acc : DmAcc),
      (i, acc) ∈ [(Instr.dmiRead address data, DmAcc.read), (.dmiWrite address data, .write data)] →
      s.dtm.status = 0 →
      (∀ a' acc', s.dtm.pending = .inProgress a' acc' →
        exec i s = .next { s with dtm := { s.dtm with status := 3 } }) ∧
      ((∀ a' acc', s.dtm.pending ≠ .inProgress a' acc') →
        exec i s = .next { s with dtm := { s.dtm with
          address := a
          data := data
          addrKnown := false
          dataKnown := true
          pending := .inProgress a acc } }))

/-- Capture-DR of dmi (spec/46_jtag_dtm.md R600, R601, R603): a capture with no sticky status reports 3 while the
transaction is in progress and makes it sticky, 2 after a failed one, and else 0, with the result of a finished
transaction in data, which is then gone; a sticky status is reported again and changes nothing. What TDO shows is address,
data and status; the three captured words of the table are the instructions that do so. -/
def Obligations.DmiCapture : Prop :=
  ∀ (s : State) (address data : Word),
    let shown := fun (d : Dtm) (status : BitVec 2) => { s with
      dtm := { d with tdo := address.setWidth 66 <<< 34 ||| data.setWidth 66 <<< 2 ||| status.setWidth 66 }
      free := s.free + 2 }
    (s.dtm.status ≠ 0 → ∀ i ∈ [Instr.dmiStatusOk address data, .dmiStatusFailed address data,
      .dmiStatusBusy address data], exec i s = .next (shown s.dtm s.dtm.status)) ∧
    (s.dtm.status = 0 →
      exec (.dmiStatusBusy address data) s = .next (shown { s.dtm with status := 3 } 3) ∧
      exec (.dmiStatusFailed address data) s = .next (shown { s.dtm with status := 2, pending := .none } 2) ∧
      (∀ result failed, s.dtm.pending = .finished result failed →
        exec (.dmiStatusOk address data) s = .next (shown { s.dtm with data := data, pending := .none } 0)) ∧
      ((∀ result failed, s.dtm.pending ≠ .finished result failed) →
        exec (.dmiStatusOk address data) s = .next (shown { s.dtm with data := data } 0))) ∧
    (∃ a d, captureInsn s =
      if s.dtm.status = 2 then .dmiStatusFailed a d
      else if s.dtm.status = 3 then .dmiStatusBusy a d
      else if s.dtm.status ≠ 0 then .dmiStatusOk a d
      else match s.dtm.pending with
        | .none => .dmiStatusOk a d
        | .inProgress _ _ => .dmiStatusBusy a d
        | .finished _ true => .dmiStatusFailed a d
        | .finished result false => .dmiStatusOk a result)

/-- A whole scan of dmi collects the result of the previous operation and starts the next one (spec/46_jtag_dtm.md R600,
R601, R602, R604): with a read finished and no error, the captured data is its result with status 0 and the scanned read or
write is then outstanding; while one is in progress the scan captures status 3, which stays, and the scanned operation is
ignored. -/
def Obligations.DmiScan : Prop :=
  ∀ (s : State) (address data : Word), s.cfg.abits ≤ 32 → address.toNat < 2 ^ s.cfg.abits → s.dtm.status = 0 →
    ∀ (op : BitVec 66) (acc : DmAcc), (op, acc) ∈ [((1 : BitVec 66), DmAcc.read), (2, .write data)] →
    let tdi := address.setWidth 66 <<< 34 ||| data.setWidth 66 <<< 2 ||| op
    (∀ result, s.dtm.pending = .finished result false →
      ∃ t, exec (.dmi (.scan tdi)) s = .next t ∧ t.dtm.tdo.extractLsb' 2 32 = result ∧ t.dtm.tdo.extractLsb' 0 2 = 0 ∧
        t.dtm.status = 0 ∧ t.dtm.pending = .inProgress address acc ∧ t.dtm.address = address ∧ t.dtm.data = data ∧
        t = { s with dtm := { t.dtm with ir := s.dtm.ir }, free := t.free }) ∧
    (∀ a' acc', s.dtm.pending = .inProgress a' acc' →
      ∃ t, exec (.dmi (.scan tdi)) s = .next t ∧ t.dtm.tdo.extractLsb' 0 2 = 3 ∧
        t = { s with dtm := { s.dtm with status := 3, tdo := t.dtm.tdo }, free := t.free })

end
end

