-- ==== Sys2Proof/Laws/State.lean ====
section
/-! SUPPORT. What each update of a record leaves as it was: one lemma per update, a conjunction with one equation per field
that simp uses one by one; and the values of the fields the small updates write. -/

namespace Sys2Proof.Machine

/-! ### The machine's own primitive updates -/

/-- Passing over free values leaves every other field. -/
@[simp] theorem State.bump_frame (s : State) (k : Nat) :
    (s.bump k).cfg = s.cfg ∧ (s.bump k).dtm = s.dtm ∧
    (s.bump k).dm = s.dm ∧ (s.bump k).sb = s.sb ∧
    (s.bump k).harts = s.harts ∧ (s.bump k).mem = s.mem ∧
    (s.bump k).hmem = s.hmem ∧ (s.bump k).imem = s.imem ∧
    (s.bump k).extReset = s.extReset ∧ (s.bump k).queue = s.queue ∧
    (s.bump k).cur = s.cur ∧ (s.bump k).rr = s.rr ∧
    (s.bump k).dmiOut = s.dmiOut := by
  and_intros <;> rfl

/-- Changing one hart leaves every other field. -/
@[simp] theorem State.modHart_frame (s : State) (h : Nat) (f : Hart → Hart) :
    (s.modHart h f).cfg = s.cfg ∧ (s.modHart h f).dtm = s.dtm ∧
    (s.modHart h f).dm = s.dm ∧ (s.modHart h f).sb = s.sb ∧
    (s.modHart h f).mem = s.mem ∧ (s.modHart h f).hmem = s.hmem ∧
    (s.modHart h f).imem = s.imem ∧ (s.modHart h f).extReset = s.extReset ∧
    (s.modHart h f).queue = s.queue ∧ (s.modHart h f).cur = s.cur ∧
    (s.modHart h f).rr = s.rr ∧ (s.modHart h f).dmiOut = s.dmiOut ∧
    (s.modHart h f).free = s.free := by
  and_intros <;> rfl

/-- A DMI read leaves every other field. -/
@[simp] theorem answer_frame (s : State) (v : Word) :
    (answer v s).cfg = s.cfg ∧ (answer v s).dtm = s.dtm ∧
    (answer v s).dm = s.dm ∧ (answer v s).sb = s.sb ∧
    (answer v s).harts = s.harts ∧ (answer v s).mem = s.mem ∧
    (answer v s).hmem = s.hmem ∧ (answer v s).imem = s.imem ∧
    (answer v s).extReset = s.extReset ∧ (answer v s).queue = s.queue ∧
    (answer v s).cur = s.cur ∧ (answer v s).rr = s.rr ∧
    (answer v s).free = s.free := by
  and_intros <;> rfl

/-- A DMI read of a free value leaves every other field. -/
@[simp] theorem answerFree_frame (s : State) :
    (answerFree s).cfg = s.cfg ∧ (answerFree s).dtm = s.dtm ∧
    (answerFree s).dm = s.dm ∧ (answerFree s).sb = s.sb ∧
    (answerFree s).harts = s.harts ∧ (answerFree s).mem = s.mem ∧
    (answerFree s).hmem = s.hmem ∧ (answerFree s).imem = s.imem ∧
    (answerFree s).extReset = s.extReset ∧ (answerFree s).queue = s.queue ∧
    (answerFree s).cur = s.cur ∧ (answerFree s).rr = s.rr := by
  and_intros <;> rfl

/-- A scan that shifts a value out leaves every other field. -/
@[simp] theorem shiftOut_frame (s : State) (v : BitVec 66) :
    (shiftOut v s).cfg = s.cfg ∧ (shiftOut v s).dm = s.dm ∧
    (shiftOut v s).sb = s.sb ∧ (shiftOut v s).harts = s.harts ∧
    (shiftOut v s).mem = s.mem ∧ (shiftOut v s).hmem = s.hmem ∧
    (shiftOut v s).imem = s.imem ∧ (shiftOut v s).extReset = s.extReset ∧
    (shiftOut v s).queue = s.queue ∧ (shiftOut v s).cur = s.cur ∧
    (shiftOut v s).rr = s.rr ∧ (shiftOut v s).dmiOut = s.dmiOut ∧
    (shiftOut v s).free = s.free := by
  and_intros <;> rfl

/-- What passing over free values writes. -/
@[simp] theorem State.bump_free (s : State) (k : Nat) : (s.bump k).free = s.free + k := rfl

/-- What a DMI read leaves in `dmiOut`. -/
@[simp] theorem answer_dmiOut (v : Word) (s : State) : (answer v s).dmiOut = v := rfl

/-- What a scan shifts out. -/
@[simp] theorem shiftOut_tdo (v : BitVec 66) (s : State) : (shiftOut v s).dtm.tdo = v := rfl

/-- A scan's shift leaves the rest of the DTM. -/
@[simp] theorem shiftOut_dtm_frame (s : State) (v : BitVec 66) :
    (shiftOut v s).dtm.ir = s.dtm.ir ∧ (shiftOut v s).dtm.status = s.dtm.status ∧
    (shiftOut v s).dtm.address = s.dtm.address ∧ (shiftOut v s).dtm.data = s.dtm.data ∧
    (shiftOut v s).dtm.pending = s.dtm.pending ∧ (shiftOut v s).dtm.addrKnown = s.dtm.addrKnown ∧
    (shiftOut v s).dtm.dataKnown = s.dtm.dataKnown := by
  and_intros <;> rfl

/-! ### Harts by index -/

/-- Changing hart `h` changes what index `h` holds, and nothing else. -/
@[simp] theorem State.modHart_get (s : State) (h : Nat) (f : Hart → Hart) (k : Nat) :
    (s.modHart h f).harts[k]? = if h = k then s.harts[k]?.map f else s.harts[k]? := by
  simp only [State.modHart, List.getElem?_modify]
  split <;> cases s.harts[k]? <;> rfl

/-- Changing a hart keeps the number of harts. -/
@[simp] theorem State.modHart_length (s : State) (h : Nat) (f : Hart → Hart) :
    (s.modHart h f).harts.length = s.harts.length := by
  simp [State.modHart]

/-- A changed hart is one of the old harts, changed or not. -/
theorem State.mem_modHart {s : State} {h : Nat} {f : Hart → Hart} {hart : Hart} (hm : hart ∈ (s.modHart h f).harts) :
    hart ∈ s.harts ∨ ∃ old, s.harts[h]? = some old ∧ hart = f old := by
  obtain ⟨k, hk⟩ := List.mem_iff_getElem?.mp hm
  rw [State.modHart_get] at hk
  by_cases hhk : h = k
  · subst hhk
    rw [if_pos rfl] at hk
    cases ho : s.harts[h]? with
    | none => simp [ho] at hk
    | some old =>
      refine .inr ⟨old, rfl, ?_⟩
      simpa [ho] using hk.symm
  · rw [if_neg hhk] at hk
    exact .inl (List.mem_iff_getElem?.mpr ⟨k, hk⟩)

/-! ### The status registers -/

/-- The first error is kept (spec/42_abstract_commands.md R362). -/
@[simp] theorem setCmderr_cmderr (e : BitVec 3) (d : Dm) :
    (setCmderr e d).cmderr = if d.cmderr = 0 then e else d.cmderr := by
  unfold setCmderr
  split <;> rename_i h
  · rfl
  · rfl

/-- Setting cmderr leaves every other register of the DM. -/
@[simp] theorem setCmderr_frame (d : Dm) (e : BitVec 3) :
    (setCmderr e d).dmactive = d.dmactive ∧ (setCmderr e d).ndmreset = d.ndmreset ∧
    (setCmderr e d).hartresetLatch = d.hartresetLatch ∧ (setCmderr e d).hasel = d.hasel ∧
    (setCmderr e d).hartsel = d.hartsel ∧ (setCmderr e d).hawindowsel = d.hawindowsel ∧
    (setCmderr e d).phase = d.phase ∧ (setCmderr e d).latch = d.latch ∧
    (setCmderr e d).cmd = d.cmd ∧ (setCmderr e d).cmdHart = d.cmdHart ∧
    (setCmderr e d).quick = d.quick ∧ (setCmderr e d).defined = d.defined ∧
    (setCmderr e d).fetchBuf = d.fetchBuf ∧ (setCmderr e d).auto = d.auto ∧
    (setCmderr e d).data = d.data ∧ (setCmderr e d).progbuf = d.progbuf ∧
    (setCmderr e d).authenticated = d.authenticated ∧ (setCmderr e d).authbusy = d.authbusy ∧
    (setCmderr e d).auth = d.auth := by
  and_intros <;> (simp only [setCmderr]; repeat' split) <;> simp

/-- Setting sberror leaves every other field of System Bus Access. -/
@[simp] theorem setSberror_frame (b : Sb) (e : BitVec 3) :
    (setSberror e b).busyerror = b.busyerror ∧ (setSberror e b).readonaddr = b.readonaddr ∧
    (setSberror e b).autoincrement = b.autoincrement ∧ (setSberror e b).readondata = b.readondata ∧
    (setSberror e b).access = b.access ∧ (setSberror e b).address = b.address ∧
    (setSberror e b).data = b.data ∧ (setSberror e b).pending = b.pending := by
  and_intros <;> rfl

/-- Setting sbbusyerror leaves every other field of System Bus Access. -/
@[simp] theorem setSbbusyerror_frame (b : Sb) :
    (setSbbusyerror b).readonaddr = b.readonaddr ∧ (setSbbusyerror b).autoincrement = b.autoincrement ∧
    (setSbbusyerror b).readondata = b.readondata ∧ (setSbbusyerror b).access = b.access ∧
    (setSbbusyerror b).error = b.error ∧ (setSbbusyerror b).address = b.address ∧
    (setSbbusyerror b).data = b.data ∧ (setSbbusyerror b).pending = b.pending := by
  and_intros <;> rfl

/-- The two sticky flags of System Bus Access as their setters leave them. -/
@[simp] theorem sbFlags_set (e : BitVec 3) (b : Sb) :
    (setSberror e b).error = e ∧ (setSbbusyerror b).busyerror = true := ⟨rfl, rfl⟩

/-! ### Harts -/

/-- Losing the dscratch registers leaves these fields of the hart. -/
@[simp] theorem Hart.scrambleScratch_frame (hart : Hart) (c : Config) (n : Nat) :
    (hart.scrambleScratch c n).cfg = hart.cfg ∧ (hart.scrambleScratch c n).ctl = hart.ctl ∧
    (hart.scrambleScratch c n).debugMode = hart.debugMode ∧ (hart.scrambleScratch c n).inProgbuf = hart.inProgbuf ∧
    (hart.scrambleScratch c n).avail = hart.avail ∧ (hart.scrambleScratch c n).inReset = hart.inReset ∧
    (hart.scrambleScratch c n).resetHalt = hart.resetHalt ∧ (hart.scrambleScratch c n).priv = hart.priv ∧
    (hart.scrambleScratch c n).pc = hart.pc ∧ (hart.scrambleScratch c n).gprs = hart.gprs ∧
    (hart.scrambleScratch c n).fprs = hart.fprs ∧ (hart.scrambleScratch c n).dcsr = hart.dcsr ∧
    (hart.scrambleScratch c n).dpc = hart.dpc ∧ (hart.scrambleScratch c n).tselect = hart.tselect ∧
    (hart.scrambleScratch c n).trigs = hart.trigs ∧ (hart.scrambleScratch c n).reservation = hart.reservation ∧
    (hart.scrambleScratch c n).sys = hart.sys ∧ (hart.scrambleScratch c n).cycle = hart.cycle ∧
    (hart.scrambleScratch c n).instret = hart.instret ∧ (hart.scrambleScratch c n).timer = hart.timer ∧
    (hart.scrambleScratch c n).csrs = hart.csrs ∧ (hart.scrambleScratch c n).trapped = hart.trapped ∧
    (hart.scrambleScratch c n).dueEntry = hart.dueEntry ∧ (hart.scrambleScratch c n).dueBreak = hart.dueBreak := by
  and_intros <;> rfl

/-- Entry to Debug Mode leaves these fields of the hart. -/
@[simp] theorem Hart.enterDebug_frame (hart : Hart) (c : Config) (n : Nat) (cause : BitVec 3) (a : XWord) :
    (hart.enterDebug c n cause a).cfg = hart.cfg ∧ (hart.enterDebug c n cause a).ctl = hart.ctl ∧
    (hart.enterDebug c n cause a).avail = hart.avail ∧ (hart.enterDebug c n cause a).inReset = hart.inReset ∧
    (hart.enterDebug c n cause a).resetHalt = hart.resetHalt ∧ (hart.enterDebug c n cause a).priv = hart.priv ∧
    (hart.enterDebug c n cause a).pc = hart.pc ∧ (hart.enterDebug c n cause a).gprs = hart.gprs ∧
    (hart.enterDebug c n cause a).fprs = hart.fprs ∧ (hart.enterDebug c n cause a).tselect = hart.tselect ∧
    (hart.enterDebug c n cause a).trigs = hart.trigs ∧ (hart.enterDebug c n cause a).sys = hart.sys ∧
    (hart.enterDebug c n cause a).cycle = hart.cycle ∧ (hart.enterDebug c n cause a).instret = hart.instret ∧
    (hart.enterDebug c n cause a).timer = hart.timer ∧ (hart.enterDebug c n cause a).csrs = hart.csrs ∧
    (hart.enterDebug c n cause a).trapped = hart.trapped ∧
    (hart.enterDebug c n cause a).dueEntry = hart.dueEntry ∧ (hart.enterDebug c n cause a).dueBreak = hart.dueBreak := by
  and_intros <;> rfl

/-- Leaving Debug Mode leaves these fields of the hart. -/
@[simp] theorem Hart.leaveDebug_frame (hart : Hart) (c : Config) (n : Nat) :
    (hart.leaveDebug c n).cfg = hart.cfg ∧ (hart.leaveDebug c n).ctl = hart.ctl ∧
    (hart.leaveDebug c n).avail = hart.avail ∧ (hart.leaveDebug c n).inReset = hart.inReset ∧
    (hart.leaveDebug c n).resetHalt = hart.resetHalt ∧ (hart.leaveDebug c n).gprs = hart.gprs ∧
    (hart.leaveDebug c n).fprs = hart.fprs ∧ (hart.leaveDebug c n).dcsr = hart.dcsr ∧
    (hart.leaveDebug c n).dpc = hart.dpc ∧ (hart.leaveDebug c n).tselect = hart.tselect ∧
    (hart.leaveDebug c n).trigs = hart.trigs ∧ (hart.leaveDebug c n).reservation = hart.reservation ∧
    (hart.leaveDebug c n).sys = hart.sys ∧ (hart.leaveDebug c n).cycle = hart.cycle ∧
    (hart.leaveDebug c n).instret = hart.instret ∧ (hart.leaveDebug c n).timer = hart.timer ∧
    (hart.leaveDebug c n).csrs = hart.csrs ∧ (hart.leaveDebug c n).trapped = hart.trapped ∧
    (hart.leaveDebug c n).dueEntry = hart.dueEntry ∧ (hart.leaveDebug c n).dueBreak = hart.dueBreak := by
  and_intros <;> rfl

/-- Writing a general register leaves these fields of the hart. -/
@[simp] theorem Hart.setGpr_frame (hart : Hart) (i : Nat) (v : XWord) :
    (hart.setGpr i v).cfg = hart.cfg ∧ (hart.setGpr i v).ctl = hart.ctl ∧
    (hart.setGpr i v).debugMode = hart.debugMode ∧ (hart.setGpr i v).inProgbuf = hart.inProgbuf ∧
    (hart.setGpr i v).avail = hart.avail ∧ (hart.setGpr i v).inReset = hart.inReset ∧
    (hart.setGpr i v).resetHalt = hart.resetHalt ∧ (hart.setGpr i v).priv = hart.priv ∧
    (hart.setGpr i v).pc = hart.pc ∧ (hart.setGpr i v).fprs = hart.fprs ∧
    (hart.setGpr i v).dcsr = hart.dcsr ∧ (hart.setGpr i v).dpc = hart.dpc ∧
    (hart.setGpr i v).dscratch0 = hart.dscratch0 ∧ (hart.setGpr i v).dscratch1 = hart.dscratch1 ∧
    (hart.setGpr i v).tselect = hart.tselect ∧ (hart.setGpr i v).trigs = hart.trigs ∧
    (hart.setGpr i v).reservation = hart.reservation ∧ (hart.setGpr i v).sys = hart.sys ∧
    (hart.setGpr i v).cycle = hart.cycle ∧ (hart.setGpr i v).instret = hart.instret ∧
    (hart.setGpr i v).timer = hart.timer ∧ (hart.setGpr i v).csrs = hart.csrs ∧
    (hart.setGpr i v).trapped = hart.trapped ∧
    (hart.setGpr i v).dueEntry = hart.dueEntry ∧ (hart.setGpr i v).dueBreak = hart.dueBreak := by
  and_intros <;> (simp only [Hart.setGpr]; repeat' split) <;> simp

/-- Writing a floating-point register leaves these fields of the hart. -/
@[simp] theorem Hart.setFpr_frame (hart : Hart) (i : Nat) (v : XWord) :
    (hart.setFpr i v).cfg = hart.cfg ∧ (hart.setFpr i v).ctl = hart.ctl ∧
    (hart.setFpr i v).debugMode = hart.debugMode ∧ (hart.setFpr i v).inProgbuf = hart.inProgbuf ∧
    (hart.setFpr i v).avail = hart.avail ∧ (hart.setFpr i v).inReset = hart.inReset ∧
    (hart.setFpr i v).resetHalt = hart.resetHalt ∧ (hart.setFpr i v).priv = hart.priv ∧
    (hart.setFpr i v).pc = hart.pc ∧ (hart.setFpr i v).gprs = hart.gprs ∧
    (hart.setFpr i v).dcsr = hart.dcsr ∧ (hart.setFpr i v).dpc = hart.dpc ∧
    (hart.setFpr i v).dscratch0 = hart.dscratch0 ∧ (hart.setFpr i v).dscratch1 = hart.dscratch1 ∧
    (hart.setFpr i v).tselect = hart.tselect ∧ (hart.setFpr i v).trigs = hart.trigs ∧
    (hart.setFpr i v).reservation = hart.reservation ∧ (hart.setFpr i v).sys = hart.sys ∧
    (hart.setFpr i v).cycle = hart.cycle ∧ (hart.setFpr i v).instret = hart.instret ∧
    (hart.setFpr i v).timer = hart.timer ∧ (hart.setFpr i v).csrs = hart.csrs ∧
    (hart.setFpr i v).trapped = hart.trapped ∧
    (hart.setFpr i v).dueEntry = hart.dueEntry ∧ (hart.setFpr i v).dueBreak = hart.dueBreak := by
  and_intros <;> rfl

/-- Counting leaves these fields of the hart. -/
@[simp] theorem Hart.countUp_frame (hart : Hart) (r : Bool) :
    (hart.countUp r).cfg = hart.cfg ∧ (hart.countUp r).ctl = hart.ctl ∧
    (hart.countUp r).debugMode = hart.debugMode ∧ (hart.countUp r).inProgbuf = hart.inProgbuf ∧
    (hart.countUp r).avail = hart.avail ∧ (hart.countUp r).inReset = hart.inReset ∧
    (hart.countUp r).resetHalt = hart.resetHalt ∧ (hart.countUp r).priv = hart.priv ∧
    (hart.countUp r).pc = hart.pc ∧ (hart.countUp r).gprs = hart.gprs ∧
    (hart.countUp r).fprs = hart.fprs ∧ (hart.countUp r).dcsr = hart.dcsr ∧
    (hart.countUp r).dpc = hart.dpc ∧ (hart.countUp r).dscratch0 = hart.dscratch0 ∧
    (hart.countUp r).dscratch1 = hart.dscratch1 ∧ (hart.countUp r).tselect = hart.tselect ∧
    (hart.countUp r).trigs = hart.trigs ∧ (hart.countUp r).reservation = hart.reservation ∧
    (hart.countUp r).sys = hart.sys ∧ (hart.countUp r).timer = hart.timer ∧
    (hart.countUp r).csrs = hart.csrs ∧ (hart.countUp r).trapped = hart.trapped ∧
    (hart.countUp r).dueEntry = hart.dueEntry ∧ (hart.countUp r).dueBreak = hart.dueBreak := by
  and_intros <;> (simp only [Hart.countUp]; repeat' split) <;> simp

/-- Completing an instruction leaves these fields of the hart. -/
@[simp] theorem Hart.retire_frame (hart : Hart) (len : Nat) :
    (hart.retire len).cfg = hart.cfg ∧ (hart.retire len).ctl = hart.ctl ∧
    (hart.retire len).debugMode = hart.debugMode ∧ (hart.retire len).inProgbuf = hart.inProgbuf ∧
    (hart.retire len).avail = hart.avail ∧ (hart.retire len).inReset = hart.inReset ∧
    (hart.retire len).resetHalt = hart.resetHalt ∧ (hart.retire len).priv = hart.priv ∧
    (hart.retire len).gprs = hart.gprs ∧ (hart.retire len).fprs = hart.fprs ∧
    (hart.retire len).dcsr = hart.dcsr ∧ (hart.retire len).dpc = hart.dpc ∧
    (hart.retire len).dscratch0 = hart.dscratch0 ∧ (hart.retire len).dscratch1 = hart.dscratch1 ∧
    (hart.retire len).tselect = hart.tselect ∧ (hart.retire len).trigs = hart.trigs ∧
    (hart.retire len).reservation = hart.reservation ∧ (hart.retire len).sys = hart.sys ∧
    (hart.retire len).timer = hart.timer ∧ (hart.retire len).csrs = hart.csrs ∧
    (hart.retire len).trapped = hart.trapped ∧
    (hart.retire len).dueEntry = hart.dueEntry ∧ (hart.retire len).dueBreak = hart.dueBreak := by
  and_intros <;> simp [Hart.retire]

/-- An ordinary trap leaves these fields of the hart. -/
@[simp] theorem Hart.trap_frame (hart : Hart) (i : Bool) (c : Nat) (v : XWord) :
    (hart.trap i c v).cfg = hart.cfg ∧ (hart.trap i c v).ctl = hart.ctl ∧
    (hart.trap i c v).debugMode = hart.debugMode ∧ (hart.trap i c v).inProgbuf = hart.inProgbuf ∧
    (hart.trap i c v).avail = hart.avail ∧ (hart.trap i c v).inReset = hart.inReset ∧
    (hart.trap i c v).resetHalt = hart.resetHalt ∧ (hart.trap i c v).gprs = hart.gprs ∧
    (hart.trap i c v).fprs = hart.fprs ∧ (hart.trap i c v).dcsr = hart.dcsr ∧
    (hart.trap i c v).dpc = hart.dpc ∧ (hart.trap i c v).dscratch0 = hart.dscratch0 ∧
    (hart.trap i c v).dscratch1 = hart.dscratch1 ∧ (hart.trap i c v).tselect = hart.tselect ∧
    (hart.trap i c v).trigs = hart.trigs ∧ (hart.trap i c v).reservation = hart.reservation ∧
    (hart.trap i c v).timer = hart.timer ∧ (hart.trap i c v).csrs = hart.csrs ∧
    (hart.trap i c v).dueEntry = hart.dueEntry ∧ (hart.trap i c v).dueBreak = hart.dueBreak := by
  and_intros <;> (simp only [Hart.trap]; repeat' split) <;> simp

/-- Another agent's store leaves these fields of the hart. -/
@[simp] theorem Hart.breakReservation_frame (hart : Hart) (a n : Nat) :
    (hart.breakReservation a n).cfg = hart.cfg ∧ (hart.breakReservation a n).ctl = hart.ctl ∧
    (hart.breakReservation a n).debugMode = hart.debugMode ∧ (hart.breakReservation a n).inProgbuf = hart.inProgbuf ∧
    (hart.breakReservation a n).avail = hart.avail ∧ (hart.breakReservation a n).inReset = hart.inReset ∧
    (hart.breakReservation a n).resetHalt = hart.resetHalt ∧ (hart.breakReservation a n).priv = hart.priv ∧
    (hart.breakReservation a n).pc = hart.pc ∧ (hart.breakReservation a n).gprs = hart.gprs ∧
    (hart.breakReservation a n).fprs = hart.fprs ∧ (hart.breakReservation a n).dcsr = hart.dcsr ∧
    (hart.breakReservation a n).dpc = hart.dpc ∧ (hart.breakReservation a n).dscratch0 = hart.dscratch0 ∧
    (hart.breakReservation a n).dscratch1 = hart.dscratch1 ∧ (hart.breakReservation a n).tselect = hart.tselect ∧
    (hart.breakReservation a n).trigs = hart.trigs ∧ (hart.breakReservation a n).sys = hart.sys ∧
    (hart.breakReservation a n).cycle = hart.cycle ∧ (hart.breakReservation a n).instret = hart.instret ∧
    (hart.breakReservation a n).timer = hart.timer ∧ (hart.breakReservation a n).csrs = hart.csrs ∧
    (hart.breakReservation a n).trapped = hart.trapped ∧
    (hart.breakReservation a n).dueEntry = hart.dueEntry ∧ (hart.breakReservation a n).dueBreak = hart.dueBreak := by
  and_intros <;> (simp only [Hart.breakReservation]; repeat' split) <;> simp

/-- Clearing the triggers leaves these fields of the hart. -/
@[simp] theorem Hart.clearTriggers_frame (hart : Hart) :
    hart.clearTriggers.cfg = hart.cfg ∧ hart.clearTriggers.ctl = hart.ctl ∧
    hart.clearTriggers.debugMode = hart.debugMode ∧ hart.clearTriggers.inProgbuf = hart.inProgbuf ∧
    hart.clearTriggers.avail = hart.avail ∧ hart.clearTriggers.inReset = hart.inReset ∧
    hart.clearTriggers.resetHalt = hart.resetHalt ∧ hart.clearTriggers.priv = hart.priv ∧
    hart.clearTriggers.pc = hart.pc ∧ hart.clearTriggers.gprs = hart.gprs ∧
    hart.clearTriggers.fprs = hart.fprs ∧ hart.clearTriggers.dcsr = hart.dcsr ∧
    hart.clearTriggers.dpc = hart.dpc ∧ hart.clearTriggers.dscratch0 = hart.dscratch0 ∧
    hart.clearTriggers.dscratch1 = hart.dscratch1 ∧ hart.clearTriggers.reservation = hart.reservation ∧
    hart.clearTriggers.sys = hart.sys ∧ hart.clearTriggers.cycle = hart.cycle ∧
    hart.clearTriggers.instret = hart.instret ∧ hart.clearTriggers.timer = hart.timer ∧
    hart.clearTriggers.csrs = hart.csrs ∧ hart.clearTriggers.trapped = hart.trapped ∧
    hart.clearTriggers.dueEntry = hart.dueEntry ∧ hart.clearTriggers.dueBreak = hart.dueBreak := by
  and_intros <;> rfl

/-- A hart reset leaves these fields of the hart. -/
@[simp] theorem Hart.doReset_frame (hart : Hart) (n : Nat) (b c : Bool) :
    (Hart.doReset n b c hart).cfg = hart.cfg ∧ (Hart.doReset n b c hart).avail = hart.avail ∧
    (Hart.doReset n b c hart).timer = hart.timer := by
  cases c <;> (and_intros <;> rfl)

/-- What the end of the Program Buffer does to dpc leaves these fields of the hart. -/
theorem Hart.clobberDpc_frame (hart : Hart) (n : Nat) :
    (hart.clobberDpc n) = { hart with dpc := (hart.clobberDpc n).dpc } ∧
    (hart.cfg.progbufClobbersDpc = false → (hart.clobberDpc n).dpc = hart.dpc) := by
  unfold Hart.clobberDpc
  split <;> simp_all

/-- A DM reset leaves these fields of the hart. -/
@[simp] theorem Hart.dmReset_frame (hart : Hart) (n : Nat) :
    (hart.dmReset n).cfg = hart.cfg ∧ (hart.dmReset n).debugMode = hart.debugMode ∧
    (hart.dmReset n).avail = hart.avail ∧ (hart.dmReset n).inReset = hart.inReset ∧
    (hart.dmReset n).resetHalt = hart.resetHalt ∧ (hart.dmReset n).priv = hart.priv ∧
    (hart.dmReset n).pc = hart.pc ∧ (hart.dmReset n).gprs = hart.gprs ∧
    (hart.dmReset n).fprs = hart.fprs ∧ (hart.dmReset n).dcsr = hart.dcsr ∧
    (hart.dmReset n).dscratch0 = hart.dscratch0 ∧
    (hart.dmReset n).dscratch1 = hart.dscratch1 ∧ (hart.dmReset n).tselect = hart.tselect ∧
    (hart.dmReset n).trigs = hart.trigs ∧ (hart.dmReset n).reservation = hart.reservation ∧
    (hart.dmReset n).sys = hart.sys ∧ (hart.dmReset n).cycle = hart.cycle ∧
    (hart.dmReset n).instret = hart.instret ∧ (hart.dmReset n).timer = hart.timer ∧
    (hart.dmReset n).csrs = hart.csrs ∧ (hart.dmReset n).trapped = hart.trapped ∧
    (hart.dmReset n).dueEntry = hart.dueEntry ∧ (hart.dmReset n).dueBreak = hart.dueBreak := by
  and_intros <;> (simp only [Hart.dmReset, Hart.clobberDpc]; split <;> (try split) <;> rfl)

/-- All a DM reset does to a hart: the bits the DM holds, the Program Buffer, dpc where that was running and clobbers it. -/
theorem Hart.dmReset_eq (hart : Hart) (n : Nat) :
    hart.dmReset n = { hart with
      inProgbuf := false
      dpc := (hart.dmReset n).dpc
      ctl := (hart.dmReset n).ctl } ∧
    (hart.inProgbuf = false ∨ hart.cfg.progbufClobbersDpc = false → (hart.dmReset n).dpc = hart.dpc) := by
  simp only [Hart.dmReset, Hart.clobberDpc]
  split <;> (try split) <;> simp_all

/-- A write of dmcontrol leaves these fields of the hart. -/
@[simp] theorem Hart.applyControl_frame (hart : Hart) (c : Config) (v : Word) :
    (Hart.applyControl c v hart).cfg = hart.cfg ∧ (Hart.applyControl c v hart).debugMode = hart.debugMode ∧
    (Hart.applyControl c v hart).inProgbuf = hart.inProgbuf ∧ (Hart.applyControl c v hart).avail = hart.avail ∧
    (Hart.applyControl c v hart).inReset = hart.inReset ∧ (Hart.applyControl c v hart).resetHalt = hart.resetHalt ∧
    (Hart.applyControl c v hart).priv = hart.priv ∧ (Hart.applyControl c v hart).pc = hart.pc ∧
    (Hart.applyControl c v hart).gprs = hart.gprs ∧ (Hart.applyControl c v hart).fprs = hart.fprs ∧
    (Hart.applyControl c v hart).dcsr = hart.dcsr ∧ (Hart.applyControl c v hart).dpc = hart.dpc ∧
    (Hart.applyControl c v hart).dscratch0 = hart.dscratch0 ∧ (Hart.applyControl c v hart).dscratch1 = hart.dscratch1 ∧
    (Hart.applyControl c v hart).tselect = hart.tselect ∧ (Hart.applyControl c v hart).trigs = hart.trigs ∧
    (Hart.applyControl c v hart).reservation = hart.reservation ∧ (Hart.applyControl c v hart).sys = hart.sys ∧
    (Hart.applyControl c v hart).cycle = hart.cycle ∧ (Hart.applyControl c v hart).instret = hart.instret ∧
    (Hart.applyControl c v hart).timer = hart.timer ∧ (Hart.applyControl c v hart).csrs = hart.csrs ∧
    (Hart.applyControl c v hart).trapped = hart.trapped ∧
    (Hart.applyControl c v hart).dueEntry = hart.dueEntry ∧ (Hart.applyControl c v hart).dueBreak = hart.dueBreak := by
  and_intros <;> rfl

/-- Setting hit bits leaves these fields of the hart. -/
@[simp] theorem Hart.setHits_frame (hart : Hart) (ms : List Bool) :
    (hart.setHits ms).cfg = hart.cfg ∧ (hart.setHits ms).ctl = hart.ctl ∧
    (hart.setHits ms).debugMode = hart.debugMode ∧ (hart.setHits ms).inProgbuf = hart.inProgbuf ∧
    (hart.setHits ms).avail = hart.avail ∧ (hart.setHits ms).inReset = hart.inReset ∧
    (hart.setHits ms).resetHalt = hart.resetHalt ∧ (hart.setHits ms).priv = hart.priv ∧
    (hart.setHits ms).pc = hart.pc ∧ (hart.setHits ms).gprs = hart.gprs ∧
    (hart.setHits ms).fprs = hart.fprs ∧ (hart.setHits ms).dcsr = hart.dcsr ∧
    (hart.setHits ms).dpc = hart.dpc ∧ (hart.setHits ms).dscratch0 = hart.dscratch0 ∧
    (hart.setHits ms).dscratch1 = hart.dscratch1 ∧ (hart.setHits ms).tselect = hart.tselect ∧
    (hart.setHits ms).reservation = hart.reservation ∧ (hart.setHits ms).sys = hart.sys ∧
    (hart.setHits ms).cycle = hart.cycle ∧ (hart.setHits ms).instret = hart.instret ∧
    (hart.setHits ms).timer = hart.timer ∧ (hart.setHits ms).csrs = hart.csrs ∧
    (hart.setHits ms).trapped = hart.trapped ∧
    (hart.setHits ms).dueEntry = hart.dueEntry ∧ (hart.setHits ms).dueBreak = hart.dueBreak := by
  and_intros <;> rfl

/-- Counting instructions down leaves these fields of the hart. -/
@[simp] theorem Hart.countDown_frame (hart : Hart) (p : Priv) :
    (hart.countDown p).cfg = hart.cfg ∧ (hart.countDown p).ctl = hart.ctl ∧
    (hart.countDown p).debugMode = hart.debugMode ∧ (hart.countDown p).inProgbuf = hart.inProgbuf ∧
    (hart.countDown p).avail = hart.avail ∧ (hart.countDown p).inReset = hart.inReset ∧
    (hart.countDown p).resetHalt = hart.resetHalt ∧ (hart.countDown p).priv = hart.priv ∧
    (hart.countDown p).pc = hart.pc ∧ (hart.countDown p).gprs = hart.gprs ∧
    (hart.countDown p).fprs = hart.fprs ∧ (hart.countDown p).dcsr = hart.dcsr ∧
    (hart.countDown p).dpc = hart.dpc ∧ (hart.countDown p).dscratch0 = hart.dscratch0 ∧
    (hart.countDown p).dscratch1 = hart.dscratch1 ∧ (hart.countDown p).tselect = hart.tselect ∧
    (hart.countDown p).reservation = hart.reservation ∧ (hart.countDown p).sys = hart.sys ∧
    (hart.countDown p).cycle = hart.cycle ∧ (hart.countDown p).instret = hart.instret ∧
    (hart.countDown p).timer = hart.timer ∧ (hart.countDown p).csrs = hart.csrs ∧
    (hart.countDown p).trapped = hart.trapped ∧
    (hart.countDown p).dueEntry = hart.dueEntry ∧ (hart.countDown p).dueBreak = hart.dueBreak := by
  and_intros <;> rfl

/-- Writing tselect leaves these fields of the hart. -/
@[simp] theorem Hart.writeTselect_frame (hart : Hart) (v : XWord) :
    (hart.writeTselect v).cfg = hart.cfg ∧ (hart.writeTselect v).ctl = hart.ctl ∧
    (hart.writeTselect v).debugMode = hart.debugMode ∧ (hart.writeTselect v).inProgbuf = hart.inProgbuf ∧
    (hart.writeTselect v).avail = hart.avail ∧ (hart.writeTselect v).inReset = hart.inReset ∧
    (hart.writeTselect v).resetHalt = hart.resetHalt ∧ (hart.writeTselect v).priv = hart.priv ∧
    (hart.writeTselect v).pc = hart.pc ∧ (hart.writeTselect v).gprs = hart.gprs ∧
    (hart.writeTselect v).fprs = hart.fprs ∧ (hart.writeTselect v).dcsr = hart.dcsr ∧
    (hart.writeTselect v).dpc = hart.dpc ∧ (hart.writeTselect v).dscratch0 = hart.dscratch0 ∧
    (hart.writeTselect v).dscratch1 = hart.dscratch1 ∧ (hart.writeTselect v).trigs = hart.trigs ∧
    (hart.writeTselect v).reservation = hart.reservation ∧ (hart.writeTselect v).sys = hart.sys ∧
    (hart.writeTselect v).cycle = hart.cycle ∧ (hart.writeTselect v).instret = hart.instret ∧
    (hart.writeTselect v).timer = hart.timer ∧ (hart.writeTselect v).csrs = hart.csrs ∧
    (hart.writeTselect v).trapped = hart.trapped ∧
    (hart.writeTselect v).dueEntry = hart.dueEntry ∧ (hart.writeTselect v).dueBreak = hart.dueBreak := by
  and_intros <;> (simp only [Hart.writeTselect]; repeat' split) <;> simp

/-- Writing a tdata register leaves these fields of the hart. -/
@[simp] theorem Hart.writeTdata_frame (hart : Hart) (k : Nat) (d : Bool) (v : XWord) :
    (hart.writeTdata k d v).cfg = hart.cfg ∧ (hart.writeTdata k d v).ctl = hart.ctl ∧
    (hart.writeTdata k d v).debugMode = hart.debugMode ∧ (hart.writeTdata k d v).inProgbuf = hart.inProgbuf ∧
    (hart.writeTdata k d v).avail = hart.avail ∧ (hart.writeTdata k d v).inReset = hart.inReset ∧
    (hart.writeTdata k d v).resetHalt = hart.resetHalt ∧ (hart.writeTdata k d v).priv = hart.priv ∧
    (hart.writeTdata k d v).pc = hart.pc ∧ (hart.writeTdata k d v).gprs = hart.gprs ∧
    (hart.writeTdata k d v).fprs = hart.fprs ∧ (hart.writeTdata k d v).dcsr = hart.dcsr ∧
    (hart.writeTdata k d v).dpc = hart.dpc ∧ (hart.writeTdata k d v).dscratch0 = hart.dscratch0 ∧
    (hart.writeTdata k d v).dscratch1 = hart.dscratch1 ∧ (hart.writeTdata k d v).tselect = hart.tselect ∧
    (hart.writeTdata k d v).reservation = hart.reservation ∧ (hart.writeTdata k d v).sys = hart.sys ∧
    (hart.writeTdata k d v).cycle = hart.cycle ∧ (hart.writeTdata k d v).instret = hart.instret ∧
    (hart.writeTdata k d v).timer = hart.timer ∧ (hart.writeTdata k d v).csrs = hart.csrs ∧
    (hart.writeTdata k d v).trapped = hart.trapped ∧
    (hart.writeTdata k d v).dueEntry = hart.dueEntry ∧ (hart.writeTdata k d v).dueBreak = hart.dueBreak := by
  and_intros <;> rfl

/-- Writing dcsr leaves these fields of the hart. -/
@[simp] theorem Hart.writeDcsr_frame (hart : Hart) (n : Nat) (v : XWord) :
    (hart.writeDcsr n v).cfg = hart.cfg ∧ (hart.writeDcsr n v).ctl = hart.ctl ∧
    (hart.writeDcsr n v).debugMode = hart.debugMode ∧ (hart.writeDcsr n v).inProgbuf = hart.inProgbuf ∧
    (hart.writeDcsr n v).avail = hart.avail ∧ (hart.writeDcsr n v).inReset = hart.inReset ∧
    (hart.writeDcsr n v).resetHalt = hart.resetHalt ∧ (hart.writeDcsr n v).priv = hart.priv ∧
    (hart.writeDcsr n v).pc = hart.pc ∧ (hart.writeDcsr n v).gprs = hart.gprs ∧
    (hart.writeDcsr n v).fprs = hart.fprs ∧ (hart.writeDcsr n v).dpc = hart.dpc ∧
    (hart.writeDcsr n v).dscratch0 = hart.dscratch0 ∧ (hart.writeDcsr n v).dscratch1 = hart.dscratch1 ∧
    (hart.writeDcsr n v).tselect = hart.tselect ∧ (hart.writeDcsr n v).trigs = hart.trigs ∧
    (hart.writeDcsr n v).reservation = hart.reservation ∧ (hart.writeDcsr n v).sys = hart.sys ∧
    (hart.writeDcsr n v).cycle = hart.cycle ∧ (hart.writeDcsr n v).instret = hart.instret ∧
    (hart.writeDcsr n v).timer = hart.timer ∧ (hart.writeDcsr n v).csrs = hart.csrs ∧
    (hart.writeDcsr n v).trapped = hart.trapped ∧
    (hart.writeDcsr n v).dueEntry = hart.dueEntry ∧ (hart.writeDcsr n v).dueBreak = hart.dueBreak := by
  and_intros <;> rfl

/-- Time passing leaves these fields of the hart. -/
@[simp] theorem Hart.tick_frame (hart : Hart) (n : Nat) :
    (hart.tick n).cfg = hart.cfg ∧ (hart.tick n).ctl = hart.ctl ∧
    (hart.tick n).debugMode = hart.debugMode ∧ (hart.tick n).inProgbuf = hart.inProgbuf ∧
    (hart.tick n).avail = hart.avail ∧ (hart.tick n).inReset = hart.inReset ∧
    (hart.tick n).resetHalt = hart.resetHalt ∧ (hart.tick n).priv = hart.priv ∧
    (hart.tick n).pc = hart.pc ∧ (hart.tick n).gprs = hart.gprs ∧
    (hart.tick n).fprs = hart.fprs ∧ (hart.tick n).dcsr = hart.dcsr ∧
    (hart.tick n).dpc = hart.dpc ∧ (hart.tick n).dscratch0 = hart.dscratch0 ∧
    (hart.tick n).dscratch1 = hart.dscratch1 ∧ (hart.tick n).tselect = hart.tselect ∧
    (hart.tick n).trigs = hart.trigs ∧ (hart.tick n).reservation = hart.reservation ∧
    (hart.tick n).sys = hart.sys ∧ (hart.tick n).cycle = hart.cycle ∧
    (hart.tick n).instret = hart.instret ∧ (hart.tick n).csrs = hart.csrs ∧
    (hart.tick n).trapped = hart.trapped ∧
    (hart.tick n).dueEntry = hart.dueEntry ∧ (hart.tick n).dueBreak = hart.dueBreak := by
  and_intros <;> (simp only [Hart.tick]; repeat' split) <;> simp

/-- Writing a CSR leaves these fields of the hart. -/
@[simp] theorem Hart.writeCsr_frame (hart : Hart) (d : Bool) (n num : Nat) (v : XWord) :
    (hart.writeCsr d n num v).cfg = hart.cfg ∧ (hart.writeCsr d n num v).ctl = hart.ctl ∧
    (hart.writeCsr d n num v).debugMode = hart.debugMode ∧ (hart.writeCsr d n num v).inProgbuf = hart.inProgbuf ∧
    (hart.writeCsr d n num v).avail = hart.avail ∧ (hart.writeCsr d n num v).inReset = hart.inReset ∧
    (hart.writeCsr d n num v).resetHalt = hart.resetHalt ∧ (hart.writeCsr d n num v).priv = hart.priv ∧
    (hart.writeCsr d n num v).pc = hart.pc ∧ (hart.writeCsr d n num v).gprs = hart.gprs ∧
    (hart.writeCsr d n num v).fprs = hart.fprs ∧ (hart.writeCsr d n num v).reservation = hart.reservation ∧
    (hart.writeCsr d n num v).timer = hart.timer ∧ (hart.writeCsr d n num v).trapped = hart.trapped ∧
    (hart.writeCsr d n num v).dueEntry = hart.dueEntry ∧ (hart.writeCsr d n num v).dueBreak = hart.dueBreak := by
  unfold Hart.writeCsr
  split
  all_goals first | (and_intros <;> rfl) | (simp; done) | (split <;> simp)

/-- What entry to Debug Mode writes (spec/60_exceptions.md R652). -/
@[simp] theorem Hart.enterDebug_writes (hart : Hart) (c : Config) (n : Nat) (cause : BitVec 3) (addr : XWord) :
    (hart.enterDebug c n cause addr).debugMode = true ∧ (hart.enterDebug c n cause addr).inProgbuf = false ∧
    (hart.enterDebug c n cause addr).dcsr = { hart.dcsr with cause := cause, prv := privCode hart.priv } ∧
    (hart.enterDebug c n cause addr).dpc = hart.trunc addr := by
  and_intros <;> rfl

/-- What leaving Debug Mode writes (spec/44_debug_mode.md R490). -/
@[simp] theorem Hart.leaveDebug_writes (hart : Hart) (c : Config) (n : Nat) :
    (hart.leaveDebug c n).debugMode = false ∧ (hart.leaveDebug c n).inProgbuf = false ∧
    (hart.leaveDebug c n).pc = hart.pcBits hart.dpc ∧ (hart.leaveDebug c n).priv = hart.legalPriv n hart.dcsr.prv := by
  and_intros <;> rfl

/-- x0 reads 0 whatever is written to any register (spec/10_state.md R180). -/
@[simp] theorem Hart.gpr_zero (hart : Hart) : hart.gpr 0 = 0 := by
  simp [Hart.gpr]

/-- A write to x0 is discarded (spec/10_state.md R180). -/
@[simp] theorem Hart.setGpr_zero (hart : Hart) (v : XWord) : hart.setGpr 0 v = hart := by
  simp [Hart.setGpr]

/-- A general register read after a write. -/
theorem Hart.gpr_setGpr (hart : Hart) (i j : Nat) (v : XWord) (hi : i < 32) :
    (hart.setGpr i v).gpr j =
      if j = i ∧ i ≠ 0 ∧ i < hart.cfg.ngpr then hart.trunc v else hart.gpr j := by
  by_cases h0 : i = 0 ∨ hart.cfg.ngpr ≤ i
  · rw [Hart.setGpr, if_pos h0, if_neg]
    omega
  · have hn : i < hart.cfg.ngpr := by omega
    have hz : i ≠ 0 := by omega
    rw [Hart.setGpr, if_neg h0]
    by_cases hj : j = i
    · subst hj
      rw [if_pos ⟨rfl, hz, hn⟩, Hart.gpr, if_neg h0]
      simp [vget, vset, Vector.setIfInBounds, Vector.toList, hi]
    · rw [if_neg (fun h => hj h.1)]
      unfold Hart.gpr
      split
      · rfl
      · simp only [vget, vset, Vector.setIfInBounds, Vector.toList, List.getD_eq_getElem?_getD]
        simp [Ne.symm hj]

end Sys2Proof.Machine
end

