-- ==== Sys2Proof/Laws/Frames.lean ====
section
/-! SUPPORT. What each operation over the whole machine leaves as it was: one lemma per operation, a conjunction with one
equation per field of State that the operation does not touch. -/

namespace Sys2Proof.Machine

/-! ### Hart operations, commands and registers -/

@[simp] theorem enterDebug_frame (s : State) (h : Nat) (c : BitVec 3) (a : XWord) :
    (enterDebug h c a s).cfg = s.cfg ∧ (enterDebug h c a s).dtm = s.dtm ∧
    (enterDebug h c a s).dm = s.dm ∧ (enterDebug h c a s).sb = s.sb ∧
    (enterDebug h c a s).mem = s.mem ∧ (enterDebug h c a s).hmem = s.hmem ∧
    (enterDebug h c a s).imem = s.imem ∧ (enterDebug h c a s).extReset = s.extReset ∧
    (enterDebug h c a s).queue = s.queue ∧ (enterDebug h c a s).cur = s.cur ∧
    (enterDebug h c a s).rr = s.rr ∧ (enterDebug h c a s).dmiOut = s.dmiOut := by
  and_intros <;> rfl

@[simp] theorem leaveDebug_frame (s : State) (h : Nat) :
    (leaveDebug h s).cfg = s.cfg ∧ (leaveDebug h s).dtm = s.dtm ∧
    (leaveDebug h s).dm = s.dm ∧ (leaveDebug h s).sb = s.sb ∧
    (leaveDebug h s).mem = s.mem ∧ (leaveDebug h s).hmem = s.hmem ∧
    (leaveDebug h s).imem = s.imem ∧ (leaveDebug h s).extReset = s.extReset ∧
    (leaveDebug h s).queue = s.queue ∧ (leaveDebug h s).cur = s.cur ∧
    (leaveDebug h s).rr = s.rr ∧ (leaveDebug h s).dmiOut = s.dmiOut := by
  and_intros <;> rfl

@[simp] theorem resumeHart_frame (s : State) (h : Nat) :
    (resumeHart h s).cfg = s.cfg ∧ (resumeHart h s).dtm = s.dtm ∧
    (resumeHart h s).dm = s.dm ∧ (resumeHart h s).sb = s.sb ∧
    (resumeHart h s).mem = s.mem ∧ (resumeHart h s).hmem = s.hmem ∧
    (resumeHart h s).imem = s.imem ∧ (resumeHart h s).extReset = s.extReset ∧
    (resumeHart h s).queue = s.queue ∧ (resumeHart h s).cur = s.cur ∧
    (resumeHart h s).rr = s.rr ∧ (resumeHart h s).dmiOut = s.dmiOut := by
  and_intros <;> rfl

@[simp] theorem retireCur_frame (s : State) (len : Nat) :
    (retireCur len s).cfg = s.cfg ∧ (retireCur len s).dtm = s.dtm ∧
    (retireCur len s).dm = s.dm ∧ (retireCur len s).sb = s.sb ∧
    (retireCur len s).mem = s.mem ∧ (retireCur len s).hmem = s.hmem ∧
    (retireCur len s).imem = s.imem ∧ (retireCur len s).extReset = s.extReset ∧
    (retireCur len s).queue = s.queue ∧ (retireCur len s).cur = s.cur ∧
    (retireCur len s).rr = s.rr ∧ (retireCur len s).dmiOut = s.dmiOut ∧
    (retireCur len s).free = s.free := by
  and_intros <;> rfl

@[simp] theorem selectIr_frame (s : State) (code : Nat) :
    (selectIr code s).cfg = s.cfg ∧ (selectIr code s).dm = s.dm ∧
    (selectIr code s).sb = s.sb ∧ (selectIr code s).harts = s.harts ∧
    (selectIr code s).mem = s.mem ∧ (selectIr code s).hmem = s.hmem ∧
    (selectIr code s).imem = s.imem ∧ (selectIr code s).extReset = s.extReset ∧
    (selectIr code s).queue = s.queue ∧ (selectIr code s).cur = s.cur ∧
    (selectIr code s).rr = s.rr ∧ (selectIr code s).dmiOut = s.dmiOut := by
  and_intros <;> rfl

@[simp] theorem scanBypass_frame (s : State) :
    (scanBypass s).cfg = s.cfg ∧ (scanBypass s).dm = s.dm ∧
    (scanBypass s).sb = s.sb ∧ (scanBypass s).harts = s.harts ∧
    (scanBypass s).mem = s.mem ∧ (scanBypass s).hmem = s.hmem ∧
    (scanBypass s).imem = s.imem ∧ (scanBypass s).extReset = s.extReset ∧
    (scanBypass s).queue = s.queue ∧ (scanBypass s).cur = s.cur ∧
    (scanBypass s).rr = s.rr ∧ (scanBypass s).dmiOut = s.dmiOut ∧
    (scanBypass s).free = s.free := by
  and_intros <;> rfl

@[simp] theorem dmireset_frame (s : State) :
    (dmireset s).cfg = s.cfg ∧ (dmireset s).dm = s.dm ∧
    (dmireset s).sb = s.sb ∧ (dmireset s).harts = s.harts ∧
    (dmireset s).mem = s.mem ∧ (dmireset s).hmem = s.hmem ∧
    (dmireset s).imem = s.imem ∧ (dmireset s).extReset = s.extReset ∧
    (dmireset s).queue = s.queue ∧ (dmireset s).cur = s.cur ∧
    (dmireset s).rr = s.rr ∧ (dmireset s).dmiOut = s.dmiOut ∧
    (dmireset s).free = s.free := by
  and_intros <;> rfl

@[simp] theorem dmihardreset_frame (s : State) :
    (dmihardreset s).cfg = s.cfg ∧ (dmihardreset s).dm = s.dm ∧
    (dmihardreset s).sb = s.sb ∧ (dmihardreset s).harts = s.harts ∧
    (dmihardreset s).mem = s.mem ∧ (dmihardreset s).hmem = s.hmem ∧
    (dmihardreset s).imem = s.imem ∧ (dmihardreset s).extReset = s.extReset ∧
    (dmihardreset s).queue = s.queue ∧ (dmihardreset s).cur = s.cur ∧
    (dmihardreset s).rr = s.rr ∧ (dmihardreset s).dmiOut = s.dmiOut ∧
    (dmihardreset s).free = s.free := by
  and_intros <;> rfl

@[simp] theorem startCommand_frame (s : State) (v : Word) :
    (startCommand v s).cfg = s.cfg ∧ (startCommand v s).dtm = s.dtm ∧
    (startCommand v s).sb = s.sb ∧ (startCommand v s).harts = s.harts ∧
    (startCommand v s).mem = s.mem ∧ (startCommand v s).hmem = s.hmem ∧
    (startCommand v s).imem = s.imem ∧ (startCommand v s).extReset = s.extReset ∧
    (startCommand v s).queue = s.queue ∧ (startCommand v s).cur = s.cur ∧
    (startCommand v s).rr = s.rr ∧ (startCommand v s).dmiOut = s.dmiOut ∧
    (startCommand v s).free = s.free := by
  and_intros <;> rfl

@[simp] theorem storeArg_frame (s : State) (first words v : Nat) :
    (storeArg first words v s).cfg = s.cfg ∧ (storeArg first words v s).dtm = s.dtm ∧
    (storeArg first words v s).sb = s.sb ∧ (storeArg first words v s).harts = s.harts ∧
    (storeArg first words v s).mem = s.mem ∧ (storeArg first words v s).hmem = s.hmem ∧
    (storeArg first words v s).imem = s.imem ∧ (storeArg first words v s).extReset = s.extReset ∧
    (storeArg first words v s).queue = s.queue ∧ (storeArg first words v s).cur = s.cur ∧
    (storeArg first words v s).rr = s.rr ∧ (storeArg first words v s).dmiOut = s.dmiOut ∧
    (storeArg first words v s).free = s.free := by
  and_intros <;> rfl

@[simp] theorem startProgbuf_frame (s : State) (h : Nat) :
    (startProgbuf h s).cfg = s.cfg ∧ (startProgbuf h s).dtm = s.dtm ∧
    (startProgbuf h s).sb = s.sb ∧ (startProgbuf h s).mem = s.mem ∧
    (startProgbuf h s).hmem = s.hmem ∧ (startProgbuf h s).imem = s.imem ∧
    (startProgbuf h s).extReset = s.extReset ∧ (startProgbuf h s).queue = s.queue ∧
    (startProgbuf h s).cur = s.cur ∧ (startProgbuf h s).rr = s.rr ∧
    (startProgbuf h s).dmiOut = s.dmiOut ∧ (startProgbuf h s).free = s.free := by
  and_intros <;> rfl

@[simp] theorem scrambleForCommand_frame (s : State) (h : Nat) :
    (scrambleForCommand h s).cfg = s.cfg ∧ (scrambleForCommand h s).dtm = s.dtm ∧
    (scrambleForCommand h s).dm = s.dm ∧ (scrambleForCommand h s).sb = s.sb ∧
    (scrambleForCommand h s).mem = s.mem ∧ (scrambleForCommand h s).hmem = s.hmem ∧
    (scrambleForCommand h s).imem = s.imem ∧ (scrambleForCommand h s).extReset = s.extReset ∧
    (scrambleForCommand h s).queue = s.queue ∧ (scrambleForCommand h s).cur = s.cur ∧
    (scrambleForCommand h s).rr = s.rr ∧ (scrambleForCommand h s).dmiOut = s.dmiOut := by
  and_intros <;> rfl

@[simp] theorem busyViolation_frame (s : State) :
    (busyViolation s).cfg = s.cfg ∧ (busyViolation s).dtm = s.dtm ∧
    (busyViolation s).sb = s.sb ∧ (busyViolation s).harts = s.harts ∧
    (busyViolation s).mem = s.mem ∧ (busyViolation s).hmem = s.hmem ∧
    (busyViolation s).imem = s.imem ∧ (busyViolation s).extReset = s.extReset ∧
    (busyViolation s).queue = s.queue ∧ (busyViolation s).cur = s.cur ∧
    (busyViolation s).rr = s.rr ∧ (busyViolation s).dmiOut = s.dmiOut ∧
    (busyViolation s).free = s.free := by
  and_intros <;> rfl

@[simp] theorem finishCommand_frame (s : State) (e : Option (BitVec 3)) :
    (finishCommand e s).cfg = s.cfg ∧ (finishCommand e s).dtm = s.dtm ∧
    (finishCommand e s).sb = s.sb ∧ (finishCommand e s).harts = s.harts ∧
    (finishCommand e s).mem = s.mem ∧ (finishCommand e s).hmem = s.hmem ∧
    (finishCommand e s).imem = s.imem ∧ (finishCommand e s).extReset = s.extReset ∧
    (finishCommand e s).queue = s.queue ∧ (finishCommand e s).cur = s.cur ∧
    (finishCommand e s).rr = s.rr ∧ (finishCommand e s).dmiOut = s.dmiOut := by
  and_intros <;> rfl

@[simp] theorem finishQuiet_frame (s : State) (e : Option (BitVec 3)) :
    (finishQuiet e s).cfg = s.cfg ∧ (finishQuiet e s).dtm = s.dtm ∧
    (finishQuiet e s).sb = s.sb ∧ (finishQuiet e s).harts = s.harts ∧
    (finishQuiet e s).mem = s.mem ∧ (finishQuiet e s).hmem = s.hmem ∧
    (finishQuiet e s).imem = s.imem ∧ (finishQuiet e s).extReset = s.extReset ∧
    (finishQuiet e s).queue = s.queue ∧ (finishQuiet e s).cur = s.cur ∧
    (finishQuiet e s).rr = s.rr ∧ (finishQuiet e s).dmiOut = s.dmiOut ∧
    (finishQuiet e s).free = s.free := by
  and_intros <;> rfl

@[simp] theorem breakOthers_frame (s : State) (h a n : Nat) :
    (breakOthers h a n s).cfg = s.cfg ∧ (breakOthers h a n s).dtm = s.dtm ∧
    (breakOthers h a n s).dm = s.dm ∧ (breakOthers h a n s).sb = s.sb ∧
    (breakOthers h a n s).mem = s.mem ∧ (breakOthers h a n s).hmem = s.hmem ∧
    (breakOthers h a n s).imem = s.imem ∧ (breakOthers h a n s).extReset = s.extReset ∧
    (breakOthers h a n s).queue = s.queue ∧ (breakOthers h a n s).cur = s.cur ∧
    (breakOthers h a n s).rr = s.rr ∧ (breakOthers h a n s).dmiOut = s.dmiOut ∧
    (breakOthers h a n s).free = s.free := by
  and_intros <;> rfl

@[simp] theorem writeSbcs_frame (s : State) (v : Word) :
    (writeSbcs v s).cfg = s.cfg ∧ (writeSbcs v s).dtm = s.dtm ∧
    (writeSbcs v s).dm = s.dm ∧ (writeSbcs v s).harts = s.harts ∧
    (writeSbcs v s).mem = s.mem ∧ (writeSbcs v s).hmem = s.hmem ∧
    (writeSbcs v s).imem = s.imem ∧ (writeSbcs v s).extReset = s.extReset ∧
    (writeSbcs v s).queue = s.queue ∧ (writeSbcs v s).cur = s.cur ∧
    (writeSbcs v s).rr = s.rr ∧ (writeSbcs v s).dmiOut = s.dmiOut ∧
    (writeSbcs v s).free = s.free := by
  and_intros <;> rfl

@[simp] theorem writeHawindow_frame (s : State) (v : Word) :
    (writeHawindow v s).cfg = s.cfg ∧ (writeHawindow v s).dtm = s.dtm ∧
    (writeHawindow v s).dm = s.dm ∧ (writeHawindow v s).sb = s.sb ∧
    (writeHawindow v s).mem = s.mem ∧ (writeHawindow v s).hmem = s.hmem ∧
    (writeHawindow v s).imem = s.imem ∧ (writeHawindow v s).extReset = s.extReset ∧
    (writeHawindow v s).queue = s.queue ∧ (writeHawindow v s).cur = s.cur ∧
    (writeHawindow v s).rr = s.rr ∧ (writeHawindow v s).dmiOut = s.dmiOut ∧
    (writeHawindow v s).free = s.free := by
  and_intros <;> rfl

@[simp] theorem writeAuthdata_frame (s : State) (v : Word) :
    (writeAuthdata v s).cfg = s.cfg ∧ (writeAuthdata v s).dtm = s.dtm ∧
    (writeAuthdata v s).sb = s.sb ∧ (writeAuthdata v s).harts = s.harts ∧
    (writeAuthdata v s).mem = s.mem ∧ (writeAuthdata v s).hmem = s.hmem ∧
    (writeAuthdata v s).imem = s.imem ∧ (writeAuthdata v s).extReset = s.extReset ∧
    (writeAuthdata v s).queue = s.queue ∧ (writeAuthdata v s).cur = s.cur ∧
    (writeAuthdata v s).rr = s.rr ∧ (writeAuthdata v s).dmiOut = s.dmiOut ∧
    (writeAuthdata v s).free = s.free := by
  and_intros <;> rfl

@[simp] theorem syncFetchAll_frame (s : State) (h : Nat) :
    (syncFetchAll h s).cfg = s.cfg ∧ (syncFetchAll h s).dtm = s.dtm ∧
    (syncFetchAll h s).sb = s.sb ∧ (syncFetchAll h s).harts = s.harts ∧
    (syncFetchAll h s).mem = s.mem ∧ (syncFetchAll h s).hmem = s.hmem ∧
    (syncFetchAll h s).extReset = s.extReset ∧ (syncFetchAll h s).queue = s.queue ∧
    (syncFetchAll h s).cur = s.cur ∧ (syncFetchAll h s).rr = s.rr ∧
    (syncFetchAll h s).dmiOut = s.dmiOut ∧ (syncFetchAll h s).free = s.free := by
  and_intros <;> rfl

/-! ### Operations that choose -/

@[simp] theorem State.setDataView_frame (s : State) (m : Mem) :
    (s.setDataView m).cfg = s.cfg ∧ (s.setDataView m).dtm = s.dtm ∧
    (s.setDataView m).dm = s.dm ∧ (s.setDataView m).sb = s.sb ∧
    (s.setDataView m).harts = s.harts ∧ (s.setDataView m).imem = s.imem ∧
    (s.setDataView m).extReset = s.extReset ∧ (s.setDataView m).queue = s.queue ∧
    (s.setDataView m).cur = s.cur ∧ (s.setDataView m).rr = s.rr ∧
    (s.setDataView m).dmiOut = s.dmiOut ∧ (s.setDataView m).free = s.free := by
  and_intros <;> (simp only [State.setDataView]; repeat' split) <;> simp

@[simp] theorem endProgbuf_frame (s : State) (h : Nat) (e : Option (BitVec 3)) :
    (endProgbuf h e s).cfg = s.cfg ∧ (endProgbuf h e s).dtm = s.dtm ∧
    (endProgbuf h e s).sb = s.sb ∧ (endProgbuf h e s).mem = s.mem ∧
    (endProgbuf h e s).hmem = s.hmem ∧ (endProgbuf h e s).imem = s.imem ∧
    (endProgbuf h e s).extReset = s.extReset ∧ (endProgbuf h e s).queue = s.queue ∧
    (endProgbuf h e s).cur = s.cur ∧ (endProgbuf h e s).rr = s.rr ∧
    (endProgbuf h e s).dmiOut = s.dmiOut := by
  and_intros <;> (simp only [endProgbuf]; repeat' split) <;> simp

@[simp] theorem raise_frame (s : State) (h c : Nat) :
    (raise h c s).cfg = s.cfg ∧ (raise h c s).dtm = s.dtm ∧
    (raise h c s).sb = s.sb ∧ (raise h c s).mem = s.mem ∧
    (raise h c s).hmem = s.hmem ∧ (raise h c s).imem = s.imem ∧
    (raise h c s).extReset = s.extReset ∧ (raise h c s).queue = s.queue ∧
    (raise h c s).cur = s.cur ∧ (raise h c s).rr = s.rr ∧
    (raise h c s).dmiOut = s.dmiOut := by
  and_intros <;> (simp only [raise]; repeat' split) <;> simp

@[simp] theorem resetHart_frame (s : State) (b c : Bool) (h : Nat) :
    (resetHart b c h s).cfg = s.cfg ∧ (resetHart b c h s).dtm = s.dtm ∧
    (resetHart b c h s).sb = s.sb ∧ (resetHart b c h s).mem = s.mem ∧
    (resetHart b c h s).hmem = s.hmem ∧ (resetHart b c h s).imem = s.imem ∧
    (resetHart b c h s).extReset = s.extReset ∧ (resetHart b c h s).queue = s.queue ∧
    (resetHart b c h s).cur = s.cur ∧ (resetHart b c h s).rr = s.rr ∧
    (resetHart b c h s).dmiOut = s.dmiOut := by
  and_intros <;> (simp only [resetHart]; repeat' split) <;> simp

@[simp] theorem writeCsr_frame (s : State) (d : Bool) (h num : Nat) (v : XWord) :
    (writeCsr d h num v s).cfg = s.cfg ∧ (writeCsr d h num v s).dtm = s.dtm ∧
    (writeCsr d h num v s).sb = s.sb ∧ (writeCsr d h num v s).mem = s.mem ∧
    (writeCsr d h num v s).hmem = s.hmem ∧ (writeCsr d h num v s).imem = s.imem ∧
    (writeCsr d h num v s).extReset = s.extReset ∧ (writeCsr d h num v s).queue = s.queue ∧
    (writeCsr d h num v s).cur = s.cur ∧ (writeCsr d h num v s).rr = s.rr ∧
    (writeCsr d h num v s).dmiOut = s.dmiOut := by
  and_intros <;> (simp only [writeCsr]; repeat' split) <;> simp

@[simp] theorem csrInsn_frame (s : State) (num : Nat) (op : CsrOp) (h : Nat) :
    (csrInsn num op h s).cfg = s.cfg ∧ (csrInsn num op h s).dtm = s.dtm ∧
    (csrInsn num op h s).sb = s.sb ∧ (csrInsn num op h s).mem = s.mem ∧
    (csrInsn num op h s).hmem = s.hmem ∧ (csrInsn num op h s).imem = s.imem ∧
    (csrInsn num op h s).extReset = s.extReset ∧ (csrInsn num op h s).queue = s.queue ∧
    (csrInsn num op h s).cur = s.cur ∧ (csrInsn num op h s).rr = s.rr ∧
    (csrInsn num op h s).dmiOut = s.dmiOut := by
  and_intros <;> (simp only [csrInsn]; repeat' split) <;> simp

@[simp] theorem writeReg_frame (s : State) (h : Nat) (r : RegRef) (v : XWord) :
    (writeReg h r v s).cfg = s.cfg ∧ (writeReg h r v s).dtm = s.dtm ∧
    (writeReg h r v s).sb = s.sb ∧ (writeReg h r v s).mem = s.mem ∧
    (writeReg h r v s).hmem = s.hmem ∧ (writeReg h r v s).imem = s.imem ∧
    (writeReg h r v s).extReset = s.extReset ∧ (writeReg h r v s).queue = s.queue ∧
    (writeReg h r v s).cur = s.cur ∧ (writeReg h r v s).rr = s.rr ∧
    (writeReg h r v s).dmiOut = s.dmiOut := by
  and_intros <;> (simp only [writeReg]; repeat' split) <;> simp

@[simp] theorem doTransfer_frame (s : State) (h : Nat) (size : BitVec 3) (w : Bool) (r : Nat) :
    (doTransfer h size w r s).cfg = s.cfg ∧ (doTransfer h size w r s).dtm = s.dtm ∧
    (doTransfer h size w r s).sb = s.sb ∧ (doTransfer h size w r s).mem = s.mem ∧
    (doTransfer h size w r s).hmem = s.hmem ∧ (doTransfer h size w r s).imem = s.imem ∧
    (doTransfer h size w r s).extReset = s.extReset ∧ (doTransfer h size w r s).queue = s.queue ∧
    (doTransfer h size w r s).cur = s.cur ∧ (doTransfer h size w r s).rr = s.rr ∧
    (doTransfer h size w r s).dmiOut = s.dmiOut := by
  and_intros <;> (simp only [doTransfer]; repeat' split) <;> simp

@[simp] theorem autoexec_frame (s : State) :
    (autoexec s).cfg = s.cfg ∧ (autoexec s).dtm = s.dtm ∧
    (autoexec s).sb = s.sb ∧ (autoexec s).harts = s.harts ∧
    (autoexec s).mem = s.mem ∧ (autoexec s).hmem = s.hmem ∧
    (autoexec s).imem = s.imem ∧ (autoexec s).extReset = s.extReset ∧
    (autoexec s).queue = s.queue ∧ (autoexec s).cur = s.cur ∧
    (autoexec s).rr = s.rr ∧ (autoexec s).dmiOut = s.dmiOut ∧
    (autoexec s).free = s.free := by
  and_intros <;> (simp only [autoexec]; repeat' split) <;> simp

@[simp] theorem autoexecBit_frame (s : State) (b : Nat) :
    (autoexecBit b s).cfg = s.cfg ∧ (autoexecBit b s).dtm = s.dtm ∧
    (autoexecBit b s).sb = s.sb ∧ (autoexecBit b s).harts = s.harts ∧
    (autoexecBit b s).mem = s.mem ∧ (autoexecBit b s).hmem = s.hmem ∧
    (autoexecBit b s).imem = s.imem ∧ (autoexecBit b s).extReset = s.extReset ∧
    (autoexecBit b s).queue = s.queue ∧ (autoexecBit b s).cur = s.cur ∧
    (autoexecBit b s).rr = s.rr ∧ (autoexecBit b s).dmiOut = s.dmiOut ∧
    (autoexecBit b s).free = s.free := by
  and_intros <;> (simp only [autoexecBit]; repeat' split) <;> simp

@[simp] theorem startAccess_frame (s : State) (w : Bool) :
    (startAccess w s).cfg = s.cfg ∧ (startAccess w s).dtm = s.dtm ∧
    (startAccess w s).dm = s.dm ∧ (startAccess w s).harts = s.harts ∧
    (startAccess w s).mem = s.mem ∧ (startAccess w s).hmem = s.hmem ∧
    (startAccess w s).imem = s.imem ∧ (startAccess w s).extReset = s.extReset ∧
    (startAccess w s).queue = s.queue ∧ (startAccess w s).cur = s.cur ∧
    (startAccess w s).rr = s.rr ∧ (startAccess w s).dmiOut = s.dmiOut ∧
    (startAccess w s).free = s.free := by
  and_intros <;> (simp only [startAccess]; repeat' split) <;> simp

@[simp] theorem writeSbaddress_frame (s : State) (k : Nat) (v : Word) :
    (writeSbaddress k v s).cfg = s.cfg ∧ (writeSbaddress k v s).dtm = s.dtm ∧
    (writeSbaddress k v s).dm = s.dm ∧ (writeSbaddress k v s).harts = s.harts ∧
    (writeSbaddress k v s).mem = s.mem ∧ (writeSbaddress k v s).hmem = s.hmem ∧
    (writeSbaddress k v s).imem = s.imem ∧ (writeSbaddress k v s).extReset = s.extReset ∧
    (writeSbaddress k v s).queue = s.queue ∧ (writeSbaddress k v s).cur = s.cur ∧
    (writeSbaddress k v s).rr = s.rr ∧ (writeSbaddress k v s).dmiOut = s.dmiOut ∧
    (writeSbaddress k v s).free = s.free := by
  and_intros <;> (simp only [writeSbaddress]; repeat' split) <;> simp

@[simp] theorem writeSbaddress0_frame (s : State) (v : Word) :
    (writeSbaddress0 v s).cfg = s.cfg ∧ (writeSbaddress0 v s).dtm = s.dtm ∧
    (writeSbaddress0 v s).dm = s.dm ∧ (writeSbaddress0 v s).harts = s.harts ∧
    (writeSbaddress0 v s).mem = s.mem ∧ (writeSbaddress0 v s).hmem = s.hmem ∧
    (writeSbaddress0 v s).imem = s.imem ∧ (writeSbaddress0 v s).extReset = s.extReset ∧
    (writeSbaddress0 v s).queue = s.queue ∧ (writeSbaddress0 v s).cur = s.cur ∧
    (writeSbaddress0 v s).rr = s.rr ∧ (writeSbaddress0 v s).dmiOut = s.dmiOut ∧
    (writeSbaddress0 v s).free = s.free := by
  and_intros <;> (simp only [writeSbaddress0]; repeat' split) <;> simp

@[simp] theorem writeSbdata_frame (s : State) (k : Nat) (v : Word) :
    (writeSbdata k v s).cfg = s.cfg ∧ (writeSbdata k v s).dtm = s.dtm ∧
    (writeSbdata k v s).dm = s.dm ∧ (writeSbdata k v s).harts = s.harts ∧
    (writeSbdata k v s).mem = s.mem ∧ (writeSbdata k v s).hmem = s.hmem ∧
    (writeSbdata k v s).imem = s.imem ∧ (writeSbdata k v s).extReset = s.extReset ∧
    (writeSbdata k v s).queue = s.queue ∧ (writeSbdata k v s).cur = s.cur ∧
    (writeSbdata k v s).rr = s.rr ∧ (writeSbdata k v s).dmiOut = s.dmiOut ∧
    (writeSbdata k v s).free = s.free := by
  and_intros <;> (simp only [writeSbdata]; repeat' split) <;> simp

@[simp] theorem writeSbdata0_frame (s : State) (v : Word) :
    (writeSbdata0 v s).cfg = s.cfg ∧ (writeSbdata0 v s).dtm = s.dtm ∧
    (writeSbdata0 v s).dm = s.dm ∧ (writeSbdata0 v s).harts = s.harts ∧
    (writeSbdata0 v s).mem = s.mem ∧ (writeSbdata0 v s).hmem = s.hmem ∧
    (writeSbdata0 v s).imem = s.imem ∧ (writeSbdata0 v s).extReset = s.extReset ∧
    (writeSbdata0 v s).queue = s.queue ∧ (writeSbdata0 v s).cur = s.cur ∧
    (writeSbdata0 v s).rr = s.rr ∧ (writeSbdata0 v s).dmiOut = s.dmiOut ∧
    (writeSbdata0 v s).free = s.free := by
  and_intros <;> (simp only [writeSbdata0]; repeat' split) <;> simp

@[simp] theorem busComplete_frame (s : State) :
    (busComplete s).cfg = s.cfg ∧ (busComplete s).dtm = s.dtm ∧
    (busComplete s).dm = s.dm ∧ (busComplete s).hmem = s.hmem ∧
    (busComplete s).imem = s.imem ∧ (busComplete s).extReset = s.extReset ∧
    (busComplete s).queue = s.queue ∧ (busComplete s).cur = s.cur ∧
    (busComplete s).rr = s.rr ∧ (busComplete s).dmiOut = s.dmiOut := by
  and_intros <;> (simp only [busComplete]; repeat' split) <;> simp

@[simp] theorem abandonBus_frame (s : State) :
    (abandonBus s).cfg = s.cfg ∧ (abandonBus s).dtm = s.dtm ∧
    (abandonBus s).dm = s.dm ∧ (abandonBus s).sb = s.sb ∧
    (abandonBus s).harts = s.harts ∧ (abandonBus s).hmem = s.hmem ∧
    (abandonBus s).imem = s.imem ∧ (abandonBus s).extReset = s.extReset ∧
    (abandonBus s).queue = s.queue ∧ (abandonBus s).cur = s.cur ∧
    (abandonBus s).rr = s.rr ∧ (abandonBus s).dmiOut = s.dmiOut := by
  and_intros <;> (simp only [abandonBus]; repeat' split) <;> simp

@[simp] theorem abandonCommand_frame (s : State) :
    (abandonCommand s).cfg = s.cfg ∧ (abandonCommand s).dtm = s.dtm ∧
    (abandonCommand s).sb = s.sb ∧ (abandonCommand s).mem = s.mem ∧
    (abandonCommand s).hmem = s.hmem ∧ (abandonCommand s).imem = s.imem ∧
    (abandonCommand s).extReset = s.extReset ∧ (abandonCommand s).queue = s.queue ∧
    (abandonCommand s).cur = s.cur ∧ (abandonCommand s).rr = s.rr ∧
    (abandonCommand s).dmiOut = s.dmiOut := by
  and_intros <;> (simp only [abandonCommand]; repeat' split) <;> simp

@[simp] theorem authComplete_frame (s : State) :
    (authComplete s).cfg = s.cfg ∧ (authComplete s).dtm = s.dtm ∧
    (authComplete s).sb = s.sb ∧ (authComplete s).harts = s.harts ∧
    (authComplete s).mem = s.mem ∧ (authComplete s).hmem = s.hmem ∧
    (authComplete s).imem = s.imem ∧ (authComplete s).extReset = s.extReset ∧
    (authComplete s).queue = s.queue ∧ (authComplete s).cur = s.cur ∧
    (authComplete s).rr = s.rr ∧ (authComplete s).dmiOut = s.dmiOut ∧
    (authComplete s).free = s.free := by
  and_intros <;> (simp only [authComplete]; repeat' split) <;> simp

@[simp] theorem enterOther_frame (s : State) (h : Nat) (c : BitVec 3) (a : XWord) :
    (enterOther h c a s).cfg = s.cfg ∧ (enterOther h c a s).dtm = s.dtm ∧
    (enterOther h c a s).sb = s.sb ∧ (enterOther h c a s).mem = s.mem ∧
    (enterOther h c a s).hmem = s.hmem ∧ (enterOther h c a s).imem = s.imem ∧
    (enterOther h c a s).extReset = s.extReset ∧ (enterOther h c a s).queue = s.queue ∧
    (enterOther h c a s).cur = s.cur ∧ (enterOther h c a s).rr = s.rr ∧
    (enterOther h c a s).dmiOut = s.dmiOut := by
  and_intros <;> (simp only [enterOther]; repeat' split) <;> simp

@[simp] theorem enterRequested_frame (s : State) (h : Nat) (b : Bool) (a : XWord) :
    (enterRequested h b a s).cfg = s.cfg ∧ (enterRequested h b a s).dtm = s.dtm ∧
    (enterRequested h b a s).sb = s.sb ∧ (enterRequested h b a s).mem = s.mem ∧
    (enterRequested h b a s).hmem = s.hmem ∧ (enterRequested h b a s).imem = s.imem ∧
    (enterRequested h b a s).extReset = s.extReset ∧ (enterRequested h b a s).queue = s.queue ∧
    (enterRequested h b a s).cur = s.cur ∧ (enterRequested h b a s).rr = s.rr ∧
    (enterRequested h b a s).dmiOut = s.dmiOut := by
  and_intros <;> (simp only [enterRequested]; repeat' split) <;> simp

@[simp] theorem stepEnd_frame (s : State) (h : Nat) :
    (stepEnd h s).cfg = s.cfg ∧ (stepEnd h s).dtm = s.dtm ∧
    (stepEnd h s).sb = s.sb ∧ (stepEnd h s).mem = s.mem ∧
    (stepEnd h s).hmem = s.hmem ∧ (stepEnd h s).imem = s.imem ∧
    (stepEnd h s).extReset = s.extReset ∧ (stepEnd h s).queue = s.queue ∧
    (stepEnd h s).cur = s.cur ∧ (stepEnd h s).rr = s.rr ∧
    (stepEnd h s).dmiOut = s.dmiOut := by
  and_intros <;> (simp only [stepEnd]; repeat' split) <;> simp

@[simp] theorem breakpoints_frame (s : State) (h fuel : Nat) :
    (breakpoints h fuel s).cfg = s.cfg ∧ (breakpoints h fuel s).dtm = s.dtm ∧
    (breakpoints h fuel s).sb = s.sb ∧ (breakpoints h fuel s).mem = s.mem ∧
    (breakpoints h fuel s).hmem = s.hmem ∧ (breakpoints h fuel s).imem = s.imem ∧
    (breakpoints h fuel s).extReset = s.extReset ∧ (breakpoints h fuel s).queue = s.queue ∧
    (breakpoints h fuel s).cur = s.cur ∧ (breakpoints h fuel s).rr = s.rr ∧
    (breakpoints h fuel s).dmiOut = s.dmiOut := by
  induction fuel generalizing s with
  | zero => simp [breakpoints]
  | succ fuel ih =>
    and_intros <;> (simp only [breakpoints]; repeat' split) <;> simp [ih]

@[simp] theorem finishHart_frame (s : State) (h : Nat) (p : Priv) (f : Facts) :
    (finishHart h p f s).cfg = s.cfg ∧ (finishHart h p f s).dtm = s.dtm ∧
    (finishHart h p f s).sb = s.sb ∧ (finishHart h p f s).mem = s.mem ∧
    (finishHart h p f s).hmem = s.hmem ∧ (finishHart h p f s).imem = s.imem ∧
    (finishHart h p f s).extReset = s.extReset ∧ (finishHart h p f s).queue = s.queue ∧
    (finishHart h p f s).cur = s.cur ∧ (finishHart h p f s).rr = s.rr ∧
    (finishHart h p f s).dmiOut = s.dmiOut := by
  and_intros <;> (unfold finishHart; repeat' split) <;> (try simp only []; repeat' split) <;> simp

@[simp] theorem leaveReset_frame (s : State) (h : Nat) (hart : Hart) :
    (leaveReset h hart s).cfg = s.cfg ∧ (leaveReset h hart s).dtm = s.dtm ∧
    (leaveReset h hart s).sb = s.sb ∧
    (leaveReset h hart s).mem = s.mem ∧ (leaveReset h hart s).hmem = s.hmem ∧
    (leaveReset h hart s).imem = s.imem ∧ (leaveReset h hart s).extReset = s.extReset ∧
    (leaveReset h hart s).queue = s.queue ∧ (leaveReset h hart s).cur = s.cur ∧
    (leaveReset h hart s).rr = s.rr ∧ (leaveReset h hart s).dmiOut = s.dmiOut := by
  and_intros <;> (simp only [leaveReset]; repeat' split) <;> simp

@[simp] theorem updateDtmcs_frame (s : State) (tdi : Nat) :
    (updateDtmcs tdi s).cfg = s.cfg ∧ (updateDtmcs tdi s).dm = s.dm ∧
    (updateDtmcs tdi s).sb = s.sb ∧ (updateDtmcs tdi s).harts = s.harts ∧
    (updateDtmcs tdi s).mem = s.mem ∧ (updateDtmcs tdi s).hmem = s.hmem ∧
    (updateDtmcs tdi s).imem = s.imem ∧ (updateDtmcs tdi s).extReset = s.extReset ∧
    (updateDtmcs tdi s).queue = s.queue ∧ (updateDtmcs tdi s).cur = s.cur ∧
    (updateDtmcs tdi s).rr = s.rr ∧ (updateDtmcs tdi s).dmiOut = s.dmiOut ∧
    (updateDtmcs tdi s).free = s.free := by
  and_intros <;> (simp only [updateDtmcs]; repeat' split) <;> simp

@[simp] theorem captureOk_frame (s : State) (a d : Word) :
    (captureOk a d s).cfg = s.cfg ∧ (captureOk a d s).dm = s.dm ∧
    (captureOk a d s).sb = s.sb ∧ (captureOk a d s).harts = s.harts ∧
    (captureOk a d s).mem = s.mem ∧ (captureOk a d s).hmem = s.hmem ∧
    (captureOk a d s).imem = s.imem ∧ (captureOk a d s).extReset = s.extReset ∧
    (captureOk a d s).queue = s.queue ∧ (captureOk a d s).cur = s.cur ∧
    (captureOk a d s).rr = s.rr ∧ (captureOk a d s).dmiOut = s.dmiOut := by
  and_intros <;> (simp only [captureOk]; repeat' split) <;> simp

@[simp] theorem captureFailed_frame (s : State) (a d : Word) :
    (captureFailed a d s).cfg = s.cfg ∧ (captureFailed a d s).dm = s.dm ∧
    (captureFailed a d s).sb = s.sb ∧ (captureFailed a d s).harts = s.harts ∧
    (captureFailed a d s).mem = s.mem ∧ (captureFailed a d s).hmem = s.hmem ∧
    (captureFailed a d s).imem = s.imem ∧ (captureFailed a d s).extReset = s.extReset ∧
    (captureFailed a d s).queue = s.queue ∧ (captureFailed a d s).cur = s.cur ∧
    (captureFailed a d s).rr = s.rr ∧ (captureFailed a d s).dmiOut = s.dmiOut := by
  and_intros <;> (simp only [captureFailed]; repeat' split) <;> simp

@[simp] theorem captureBusy_frame (s : State) (a d : Word) :
    (captureBusy a d s).cfg = s.cfg ∧ (captureBusy a d s).dm = s.dm ∧
    (captureBusy a d s).sb = s.sb ∧ (captureBusy a d s).harts = s.harts ∧
    (captureBusy a d s).mem = s.mem ∧ (captureBusy a d s).hmem = s.hmem ∧
    (captureBusy a d s).imem = s.imem ∧ (captureBusy a d s).extReset = s.extReset ∧
    (captureBusy a d s).queue = s.queue ∧ (captureBusy a d s).cur = s.cur ∧
    (captureBusy a d s).rr = s.rr ∧ (captureBusy a d s).dmiOut = s.dmiOut := by
  and_intros <;> (simp only [captureBusy]; repeat' split) <;> simp

@[simp] theorem captureDmi_frame (s : State) :
    (captureDmi s).cfg = s.cfg ∧ (captureDmi s).dm = s.dm ∧
    (captureDmi s).sb = s.sb ∧ (captureDmi s).harts = s.harts ∧
    (captureDmi s).mem = s.mem ∧ (captureDmi s).hmem = s.hmem ∧
    (captureDmi s).imem = s.imem ∧ (captureDmi s).extReset = s.extReset ∧
    (captureDmi s).queue = s.queue ∧ (captureDmi s).cur = s.cur ∧
    (captureDmi s).rr = s.rr ∧ (captureDmi s).dmiOut = s.dmiOut := by
  and_intros <;> (simp only [captureDmi]; repeat' split) <;> simp

@[simp] theorem updateNop_frame (s : State) (a d : Word) :
    (updateNop a d s).cfg = s.cfg ∧ (updateNop a d s).dm = s.dm ∧
    (updateNop a d s).sb = s.sb ∧ (updateNop a d s).harts = s.harts ∧
    (updateNop a d s).mem = s.mem ∧ (updateNop a d s).hmem = s.hmem ∧
    (updateNop a d s).imem = s.imem ∧ (updateNop a d s).extReset = s.extReset ∧
    (updateNop a d s).queue = s.queue ∧ (updateNop a d s).cur = s.cur ∧
    (updateNop a d s).rr = s.rr ∧ (updateNop a d s).dmiOut = s.dmiOut ∧
    (updateNop a d s).free = s.free := by
  and_intros <;> (simp only [updateNop]; repeat' split) <;> simp

@[simp] theorem updateStart_frame (s : State) (a d : Word) (x : DmAcc) :
    (updateStart a d x s).cfg = s.cfg ∧ (updateStart a d x s).dm = s.dm ∧
    (updateStart a d x s).sb = s.sb ∧ (updateStart a d x s).harts = s.harts ∧
    (updateStart a d x s).mem = s.mem ∧ (updateStart a d x s).hmem = s.hmem ∧
    (updateStart a d x s).imem = s.imem ∧ (updateStart a d x s).extReset = s.extReset ∧
    (updateStart a d x s).queue = s.queue ∧ (updateStart a d x s).cur = s.cur ∧
    (updateStart a d x s).rr = s.rr ∧ (updateStart a d x s).dmiOut = s.dmiOut ∧
    (updateStart a d x s).free = s.free := by
  and_intros <;> (simp only [updateStart]; repeat' split) <;> simp

@[simp] theorem updateDmi_frame (s : State) (tdi : Nat) :
    (updateDmi tdi s).cfg = s.cfg ∧ (updateDmi tdi s).dm = s.dm ∧
    (updateDmi tdi s).sb = s.sb ∧ (updateDmi tdi s).harts = s.harts ∧
    (updateDmi tdi s).mem = s.mem ∧ (updateDmi tdi s).hmem = s.hmem ∧
    (updateDmi tdi s).imem = s.imem ∧ (updateDmi tdi s).extReset = s.extReset ∧
    (updateDmi tdi s).queue = s.queue ∧ (updateDmi tdi s).cur = s.cur ∧
    (updateDmi tdi s).rr = s.rr ∧ (updateDmi tdi s).dmiOut = s.dmiOut ∧
    (updateDmi tdi s).free = s.free := by
  and_intros <;> (simp only [updateDmi]; repeat' split) <;> simp

@[simp] theorem bypassInsn_frame (s : State) (code : Nat) (op : IrOp) :
    (bypassInsn code op s).cfg = s.cfg ∧ (bypassInsn code op s).dm = s.dm ∧
    (bypassInsn code op s).sb = s.sb ∧ (bypassInsn code op s).harts = s.harts ∧
    (bypassInsn code op s).mem = s.mem ∧ (bypassInsn code op s).hmem = s.hmem ∧
    (bypassInsn code op s).imem = s.imem ∧ (bypassInsn code op s).extReset = s.extReset ∧
    (bypassInsn code op s).queue = s.queue ∧ (bypassInsn code op s).cur = s.cur ∧
    (bypassInsn code op s).rr = s.rr ∧ (bypassInsn code op s).dmiOut = s.dmiOut := by
  and_intros <;> (simp only [bypassInsn]; repeat' split) <;> simp

@[simp] theorem tapReset_frame (s : State) :
    (tapReset s).cfg = s.cfg ∧ (tapReset s).dm = s.dm ∧
    (tapReset s).sb = s.sb ∧ (tapReset s).harts = s.harts ∧
    (tapReset s).mem = s.mem ∧ (tapReset s).hmem = s.hmem ∧
    (tapReset s).imem = s.imem ∧ (tapReset s).extReset = s.extReset ∧
    (tapReset s).queue = s.queue ∧ (tapReset s).cur = s.cur ∧
    (tapReset s).rr = s.rr ∧ (tapReset s).dmiOut = s.dmiOut := by
  and_intros <;> (simp only [tapReset]; repeat' split) <;> simp

@[simp] theorem hartStore_frame (s : State) (h a : Nat) (bs : List Byte) :
    (hartStore h a bs s).cfg = s.cfg ∧ (hartStore h a bs s).dtm = s.dtm ∧
    (hartStore h a bs s).sb = s.sb ∧ (hartStore h a bs s).imem = s.imem ∧
    (hartStore h a bs s).extReset = s.extReset ∧ (hartStore h a bs s).queue = s.queue ∧
    (hartStore h a bs s).cur = s.cur ∧ (hartStore h a bs s).rr = s.rr ∧
    (hartStore h a bs s).dmiOut = s.dmiOut ∧ (hartStore h a bs s).free = s.free := by
  and_intros <;> (simp only [hartStore]; repeat' split) <;> simp

@[simp] theorem effectStore_frame (s : State) (h : Nat) (e : Effect) :
    (effectStore h e s).cfg = s.cfg ∧ (effectStore h e s).dtm = s.dtm ∧
    (effectStore h e s).sb = s.sb ∧ (effectStore h e s).imem = s.imem ∧
    (effectStore h e s).extReset = s.extReset ∧ (effectStore h e s).queue = s.queue ∧
    (effectStore h e s).cur = s.cur ∧ (effectStore h e s).rr = s.rr ∧
    (effectStore h e s).dmiOut = s.dmiOut ∧ (effectStore h e s).free = s.free := by
  and_intros <;> (simp only [effectStore]; repeat' split) <;> simp

@[simp] theorem effectCsr_frame (s : State) (h : Nat) (e : Effect) :
    (effectCsr h e s).cfg = s.cfg ∧ (effectCsr h e s).dtm = s.dtm ∧
    (effectCsr h e s).sb = s.sb ∧ (effectCsr h e s).mem = s.mem ∧
    (effectCsr h e s).hmem = s.hmem ∧ (effectCsr h e s).imem = s.imem ∧
    (effectCsr h e s).extReset = s.extReset ∧ (effectCsr h e s).queue = s.queue ∧
    (effectCsr h e s).cur = s.cur ∧ (effectCsr h e s).rr = s.rr ∧
    (effectCsr h e s).dmiOut = s.dmiOut := by
  and_intros <;> (simp only [effectCsr]; repeat' split) <;> simp

@[simp] theorem applyEffect_frame (s : State) (h len : Nat) (e : Effect) :
    (applyEffect h len e s).cfg = s.cfg ∧ (applyEffect h len e s).dtm = s.dtm ∧
    (applyEffect h len e s).sb = s.sb ∧ (applyEffect h len e s).extReset = s.extReset ∧
    (applyEffect h len e s).queue = s.queue ∧ (applyEffect h len e s).cur = s.cur ∧
    (applyEffect h len e s).rr = s.rr ∧ (applyEffect h len e s).dmiOut = s.dmiOut := by
  and_intros <;> (simp only [applyEffect]; repeat' split) <;> simp

@[simp] theorem breakAt_frame (s : State) (hart : Hart) :
    (breakAt hart s).cfg = s.cfg ∧ (breakAt hart s).dtm = s.dtm ∧
    (breakAt hart s).sb = s.sb ∧ (breakAt hart s).mem = s.mem ∧
    (breakAt hart s).hmem = s.hmem ∧ (breakAt hart s).imem = s.imem ∧
    (breakAt hart s).extReset = s.extReset ∧ (breakAt hart s).queue = s.queue ∧
    (breakAt hart s).cur = s.cur ∧ (breakAt hart s).rr = s.rr ∧
    (breakAt hart s).dmiOut = s.dmiOut := by
  and_intros <;> (simp only [breakAt]; repeat' split) <;> simp

@[simp] theorem undefinedInDebug_frame (s : State) :
    (undefinedInDebug s).cfg = s.cfg ∧ (undefinedInDebug s).dtm = s.dtm ∧
    (undefinedInDebug s).sb = s.sb ∧ (undefinedInDebug s).mem = s.mem ∧
    (undefinedInDebug s).hmem = s.hmem ∧ (undefinedInDebug s).imem = s.imem ∧
    (undefinedInDebug s).extReset = s.extReset ∧ (undefinedInDebug s).queue = s.queue ∧
    (undefinedInDebug s).cur = s.cur ∧ (undefinedInDebug s).rr = s.rr ∧
    (undefinedInDebug s).dmiOut = s.dmiOut := by
  and_intros <;> (simp only [undefinedInDebug]; repeat' split) <;> simp

end Sys2Proof.Machine
end

