-- ==== Sys2Proof/Laws/Memory.lean ====
section
/-! SUPPORT. The laws of memory: every operation keeps the canonical form, a read after a write gives the value written, a
write leaves every other address alone, and equal reads make equal memories. -/

namespace Sys2Proof.Machine

/-! ### Addresses of a memory -/

/-- Every listed address of `m` is above `a`. -/
def Mem.above (a : Nat) (m : Mem) : Prop := ∀ c ∈ m, a < c.1

theorem Mem.wf_nil : Mem.wf [] := ⟨List.Pairwise.nil, by simp⟩

theorem Mem.wf_cons {c : Host.Cell} {m : Mem} : Mem.wf (c :: m) ↔ c.2 ≠ unlistedByte ∧ Mem.above c.1 m ∧ Mem.wf m := by
  constructor
  · rintro ⟨h, hz⟩
    obtain ⟨ha, hp⟩ := List.pairwise_cons.mp h
    exact ⟨hz c (by simp), ha, hp, fun d hd => hz d (by simp [hd])⟩
  · rintro ⟨hc, ha, hp, hz⟩
    refine ⟨List.pairwise_cons.mpr ⟨ha, hp⟩, ?_⟩
    intro d hd
    rcases List.mem_cons.mp hd with rfl | hd
    · exact hc
    · exact hz d hd

theorem Mem.above_write {m : Mem} {a b : Nat} {v : Byte} (hm : Mem.above b m) (hab : b < a) :
    Mem.above b (m.write a v) := by
  induction m with
  | nil =>
    unfold Mem.write
    split
    · exact hm
    · intro d hd
      simp only [List.mem_singleton] at hd
      subst hd
      exact hab
  | cons c m ih =>
    have hc : b < c.1 := hm c (by simp)
    have ht : Mem.above b m := fun d hd => hm d (by simp [hd])
    unfold Mem.write
    split
    · split
      · exact hm
      · intro d hd
        rcases List.mem_cons.mp hd with rfl | hd
        · exact hab
        · exact hm d hd
    · split
      · split
        · exact ht
        · intro d hd
          rcases List.mem_cons.mp hd with rfl | hd
          · exact hab
          · exact ht d hd
      · intro d hd
        rcases List.mem_cons.mp hd with rfl | hd
        · exact hc
        · exact ih ht d hd

/-! ### The canonical form -/

/-- A write of one byte keeps the canonical form. -/
theorem Mem.write_wf {m : Mem} (hm : m.wf) (a : Nat) (v : Byte) : (m.write a v).wf := by
  induction m with
  | nil =>
    unfold Mem.write
    split
    · exact Mem.wf_nil
    · rename_i h
      exact Mem.wf_cons.mpr ⟨h, fun d hd => absurd hd (by simp), Mem.wf_nil⟩
  | cons c m ih =>
    obtain ⟨hc, ha, ht⟩ := Mem.wf_cons.mp hm
    unfold Mem.write
    split
    · rename_i hlt
      split
      · exact hm
      · rename_i hv
        refine Mem.wf_cons.mpr ⟨hv, ?_, hm⟩
        intro d hd
        rcases List.mem_cons.mp hd with rfl | hd
        · exact hlt
        · exact Nat.lt_trans hlt (ha d hd)
    · split
      · rename_i heq
        split
        · exact ht
        · rename_i hv
          exact Mem.wf_cons.mpr ⟨hv, by rw [heq]; exact ha, ht⟩
      · rename_i hnlt hne
        exact Mem.wf_cons.mpr ⟨hc, Mem.above_write ha (by omega), ih ht⟩

/-- A write of several bytes keeps the canonical form. -/
theorem Mem.writes_wf {m : Mem} (hm : m.wf) (a : Nat) (bs : List Byte) : (m.writes a bs).wf := by
  induction bs generalizing m a with
  | nil => exact hm
  | cons b bs ih => exact ih (Mem.write_wf hm a b) (a + 1)

/-! ### Reads -/

/-- An address below every listed one reads as an unlisted one. -/
theorem Mem.read_above {m : Mem} {a b : Nat} (hm : Mem.above b m) (h : a ≤ b) : m.read a = unlistedByte := by
  induction m with
  | nil => rfl
  | cons c m ih =>
    have hc : b < c.1 := hm c (by simp)
    unfold Mem.read
    rw [if_neg (by omega)]
    exact ih fun d hd => hm d (by simp [hd])

/-- A read after a write of one byte. -/
theorem Mem.read_write {m : Mem} (hm : m.wf) (a x : Nat) (v : Byte) :
    (m.write a v).read x = if x = a then v else m.read x := by
  induction m with
  | nil =>
    unfold Mem.write
    by_cases hv : v = unlistedByte
    · simp [hv, Mem.read]
    · rw [if_neg hv]
      simp [Mem.read]
  | cons c m ih =>
    obtain ⟨hc, ha, ht⟩ := Mem.wf_cons.mp hm
    unfold Mem.write
    by_cases hlt : a < c.1
    · rw [if_pos hlt]
      by_cases hv : v = unlistedByte
      · rw [if_pos hv]
        by_cases hx : x = a
        · subst hx
          rw [if_pos rfl, hv]
          simp only [Mem.read]
          rw [if_neg (by omega)]
          exact Mem.read_above ha (by omega)
        · rw [if_neg hx]
      · rw [if_neg hv]
        simp only [Mem.read]
    · rw [if_neg hlt]
      by_cases heq : a = c.1
      · rw [if_pos heq]
        by_cases hv : v = unlistedByte
        · rw [if_pos hv]
          by_cases hx : x = a
          · subst hx
            rw [if_pos rfl, hv]
            exact Mem.read_above ha (by omega)
          · rw [if_neg hx]
            simp only [Mem.read]
            rw [if_neg (by omega)]
        · rw [if_neg hv]
          simp only [Mem.read]
          by_cases hx : x = a
          · simp [hx]
          · rw [if_neg hx, if_neg hx, if_neg (by omega)]
      · rw [if_neg heq]
        simp only [Mem.read]
        rw [ih ht]
        by_cases hx : x = c.1
        · rw [if_pos hx, if_neg (by omega), if_pos hx]
        · rw [if_neg hx]
          by_cases hxa : x = a
          · rw [if_pos hxa, if_pos hxa]
          · rw [if_neg hxa, if_neg hxa, if_neg hx]

/-- A write of several bytes leaves every other address alone. -/
theorem Mem.read_writes_outside {m : Mem} (hm : m.wf) (a x : Nat) (bs : List Byte) (h : x < a ∨ a + bs.length ≤ x) :
    (m.writes a bs).read x = m.read x := by
  induction bs generalizing m a with
  | nil => rfl
  | cons b bs ih =>
    have hl : (b :: bs).length = bs.length + 1 := rfl
    unfold Mem.writes
    rw [ih (Mem.write_wf hm a b) (a + 1) (by omega), Mem.read_write hm, if_neg (by omega)]

/-- A read of the `i`-th byte written. -/
theorem Mem.read_writes_inside {m : Mem} (hm : m.wf) (a i : Nat) (bs : List Byte) (h : i < bs.length) :
    (m.writes a bs).read (a + i) = bs.getD i 0 := by
  induction bs generalizing m a i with
  | nil => simp at h
  | cons b bs ih =>
    unfold Mem.writes
    cases i with
    | zero =>
      rw [Mem.read_writes_outside (Mem.write_wf hm a b) (a + 1) (a + 0) bs (by omega), Mem.read_write hm]
      simp
    | succ i =>
      have hi : i < bs.length := by simpa using h
      rw [show a + (i + 1) = a + 1 + i by omega, ih (Mem.write_wf hm a b) (a + 1) i hi]
      simp

/-- The number of bytes of `leBytes`. -/
@[simp] theorem leBytes_length (n v : Nat) : (leBytes n v).length = n := by
  induction n generalizing v with
  | zero => rfl
  | succ n ih => simp [leBytes, ih]

/-- A read of the bytes just written gives the number written, as far as they hold it (spec/20_memory.md R212). -/
theorem Mem.readNat_writes {m : Mem} (hm : m.wf) (a n v : Nat) :
    (m.writes a (leBytes n v)).readNat n a = v % 2 ^ (8 * n) := by
  induction n generalizing m a v with
  | zero => simp [Mem.readNat, Nat.mod_one]
  | succ n ih =>
    simp only [leBytes, Mem.writes, Mem.readNat]
    rw [ih (Mem.write_wf hm a _) (a + 1) (v / 2 ^ 8),
      Mem.read_writes_outside (Mem.write_wf hm a _) (a + 1) a _ (by omega), Mem.read_write hm, if_pos rfl]
    rw [show 8 * (n + 1) = 8 + 8 * n by omega, Nat.pow_add, Nat.mod_mul]
    simp

/-- Memories in canonical form that read the same everywhere are equal. -/
theorem Mem.ext_read {m n : Mem} (hm : m.wf) (hn : n.wf) (h : ∀ a, m.read a = n.read a) : m = n := by
  induction m generalizing n with
  | nil =>
    cases n with
    | nil => rfl
    | cons d n =>
      obtain ⟨hd, _, _⟩ := Mem.wf_cons.mp hn
      have := h d.1
      simp [Mem.read] at this
      exact absurd this.symm hd
  | cons c m ih =>
    obtain ⟨hc, hca, hmt⟩ := Mem.wf_cons.mp hm
    cases n with
    | nil =>
      have := h c.1
      simp [Mem.read] at this
      exact absurd this hc
    | cons d n =>
      obtain ⟨hd, hda, hnt⟩ := Mem.wf_cons.mp hn
      have h1 : c.1 = d.1 := by
        rcases Nat.lt_trichotomy c.1 d.1 with hlt | heq | hgt
        · have hr := h c.1
          rw [Mem.read_above (m := d :: n) (b := c.1) (fun e he => by
            rcases List.mem_cons.mp he with rfl | he
            · exact hlt
            · exact Nat.lt_trans hlt (hda e he)) (Nat.le_refl _)] at hr
          simp only [Mem.read, if_true] at hr
          exact absurd hr hc
        · exact heq
        · have hr := h d.1
          rw [Mem.read_above (m := c :: m) (b := d.1) (fun e he => by
            rcases List.mem_cons.mp he with rfl | he
            · exact hgt
            · exact Nat.lt_trans hgt (hca e he)) (Nat.le_refl _)] at hr
          simp only [Mem.read, if_true] at hr
          exact absurd hr.symm hd
      have h2 : c.2 = d.2 := by simpa [Mem.read, h1] using h c.1
      have htl : m = n := by
        refine ih hmt hnt fun a => ?_
        by_cases ha : a ≤ c.1
        · rw [Mem.read_above hca ha, Mem.read_above hda (by omega)]
        · have := h a
          simp only [Mem.read] at this
          rwa [if_neg (by omega), if_neg (by omega)] at this
      rw [htl, Prod.ext h1 h2]

end Sys2Proof.Machine
end

