-- ==== Sys2Proof/Laws/Ops.lean ====
section
/-! SUPPORT. What each shared operation does: one lemma per operation that says once everything it can do, to be cited
instead of unfolding it. -/

namespace Sys2Proof.Machine

/-! ### Entering and leaving Debug Mode (spec/60_exceptions.md R652, R666) -/

/-- Entry of hart `h` to Debug Mode changes hart `h` alone, as `Hart.enterDebug` says. -/
theorem enterDebug_get (h : Nat) (cause : BitVec 3) (addr : XWord) (s : State) (k : Nat) :
    (enterDebug h cause addr s).harts[k]? =
      if h = k then s.harts[k]?.map fun hart => hart.enterDebug s.cfg s.free cause addr else s.harts[k]? := by
  simp [enterDebug]

/-- Leaving Debug Mode changes hart `h` alone, as `Hart.leaveDebug` says. -/
theorem leaveDebug_get (h : Nat) (s : State) (k : Nat) :
    (leaveDebug h s).harts[k]? =
      if h = k then s.harts[k]?.map fun hart => hart.leaveDebug s.cfg s.free else s.harts[k]? := by
  simp [leaveDebug]

/-- The resume transition changes hart `h` alone: it leaves Debug Mode and acknowledges (spec/41_reset_select_run.md
R325). -/
theorem resumeHart_get (h : Nat) (s : State) (k : Nat) :
    (resumeHart h s).harts[k]? =
      if h = k then s.harts[k]?.map fun hart =>
        { hart.leaveDebug s.cfg s.free with ctl := { hart.ctl with resumeack := true } }
      else s.harts[k]? := by
  simp only [resumeHart, State.modHart_get, leaveDebug_get]
  split
  · cases s.harts[k]? <;> simp
  · rfl

/-! ### The end of a command (spec/42_abstract_commands.md R362, R367, R380) -/

/-- A command that did something ends: busy falls, an error is kept if it is the first, every register but cmderr and the
data registers stays. -/
theorem finishCommand_dm (err : Option (BitVec 3)) (s : State) :
    (finishCommand err s).dm = { s.dm with
      phase := .idle
      data := scrambleData s.cfg s.free (if err.isNone then s.dm.defined else 0) s.dm.data
      cmderr := match err with
        | none => s.dm.cmderr
        | some e => if s.dm.cmderr = 0 then e else s.dm.cmderr } := by
  cases err with
  | none => rfl
  | some e =>
    simp only [finishCommand, setCmderr, State.bump]
    split <;> rfl

/-- A command that did nothing ends: busy falls, an error is kept if it is the first. -/
theorem finishQuiet_dm (err : Option (BitVec 3)) (s : State) :
    (finishQuiet err s).dm = { s.dm with
      phase := .idle
      cmderr := match err with
        | none => s.dm.cmderr
        | some e => if s.dm.cmderr = 0 then e else s.dm.cmderr } := by
  cases err with
  | none => rfl
  | some e =>
    simp only [finishQuiet, setCmderr]
    split <;> rfl

/-- A data register a successful command defined keeps its value (R367). -/
theorem scrambleData_kept (c : Config) (n : Nat) (keep : BitVec 12) (data : Vector Word 12) (i : Nat) (hi : i < 12)
    (hk : keep.getLsbD i = true) : vget (scrambleData c n keep data) i 0 = vget data i 0 := by
  simp [scrambleData, vget, hi, hk, List.getD_eq_getElem?_getD]

/-- The Program Buffer of hart `h` ends while a command executes it: dpc is any value where the Program Buffer clobbers it
(R387), and after a Quick Access the hart resumes (R400). -/
theorem endProgbuf_command (h : Nat) (err : Option (BitVec 3)) (s : State) (hp : s.dm.phase = .progbuf)
    (hc : s.dm.cmdHart = h) :
    endProgbuf h err s =
      let t := ((s.modHart h fun hart => { hart with inProgbuf := false }).modHart h (Hart.clobberDpc s.free)).bump 1
      finishCommand err (if s.dm.quick then leaveDebug h t else t) := by
  simp [endProgbuf, hp, hc]

/-- The end of a Program Buffer no command is executing on `h` stops the hart's execution of it. -/
theorem endProgbuf_alone (h : Nat) (err : Option (BitVec 3)) (s : State)
    (hn : ¬(s.dm.phase = .progbuf ∧ s.dm.cmdHart = h)) :
    endProgbuf h err s = s.modHart h fun hart => { hart with inProgbuf := false } := by
  simp only [endProgbuf, State.modHart_frame]
  rw [if_neg hn]

/-- An exception in Debug Mode ends the Program Buffer with cmderr 3 (R386); outside it is an ordinary trap. -/
theorem raise_eq (h cause : Nat) (s : State) (hart : Hart) (hh : s.harts[h]? = some hart) :
    raise h cause s = if hart.debugMode then endProgbuf h (some errException) s
      else (s.modHart h fun hart => hart.trap false cause (Config.freeWord s.free)).bump 1 := by
  simp [raise, hh]

/-- `autoexec` starts the latched command unless cmderr is set (spec/42_abstract_commands.md R366). -/
theorem autoexec_eq (s : State) : autoexec s = if s.dm.cmderr = 0 then startCommand s.dm.latch s else s := rfl

/-! ### DMI accesses (spec/40_dmi_dm_access.md R281 to R294) -/

/-- A read of a present register of a live DM outside the reset window. -/
theorem dmAccess_read (rd : State → State × Word) (wr : Word → State → State) (s : State)
    (hw : s.inResetWindow = false) (hl : s.dmLive = true) :
    dmAccess true .read rd wr s = answer (rd s).2 (rd s).1 := by
  obtain ⟨ha, hd⟩ : s.dm.authenticated = true ∧ s.dm.dmactive = true := by simpa [State.dmLive] using hl
  simp [dmAccess, hw, ha, hd]

/-- A write of a present register of a live DM outside the reset window. -/
theorem dmAccess_write (v : Word) (rd : State → State × Word) (wr : Word → State → State) (s : State)
    (hw : s.inResetWindow = false) (hl : s.dmLive = true) :
    dmAccess true (.write v) rd wr s = wr v s := by
  simp [dmAccess, hw, hl]

/-- An unimplemented register reads 0 and ignores writes (R288). -/
theorem dmAccess_absent (a : DmAcc) (rd : State → State × Word) (wr : Word → State → State) (s : State) :
    dmAccess false a rd wr s = match a with
      | .read => answer 0 s
      | .write _ => s := by
  cases a <;> rfl

/-- While dmactive is 0 outside the reset window a write has no effect at all (R291). -/
theorem dmAccess_write_inactive (present : Bool) (v : Word) (rd : State → State × Word) (wr : Word → State → State)
    (s : State) (hd : s.dm.dmactive = false) (hw : s.inResetWindow = false) :
    dmAccess present (.write v) rd wr s = s := by
  simp [dmAccess, hw, State.dmLive, hd]

/-- What an access can leave: everything an access does is what the register's own read or write does, some number of free
values, and the answer. -/
theorem dmAccess_cases (present : Bool) (a : DmAcc) (rd : State → State × Word) (wr : Word → State → State) (s : State) :
    (∃ v k, dmAccess present a rd wr s = answer v (s.bump k)) ∨ (∃ k, dmAccess present a rd wr s = s.bump k) ∨
    (a = .read ∧ s.dmLive = true ∧ ∃ v j k, dmAccess present a rd wr s = answer v ((rd (s.bump j)).1.bump k)) ∨
    (∃ v, a = .write v ∧ s.dmLive = true ∧ ∃ j, dmAccess present a rd wr s = wr v (s.bump j)) := by
  have h0 : s.bump 0 = s := rfl
  cases a with
  | read =>
    simp only [dmAccess]
    split
    · exact .inl ⟨0, 0, rfl⟩
    · split
      · unfold answerFree
        split
        · rename_i hc
          simp only [Bool.and_eq_true] at hc
          exact .inr (.inr (.inl ⟨trivial, hc.1, _, 1, 1, rfl⟩))
        · exact .inl ⟨_, 2, rfl⟩
      · split
        · split
          · exact .inl ⟨0, 0, rfl⟩
          · exact .inl ⟨_, 1, rfl⟩
        · split
          · exact .inl ⟨_, _, rfl⟩
          · rename_i ha hd
            exact .inr (.inr (.inl ⟨trivial, by simp [State.dmLive] at *; simp [ha, hd], _, 0, 0, rfl⟩))
  | write v =>
    simp only [dmAccess]
    split
    · exact .inr (.inl ⟨0, rfl⟩)
    · split
      · split
        · rename_i hc
          simp only [Bool.and_eq_true] at hc
          exact .inr (.inr (.inr ⟨v, rfl, hc.1, 1, rfl⟩))
        · exact .inr (.inl ⟨1, rfl⟩)
      · split
        · exact .inr (.inl ⟨0, rfl⟩)
        · rename_i hl
          exact .inr (.inr (.inr ⟨v, rfl, by simpa using hl, 0, rfl⟩))

/-! ### System Bus Access (spec/43_system_bus_access.md R437) -/

/-- `start_access`: an unsupported size or a misaligned access that is not performed gives sberror 3 and nothing else; a
good one is pending, everything sampled. -/
theorem startAccess_sb (write : Bool) (s : State) :
    (startAccess write s).sb =
      if sizeSupported s.cfg s.sb.access = false ∨
          (s.sb.address.toNat % 2 ^ s.sb.access.toNat ≠ 0 ∧ s.cfg.sbaMisalignedPerformed = false) then
        { s.sb with error := sbOther }
      else
        { s.sb with
          pending := some
            { write := write, bytes := 2 ^ s.sb.access.toNat, address := s.sb.address.toNat, data := s.sb.data,
              inc := s.sb.autoincrement } } := by
  simp only [startAccess]
  by_cases h1 : sizeSupported s.cfg s.sb.access = false
  · simp [h1, setSberror]
  · by_cases h2 : s.sb.address.toNat % 2 ^ s.sb.access.toNat ≠ 0 ∧ s.cfg.sbaMisalignedPerformed = false
    · simp [h1, h2, setSberror]
    · rw [if_neg (by simpa using h1), if_neg (by simpa using h2), if_neg (by simp [h1]; simpa using h2)]

/-- A failed access leaves memory, address and data, sets sberror and clears sbbusy (R436, R439). -/
theorem busComplete_error (s : State) (p : SbAccess) (e : BitVec 3) (hp : s.sb.pending = some p)
    (he : busError s p = some e) (hw : s.inResetWindow = false) :
    busComplete s = { s with sb := { s.sb with pending := none, error := e } }.bump 2 := by
  simp [busComplete, hp, he, hw, setSberror]

/-- A successful write of memory (R437, R439). -/
theorem busComplete_write (s : State) (p : SbAccess) (hp : s.sb.pending = some p) (hr : p.write = true)
    (hm : regionAt s.cfg.regions p.address p.bytes = .ram) (hw : s.inResetWindow = false) :
    (busComplete s).mem = s.mem.writes p.address (leBytes p.bytes p.data.toNat) ∧
    (busComplete s).sb = { s.sb with
      pending := none
      address := if p.inc then incremented s.cfg s.sb.address p.bytes else s.sb.address } := by
  have he : busError s p = none := by simp [busError, hm]
  cases hi : p.inc <;> simp [busComplete, hp, he, hw, hr, hm, hi, State.bump]

/-- A successful read of memory (R437, R439). -/
theorem busComplete_read (s : State) (p : SbAccess) (hp : s.sb.pending = some p) (hr : p.write = false)
    (hm : regionAt s.cfg.regions p.address p.bytes = .ram) (hw : s.inResetWindow = false) :
    (busComplete s).mem = s.mem ∧
    (busComplete s).sb = { s.sb with
      pending := none
      address := if p.inc then incremented s.cfg s.sb.address p.bytes else s.sb.address
      data := sbdataAfterRead s.cfg (s.free + 1) p (s.mem.readNat p.bytes p.address) } := by
  have he : busError s p = none := by simp [busError, hm]
  cases hi : p.inc <;> simp [busComplete, hp, he, hw, hr, hm, hi, State.bump]

/-! ### CSR instructions (spec/44_debug_mode.md R500) -/

/-- A CSR instruction that is allowed writes the CSR, then its destination register, and moves on. -/
theorem csrInsn_allowed (num : Nat) (op : CsrOp) (h : Nat) (s : State) (hart : Hart) (old : XWord)
    (hh : s.harts[h]? = some hart) (ha : csrAllowed op s hart num = true) (ho : readCsr s hart num = some old) :
    csrInsn num op h s =
      (if csrWrites op then writeCsr hart.debugMode h num (csrResult op hart old) s else s).modHart h
        fun hart => (hart.setGpr op.rd.toNat old).retire 4 := by
  simp [csrInsn, hh, ha, ho]

/-- A CSR instruction that is not allowed is an illegal instruction. -/
theorem csrInsn_refused (num : Nat) (op : CsrOp) (h : Nat) (s : State) (hart : Hart) (hh : s.harts[h]? = some hart)
    (ha : csrAllowed op s hart num = false) : csrInsn num op h s = raise h excIllegal s := by
  simp [csrInsn, hh, ha]

/-- A write of a CSR that is no shadow of a data register changes hart `h` alone. -/
theorem writeCsr_own (d : Bool) (h num : Nat) (v : XWord) (s : State) (hart : Hart) (hh : s.harts[h]? = some hart)
    (hs : hart.shadowCsr s num = none) :
    writeCsr d h num v s = (s.modHart h fun hart => hart.writeCsr d s.free num v).bump 1 := by
  simp [writeCsr, hh, hs]

/-- The debug and trigger CSRs are never shadows of data registers (spec/42_abstract_commands.md R395). -/
theorem Hart.shadowCsr_debug (hart : Hart) (s : State) (num : Nat) (h : isDebugCsr num = true) :
    hart.shadowCsr s num = none := by
  simp [Hart.shadowCsr, h]

/-- Outside Debug Mode a hart reaches no register of the DM, neither as CSRs nor in memory (spec/60_exceptions.md R688). -/
theorem Hart.outside_debug (hart : Hart) (s : State) (h : hart.debugMode = false) :
    (∀ num, hart.shadowCsr s num = none) ∧ (∀ a n, hart.inDataWindow s a n = false) ∧
    ∀ a n, inProgbufWindow s hart a n = false := by
  simp [Hart.shadowCsr, Hart.inDataWindow, inProgbufWindow, Hart.reachesDm, h]

/-! ### Memory views and stores of a hart -/

/-- A hart's store keeps every memory canonical. -/
theorem hartStore_wf (h a : Nat) (bytes : List Byte) (s : State) (hm : s.mem.wf) (hh : s.hmem.wf) :
    (hartStore h a bytes s).mem.wf ∧ (hartStore h a bytes s).hmem.wf := by
  have hd : s.dataView.wf := by
    unfold State.dataView
    split
    · exact hm
    · exact hh
  have hw := Mem.writes_wf hd a bytes
  simp only [hartStore]
  repeat' split
  all_goals first | exact ⟨hm, hh⟩ | skip
  simp only [breakOthers_frame, State.setDataView]
  split
  · exact ⟨hw, hh⟩
  · exact ⟨hm, hw⟩

/-! ### Steps -/

/-- A step that executes no instruction. -/
theorem step_quiet (s t : State) (h : nextMove s = .quiet t) : step s = .next t := by
  simp [step, h]

/-- A step that executes the instruction `i`. -/
theorem step_run (s t u : State) (i : Instr) (a : After) (h : nextMove s = .run i t a) (he : exec i t = .next u) :
    step s = .next (finish a u) := by
  simp [step, h, he]

/-- The next move with an event in the queue. -/
theorem nextMove_event (s : State) (e : Event) (q : List Event) (h : s.queue = e :: q) :
    nextMove s = eventMove e { s with queue := q } := by
  simp [nextMove, h]

/-! ### Access Register's write (spec/42_abstract_commands.md R375) -/

/-- A hart that is held in reset keeps its reset values whatever a command writes (spec/60_exceptions.md R664). -/
theorem writeReg_inReset {s : State} {h : Nat} {hart : Hart} (hh : s.harts[h]? = some hart) (hr : hart.inReset = true)
    (ref : RegRef) (v : XWord) : writeReg h ref v s = s := by
  simp [writeReg, hh, hr]

/-- On a hart that is not in reset it writes the register. -/
theorem writeReg_eq {s : State} {h : Nat} {hart : Hart} (hh : s.harts[h]? = some hart) (hr : hart.inReset = false)
    (ref : RegRef) (v : XWord) : writeReg h ref v s = match ref with
      | .csr num =>
        if num = 0x7b1 ∧ hart.debugMode = false then s.modHart h fun hart => { hart with pc := hart.pcBits v }
        else writeCsr true h num v s
      | .gpr i => s.modHart h fun hart => hart.setGpr i v
      | .fpr i => s.modHart h fun hart => hart.setFpr i v
      | .custom => s
      | .unmapped => s := by
  cases ref <;> simp [writeReg, hh, hr]

/-! ### abstractauto (spec/42_abstract_commands.md R366) -/

theorem packBits_lt (f : Nat → Bool) : ∀ n, packBits n f < 2 ^ n
  | 0 => by simp [packBits]
  | n + 1 => by
    have := packBits_lt f n
    simp only [packBits, Nat.pow_succ]
    split <;> omega

/-- Bit `i` of packed bits. -/
theorem packBits_testBit (f : Nat → Bool) : ∀ n i, (packBits n f).testBit i = (decide (i < n) && f i)
  | 0, i => by simp [packBits]
  | n + 1, i => by
    have hl := packBits_lt f n
    have ih := packBits_testBit f n i
    simp only [packBits]
    cases hf : f n with
    | false =>
      by_cases h : i = n
      · subst h; simp [hf, ih]
      · simp only [Bool.false_eq_true, if_false, Nat.add_zero, ih]
        congr 1
        simp only [decide_eq_decide]
        omega
    | true =>
      rw [if_pos rfl, Nat.add_comm]
      by_cases h : i = n
      · subst h; rw [Nat.testBit_two_pow_add_eq, Nat.testBit_lt_two_pow hl]; simp [hf]
      · by_cases h2 : i < n
        · rw [Nat.testBit_two_pow_add_gt h2, ih]; simp [h2]; omega
        · have : 2 ^ n + packBits n f < 2 ^ i := by
            have : 2 ^ (n + 1) ≤ 2 ^ i := Nat.pow_le_pow_right (by omega) (by omega)
            have := Nat.pow_succ 2 n; omega
          rw [Nat.testBit_lt_two_pow this]; simp; omega

/-- The bits abstractauto implements, one by one (spec/42_abstract_commands.md R366). -/
theorem autoexecBits_getLsbD (c : Config) (i : Nat) :
    (autoexecBits c).getLsbD i = (c.hasAbstractauto && c.autoexecMask.getLsbD i &&
      decide (i < 32 ∧ (i < min c.datacount 12 ∨ (16 ≤ i ∧ i < 16 + c.progbufsize)))) := by
  unfold autoexecBits
  split <;> simp_all [BitVec.getLsbD_ofNat, packBits_testBit]

/-! ### The implicit ebreak (spec/42_abstract_commands.md R380 (b), R382) -/

/-- A fetch at the word after the Program Buffer is the implicit ebreak, at either of its halves. -/
theorem fetchInsn_implicitEbreak (s : State) (hart : Hart) (m : Nat) (h : hart.atImplicitEbreak s hart.pc.toNat = true) :
    fetchInsn s hart m = some 0x00100073 := by
  simp [fetchInsn, h, ebreakWord]

end Sys2Proof.Machine
end

