-- ==== Sys2Proof/Laws/Harts.lean ====
section
/-! SUPPORT. What a step can do to a hart, said once: every change of a hart is a chain of the primitive changes of
`HartRel`, so a relation that holds along each of them holds between a hart before a step and after it. -/

namespace Sys2Proof.Machine

/-- A relation between a hart before and after, which every primitive change of a hart obeys. -/
structure HartRel (R : Hart → Hart → Prop) : Prop where
  refl : ∀ h, R h h
  trans : ∀ {a b c}, R a b → R b c → R a c
  onCtl : ∀ h c, R h { h with ctl := c }
  onDscratch : ∀ h a b, R h { h with dscratch0 := a, dscratch1 := b }
  onEnterDebug : ∀ h g n (c : BitVec 3) a, 1 ≤ c.toNat ∧ c.toNat ≤ 4 → R h (h.enterDebug g n c a)
  onLeaveDebug : ∀ h g n, R h (h.leaveDebug g n)
  onStartProgbuf : ∀ h v, h.debugMode = true → R h { h with inProgbuf := true, pc := v }
  onStopProgbuf : ∀ h, R h { h with inProgbuf := false }
  onPc : ∀ h v, R h { h with pc := v }
  onDpc : ∀ h v, R h { h with dpc := v }
  onTrap : ∀ h i c v, R h (h.trap i c v)
  onReset : ∀ h n b c, R h (Hart.doReset n b c h)
  onClear : ∀ h, R h h.clearTriggers
  onLeaveReset : ∀ h, R h { h with inReset := false, resetHalt := false }
  onReservation : ∀ h v, R h { h with reservation := v }
  onWriteCsr : ∀ h d n num v, R h (h.writeCsr d n num v)
  onGprs : ∀ h v, R h { h with gprs := v }
  onFprs : ∀ h v, R h { h with fprs := v }
  onCounters : ∀ h c i, R h { h with cycle := c, instret := i }
  onTimer : ∀ h v, R h { h with timer := v }
  onPriv : ∀ h p, (privsOk h.cfg → p ∈ h.cfg.privs) → R h { h with priv := p }
  onSys : ∀ h v, R h { h with sys := v }
  onHits : ∀ h ms, R h (h.setHits ms)
  onCountDown : ∀ h p, R h (h.countDown p)
  onTrapped : ∀ h b, R h { h with trapped := b }
  onDue : ∀ h a b, R h { h with dueEntry := a, dueBreak := b }
  onAvail : ∀ h b, R h { h with avail := b }

variable {R : Hart → Hart → Prop}

/-- The harts of `t` are those of `s`, each related to what it was. -/
def State.evolves (R : Hart → Hart → Prop) (s t : State) : Prop :=
  t.harts.length = s.harts.length ∧
    ∀ (k : Nat) (old new : Hart), s.harts[k]? = some old → t.harts[k]? = some new → R old new

namespace HartRel

/-! ### Chains -/

theorem countUp (hR : HartRel R) (h : Hart) (b : Bool) : R h (h.countUp b) := by
  unfold Hart.countUp
  split
  · exact hR.refl h
  · exact hR.onCounters h _ _

theorem retire (hR : HartRel R) (h : Hart) (n : Nat) : R h (h.retire n) :=
  hR.trans (hR.countUp h true) (hR.onPc _ _)

theorem setGpr (hR : HartRel R) (h : Hart) (i : Nat) (v : XWord) : R h (h.setGpr i v) := by
  unfold Hart.setGpr
  split
  · exact hR.refl h
  · exact hR.onGprs h _

theorem setFpr (hR : HartRel R) (h : Hart) (i : Nat) (v : XWord) : R h (h.setFpr i v) := hR.onFprs h _

theorem breakReservation (hR : HartRel R) (h : Hart) (a n : Nat) : R h (h.breakReservation a n) := by
  unfold Hart.breakReservation
  repeat' split
  all_goals first | exact hR.refl h | exact hR.onReservation h _

/-! ### Whole machines -/

theorem same (hR : HartRel R) {s t : State} (h : t.harts = s.harts) : State.evolves R s t := by
  refine ⟨by rw [h], fun k old new ho hn => ?_⟩
  rw [h, ho] at hn
  cases hn
  exact hR.refl old

theorem then_ (hR : HartRel R) {s t u : State} (h1 : State.evolves R s t) (h2 : State.evolves R t u) :
    State.evolves R s u := by
  refine ⟨h2.1.trans h1.1, fun k old new ho hn => ?_⟩
  have hk : k < t.harts.length := by
    rw [h1.1]
    exact (List.getElem?_eq_some_iff.mp ho).1
  have hm : t.harts[k]? = some t.harts[k] := by simp [hk]
  exact hR.trans (h1.2 k old _ ho hm) (h2.2 k _ new hm hn)

theorem modHart (hR : HartRel R) (s : State) (h : Nat) (f : Hart → Hart)
    (hf : ∀ a, s.harts[h]? = some a → R a (f a)) : State.evolves R s (s.modHart h f) := by
  refine ⟨State.modHart_length s h f, fun k old new ho hn => ?_⟩
  rw [State.modHart_get] at hn
  by_cases hk : h = k
  · subst hk
    rw [if_pos rfl, ho] at hn
    cases hn
    exact hf old ho
  · rw [if_neg hk, ho] at hn
    cases hn
    exact hR.refl old

theorem mapIdx (s t : State) (f : Nat → Hart → Hart) (hf : ∀ k a, R a (f k a)) (h : t.harts = s.harts.mapIdx f) :
    State.evolves R s t := by
  refine ⟨by simp [h], fun k old new ho hn => ?_⟩
  rw [h, List.getElem?_mapIdx, ho] at hn
  cases hn
  exact hf k old

/-! ### Operations -/

theorem evolves_enterDebug (hR : HartRel R) (s : State) (h : Nat) (c : BitVec 3) (a : XWord) (hc : 1 ≤ c.toNat ∧ c.toNat ≤ 4) :
    State.evolves R s (enterDebug h c a s) :=
  hR.then_ (hR.modHart s h _ fun x _ => hR.onEnterDebug x _ _ c a hc) (hR.same rfl)

theorem evolves_leaveDebug (hR : HartRel R) (s : State) (h : Nat) : State.evolves R s (leaveDebug h s) :=
  hR.then_ (hR.modHart s h _ fun x _ => hR.onLeaveDebug x _ _) (hR.same rfl)

theorem evolves_finishCommand (hR : HartRel R) (s : State) (e : Option (BitVec 3)) :
    State.evolves R s (finishCommand e s) := hR.same (by simp)

theorem clobberDpc (hR : HartRel R) (h : Hart) (n : Nat) : R h (h.clobberDpc n) := by
  unfold Hart.clobberDpc
  split
  · exact hR.onDpc h _
  · exact hR.refl h

theorem evolves_endProgbuf (hR : HartRel R) (s : State) (h : Nat) (e : Option (BitVec 3)) :
    State.evolves R s (endProgbuf h e s) := by
  have h1 := hR.modHart s h (fun hart => { hart with inProgbuf := false }) fun x _ => hR.onStopProgbuf x
  by_cases hc : s.dm.phase = .progbuf ∧ s.dm.cmdHart = h
  · rw [endProgbuf_command h e s hc.1 hc.2]
    refine hR.then_ h1 (hR.then_ (hR.then_ (hR.modHart _ h _ fun x _ => hR.clobberDpc x s.free)
      (hR.same (State.bump_frame _ 1).2.2.2.2.1)) (hR.then_ ?_ (hR.evolves_finishCommand _ e)))
    split
    · exact hR.evolves_leaveDebug _ h
    · exact hR.same rfl
  · rw [endProgbuf_alone h e s hc]
    exact h1

theorem evolves_raise (hR : HartRel R) (s : State) (h c : Nat) : State.evolves R s (raise h c s) := by
  unfold raise
  split
  · exact hR.same rfl
  · split
    · exact hR.evolves_endProgbuf s h _
    · exact hR.then_ (hR.modHart s h _ fun x _ => hR.onTrap x _ _ _) (hR.same rfl)

theorem evolves_writeCsr (hR : HartRel R) (s : State) (d : Bool) (h num : Nat) (v : XWord) :
    State.evolves R s (writeCsr d h num v s) := by
  unfold writeCsr
  split
  · exact hR.same rfl
  · split
    · exact hR.same (by simp)
    · exact hR.then_ (hR.modHart s h _ fun x _ => hR.onWriteCsr x _ _ _ _) (hR.same rfl)

theorem evolves_csrInsn (hR : HartRel R) (s : State) (num : Nat) (op : CsrOp) (h : Nat) :
    State.evolves R s (csrInsn num op h s) := by
  unfold csrInsn
  split
  · exact hR.same rfl
  · split
    · refine hR.then_ ?_ (hR.modHart _ h _ fun x _ => hR.trans (hR.setGpr x _ _) (hR.retire _ _))
      split
      · exact hR.evolves_writeCsr s _ h _ _
      · exact hR.same rfl
    · exact hR.evolves_raise s h _

theorem evolves_writeReg (hR : HartRel R) (s : State) (h : Nat) (r : RegRef) (v : XWord) :
    State.evolves R s (writeReg h r v s) := by
  unfold writeReg
  repeat' split
  all_goals first
    | exact hR.same rfl
    | exact hR.modHart s h _ fun x _ => hR.onPc x _
    | exact hR.evolves_writeCsr s _ h _ _
    | exact hR.modHart s h _ fun x _ => hR.setGpr x _ _
    | exact hR.modHart s h _ fun x _ => hR.setFpr x _ _

theorem evolves_doTransfer (hR : HartRel R) (s : State) (h : Nat) (size : BitVec 3) (w : Bool) (r : Nat) :
    State.evolves R s (doTransfer h size w r s) := by
  unfold doTransfer
  split
  · exact hR.same rfl
  · split
    · exact hR.then_ (hR.same (t := s.bump 1) rfl) (hR.evolves_writeReg _ h _ _)
    · exact hR.same (by simp)

theorem evolves_resetHart (hR : HartRel R) (s : State) (b c : Bool) (h : Nat) :
    State.evolves R s (resetHart b c h s) := by
  simp only [resetHart]
  split
  · exact hR.same rfl
  · rename_i hart _
    have h1 : State.evolves R s ((s.modHart h (Hart.doReset (s.free + 1) b c)).bump (100 + hart.cfg.csrList.length)) :=
      hR.then_ (hR.modHart s h _ fun x _ => hR.onReset x _ _ _) (hR.same rfl)
    split
    · exact hR.then_ h1 (hR.same (by simp))
    · exact h1

theorem stillInReset (hR : HartRel R) (h : Hart) : R h h.stillInReset := by
  unfold Hart.stillInReset
  refine hR.trans (b := if h.ctl.hartreset then h.clearTriggers else h) ?_ (hR.onCtl _ _)
  split
  · exact hR.onClear h
  · exact hR.refl h

theorem evolves_applyResets (hR : HartRel R) (k : Nat) (s : State) : State.evolves R s (applyResets k s) := by
  induction k generalizing s with
  | zero => exact hR.same rfl
  | succ k ih =>
    have h1 := ih s
    simp only [applyResets]
    repeat' split
    · exact h1
    · exact hR.then_ h1 (hR.modHart _ k _ fun x _ => hR.stillInReset x)
    · exact hR.then_ h1 (hR.evolves_resetHart _ _ _ k)
    · exact h1

theorem dmReset (hR : HartRel R) (h : Hart) (n : Nat) : R h (h.dmReset n) :=
  (h.dmReset_eq n).1 ▸ hR.trans (hR.onStopProgbuf h) (hR.trans (hR.onDpc _ _) (hR.onCtl _ _))

theorem evolves_scrambleForCommand (hR : HartRel R) (s : State) (h : Nat) :
    State.evolves R s (scrambleForCommand h s) :=
  hR.then_ (hR.modHart s h _ fun x _ => hR.onDscratch x _ _) (hR.same rfl)

theorem evolves_abandonCommand (hR : HartRel R) (s : State) : State.evolves R s (abandonCommand s) := by
  have h1 : State.evolves R s (scrambleForCommand s.dm.cmdHart (s.bump 4)) :=
    hR.then_ (hR.same (t := s.bump 4) rfl) (hR.evolves_scrambleForCommand _ _)
  simp only [abandonCommand]
  generalize scrambleForCommand s.dm.cmdHart (s.bump 4) = u at h1 ⊢
  have h2 (b : Bool) (r : RegRef) (v : XWord) :
      State.evolves R s (if b then writeReg s.dm.cmdHart r v u else u) := by
    split
    · exact hR.then_ h1 (hR.evolves_writeReg _ _ _ _)
    · exact h1
  repeat' split
  all_goals first
    | exact hR.same rfl
    | exact h1
    | exact h2 _ _ _
    | exact hR.then_ (h2 _ _ _) (hR.modHart _ _ _ fun x _ => hR.clobberDpc x _)
    | exact hR.then_ h1 (hR.evolves_writeReg _ _ _ _)
    | exact hR.then_ (hR.then_ h1 (hR.evolves_writeReg _ _ _ _)) (hR.modHart _ _ _ fun x _ => hR.clobberDpc x _)
    | exact hR.then_ h1 (hR.modHart _ _ _ fun x _ => hR.clobberDpc x _)

theorem evolves_resetDm (hR : HartRel R) (s : State) : State.evolves R s (resetDm s) :=
  hR.then_ (hR.same (t := abandonBus s) (by simp))
    (hR.then_ (hR.evolves_abandonCommand _)
      (HartRel.mapIdx _ _ _ (fun _ a => hR.dmReset a _) rfl))

theorem evolves_writeDmcontrol (hR : HartRel R) (v : Word) (s : State) : State.evolves R s (writeDmcontrol v s) := by
  simp only [writeDmcontrol]
  split
  · exact hR.evolves_resetDm s
  · split
    · exact hR.same rfl
    · split
      · exact hR.same rfl
      · unfold writeDmcontrolFields
        refine hR.then_ (HartRel.mapIdx _ _ _ (fun k a => ?_) rfl) (hR.evolves_applyResets _ _)
        split
        · exact hR.onCtl a _
        · exact hR.refl a

theorem evolves_dmAccess (hR : HartRel R) (present : Bool) (a : DmAcc) (rd : State → State × Word)
    (wr : Word → State → State) (s : State) (hrd : ∀ s, State.evolves R s (rd s).1)
    (hwr : ∀ v s, State.evolves R s (wr v s)) : State.evolves R s (dmAccess present a rd wr s) := by
  rcases dmAccess_cases present a rd wr s with ⟨v, k, e⟩ | ⟨k, e⟩ | ⟨_, _, v, j, k, e⟩ | ⟨v, _, _, j, e⟩ <;> rw [e]
  · exact hR.same rfl
  · exact hR.same rfl
  · exact hR.then_ (hR.same (t := s.bump j) rfl) (hR.then_ (hrd _) (hR.same rfl))
  · exact hR.then_ (hR.same (t := s.bump j) rfl) (hwr _ _)

theorem evolves_hartStore (hR : HartRel R) (s : State) (h a : Nat) (bs : List Byte) :
    State.evolves R s (hartStore h a bs s) := by
  simp only [hartStore]
  split
  · exact hR.same rfl
  · split
    · exact hR.same rfl
    · split
      · split <;> exact hR.same rfl
      · split
        · refine HartRel.mapIdx _ _ _ (fun k x => ?_) (by simp [breakOthers]; rfl)
          split
          · exact hR.refl x
          · exact hR.breakReservation x _ _
        · exact hR.same rfl

theorem finishEffect (hR : HartRel R) (x : Hart) (len : Nat) (e : Effect) : R x (x.finishEffect len e) := by
  have tail : ∀ z v, R z { z.retire len with reservation := v } := fun z v =>
    hR.trans (hR.retire z len) (hR.onReservation _ _)
  have tailPc : ∀ z v w, R z { z.retire len with reservation := v, pc := w } := fun z v w =>
    hR.trans (tail z v) (hR.onPc _ w)
  obtain ⟨wg, wf, wc, st, ld, np, rs, fi, ex⟩ := e
  have chain : ∀ y, R x y → R x { y.retire len with reservation := rs.getD y.reservation } ∧
      ∀ w, R x { y.retire len with reservation := rs.getD y.reservation, pc := w } := fun y hy =>
    ⟨hR.trans hy (tail y _), fun w => hR.trans hy (tailPc y _ w)⟩
  have hg : R x (match wg with
      | some (i, v) => x.setGpr i v
      | none => x) := by
    cases wg with
    | none => exact hR.refl x
    | some q => exact hR.setGpr x _ _
  cases wf with
  | none =>
    cases np with
    | none => exact (chain _ hg).1
    | some w => exact (chain _ hg).2 _
  | some q =>
    have hf := hR.trans hg (hR.setFpr _ q.1 q.2)
    cases np with
    | none => exact (chain _ hf).1
    | some w => exact (chain _ hf).2 _

theorem evolves_applyEffect (hR : HartRel R) (s : State) (h len : Nat) (e : Effect) :
    State.evolves R s (applyEffect h len e s) := by
  have h1 : State.evolves R s (effectStore h e s) := by
    unfold effectStore
    split
    · exact hR.evolves_hartStore s h _ _
    · exact hR.same rfl
  have h2 : ∀ t, State.evolves R t (effectCsr h e t) := by
    intro t
    unfold effectCsr
    split
    · split
      · exact hR.evolves_writeCsr t _ h _ _
      · exact hR.same rfl
    · exact hR.same rfl
  simp only [applyEffect]
  split
  · exact hR.evolves_raise s h _
  · refine hR.then_ (hR.then_ h1 (hR.then_ (h2 _) ?_)) (hR.modHart _ h _ fun x _ => hR.finishEffect x len e)
    split <;> exact hR.same rfl

/-! ### Moves of a hart -/

theorem evolves_startProgbuf (hR : HartRel R) (s : State) (h : Nat)
    (hd : ∀ a, s.harts[h]? = some a → a.debugMode = true) : State.evolves R s (startProgbuf h s) :=
  hR.then_ (hR.same (t := { s with dm := { s.dm with phase := .progbuf } }) rfl)
    (hR.modHart _ h _ fun x hx => hR.onStartProgbuf x _ (hd x hx))

theorem evolves_enterOther (hR : HartRel R) (s : State) (h : Nat) (c : BitVec 3) (a : XWord) (hc : 1 ≤ c.toNat ∧ c.toNat ≤ 4) :
    State.evolves R s (enterOther h c a s) := by
  have h1 := hR.evolves_enterDebug s h c a hc
  simp only [enterOther]
  split
  · exact hR.then_ h1 (hR.evolves_finishCommand _ _)
  · exact h1

theorem evolves_enterRequested (hR : HartRel R) (s : State) (h : Nat) (b : Bool) (a : XWord) :
    State.evolves R s (enterRequested h b a s) := by
  have h1 : State.evolves R s (enterDebug h 3 a (s.bump 1)) :=
    hR.then_ (hR.same (t := s.bump 1) rfl) (hR.evolves_enterDebug _ h 3 a (by decide))
  simp only [enterRequested]
  split
  · split
    · exact hR.then_ h1 (hR.evolves_finishCommand _ _)
    · refine hR.then_ h1 (hR.evolves_startProgbuf _ h fun x hx => ?_)
      rw [enterDebug_get, if_pos rfl] at hx
      cases ho : (s.bump 1).harts[h]? with
      | none => rw [ho] at hx; cases hx
      | some old =>
        rw [ho] at hx
        simp only [Option.map_some, Option.some.injEq] at hx
        rw [← hx]
        exact (Hart.enterDebug_writes _ _ _ _ _).1
  · exact h1

theorem evolves_stepEnd (hR : HartRel R) (s : State) (h : Nat) : State.evolves R s (stepEnd h s) := by
  unfold stepEnd
  repeat' split
  · exact hR.same rfl
  · exact hR.same rfl
  · exact hR.evolves_enterRequested s h _ _
  · exact hR.evolves_enterDebug s h 4 _ (by decide)

theorem evolves_breakpoints (hR : HartRel R) (s : State) (h fuel : Nat) :
    State.evolves R s (breakpoints h fuel s) := by
  induction fuel generalizing s with
  | zero => exact hR.evolves_stepEnd s h
  | succ fuel ih =>
    unfold breakpoints
    split
    · exact hR.same rfl
    · rename_i hart _
      refine hR.then_ (hR.then_ (hR.evolves_raise s h excBreakpoint)
        (hR.modHart _ h (Hart.countDown · hart.priv) fun x _ => hR.onCountDown x hart.priv)) ?_
      simp only []
      split
      · exact hR.evolves_enterOther _ h 2 _ (by decide)
      · split
        · exact ih _
        · exact hR.evolves_stepEnd _ h

theorem afterTriggers (hR : HartRel R) (x : Hart) (p : Priv) (ms : List Bool) (b c : Bool) :
    R x (x.afterTriggers p ms b c) :=
  hR.trans (hR.trans (hR.onHits x ms) (hR.onCountDown _ p)) (hR.onDue _ _ _)

theorem evolves_finishHart (hR : HartRel R) (s : State) (h : Nat) (p : Priv) (f : Facts) :
    State.evolves R s (finishHart h p f s) := by
  unfold finishHart
  split
  · exact hR.same rfl
  · split
    · split
      · exact hR.evolves_finishCommand s _
      · exact hR.same rfl
    · rename_i hart _ _
      generalize (if hart.trapped = true then [] else hart.trigMatches p true f) = ms
      refine hR.then_ (hR.then_ (hR.modHart s h (fun x => x.afterTriggers p ms (!hart.dcsr.step && Config.freeBit s.free) (Config.freeBit s.free))
        fun x _ => hR.afterTriggers x p ms _ _) (hR.same (State.bump_frame _ 1).2.2.2.2.1)) ?_
      simp only []
      split
      · exact hR.evolves_enterOther _ h 2 _ (by decide)
      · split
        · exact hR.evolves_breakpoints _ h _
        · exact hR.evolves_stepEnd _ h

/-! ### Instructions -/

/-- What every hart instruction's meaning does: nothing but hart operations. -/
theorem evolves_breakAt (hR : HartRel R) (s : State) (hart : Hart) : State.evolves R s (breakAt hart s) := by
  have hc : ∀ t : State, State.evolves R t (t.modHart t.cur fun hart => hart.countUp true) := fun t =>
    hR.modHart t _ _ fun x _ => hR.countUp x true
  unfold breakAt
  split
  · refine hR.then_ (t := if Config.freeBit s.free then s.modHart s.cur fun hart => hart.countUp true else s) ?_ ?_
    · split
      · exact hc s
      · exact hR.same rfl
    · exact hR.then_ (hR.same (t := State.bump _ 1) rfl) (hR.evolves_endProgbuf _ _ _)
  · split
    · refine hR.then_ (t := if hart.dcsr.stopcount then s else s.modHart s.cur fun hart => hart.countUp true) ?_
        (hR.evolves_enterDebug _ _ 1 _ (by decide))
      split
      · exact hR.same rfl
      · exact hc s
    · exact hR.evolves_raise s _ _

theorem evolves_undefinedInDebug (hR : HartRel R) (s : State) : State.evolves R s (undefinedInDebug s) := by
  unfold undefinedInDebug
  split
  · exact hR.then_ (hR.same (t := s.bump 1) rfl) (hR.evolves_raise _ _ _)
  · exact hR.then_ (hR.same (t := s.bump 1) rfl) (hR.modHart _ _ _ fun x _ => hR.retire x _)

end HartRel

/-- The least privilege choice is among the supported levels. -/
theorem Hart.legalPriv_mem (hart : Hart) (n : Nat) (code : BitVec 2) (hm : .m ∈ hart.cfg.privs) :
    hart.legalPriv n code ∈ hart.cfg.privs := by
  have hp : pick n hart.cfg.privs .m ∈ hart.cfg.privs := by
    unfold pick
    rw [List.getD_eq_getElem?_getD]
    cases hg : hart.cfg.privs[Config.freeNat n % hart.cfg.privs.length]? with
    | none => exact hm
    | some p => exact List.mem_of_getElem? hg
  unfold Hart.legalPriv
  split
  · split
    · rename_i h
      exact List.contains_iff_mem.mp h
    · exact hp
  · exact hp

end Sys2Proof.Machine
end

