-- ==== Sys2Proof/Laws/HartSteps.lean ====
section
/-! SUPPORT. What a step does to the harts: the relation of Laws/Harts.lean holds between a hart before an instruction or a
step and after it. -/

namespace Sys2Proof.Machine

/-! ### Facts about the modes that a command needs -/

/-- A hart whose status is halted is in Debug Mode (spec/41_reset_select_run.md R320). -/
theorem Hart.debugMode_of_halted {c : Config} {hart : Hart} (h : hart.status c = .halted) : hart.debugMode = true := by
  unfold Hart.status at h
  repeat' split at h
  all_goals first | assumption | cases h

/-- The Program Buffer can be executed only on a hart in Debug Mode (spec/42_abstract_commands.md R373). -/
theorem postexecError_none {s : State} {n h : Nat} (he : postexecError s n h = none) :
    ∃ hart, s.harts[h]? = some hart ∧ hart.debugMode = true := by
  unfold postexecError at he
  split at he
  · cases he
  · rename_i hart hh
    refine ⟨hart, hh, ?_⟩
    split at he
    · cases he
    · split at he
      · cases he
      · split at he
        · rename_i hs
          exact Hart.debugMode_of_halted hs
        · cases he

/-- Writing a CSR of a hart leaves its mode. -/
theorem writeCsr_debugMode (d : Bool) (h num : Nat) (v : XWord) (s : State) (k : Nat) :
    (writeCsr d h num v s).harts[k]?.map (·.debugMode) = s.harts[k]?.map (·.debugMode) := by
  unfold writeCsr
  split
  · rfl
  · split
    · simp
    · simp only [State.bump_frame, State.modHart_get]
      split
      · cases s.harts[k]? <;> simp
      · rfl

/-- Changing a hart without its mode. -/
theorem modHart_debugMode (h : Nat) (f : Hart → Hart) (s : State) (k : Nat) (hf : ∀ x, (f x).debugMode = x.debugMode) :
    (s.modHart h f).harts[k]?.map (·.debugMode) = s.harts[k]?.map (·.debugMode) := by
  rw [State.modHart_get]
  split
  · cases s.harts[k]? <;> simp [hf]
  · rfl

/-- Writing a register of a hart leaves the modes of the harts. -/
theorem writeReg_debugMode (h : Nat) (r : RegRef) (v : XWord) (s : State) (k : Nat) :
    (writeReg h r v s).harts[k]?.map (·.debugMode) = s.harts[k]?.map (·.debugMode) := by
  unfold writeReg
  repeat' split
  all_goals first
    | rfl
    | exact modHart_debugMode h _ s k fun _ => rfl
    | exact writeCsr_debugMode true h _ v s k
    | exact modHart_debugMode h _ s k fun x => by simp

/-- A transfer of Access Register leaves the modes of the harts. -/
theorem doTransfer_debugMode (h : Nat) (size : BitVec 3) (w : Bool) (r : Nat) (s : State) (k : Nat) :
    (doTransfer h size w r s).harts[k]?.map (·.debugMode) = s.harts[k]?.map (·.debugMode) := by
  simp only [doTransfer]
  split
  · rfl
  · split
    · exact writeReg_debugMode h _ _ (s.bump 1) k
    · simp

variable {R : Hart → Hart → Prop}

namespace HartRel

theorem evolves_onHart (s : State) (f : Hart → State) (t : State)
    (hf : ∀ hart, s.harts[s.cur]? = some hart → State.evolves R s (f hart)) (he : onHart s f = .next t) :
    State.evolves R s t := by
  unfold onHart at he
  split at he
  · rename_i hart hh
    cases he
    exact hf hart hh
  · cases he

theorem evolves_next (s t u : State) (h : State.evolves R s t)
    (he : (Host.Outcome.next t : Host.Outcome State Fault Refusal) = .next u) : State.evolves R s u := by
  cases he
  exact h

/-- A trap return: counted, then the pc, the privilege and the saved status. -/
theorem trapReturn (hR : HartRel R) (x : Hart) (v : XWord) (p : Priv) (sys : SysRegs)
    (hp : privsOk x.cfg → p ∈ x.cfg.privs) :
    R x { x.countUp true with pc := v, priv := p, sys := sys } :=
  hR.trans (hR.countUp x true)
    (hR.trans (hR.onPc _ v) (hR.trans (hR.onPriv _ p (by simpa using hp)) (hR.onSys _ sys)))

theorem evolves_dmReadOnly (hR : HartRel R) (present : Bool) (a : DmAcc) (value : State → Word) (s : State) :
    State.evolves R s (dmReadOnly present a value s) :=
  hR.evolves_dmAccess _ _ _ _ _ (fun _ => hR.same rfl) (fun _ _ => hR.same rfl)

theorem evolves_dataAccess (hR : HartRel R) (i : Nat) (a : DmAcc) (s : State) :
    State.evolves R s (dataAccess i a s) := by
  refine hR.evolves_dmAccess _ _ _ _ _ (fun t => hR.same ?_) (fun v t => hR.same ?_)
  · unfold bufferRead
    split <;> simp
  · unfold bufferWrite
    split <;> simp

theorem evolves_progbufAccess (hR : HartRel R) (i : Nat) (a : DmAcc) (s : State) :
    State.evolves R s (progbufAccess i a s) := by
  refine hR.evolves_dmAccess _ _ _ _ _ (fun t => hR.same ?_) (fun v t => hR.same ?_)
  · unfold bufferRead
    split <;> simp
  · unfold bufferWrite
    split <;> simp

theorem evolves_accessRegister (hR : HartRel R) (size : BitVec 3) (postexec transfer write : Bool) (regno : BitVec 16)
    (r1 r2 : Bool) (s t : State)
    (he : execAccessRegister size postexec transfer write regno r1 r2 s = .next t) : State.evolves R s t := by
  simp only [execAccessRegister] at he
  refine evolves_next _ _ _ ?_ he
  split
  · exact hR.evolves_finishCommand s _
  · split
    · split
      · exact hR.then_ (hR.same (t := s.bump 1) rfl) (hR.evolves_finishCommand _ _)
      · exact hR.same (by simp)
    · refine hR.then_ (t := scrambleForCommand s.dm.cmdHart (s.bump 3))
        (hR.then_ (hR.same (t := s.bump 3) rfl) (hR.evolves_scrambleForCommand _ _)) ?_
      generalize scrambleForCommand s.dm.cmdHart (s.bump 3) = u
      split
      · exact hR.evolves_finishCommand u _
      · exact hR.evolves_finishCommand u _
      · refine hR.then_ (t := if (transfer && !Config.freeBit s.free) = true then
          doTransfer s.dm.cmdHart size write regno.toNat u else u) ?_ (hR.evolves_finishCommand _ _)
        split
        · exact hR.evolves_doTransfer u _ _ _ _
        · exact hR.same rfl
      · rename_i h2
        have hT : State.evolves R u (if transfer = true then doTransfer s.dm.cmdHart size write regno.toNat u else u) := by
          split
          · exact hR.evolves_doTransfer u _ _ _ _
          · exact hR.same rfl
        split
        · rename_i hp
          refine hR.then_ hT (hR.evolves_startProgbuf _ _ fun x hx => ?_)
          obtain ⟨hart, hh, hd⟩ := postexecError_none (by simpa [hp] using h2)
          have hm : (if transfer = true then doTransfer s.dm.cmdHart size write regno.toNat u else u).harts[
              s.dm.cmdHart]?.map (·.debugMode) = u.harts[s.dm.cmdHart]?.map (·.debugMode) := by
            split
            · exact doTransfer_debugMode _ _ _ _ _ _
            · rfl
          rw [hx, hh] at hm
          simp only [Option.map_some, Option.some.injEq] at hm
          rw [hm, hd]
        · exact hR.then_ hT (hR.evolves_finishCommand _ _)

theorem evolves_quickAccess (hR : HartRel R) (r : BitVec 24) (s t : State) (he : execQuickAccess r s = .next t) :
    State.evolves R s t := by
  simp only [execQuickAccess] at he
  refine evolves_next _ _ _ ?_ he
  split
  · exact hR.same (by simp)
  · split
    · exact hR.evolves_finishCommand s _
    · refine hR.then_ (t := scrambleForCommand s.dm.cmdHart (s.bump 1))
        (hR.then_ (hR.same (t := s.bump 1) rfl) (hR.evolves_scrambleForCommand _ _)) ?_
      repeat' split
      all_goals exact hR.same (by simp)

/-- What an instruction does to the harts, whichever it is. -/
theorem evolves_exec (hR : HartRel R) (i : Instr) (s t : State) (he : exec i s = .next t) : State.evolves R s t := by
  have ret : ∀ (u : State) (n : Nat), State.evolves R u (retireCur n u) := fun u n =>
    hR.modHart u _ _ fun x _ => hR.retire x n
  have same : ∀ {u : State}, u.harts = s.harts → exec i s = .next u → State.evolves R s t := by
    intro u hu he2
    rw [he] at he2
    cases he2
    exact hR.same hu
  cases i with
  | dret =>
    refine evolves_onHart s _ t (fun hart _ => ?_) he
    split
    · simp only
      split
      · exact hR.then_ (hR.evolves_leaveDebug s _) (hR.evolves_finishCommand _ _)
      · exact hR.evolves_leaveDebug s _
    · exact hR.evolves_raise s _ _
  | ebreak => exact evolves_onHart s _ t (fun hart _ => hR.evolves_breakAt s hart) he
  | cEbreak =>
    refine evolves_onHart s _ t (fun hart _ => ?_) he
    split
    · exact hR.evolves_breakAt s hart
    · exact hR.evolves_raise s _ _
  | cNop =>
    refine evolves_onHart s _ t (fun hart _ => ?_) he
    split
    · exact ret s 2
    · exact hR.evolves_raise s _ _
  | wfi => exact evolves_onHart s _ t (fun hart _ => ret s 4) he
  | ecall =>
    refine evolves_onHart s _ t (fun hart _ => ?_) he
    split
    · exact hR.evolves_undefinedInDebug s
    · exact hR.evolves_raise s _ _
  | mret =>
    refine evolves_onHart s _ t (fun hart hh => ?_) he
    split
    · exact hR.evolves_undefinedInDebug s
    · split
      · exact hR.then_ (hR.modHart s _ _ fun x _ => hR.trapReturn x _ _ _ fun hp =>
          Hart.legalPriv_mem x _ _ hp.1) (hR.same rfl)
      · exact hR.evolves_raise s _ _
  | hret =>
    refine evolves_onHart s _ t (fun hart _ => ?_) he
    split
    · exact hR.evolves_undefinedInDebug s
    · exact hR.evolves_raise s _ _
  | sret =>
    refine evolves_onHart s _ t (fun hart hh => ?_) he
    split
    · exact hR.evolves_undefinedInDebug s
    · split
      · rename_i hc
        refine hR.modHart s _ _ fun x hx => hR.trapReturn x _ _ _ fun hp => ?_
        rw [hh] at hx
        cases hx
        have hs : Priv.s ∈ hart.cfg.privs := List.contains_iff_mem.mp hc.2
        split
        · exact hp.2.2 hs
        · exact hs
      · exact hR.evolves_raise s _ _
  | uret =>
    refine evolves_onHart s _ t (fun hart hh => ?_) he
    split
    · exact hR.evolves_undefinedInDebug s
    · split
      · rename_i hc
        refine hR.modHart s _ _ fun x hx => hR.trapReturn x _ _ _ fun hp => ?_
        rw [hh] at hx
        cases hx
        exact hp.2.1 hc
      · exact hR.evolves_raise s _ _
  | accessRegister size postexec transfer write regno res23 res19 =>
    exact hR.evolves_accessRegister _ _ _ _ _ _ _ _ _ he
  | quickAccess r => exact hR.evolves_quickAccess _ _ _ he
  | commandReservedCmdtype _ _ => exact evolves_next _ _ _ (hR.same (by simp)) he
  | bypass00 op | reservedBypass12 op | reservedBypass13 op | reservedBypass14 op | reservedBypass15 op
  | reservedBypass16 op | reservedBypass17 op | bypass1f op => exact same (by simp) rfl
  | idcode op | dtmcs op | dmi op => cases op <;> exact same (by simp) rfl
  | dmiNop _ _ | dmiRead _ _ | dmiWrite _ _ | dmiOpReserved _ _ | dmiStatusOk _ _ | dmiStatusFailed _ _
  | dmiStatusBusy _ _ | dtmcsDmireset | dtmcsDmihardreset => exact same (by simp) rfl
  | data0 a | data1 a | data2 a | data3 a | data4 a | data5 a | data6 a | data7 a | data8 a | data9 a | data10 a
  | data11 a => exact evolves_next _ _ _ (hR.evolves_dataAccess _ a s) he
  | progbuf0 a | progbuf1 a | progbuf2 a | progbuf3 a | progbuf4 a | progbuf5 a | progbuf6 a | progbuf7 a | progbuf8 a
  | progbuf9 a | progbuf10 a | progbuf11 a | progbuf12 a | progbuf13 a | progbuf14 a | progbuf15 a =>
    exact evolves_next _ _ _ (hR.evolves_progbufAccess _ a s) he
  | devtreeaddr0 a | devtreeaddr1 a | devtreeaddr2 a | devtreeaddr3 a | nextdm a | haltsum0 a | haltsum1 a | haltsum2 a
  | haltsum3 a => exact evolves_next _ _ _ (hR.evolves_dmReadOnly _ a _ s) he
  | dmcontrol a =>
    cases a with
    | read => exact same (by simp) rfl
    | write v => exact evolves_next _ _ _ (hR.evolves_writeDmcontrol v s) he
  | dmstatus a =>
    cases a with
    | read =>
      refine evolves_next _ _ _ (hR.same ?_) he
      split <;> simp
    | write v => exact same rfl rfl
  | hartinfo a =>
    refine evolves_next _ _ _ (hR.evolves_dmAccess _ a _ _ s (fun u => hR.same ?_) fun _ _ => hR.same rfl) he
    unfold readHartinfo
    split <;> simp
  | hawindowsel a =>
    refine evolves_next _ _ _ (hR.evolves_dmAccess _ a _ _ s (fun u => ?_) fun v u => ?_) he
    · exact hR.same rfl
    · exact hR.same rfl
  | hawindow a =>
    refine evolves_next _ _ _ (hR.evolves_dmAccess _ a _ _ s (fun u => hR.same rfl) fun v u => ?_) he
    refine HartRel.mapIdx _ _ _ (fun k x => ?_) rfl
    split
    · exact hR.onCtl x _
    · exact hR.refl x
  | abstractcs a =>
    refine evolves_next _ _ _ (hR.evolves_dmAccess _ a _ _ s (fun u => hR.same rfl) fun v u => hR.same ?_) he
    unfold writeAbstractcs
    split <;> simp
  | command a =>
    refine evolves_next _ _ _ (hR.evolves_dmAccess _ a _ _ s (fun u => hR.same rfl) fun v u => hR.same ?_) he
    unfold writeCommand
    repeat' split
    all_goals simp
  | abstractauto a =>
    refine evolves_next _ _ _ (hR.evolves_dmAccess _ a _ _ s (fun u => hR.same rfl) fun v u => hR.same ?_) he
    unfold writeAbstractauto
    split <;> simp
  | authdata a =>
    refine evolves_next _ _ _ (hR.same ?_) he
    have hr : ∀ u : State, (readAuthdata u).1.harts = u.harts := fun _ => rfl
    cases a with
    | read =>
      simp only
      repeat' split
      all_goals simp [hr]
    | write v =>
      simp only
      repeat' split
      all_goals simp
  | sbcs a =>
    exact evolves_next _ _ _ (hR.evolves_dmAccess _ a _ _ s (fun u => hR.same rfl) fun v u => hR.same (by simp)) he
  | sbaddress0 a =>
    refine evolves_next _ _ _ (hR.evolves_dmAccess _ a _ _ s (fun u => hR.same ?_) fun v u => hR.same (by simp)) he
    simp only [readSbaddress]
    repeat' split
    all_goals simp
  | sbaddress1 a | sbaddress2 a | sbaddress3 a =>
    refine evolves_next _ _ _ (hR.evolves_dmAccess _ a _ _ s (fun u => hR.same ?_) fun v u => hR.same (by simp)) he
    simp only [readSbaddress]
    repeat' split
    all_goals simp
  | sbdata0 a =>
    refine evolves_next _ _ _ (hR.evolves_dmAccess _ a _ _ s (fun u => hR.same ?_) fun v u => hR.same (by simp)) he
    simp only [readSbdata0]
    repeat' split
    all_goals simp
  | sbdata1 a | sbdata2 a | sbdata3 a =>
    refine evolves_next _ _ _ (hR.evolves_dmAccess _ a _ _ s (fun u => hR.same ?_) fun v u => hR.same (by simp)) he
    simp only [readSbdata]
    repeat' split
    all_goals simp
  | dcsr op | dpc op | dscratch0 op | dscratch1 op | tselect op | tdata1 op | tdata2 op | tdata3 op =>
    exact evolves_onHart s _ t (fun hart _ => hR.evolves_csrInsn s _ op _) he

/-! ### Moves -/

/-- A move changes the harts along the relation, the instruction it leaves to `exec` included. -/
def MoveOk (R : Hart → Hart → Prop) (s : State) : Move → Prop
  | .quiet t => State.evolves R s t
  | .run _ t _ => State.evolves R s t

theorem evolves_finish (hR : HartRel R) (s : State) (a : After) : State.evolves R s (finish a s) := by
  cases a with
  | none => exact hR.same rfl
  | dtm w => exact hR.same rfl
  | hart h p f => exact hR.evolves_finishHart s h p f

theorem moveOk_wordMove (hR : HartRel R) (h w : Nat) (e : Effect) (s : State) (a : After) (fin : State → State)
    (hf : ∀ u, State.evolves R u (fin u)) : MoveOk R s (wordMove h w e s a fin) := by
  unfold wordMove
  split
  · exact hR.same rfl
  · split
    · exact hR.then_ (hR.evolves_csrInsn s _ _ h) (hf _)
    · exact hR.then_ (hR.evolves_applyEffect s h _ e) (hf _)

theorem evolves_leaveReset (hR : HartRel R) (h : Nat) (hart : Hart) (s : State) :
    State.evolves R s (leaveReset h hart s) := by
  have h1 := hR.modHart s h (fun hart =>
    { hart with inReset := false, resetHalt := false, ctl := { hart.ctl with havereset := true } }) fun x _ =>
    hR.trans (hR.onLeaveReset x) (hR.onCtl _ _)
  simp only [leaveReset]
  split
  · exact hR.then_ h1 (hR.evolves_enterRequested _ h _ _)
  · split
    · exact hR.then_ h1 (hR.evolves_enterOther _ h 3 _ (by decide))
    · exact h1

theorem moveOk_debugMove (hR : HartRel R) (h : Nat) (hart : Hart) (s : State) : MoveOk R s (debugMove h hart s) := by
  have hb : State.evolves R s (s.bump 8) := hR.same rfl
  simp only [debugMove]
  split
  · split
    · exact hR.then_ hb (hR.evolves_raise _ h 1)
    · rename_i w _
      have hm := hR.moveOk_wordMove h w (effectOf s hart (s.free + 2) w) (s.bump 8) .none id fun u => hR.same rfl
      revert hm
      generalize wordMove h w (effectOf s hart (s.free + 2) w) (s.bump 8) .none id = m
      cases m <;> exact fun hm => hR.then_ hb hm
  · split
    · exact hR.then_ (hR.evolves_leaveDebug s h) (hR.modHart _ h _ fun x _ => hR.onCtl x _)
    · exact hR.modHart s h _ fun x _ => hR.countUp x _

theorem moveOk_runMove (hR : HartRel R) (h : Nat) (hart : Hart) (s : State) : MoveOk R s (runMove h hart s) := by
  have hb : State.evolves R s (s.bump 8) := hR.same rfl
  have hh : ∀ ms : List Bool, State.evolves R s ((s.bump 8).modHart h fun hart => hart.setHits ms) := fun ms =>
    hR.then_ hb (hR.modHart _ h _ fun x _ => hR.onHits x _)
  simp only [runMove]
  generalize fetchInsn s hart s.free = fetched
  generalize fetchedEffect s hart (s.free + 2) fetched = e
  generalize hart.trigMatches hart.priv false (factsOf hart (s.free + 6) fetched e) = ms
  split
  · exact hR.then_ (hh ms) (hR.evolves_enterOther _ h 2 _ (by decide))
  · split
    · exact hR.then_ hb (hR.evolves_enterRequested _ h _ _)
    · split
      · exact hR.then_ hb (hR.then_ (hR.modHart _ h _ fun x _ => hR.onTrap x _ _ _) (hR.evolves_stepEnd _ h))
      · split
        · exact hR.then_ (hh ms) (hR.then_ (hR.evolves_raise _ h _) (hR.evolves_finishHart _ h _ _))
        · cases fetched with
          | none => exact hR.then_ (hh ms) (hR.then_ (hR.evolves_raise _ h _) (hR.evolves_finishHart _ h _ _))
          | some w =>
            have hm := hR.moveOk_wordMove h w e ((s.bump 8).modHart h fun hart => hart.setHits ms)
              (.hart h hart.priv (factsOf hart (s.free + 6) (some w) e)) (finishHart h hart.priv (factsOf hart (s.free + 6) (some w) e))
              fun u => hR.evolves_finishHart u h _ _
            dsimp only
            revert hm
            generalize wordMove h w e ((s.bump 8).modHart h fun hart => hart.setHits ms)
              (.hart h hart.priv (factsOf hart (s.free + 6) (some w) e)) (finishHart h hart.priv (factsOf hart (s.free + 6) (some w) e)) = m
            cases m <;> exact fun hm => hR.then_ (hh ms) hm

theorem moveOk_hartMove (hR : HartRel R) (h : Nat) (s : State) : MoveOk R s (hartMove h s) := by
  simp only [hartMove]
  split
  · exact hR.same rfl
  · split
    · exact hR.same rfl
    · split
      · split
        · exact hR.same rfl
        · exact hR.then_ (hR.same (t := { s with cur := h }) rfl) (hR.evolves_leaveReset h _ _)
      · rename_i hart _ _ _
        have h1 : State.evolves R s (({ s with cur := h } : State).modHart h fun hart => { hart with trapped := false }) :=
          hR.then_ (hR.same (t := { s with cur := h }) rfl) (hR.modHart _ h _ fun x _ => hR.onTrapped x _)
        revert h1
        generalize (({ s with cur := h } : State).modHart h fun hart => { hart with trapped := false }) = u
        intro h1
        split
        · have hm := hR.moveOk_debugMove h hart u
          revert hm
          generalize debugMove h hart u = m
          cases m <;> exact fun hm => hR.then_ h1 hm
        · have hm := hR.moveOk_runMove h hart u
          revert hm
          generalize runMove h hart u = m
          cases m <;> exact fun hm => hR.then_ h1 hm

theorem moveOk_dmiMove (hR : HartRel R) (address : Word) (acc : DmAcc) (a : After) (s : State) :
    MoveOk R s (dmiMove address acc a s) := by
  have hmiss : ∀ b u, u.harts = s.harts → State.evolves R s (finish a (missAccess b acc u)) := fun b u hu =>
    hR.then_ (hR.same (by
      unfold missAccess
      repeat' split
      all_goals simp [hu])) (hR.evolves_finish _ a)
  unfold dmiMove
  split
  · split
    · exact hR.same rfl
    · exact hmiss _ _ rfl
  · split
    · exact hmiss _ _ rfl
    · split
      · exact hR.same rfl
      · exact hmiss _ _ rfl

theorem moveOk_dtmMove (hR : HartRel R) (s : State) : MoveOk R s (dtmMove s) := by
  unfold dtmMove
  split
  · exact hR.moveOk_dmiMove _ _ _ s
  · exact hR.same rfl

theorem evolves_map (s t : State) (f : Hart → Hart) (hf : ∀ a, R a (f a)) (h : t.harts = s.harts.map f) :
    State.evolves R s t := by
  refine ⟨by simp [h], fun k old new ho hn => ?_⟩
  rw [h, List.getElem?_map, ho] at hn
  cases hn
  exact hf old

theorem evolves_busComplete (hR : HartRel R) (s : State) : State.evolves R s (busComplete s) := by
  simp only [busComplete]
  split
  · exact hR.same rfl
  · split
    · exact hR.same rfl
    · split
      · exact hR.same rfl
      · split
        · split
          · rename_i p _ _ _ _ _ _
            cases hc : s.cfg.sbaCoherent with
            | true => exact evolves_map s _ _ (fun x => hR.breakReservation x p.address p.bytes) rfl
            | false => exact hR.same rfl
          · exact hR.same rfl
        · exact hR.same rfl

theorem moveOk_engineMove (hR : HartRel R) (s : State) : MoveOk R s (engineMove s) := by
  have h : State.evolves R s s := hR.same rfl
  unfold engineMove
  split <;> exact h

theorem moveOk_eventMove (hR : HartRel R) (e : Event) (s : State) : MoveOk R s (eventMove e s) := by
  cases e with
  | tapReset => exact hR.same (by simp [tapReset])
  | scanIR v =>
    have h : State.evolves R s s := hR.same rfl
    simp only [eventMove, scanIrMove]
    split
    · exact h
    · exact hR.same (by simp)
  | scanDR tdi =>
    have h : State.evolves R s s := hR.same rfl
    simp only [eventMove, scanDrMove]
    split
    · exact h
    · exact hR.same (by simp)
  | captureDR =>
    have h : State.evolves R s s := hR.same rfl
    simp only [eventMove, captureMove]
    split
    · exact h
    all_goals exact hR.same (by simp)
  | updateDR tdi =>
    have h : State.evolves R s s := hR.same rfl
    simp only [eventMove, updateMove]
    repeat' split
    all_goals exact h
  | runIdle n => exact hR.same rfl
  | dmi address acc => exact hR.moveOk_dmiMove _ _ _ s
  | dtm => exact hR.moveOk_dtmMove s
  | engine => exact hR.moveOk_engineMove s
  | bus => exact hR.evolves_busComplete s
  | auth => exact hR.same (by simp)
  | hart h => exact hR.moveOk_hartMove h s
  | extReset b =>
    exact hR.then_ (hR.same (t := { s with extReset := b }) rfl) (hR.evolves_applyResets _ _)
  | hartReset h => exact hR.evolves_resetHart s false true h
  | avail h b => exact hR.modHart s h _ fun x _ => hR.onAvail x b
  | setMip h v => exact hR.modHart s h _ fun x _ => hR.onSys x _
  | tick h n =>
    refine hR.modHart s h _ fun x _ => ?_
    unfold Hart.tick
    split
    · exact hR.refl x
    · exact hR.onTimer x _
  | dropReservation h =>
    refine hR.modHart s h _ fun x _ => ?_
    split
    · exact hR.onReservation x _
    · exact hR.refl x
  | busToHart a => exact hR.same rfl
  | hartToBus a => exact hR.same rfl
  | syncFetch a => exact hR.same rfl

/-- What a move does to the harts. -/
theorem moveOk_nextMove (hR : HartRel R) (s : State) : MoveOk R s (nextMove s) := by
  unfold nextMove
  split
  · unfold idleMove
    split
    · exact hR.moveOk_dtmMove s
    · split
      · exact hR.moveOk_engineMove s
      · split
        · exact hR.evolves_busComplete s
        · split
          · exact hR.same (by simp)
          · have hm := hR.moveOk_hartMove (s.rr % s.harts.length) { s with rr := (s.rr + 1) % s.harts.length }
            revert hm
            generalize hartMove _ _ = m
            cases m <;> exact fun hm => hm
  · rename_i e q _
    have hm := hR.moveOk_eventMove e { s with queue := q }
    revert hm
    generalize eventMove _ _ = m
    cases m <;> exact fun hm => hm

/-- What a step does to the harts: the same number of them, each related to what it was. -/
theorem evolves_step (hR : HartRel R) (s t : State) (h : step s = .next t) : State.evolves R s t := by
  have hm := hR.moveOk_nextMove s
  unfold step at h
  split at h
  · rename_i u hn
    rw [hn] at hm
    cases h
    exact hm
  · rename_i i u a hn
    rw [hn] at hm
    split at h
    · rename_i v he
      cases h
      exact hR.then_ hm (hR.then_ (hR.evolves_exec i u v he) (hR.evolves_finish v a))
    · cases h
    · cases h

end HartRel
end Sys2Proof.Machine
end

