-- ==== Sys2Proof/Laws/PerInstr.lean ====
section
/-! SUPPORT. The per-instruction family EncodeFits: the word `encode` gives a well-formed instruction lies within the width
of its encoding space (spec/30_encoding.md R240 to R260), so that no bit of it is lost when it is stored or scanned. -/

namespace Sys2Proof

/-- The width in bits of the words of an encoding space. -/
def Space.width : Space → Nat
  | .hart => 32
  | .command => 32
  | .dmiIn => 66
  | .dmiOut => 66
  | .dtmcsIn => 32
  | .ir => 75
  | .dm => 65

theorem flag_le (b : Bool) (lo : Nat) : flag b lo ≤ 2 ^ lo := by
  cases b <;> simp [flag]

theorem csrWord_lt (csr : Nat) (op : CsrOp) (h : csr < 2 ^ 12) : csrWord csr op < 2 ^ 32 := by
  obtain ⟨kind, imm, rd, src⟩ := op
  have h1 := rd.isLt
  have h2 := src.isLt
  have h3 : CsrOp.funct3 { kind, imm, rd, src } < 8 := by
    cases kind <;> cases imm <;> simp [CsrOp.funct3]
  simp only [csrWord]
  omega

theorem dmiWord_lt (address data : Word) (op : Nat) (h : op < 4) : dmiWord address data op < 2 ^ 66 := by
  have h1 := address.isLt
  have h2 := data.isLt
  simp only [dmiWord]
  omega

theorem irWord_lt (code : Nat) (op : IrOp) (h : code < 2 ^ 8) : irWord code op < 2 ^ 75 := by
  cases op with
  | select =>
    simp only [irWord]
    omega
  | scan tdi =>
    have h1 := tdi.isLt
    simp only [irWord]
    omega

theorem dmWord_lt (offset : Nat) (a : DmAcc) (h : offset < 2 ^ 8) : dmWord offset a < 2 ^ 65 := by
  cases a with
  | read =>
    simp only [dmWord]
    omega
  | write v =>
    have h1 := v.isLt
    simp only [dmWord]
    omega

end Sys2Proof

namespace Sys2Proof.Laws.EncodeFits

/-- The encoded word of a well-formed instruction fits its space. -/
def Statement (i : Instr) : Prop := i.wellFormed = true → (encode i).2 < 2 ^ (encode i).1.width

theorem dret : Statement .dret := fun _ => by decide

theorem ebreak : Statement .ebreak := fun _ => by decide

theorem cEbreak : Statement .cEbreak := fun _ => by decide

theorem cNop : Statement .cNop := fun _ => by decide

theorem wfi : Statement .wfi := fun _ => by decide

theorem ecall : Statement .ecall := fun _ => by decide

theorem mret : Statement .mret := fun _ => by decide

theorem hret : Statement .hret := fun _ => by decide

theorem sret : Statement .sret := fun _ => by decide

theorem uret : Statement .uret := fun _ => by decide

theorem accessRegister (size : BitVec 3) (postexec transfer write : Bool) (regno : BitVec 16) (res23 res19 : Bool) :
    Statement (.accessRegister size postexec transfer write regno res23 res19) := fun _ => by
  have h1 := size.isLt
  have h2 := regno.isLt
  have h3 := flag_le res23 23
  have h4 := flag_le res19 19
  have h5 := flag_le postexec 18
  have h6 := flag_le transfer 17
  have h7 := flag_le write 16
  simp only [encode, Space.width]
  omega

theorem quickAccess (reserved : BitVec 24) : Statement (.quickAccess reserved) := fun _ => by
  have h1 := reserved.isLt
  simp only [encode, Space.width]
  omega

theorem commandReservedCmdtype (cmdtype : BitVec 8) (control : BitVec 24) :
    Statement (.commandReservedCmdtype cmdtype control) := fun _ => by
  have h1 := cmdtype.isLt
  have h2 := control.isLt
  simp only [encode, Space.width]
  omega

theorem dmiNop (address data : Word) : Statement (.dmiNop address data) := fun _ => dmiWord_lt address data _ (by decide)

theorem dmiRead (address data : Word) : Statement (.dmiRead address data) := fun _ => dmiWord_lt address data _ (by decide)

theorem dmiWrite (address data : Word) : Statement (.dmiWrite address data) := fun _ => dmiWord_lt address data _ (by decide)

theorem dmiOpReserved (address data : Word) : Statement (.dmiOpReserved address data) := fun _ => dmiWord_lt address data _ (by decide)

theorem dmiStatusOk (address data : Word) : Statement (.dmiStatusOk address data) := fun _ => dmiWord_lt address data _ (by decide)

theorem dmiStatusFailed (address data : Word) : Statement (.dmiStatusFailed address data) := fun _ => dmiWord_lt address data _ (by decide)

theorem dmiStatusBusy (address data : Word) : Statement (.dmiStatusBusy address data) := fun _ => dmiWord_lt address data _ (by decide)

theorem dtmcsDmireset : Statement .dtmcsDmireset := fun _ => by decide

theorem dtmcsDmihardreset : Statement .dtmcsDmihardreset := fun _ => by decide

theorem bypass00 (op : IrOp) : Statement (.bypass00 op) := fun _ => irWord_lt _ op (by decide)

theorem idcode (op : IrOp) : Statement (.idcode op) := fun _ => irWord_lt _ op (by decide)

theorem dtmcs (op : IrOp) : Statement (.dtmcs op) := fun _ => irWord_lt _ op (by decide)

theorem dmi (op : IrOp) : Statement (.dmi op) := fun _ => irWord_lt _ op (by decide)

theorem reservedBypass12 (op : IrOp) : Statement (.reservedBypass12 op) := fun _ => irWord_lt _ op (by decide)

theorem reservedBypass13 (op : IrOp) : Statement (.reservedBypass13 op) := fun _ => irWord_lt _ op (by decide)

theorem reservedBypass14 (op : IrOp) : Statement (.reservedBypass14 op) := fun _ => irWord_lt _ op (by decide)

theorem reservedBypass15 (op : IrOp) : Statement (.reservedBypass15 op) := fun _ => irWord_lt _ op (by decide)

theorem reservedBypass16 (op : IrOp) : Statement (.reservedBypass16 op) := fun _ => irWord_lt _ op (by decide)

theorem reservedBypass17 (op : IrOp) : Statement (.reservedBypass17 op) := fun _ => irWord_lt _ op (by decide)

theorem bypass1f (op : IrOp) : Statement (.bypass1f op) := fun _ => irWord_lt _ op (by decide)

theorem data0 (a : DmAcc) : Statement (.data0 a) := fun _ => dmWord_lt _ a (by decide)

theorem data1 (a : DmAcc) : Statement (.data1 a) := fun _ => dmWord_lt _ a (by decide)

theorem data2 (a : DmAcc) : Statement (.data2 a) := fun _ => dmWord_lt _ a (by decide)

theorem data3 (a : DmAcc) : Statement (.data3 a) := fun _ => dmWord_lt _ a (by decide)

theorem data4 (a : DmAcc) : Statement (.data4 a) := fun _ => dmWord_lt _ a (by decide)

theorem data5 (a : DmAcc) : Statement (.data5 a) := fun _ => dmWord_lt _ a (by decide)

theorem data6 (a : DmAcc) : Statement (.data6 a) := fun _ => dmWord_lt _ a (by decide)

theorem data7 (a : DmAcc) : Statement (.data7 a) := fun _ => dmWord_lt _ a (by decide)

theorem data8 (a : DmAcc) : Statement (.data8 a) := fun _ => dmWord_lt _ a (by decide)

theorem data9 (a : DmAcc) : Statement (.data9 a) := fun _ => dmWord_lt _ a (by decide)

theorem data10 (a : DmAcc) : Statement (.data10 a) := fun _ => dmWord_lt _ a (by decide)

theorem data11 (a : DmAcc) : Statement (.data11 a) := fun _ => dmWord_lt _ a (by decide)

theorem dmcontrol (a : DmAcc) : Statement (.dmcontrol a) := fun _ => dmWord_lt _ a (by decide)

theorem dmstatus (a : DmAcc) : Statement (.dmstatus a) := fun _ => dmWord_lt _ a (by decide)

theorem hartinfo (a : DmAcc) : Statement (.hartinfo a) := fun _ => dmWord_lt _ a (by decide)

theorem hawindowsel (a : DmAcc) : Statement (.hawindowsel a) := fun _ => dmWord_lt _ a (by decide)

theorem hawindow (a : DmAcc) : Statement (.hawindow a) := fun _ => dmWord_lt _ a (by decide)

theorem abstractcs (a : DmAcc) : Statement (.abstractcs a) := fun _ => dmWord_lt _ a (by decide)

theorem command (a : DmAcc) : Statement (.command a) := fun _ => dmWord_lt _ a (by decide)

theorem abstractauto (a : DmAcc) : Statement (.abstractauto a) := fun _ => dmWord_lt _ a (by decide)

theorem haltsum1 (a : DmAcc) : Statement (.haltsum1 a) := fun _ => dmWord_lt _ a (by decide)

theorem devtreeaddr0 (a : DmAcc) : Statement (.devtreeaddr0 a) := fun _ => dmWord_lt _ a (by decide)

theorem devtreeaddr1 (a : DmAcc) : Statement (.devtreeaddr1 a) := fun _ => dmWord_lt _ a (by decide)

theorem devtreeaddr2 (a : DmAcc) : Statement (.devtreeaddr2 a) := fun _ => dmWord_lt _ a (by decide)

theorem devtreeaddr3 (a : DmAcc) : Statement (.devtreeaddr3 a) := fun _ => dmWord_lt _ a (by decide)

theorem nextdm (a : DmAcc) : Statement (.nextdm a) := fun _ => dmWord_lt _ a (by decide)

theorem progbuf0 (a : DmAcc) : Statement (.progbuf0 a) := fun _ => dmWord_lt _ a (by decide)

theorem progbuf1 (a : DmAcc) : Statement (.progbuf1 a) := fun _ => dmWord_lt _ a (by decide)

theorem progbuf2 (a : DmAcc) : Statement (.progbuf2 a) := fun _ => dmWord_lt _ a (by decide)

theorem progbuf3 (a : DmAcc) : Statement (.progbuf3 a) := fun _ => dmWord_lt _ a (by decide)

theorem progbuf4 (a : DmAcc) : Statement (.progbuf4 a) := fun _ => dmWord_lt _ a (by decide)

theorem progbuf5 (a : DmAcc) : Statement (.progbuf5 a) := fun _ => dmWord_lt _ a (by decide)

theorem progbuf6 (a : DmAcc) : Statement (.progbuf6 a) := fun _ => dmWord_lt _ a (by decide)

theorem progbuf7 (a : DmAcc) : Statement (.progbuf7 a) := fun _ => dmWord_lt _ a (by decide)

theorem progbuf8 (a : DmAcc) : Statement (.progbuf8 a) := fun _ => dmWord_lt _ a (by decide)

theorem progbuf9 (a : DmAcc) : Statement (.progbuf9 a) := fun _ => dmWord_lt _ a (by decide)

theorem progbuf10 (a : DmAcc) : Statement (.progbuf10 a) := fun _ => dmWord_lt _ a (by decide)

theorem progbuf11 (a : DmAcc) : Statement (.progbuf11 a) := fun _ => dmWord_lt _ a (by decide)

theorem progbuf12 (a : DmAcc) : Statement (.progbuf12 a) := fun _ => dmWord_lt _ a (by decide)

theorem progbuf13 (a : DmAcc) : Statement (.progbuf13 a) := fun _ => dmWord_lt _ a (by decide)

theorem progbuf14 (a : DmAcc) : Statement (.progbuf14 a) := fun _ => dmWord_lt _ a (by decide)

theorem progbuf15 (a : DmAcc) : Statement (.progbuf15 a) := fun _ => dmWord_lt _ a (by decide)

theorem authdata (a : DmAcc) : Statement (.authdata a) := fun _ => dmWord_lt _ a (by decide)

theorem haltsum2 (a : DmAcc) : Statement (.haltsum2 a) := fun _ => dmWord_lt _ a (by decide)

theorem haltsum3 (a : DmAcc) : Statement (.haltsum3 a) := fun _ => dmWord_lt _ a (by decide)

theorem sbaddress3 (a : DmAcc) : Statement (.sbaddress3 a) := fun _ => dmWord_lt _ a (by decide)

theorem sbcs (a : DmAcc) : Statement (.sbcs a) := fun _ => dmWord_lt _ a (by decide)

theorem sbaddress0 (a : DmAcc) : Statement (.sbaddress0 a) := fun _ => dmWord_lt _ a (by decide)

theorem sbaddress1 (a : DmAcc) : Statement (.sbaddress1 a) := fun _ => dmWord_lt _ a (by decide)

theorem sbaddress2 (a : DmAcc) : Statement (.sbaddress2 a) := fun _ => dmWord_lt _ a (by decide)

theorem sbdata0 (a : DmAcc) : Statement (.sbdata0 a) := fun _ => dmWord_lt _ a (by decide)

theorem sbdata1 (a : DmAcc) : Statement (.sbdata1 a) := fun _ => dmWord_lt _ a (by decide)

theorem sbdata2 (a : DmAcc) : Statement (.sbdata2 a) := fun _ => dmWord_lt _ a (by decide)

theorem sbdata3 (a : DmAcc) : Statement (.sbdata3 a) := fun _ => dmWord_lt _ a (by decide)

theorem haltsum0 (a : DmAcc) : Statement (.haltsum0 a) := fun _ => dmWord_lt _ a (by decide)

theorem dcsr (op : CsrOp) : Statement (.dcsr op) := fun _ => csrWord_lt _ op (by decide)

theorem dpc (op : CsrOp) : Statement (.dpc op) := fun _ => csrWord_lt _ op (by decide)

theorem dscratch0 (op : CsrOp) : Statement (.dscratch0 op) := fun _ => csrWord_lt _ op (by decide)

theorem dscratch1 (op : CsrOp) : Statement (.dscratch1 op) := fun _ => csrWord_lt _ op (by decide)

theorem tselect (op : CsrOp) : Statement (.tselect op) := fun _ => csrWord_lt _ op (by decide)

theorem tdata1 (op : CsrOp) : Statement (.tdata1 op) := fun _ => csrWord_lt _ op (by decide)

theorem tdata2 (op : CsrOp) : Statement (.tdata2 op) := fun _ => csrWord_lt _ op (by decide)

theorem tdata3 (op : CsrOp) : Statement (.tdata3 op) := fun _ => csrWord_lt _ op (by decide)

end Sys2Proof.Laws.EncodeFits
end

