-- ==== Sys2Proof/Tests/Slice0.lean ====
section
/-! SUPPORT. Tests: ill-formed terms, words written out from the spec's encodings, single steps with results taken from
spec/95_test_vectors.md or worked out by hand from the rules, and for every obligation with hypotheses a concrete state and
operands that meet them (`witness_…`). -/

namespace Sys2Proof.Tests
open Sys2Proof Sys2Proof.Machine

/-! ### Small states -/

/-- The hart of the minimal model, running after power-up with its reset acknowledged. -/
def runningHart : Hart :=
  let hart := Hart.reset minimalHart [minimalTrigger, minimalTrigger]
  { hart with ctl := { hart.ctl with havereset := false } }

/-- The same hart halted by a halt request at 0x80000100. -/
def haltedHart : Hart :=
  { runningHart with debugMode := true, dcsr := { runningHart.dcsr with cause := 3 }, dpc := 0x80000100 }

/-- The same hart executing the Program Buffer from its first word. -/
def bufferHart : Hart := { haltedHart with inProgbuf := true, pc := 0x300 }

/-- A machine with one hart, an active DM and these events to come. -/
def machine (hart : Hart) (q : List Event) : State :=
  { State.reset with dm := { State.reset.dm with dmactive := true }, harts := [hart], queue := q }

/-- What `f` sees after an instruction, none if there is no next state. -/
def after {α : Type} (i : Instr) (s : State) (f : State → α) : Option α :=
  match exec i s with
  | .next t => some (f t)
  | _ => none

/-- What `f` sees after a step. -/
def afterStep {α : Type} (s : State) (f : State → α) : Option α :=
  match step s with
  | .next t => some (f t)
  | _ => none

/-- What `f` sees of hart 0, none if it does not exist. -/
def ofHart {α : Type} (f : Hart → α) (s : State) : Option α := s.harts[0]?.map f

/-! ### Ill-formed terms (WellFormed.lean) -/

theorem test_illFormed_cmdtype_1 : (Instr.commandReservedCmdtype 1 0).wellFormed = false := by decide
theorem test_illFormed_bypass00 : (Instr.bypass00 (.scan 2)).wellFormed = false := by decide
theorem test_illFormed_idcode : (Instr.idcode (.scan 0x100000000)).wellFormed = false := by decide
theorem test_illFormed_dtmcs : (Instr.dtmcs (.scan 0x100000000)).wellFormed = false := by decide
theorem test_illFormed_reservedBypass :
    [Instr.reservedBypass12 (.scan 2), .reservedBypass13 (.scan 2), .reservedBypass14 (.scan 2), .reservedBypass15 (.scan 2),
      .reservedBypass16 (.scan 2), .reservedBypass17 (.scan 2)].all (fun i => !i.wellFormed) = true := by decide
theorem test_illFormed_bypass1f : (Instr.bypass1f (.scan 2)).wellFormed = false := by decide
theorem test_illFormed_scanTooWide : (decodeIrCode 0x01 (.scan 0x100000000)).toOption = none := by decide

/-! ### Decoding of words written out from the spec's encodings -/

/-- Several words of one space and what they stand for. -/
def decodesTo (sp : Space) (rows : List (Nat × Instr)) : Bool :=
  rows.all fun p => decide ((decode sp p.1).toOption = some p.2)

/-- R250, R251: dret is the source's; the others' words are those of spec/95_test_vectors.md and the privileged ISA. -/
theorem test_decode_hart : decodesTo .hart
    [(0x7b200073, .dret), (0x00100073, .ebreak), (0x9002, .cEbreak), (0x0001, .cNop), (0x10500073, .wfi),
      (0x00000073, .ecall), (0x30200073, .mret), (0x20200073, .hret), (0x10200073, .sret), (0x00200073, .uret)] = true := by
  decide

/-- R120, R140: CSR numbers in bits 31:20; the words of spec/95_test_vectors.md (s0 is x8). -/
theorem test_decode_csr : decodesTo .hart
    [(0x7b002473, .dcsr { kind := .rs, imm := false, rd := 8, src := 0 }),
      (0x7b041073, .dcsr { kind := .rw, imm := false, rd := 0, src := 8 }),
      (0x7b102473, .dpc { kind := .rs, imm := false, rd := 8, src := 0 }),
      (0x7b241073, .dscratch0 { kind := .rw, imm := false, rd := 0, src := 8 }),
      (0x7b302473, .dscratch1 { kind := .rs, imm := false, rd := 8, src := 0 }),
      (0x7a041073, .tselect { kind := .rw, imm := false, rd := 0, src := 8 }),
      (0x7a141073, .tdata1 { kind := .rw, imm := false, rd := 0, src := 8 }),
      (0x7a202473, .tdata2 { kind := .rs, imm := false, rd := 8, src := 0 }),
      (0x7a3ff0f3, .tdata3 { kind := .rc, imm := true, rd := 1, src := 31 })] = true := by
  decide

/-- R242, R244, R245: cmdtype 31:24, size 22:20, postexec 18, transfer 17, write 16, regno 15:0. -/
theorem test_decode_command : decodesTo .command
    [(0x00221008, .accessRegister 2 false true false 0x1008 false false),
      (0x00271008, .accessRegister 2 true true true 0x1008 false false),
      (0x00880000, .accessRegister 0 false false false 0 true true),
      (0x01000000, .quickAccess 0), (0x10000000, .commandReservedCmdtype 0x10 0)] = true := by
  decide

/-- R255: address above bit 33, data 33:2, op 1:0. -/
theorem test_decode_dmi : decodesTo .dmiIn
    [(0x04400000001, .dmiRead 0x11 0), (0x04200000006, .dmiWrite 0x10 0x80000001), (0, .dmiNop 0 0),
      (0x0800010920f, .dmiOpReserved 0x20 0x00042483)] = true ∧
    decodesTo .dmiOut
    [(0x01300e08, .dmiStatusOk 0 0x004c0382), (2, .dmiStatusFailed 0 0), (3, .dmiStatusBusy 0 0)] = true ∧
    (decodeDmiOut 1).toOption = none := by
  decide

/-- R256: dmireset is bit 16, dmihardreset bit 17. -/
theorem test_decode_dtmcs : decodesTo .dtmcsIn [(0x10000, .dtmcsDmireset), (0x20000, .dtmcsDmihardreset)] = true ∧
    (decode .dtmcsIn 0x40000).toOption = none := by
  decide

/-- R260, Table 6.1. -/
theorem test_decode_ir : decodesTo .ir
    [(0x00, .bypass00 .select), (0x01, .idcode .select), (0x10, .dtmcs .select), (0x11, .dmi .select),
      (0x12, .reservedBypass12 .select), (0x13, .reservedBypass13 .select), (0x14, .reservedBypass14 .select),
      (0x15, .reservedBypass15 .select), (0x16, .reservedBypass16 .select), (0x17, .reservedBypass17 .select),
      (0x1f, .bypass1f .select)] = true ∧
    (decode .ir 0x02).toOption = none := by
  decide

/-- R50, Table 3.7: the offset of every register; haltsum1 at the offset of spec/92_eei_decisions.md D1. -/
theorem test_decode_dm_low : decodesTo .dm
    [(0x04, .data0 .read), (0x05, .data1 .read), (0x06, .data2 .read), (0x07, .data3 .read), (0x08, .data4 .read),
      (0x09, .data5 .read), (0x0a, .data6 .read), (0x0b, .data7 .read), (0x0c, .data8 .read), (0x0d, .data9 .read),
      (0x0e, .data10 .read), (0x0f, .data11 .read), (0x10, .dmcontrol .read), (0x11, .dmstatus .read),
      (0x12, .hartinfo .read), (0x13, .haltsum1 .read), (0x14, .hawindowsel .read), (0x15, .hawindow .read),
      (0x16, .abstractcs .read), (0x17, .command .read), (0x18, .abstractauto .read), (0x19, .devtreeaddr0 .read),
      (0x1a, .devtreeaddr1 .read), (0x1b, .devtreeaddr2 .read), (0x1c, .devtreeaddr3 .read), (0x1d, .nextdm .read)] = true ∧
    (decode .dm 0x03).toOption = none := by
  decide

/-- R50, Table 3.7, the offsets from 0x20 up. -/
theorem test_decode_dm_high : decodesTo .dm
    [(0x20, .progbuf0 .read), (0x21, .progbuf1 .read), (0x22, .progbuf2 .read), (0x23, .progbuf3 .read),
      (0x24, .progbuf4 .read), (0x25, .progbuf5 .read), (0x26, .progbuf6 .read), (0x27, .progbuf7 .read),
      (0x28, .progbuf8 .read), (0x29, .progbuf9 .read), (0x2a, .progbuf10 .read), (0x2b, .progbuf11 .read),
      (0x2c, .progbuf12 .read), (0x2d, .progbuf13 .read), (0x2e, .progbuf14 .read), (0x2f, .progbuf15 .read),
      (0x30, .authdata .read), (0x34, .haltsum2 .read), (0x35, .haltsum3 .read), (0x37, .sbaddress3 .read),
      (0x38, .sbcs .read), (0x39, .sbaddress0 .read), (0x3a, .sbaddress1 .read), (0x3b, .sbaddress2 .read),
      (0x3c, .sbdata0 .read), (0x3d, .sbdata1 .read), (0x3e, .sbdata2 .read), (0x3f, .sbdata3 .read),
      (0x40, .haltsum0 .read), (0x1deadbeef00000010, .dmcontrol (.write 0xdeadbeef))] = true ∧
    (decode .dm 0x41).toOption = none := by
  decide

/-- The bytes of a word, the least significant at the lowest address. -/
theorem test_decode_bytes : (decodeBytes .hart [0x73, 0x00, 0x20, 0x7b]).toOption = some .dret := by decide

/-- The model's reset memory is canonical. -/
theorem test_reset_memory : State.reset.memoryOk := ⟨by decide, by decide, by decide⟩

/-! ### Hart instructions: single executions (vectors V-DBG of spec/95_test_vectors.md) -/

/-- V-DBG-10: dret goes to dpc at dcsr.prv and leaves Debug Mode; dcsr.cause stays. -/
theorem test_dret : after .dret (machine bufferHart []) (ofHart fun x => (x.debugMode, x.pc, x.priv, x.dcsr.cause)) =
    some (some (false, 0x80000100, .m, 3)) := by decide

/-- V-DBG-9: dret outside Debug Mode is an illegal instruction. -/
theorem test_dret_illegal : after .dret (machine runningHart [])
    (ofHart fun x => (x.debugMode, x.sys.mcause, x.sys.mepc, x.pc)) = some (some (false, 2, 0x80000000, 0)) := by decide

/-- V-DBG-6: ebreak with ebreakm 1 enters Debug Mode at its own address, mcause untouched. -/
theorem test_ebreak : after .ebreak
    (machine { runningHart with pc := 0x80000010, dcsr := { runningHart.dcsr with ebreakm := true } } [])
    (ofHart fun x => (x.debugMode, x.dcsrNat, x.dpc, x.sys.mcause)) =
      some (some (true, 0x40008043, 0x80000010, 0)) := by decide

/-- V-DBG-7: with ebreakm 0 it is a breakpoint exception. -/
theorem test_ebreak_exception : after .ebreak (machine { runningHart with pc := 0x80000010 } [])
    (ofHart fun x => (x.debugMode, x.sys.mcause, x.sys.mepc)) = some (some (false, 3, 0x80000010)) := by decide

/-- V-DBG-8. -/
theorem test_cEbreak : after .cEbreak
    (machine { runningHart with pc := 0x80000012, dcsr := { runningHart.dcsr with ebreakm := true } } [])
    (ofHart fun x => (x.debugMode, x.dcsr.cause, x.dpc)) = some (some (true, 1, 0x80000012)) := by decide

/-- R491: what an ebreak in Debug Mode does to the Program Buffer: it ends, dpc and dcsr stay. -/
theorem test_ebreak_buffer : ofHart (fun x => (x.debugMode, x.inProgbuf, x.dpc, x.dcsrNat))
    (endProgbuf 0 none (machine bufferHart [])) = some (true, false, 0x80000100, 0x400000c3) := by decide

/-- R383: two bytes. R494: wfi is a nop. -/
theorem test_cNop : after .cNop (machine bufferHart []) (ofHart fun x => (x.pc, x.inProgbuf)) = some (some (0x302, true)) := by
  decide
theorem test_wfi : after .wfi (machine bufferHart []) (ofHart fun x => (x.pc, x.inProgbuf)) = some (some (0x304, true)) := by
  decide

/-- The environment call exception from machine mode is cause 11 (privileged ISA). -/
theorem test_ecall : after .ecall (machine runningHart []) (ofHart fun x => (x.sys.mcause, x.sys.mepc)) =
    some (some (11, 0x80000000)) := by decide

/-- mret to mepc; MIE from MPIE (bit 7), MPIE 1, MPP stays M where there is no U mode (privileged ISA). -/
theorem test_mret : after .mret
    (machine { runningHart with sys := { runningHart.sys with mepc := 0x80000200, mstatus := 0x1880 } } [])
    (ofHart fun x => (x.pc, x.priv, x.sys.mstatus)) = some (some (0x80000200, .m, 0x1888)) := by decide

/-- There is no hypervisor mode (Table 4.5), and no S mode or user-level interrupts on this hart. -/
theorem test_hret_sret_uret : [Instr.hret, .sret, .uret].all (fun i =>
    decide (after i (machine runningHart []) (ofHart fun x => x.sys.mcause) = some (some 2))) = true := by decide

/-- sret from S mode with SPP 0 goes to U mode at sepc; SIE from SPIE (bit 5) (privileged ISA). -/
theorem test_sret : after .sret
    (machine { runningHart with
      cfg := { runningHart.cfg with privs := [.m, .s, .u] }
      priv := .s
      sys := { runningHart.sys with sepc := 0x80000300, mstatus := 0x20 } } [])
    (ofHart fun x => (x.pc, x.priv, x.sys.mstatus)) = some (some (0x80000300, .u, 0x22)) := by decide

/-- Compressed words and the 32-bit words they stand for, assembled by hand from the C extension's tables: addi sp, li,
lui, addi16sp, addi4spn, slli, srli, andi, sub, mv, add, lw, sw, lwsp, swsp, j, jr, jalr, beqz, bnez; ld and addiw on a
64-bit hart. -/
theorem test_compressed : [(0x1141, 0xff010113), (0x4505, 0x00100513), (0x6505, 0x00001537), (0x717d, 0xff010113),
      (0x0808, 0x01010513), (0x050a, 0x00251513), (0x8109, 0x00255513), (0x8905, 0x00157513), (0x8d0d, 0x40b50533),
      (0x852e, 0x00b00533), (0x952e, 0x00b50533), (0x4110, 0x00052603), (0xc150, 0x00c52223), (0x40b2, 0x00c12083),
      (0xc606, 0x00112623), (0xa801, 0x0100006f), (0x8082, 0x00008067), (0x9782, 0x000780e7), (0xc501, 0x00050463),
      (0xfd75, 0xfe051ee3)].all (fun p => expandCompressed 32 p.1 == some p.2) = true ∧
    [(0x6110, 0x00053603), (0x2505, 0x0015051b)].all (fun p => expandCompressed 64 p.1 == some p.2) = true := by decide

/-- amoadd.w x3, x2, (x1) on memory 5 with x2 = 3: x3 gets 5, memory 8. Then mul, mulh, div and rem of -7 and 2. -/
theorem test_amo_mulDiv :
    (let hart := (runningHart.setGpr 1 0x80000100).setGpr 2 3
     let e := baseEffect { machine hart [] with mem := [(0x80000100, 5)] } hart 0 0x0020a1af
     e.wrGpr = some (3, 5) ∧ e.store = some (0x80000100, [8, 0, 0, 0])) ∧
    [(0, 0xfffffff2), (1, 0xffffffff), (4, 0xfffffffd), (6, 0xffffffff)].all (fun p =>
      mulDiv 32 p.1 0xfffffff9 2 == p.2) = true := by decide

/-! ### CSRs -/

/-- V-DBG-3: csrw dcsr, s0 with s0 all ones. -/
theorem test_dcsr_write : after (.dcsr { kind := .rw, imm := false, rd := 0, src := 8 })
    (machine (bufferHart.setGpr 8 0xffffffff) []) (ofHart fun x => (x.dcsrNat, x.pc)) =
      some (some (0x4000b0c7, 0x304)) := by decide

/-- V-DBG-5: dcsr outside Debug Mode is an illegal instruction. -/
theorem test_dcsr_illegal : after (.dcsr { kind := .rs, imm := false, rd := 8, src := 0 }) (machine runningHart [])
    (ofHart fun x => (x.sys.mcause, x.gpr 8)) = some (some (2, 0)) := by decide

/-- V-DBG-17: bit 0 of dpc reads 0. -/
theorem test_dpc_write : after (.dpc { kind := .rw, imm := false, rd := 0, src := 8 })
    (machine (bufferHart.setGpr 8 0x80000011) []) (ofHart fun x => x.dpc) = some (some 0x80000010) := by decide

/-- csrrs s0, dscratch0, s0: the old value to s0, the sum of the bits to dscratch0, the source read before it is written. -/
theorem test_dscratch : after (.dscratch0 { kind := .rs, imm := false, rd := 8, src := 8 })
    (machine ({ bufferHart with dscratch0 := 0x70 }.setGpr 8 0x0f) []) (ofHart fun x => (x.dscratch0, x.gpr 8)) =
      some (some (0x7f, 0x70)) := by decide
theorem test_dscratch1 : after (.dscratch1 { kind := .rw, imm := true, rd := 9, src := 31 }) (machine bufferHart [])
    (ofHart fun x => (x.dscratch1, x.gpr 9)) = some (some (31, 0)) := by decide

/-- Example E2: with two triggers tselect is one bit. -/
theorem test_tselect : [(2, 0), (1, 1), (3, 1)].all (fun p =>
    decide (after (.tselect { kind := .rw, imm := true, rd := 0, src := BitVec.ofNat 5 p.1 }) (machine bufferHart [])
      (ofHart fun x => x.tselect.toNat) = some (some p.2))) = true := by decide

/-- R533, R541: from machine mode dmode cannot be set, so action 1 becomes 0; from Debug Mode both are stored. -/
theorem test_tdata1 :
    after (.tdata1 { kind := .rw, imm := false, rd := 0, src := 8 }) (machine (runningHart.setGpr 8 0x28001044) [])
      (ofHart fun x => x.tdata1) = some (some 0x20000044) ∧
    after (.tdata1 { kind := .rw, imm := false, rd := 0, src := 8 }) (machine (bufferHart.setGpr 8 0x28001044) [])
      (ofHart fun x => x.tdata1) = some (some 0x28001044) := by decide
theorem test_tdata2 : after (.tdata2 { kind := .rw, imm := false, rd := 0, src := 8 })
    (machine (runningHart.setGpr 8 0x80000010) []) (ofHart fun x => x.tdata2) = some (some 0x80000010) := by decide

/-- R533: a trigger with dmode 1 is not written from machine mode. -/
theorem test_tdata3 : after (.tdata3 { kind := .rw, imm := true, rd := 0, src := 7 })
    (machine { runningHart with trigs := [{ Trigger.reset minimalTrigger with dmode := true }] } [])
    (ofHart fun x => x.tdata3) = some (some 0) := by decide

/-! ### Moves of a hart -/

/-- V-RUN-3, V-DBG-1: a halt request. -/
theorem test_halt : afterStep (machine { runningHart with pc := 0x80000100, ctl := { runningHart.ctl with haltreq := true } }
    [.hart 0]) (ofHart fun x => (x.debugMode, x.dcsrNat, x.dpc)) = some (some (true, 0x400000c3, 0x80000100)) := by decide

/-- V-RUN-7: the resume transition; resumeack is set. -/
theorem test_resume : afterStep (machine { haltedHart with ctl := { haltedHart.ctl with resumereq := true } } [.hart 0])
    (ofHart fun x => (x.debugMode, x.pc, x.ctl.resumeack)) = some (some (false, 0x80000100, true)) := by decide

/-- V-DBG-11: `addi s0, zero, 5` with step 1: one instruction, cause 4. -/
theorem test_step : afterStep
    { machine { runningHart with dcsr := { runningHart.dcsr with step := true } } [.hart 0] with
      mem := [(0x80000000, 0x13), (0x80000001, 0x04), (0x80000002, 0x50)] }
    (ofHart fun x => (x.dcsrNat, x.dpc, x.gpr 8)) = some (some (0x40000107, 0x80000004, 5)) := by decide

/-- V-RST-2: a hart that leaves reset with a halt request halts at its reset entry, havereset set. -/
theorem test_reset_halt : afterStep (machine { runningHart with inReset := true, ctl := { runningHart.ctl with haltreq := true } }
    [.hart 0]) (ofHart fun x => (x.dcsrNat, x.dpc, x.ctl.havereset)) = some (some (0x400000c3, 0x80000000, true)) := by decide

/-- V-PB-2: an illegal instruction in the Program Buffer ends it with cmderr 3. -/
theorem test_progbuf_exception : afterStep
    (let s := machine bufferHart [.hart 0]
     { s with dm := { s.dm with phase := .progbuf } })
    (fun t => (t.dm.cmderr, t.dm.busy, ofHart (fun x => (x.debugMode, x.inProgbuf)) t)) =
      some (3, false, some (true, false)) := by decide

/-- Example E7: tdata2 0x80001007 with match 1 matches 0x80001000 to 0x8000100f. -/
theorem test_napot :
    let t := { Trigger.reset { minimalTrigger with maskmax := 4 } with mtch := 1, tdata2 := 0x80001007 }
    [0x80000fff, 0x80001000, 0x8000100f, 0x80001010].map (fun v => t.holds 32 (BitVec.ofNat 128 v)) =
      [false, true, true, false] := by decide

/-! ### Abstract commands -/

/-- B.6.1: read s0 into data0; V-ABS: a 64-bit access on a 32-bit hart is cmderr 2. -/
theorem test_accessRegister :
    after (.accessRegister 2 false true false 0x1008 false false) (machine (haltedHart.setGpr 8 0x12345678) [])
      (fun t => (vget t.dm.data 0 0, t.dm.cmderr)) = some (0x12345678, 0) ∧
    after (.accessRegister 3 false true false 0x1008 false false) (machine haltedHart [])
      (fun t => t.dm.cmderr) = some 2 := by decide

/-- Where Quick Access is not implemented (V-ABS-8), and cmdtype 0x10 (B.10 as printed): cmderr 2. -/
theorem test_quickAccess : after (.quickAccess 0) (machine runningHart []) (fun t => (t.dm.cmderr, t.dm.busy)) =
    some (2, false) := by decide
theorem test_commandReservedCmdtype :
    after (.commandReservedCmdtype 0x10 0) (machine runningHart []) (fun t => t.dm.cmderr) = some 2 := by decide

/-! ### DM registers -/

/-- V-RUN-11: HARTSELLEN 1. V-RUN-3: haltreq reads 0. -/
theorem test_dmcontrol :
    after (.dmcontrol (.write 0x03ffffc1)) (machine runningHart []) (fun t => t.dm.hartsel) = some 1 ∧
    after (.dmcontrol (.write 0x80000001)) (machine runningHart []) (ofHart fun x => x.ctl.haltreq) = some (some true) ∧
    after (.dmcontrol .read) (machine { runningHart with ctl := { runningHart.ctl with haltreq := true } } [])
      (fun t => t.dmiOut) = some 1 := by decide

/-- V-RUN-1 (after power-up) and V-RUN-5 (halted, reset acknowledged). -/
theorem test_dmstatus :
    after (.dmstatus .read) State.reset (fun t => t.dmiOut) = some 0x004c0c82 ∧
    after (.dmstatus .read) (machine haltedHart []) (fun t => t.dmiOut) = some 0x00400382 := by decide

/-- B.2: hart 0 halted. V-ABS: hartinfo of the minimal model; no devicetree, no further DM. -/
theorem test_haltsum0 : after (.haltsum0 .read) (machine haltedHart []) (fun t => t.dmiOut) = some 1 := by decide
theorem test_hartinfo : after (.hartinfo .read) (machine haltedHart []) (fun t => t.dmiOut) = some 0x00112400 := by decide

/-- V-RST-6, sbcs after reset; V-ABS: abstractcs of the minimal model with cmderr 2; R365: write-1-to-clear. -/
theorem test_sbcs : after (.sbcs .read) (machine haltedHart []) (fun t => t.dmiOut) = some 0x20040407 := by decide
theorem test_abstractcs :
    let s := machine haltedHart []
    let s := { s with dm := { s.dm with cmderr := 2 } }
    after (.abstractcs .read) s (fun t => t.dmiOut) = some 0x02000202 ∧
    after (.abstractcs (.write 0x100)) s (fun t => t.dm.cmderr) = some 2 ∧
    after (.abstractcs (.write 0x200)) s (fun t => t.dm.cmderr) = some 0 := by decide

/-- R366: only the supported bits are stored. V-RUN-14: a write to an inactive DM is dropped. -/
theorem test_abstractauto :
    after (.abstractauto (.write 0xffffffff)) (machine haltedHart []) (fun t => t.dm.auto) = some 0x00030003 := by decide

/-- R287, R366: bits of absent words and the reserved bits are not stored, whatever the parameter says. -/
theorem test_abstractauto_reserved : (let s := machine haltedHart []
    after (.abstractauto (.write 0xffffffff)) { s with cfg := { minimalConfig with autoexecMask := 0xffffffff, datacount := 12 } }
      (fun t => t.dm.auto)) = some 0x00030fff := by decide

/-- R337, R311 (a): a dmcontrol write that selects hart 1 writes its request bits and leaves those of hart 0. -/
theorem test_hartsel_writes_requests :
    let s := machine { runningHart with ctl := { runningHart.ctl with haltreq := true } } []
    let s := { s with
      cfg := { minimalConfig with hartsellen := 1 }
      harts := s.harts ++ [{ runningHart with ctl := { runningHart.ctl with haltreq := true } }] }
    after (.dmcontrol (.write 0x00010001)) s (fun t => (t.dm.hartsel, t.harts.map fun x => x.ctl.haltreq)) =
      some (1, [true, false]) := by decide

/-- R395: a shadow CSR is written by csrw, whatever its number; another CSR at such a number is not. -/
theorem test_shadow_writable :
    let hart := { bufferHart with cfg := { minimalHart with dataaccess := false, dataaddr := 0xc10, datasize := 1 } }
    let s := machine hart []
    hart.csrReadOnly s 0xc10 = false ∧ hart.csrReadOnly s 0xc11 = true ∧
    vget (csrInsn 0xc10 { kind := .rw, imm := true, src := 5, rd := 0 } 0 s).dm.data 0 0 = 5 := by decide
theorem test_data0_inactive : after (.data0 (.write 0x12345678)) State.reset (fun t => vget t.dm.data 0 0) = some 0 := by
  decide
theorem test_data1 : after (.data1 (.write 0xcafe0001)) (machine haltedHart [])
    (fun t => (vget t.dm.data 0 0, vget t.dm.data 1 0)) = some (0, 0xcafe0001) := by decide
theorem test_progbuf1 : after (.progbuf1 (.write 0x00100073)) (machine haltedHart [])
    (fun t => (vget t.dm.progbuf 0 0, vget t.dm.progbuf 1 0)) = some (0, 0x00100073) := by decide

/-- V-SBA-5: a bus write of 0xdeadbeef at 0x80002000, least significant byte first. -/
theorem test_bus_write : afterStep
    (let s := machine haltedHart [.bus]
     { s with sb := { s.sb with
        address := 0x80002000
        pending := some { write := true, bytes := 4, address := 0x80002000, data := 0xdeadbeef, inc := false } } })
    (fun t => (t.mem, t.sb.address)) =
      some ([(0x80002000, 0xef), (0x80002001, 0xbe), (0x80002002, 0xad), (0x80002003, 0xde)], 0x80002000) := by decide

/-- V-SBA-1, V-SBA-23: sbaddress0 is stored and no read starts without sbreadonaddr. V-SBA-12: misaligned, sberror 3. -/
theorem test_sbaddress0 : after (.sbaddress0 (.write 0x80001000)) (machine haltedHart [])
    (fun t => (t.sb.address, t.sb.busy)) = some (0x80001000, false) := by decide
theorem test_sbdata0 :
    let s := machine haltedHart []
    after (.sbdata0 (.write 0x55)) { s with sb := { s.sb with address := 0x80001001 } }
      (fun t => (t.sb.error, t.sb.busy, t.sb.data)) = some (3, false, 0x55) ∧
    after (.sbdata0 (.write 0x55)) { s with sb := { s.sb with error := 3 } } (fun t => t.sb.data) = some 0 := by decide

/-! ### JTAG -/

/-- V-DTM-2, V-DTM-3, V-DTM-5. -/
theorem test_bypass : after (.reservedBypass12 (.scan 1)) State.reset (fun t => t.dtm.tdo) = some 0 := by decide
theorem test_dtmcs : after (.dtmcs (.scan 0)) State.reset (fun t => t.dtm.tdo) = some 0x00001071 ∧
    after (.dtmcs (.scan 0x10000)) { State.reset with dtm := { State.reset.dtm with status := 3 } }
      (fun t => (t.dtm.tdo, t.dtm.status)) = some (0x00001c71, 0) := by decide

/-- V-DTM-4: a scan while the previous transaction is in progress shows status 3, which stays, and starts nothing. -/
theorem test_dmi_busy : after (.dmi (.scan 0x04200000006))
    { State.reset with dtm := { State.reset.dtm with pending := .inProgress 0x11 .read } }
    (fun t => (t.dtm.tdo.extractLsb' 0 2, t.dtm.status, t.dtm.pending)) = some (3, 3, .inProgress 0x11 .read) := by rfl

/-- V-DTM-7: the result of a finished read. -/
theorem test_dmi_result : after (.dmi (.scan 0))
    { State.reset with dtm := { State.reset.dtm with pending := .finished 0x004c0382 false } }
    (fun t => (t.dtm.tdo, t.dtm.pending)) = some (0x01300e08, .none) := by rfl

/-! ### Witnesses: encodings and steps -/

theorem witness_DecodeEncode :
    [Instr.commandReservedCmdtype 2 0, .commandReservedCmdtype 255 0xffffff, .bypass00 (.scan 1), .idcode (.scan 0xffffffff),
      .dtmcs (.scan 0), .dmi (.scan 0x3ffffffffffffffff), .dret].all Instr.wellFormed = true := by decide

theorem witness_WordsLossless : 0xffffffff < 2 ^ 32 ∧ 0x3ffffffffffffffff < 2 ^ 66 ∧
    decodeDmiOut 0x3ffffffffffffffff = .ok (.dmiStatusBusy 0xffffffff 0xffffffff) ∧ 1 % 4 = 1 :=
  ⟨by decide, by decide, rfl, rfl⟩

/-- The state in which hart 0 executes what it fetches. -/
def moving (s : State) : State := { s with queue := [], cur := 0 }.modHart 0 fun x => { x with trapped := false }

/-- Hart 0 in the Program Buffer, which holds a c.nop and then an ebreak. -/
def bufferState : State :=
  let s := machine bufferHart [.hart 0]
  let buffer := vset (vset s.dm.progbuf 0 0x00010001) 1 0x00100073
  { s with dm := { s.dm with phase := .progbuf, progbuf := buffer, fetchBuf := buffer } }

theorem witness_StepRunsProgramBufferInstruction :
    bufferState.queue = .hart 0 :: [] ∧ bufferState.harts[0]? = some bufferHart ∧ bufferHart.avail = true ∧
    bufferHart.inReset = false ∧ bufferHart.debugMode = true ∧ bufferHart.inProgbuf = true ∧
    fetchInsn (moving bufferState) bufferHart (moving bufferState).free = some 0x0001 ∧ decodeHart 0x0001 = .ok .cNop := by
  and_intros <;> rfl

/-- The implicit ebreak just after the last word. -/
theorem witness_StepRunsProgramBufferInstruction_implicit_ebreak :
    fetchInsn (moving bufferState) { bufferHart with pc := 0x308 } 0 = some 0x00100073 ∧
    decodeHart 0x00100073 = .ok .ebreak := by
  and_intros <;> rfl

/-- R380 (b): the upper half of the word after the last one, and a 32-bit instruction that reaches into it. -/
theorem test_implicit_ebreak_parts :
    fetchInsn (moving bufferState) { bufferHart with pc := 0x30a } 0 = some 0x00100073 ∧
    (let buffer := vset bufferState.dm.progbuf 1 0x00130001
     let s := { bufferState with dm := { bufferState.dm with progbuf := buffer, fetchBuf := buffer } }
     fetchInsn (moving s) { bufferHart with pc := 0x306 } 0 = some 0x00100073) := by
  and_intros <;> rfl

/-- Hart 0 about to execute these bytes of memory. -/
def programState (hart : Hart) (m : Mem) : State := { machine hart [.hart 0] with mem := m }

/-- The bytes of c.nop, wfi, ecall and ebreak at the reset entry. -/
def cNopMem : Mem := [(0x80000000, 0x01)]
def wfiMem : Mem := [(0x80000000, 0x73), (0x80000002, 0x50), (0x80000003, 0x10)]
def ecallMem : Mem := [(0x80000000, 0x73)]
def ebreakMem : Mem := [(0x80000000, 0x73), (0x80000002, 0x10)]

theorem witness_StepRunsProgramInstruction :
    let s := programState runningHart cNopMem
    s.queue = .hart 0 :: [] ∧ s.harts[0]? = some runningHart ∧ runningHart.avail = true ∧ runningHart.inReset = false ∧
    runningHart.debugMode = false ∧ (∀ trig ∈ runningHart.trigs, trig.enabledAt runningHart.priv = false) ∧
    runningHart.ctl.haltreq = false ∧ s.dm.phase ≠ .quickHalt ∧ runningHart.interrupt = none ∧
    fetchInsn (moving s) runningHart (moving s).free = some 0x0001 ∧ decodeHart 0x0001 = .ok .cNop := by
  and_intros <;> first | rfl | decide

/-- A command started; DMI accesses at the first and last offset; an outstanding read. -/
theorem witness_StepRunsAccessesAndScans_accesses :
    (let s := { State.reset with dm := { State.reset.dm with phase := .started }, queue := [.engine] }
     s.queue = .engine :: [] ∧ s.dm.phase = .started) ∧
    inDmRange State.reset.cfg 0x04 = true ∧ decodeDmAt State.reset.cfg.haltsum1Addr (0x04 - 0) .read = .ok (.data0 .read) ∧
    inDmRange State.reset.cfg 0x40 = true ∧ decodeDmAt State.reset.cfg.haltsum1Addr (0x40 - 0) .read = .ok (.haltsum0 .read) ∧
    (let s := { State.reset with dtm := { State.reset.dtm with pending := .inProgress 0x11 .read }, queue := [.dtm] }
     s.dtm.pending = .inProgress 0x11 .read ∧ inDmRange s.cfg 0x11 = true ∧
     decodeDmAt s.cfg.haltsum1Addr (0x11 - s.cfg.dmBase) .read = .ok (.dmstatus .read) ∧
     ∃ u, exec (.dmstatus .read) { s with queue := [] } = .next u) :=
  ⟨⟨rfl, rfl⟩, rfl, rfl, rfl, rfl, rfl, rfl, rfl, _, rfl⟩

/-- A ScanIR of 0x1f, a ScanDR of dmi after it has been selected, both halves of a scan of dmi, and one of dtmcs. -/
theorem witness_StepRunsAccessesAndScans_scans :
    decodeIrCode (0x1f % 2 ^ State.reset.cfg.irlen) .select = .ok (.bypass1f .select) ∧
    (let s := { State.reset with dtm := { State.reset.dtm with ir := 0x11 }, queue := [.scanDR 1] }
     drWidth s = 41 ∧
     decodeIrCode s.dtm.ir (.scan (BitVec.ofNat 66 ((1 : BitVec 66).toNat % 2 ^ drWidth s))) = .ok (.dmi (.scan 1))) ∧
    (let s := { State.reset with dtm := { State.reset.dtm with ir := 0x11 }, queue := [.updateDR 1, .captureDR] }
     s.queue = .updateDR 1 :: [.captureDR] ∧ s.dtm.ir = 0x11) ∧
    decodeDtmcsIn ((0x10000 : BitVec 66).toNat % 2 ^ 32) = .ok .dtmcsDmireset :=
  ⟨rfl, ⟨rfl, rfl⟩, ⟨rfl, rfl⟩, rfl⟩

/-! ### Witnesses: invariants and frames -/

/-- The reset state meets the constraints its statement claims, and the hypothesis of the general part. -/
theorem witness_ResetIsGood : minimalConfig.dtmStatusReset ≠ 1 := by decide

/-- A bus write about to complete. -/
def busState : State :=
  let s := machine haltedHart [.bus]
  { s with sb := { s.sb with pending := some { write := true, bytes := 1, address := 0x80000000, data := 0x55, inc := false } } }

theorem witness_StepKeepsMemoryCanonical : busState.memoryOk ∧ ∃ t, step busState = .next t :=
  ⟨⟨by decide, by decide, by decide⟩, _, rfl⟩

/-- A hart about to halt. -/
def haltingState : State := machine { runningHart with ctl := { runningHart.ctl with haltreq := true } } [.hart 0]

theorem witness_StepKeepsHartModes : haltingState.everyHart Hart.modesOk ∧ ∃ t, step haltingState = .next t :=
  ⟨by simp [State.everyHart, Hart.modesOk, haltingState, machine]; decide, _, rfl⟩

theorem witness_StepKeepsHartsLegal : haltingState.everyHart Hart.privOk ∧ haltingState.everyHart Hart.triggersOk ∧
    privsOk runningHart.cfg ∧ ∃ t, step haltingState = .next t :=
  ⟨by simp [State.everyHart, Hart.privOk, haltingState, machine]; intro _; decide,
    by simp [State.everyHart, Hart.triggersOk, haltingState, machine]; unfold Trigger.ok; decide,
    by unfold privsOk; decide, _, rfl⟩

/-- A write of dmcontrol that raises hartsel's implemented bit. -/
def selectState : State := { machine haltedHart [.dmi 0x10 (.write 0x03ffffc1)] with dtm := State.reset.dtm }

theorem witness_StepKeepsFieldsLegal : selectState.cfg.dtmStatusReset ≠ 1 ∧ selectState.dtmOk ∧ selectState.dmOk ∧
    selectState.sbOk ∧ ∃ t, step selectState = .next t :=
  ⟨by decide, by unfold State.dtmOk; decide, by unfold State.dmOk; decide, by unfold State.sbOk; decide, _, rfl⟩

/-- The write that activates the DM, just after power-up. -/
def activatingState : State := { State.reset with queue := [.dmi 0x10 (.write 1)] }

theorem witness_StepKeepsInactiveDmReset : activatingState.inactiveOk ∧ activatingState.dm.dmactive = false ∧
    ∃ t, step activatingState = .next t :=
  ⟨by unfold State.inactiveOk; decide, rfl, _, rfl⟩

theorem witness_StepKeepsConfiguration : ∃ t, step busState = .next t := ⟨_, rfl⟩

theorem witness_InstructionFrames :
    (Instr.wfi ∈ hartRows ∧ ∃ t, exec .wfi (machine runningHart []) = .next t) ∧
    ((∃ row num op, (row, num) ∈ csrRows ∧ Instr.dcsr { kind := .rw, imm := true, rd := 1, src := 4 } = row op) ∧
      ∃ t, exec (.dcsr { kind := .rw, imm := true, rd := 1, src := 4 }) (machine bufferHart []) = .next t) ∧
    ((encode (.accessRegister 2 false true false 0x1008 false false)).1 = .command ∧
      ∃ t, exec (.accessRegister 2 false true false 0x1008 false false) (machine haltedHart []) = .next t) ∧
    ((encode (.dmi (.scan 1))).1 ∈ [Space.dmiIn, .dmiOut, .dtmcsIn, .ir] ∧
      ∃ t, exec (.dmi (.scan 1)) (machine haltedHart []) = .next t) ∧
    (Instr.command ∈ gatedRows ++ [Instr.dmstatus, .authdata] ∧
      ∃ t, exec (.command (.write 0x00221008)) (machine haltedHart []) = .next t) :=
  ⟨⟨by simp [hartRows], _, rfl⟩, ⟨⟨.dcsr, 0x7b0, _, .head _, rfl⟩, _, rfl⟩, ⟨rfl, _, rfl⟩, ⟨by decide, _, rfl⟩,
    by simp [gatedRows, dataRows, progbufRows], _, rfl⟩

/-! ### Witnesses: entering and leaving Debug Mode -/

/-- A running hart whose two dscratch registers belong to the debugger. -/
def scratchHart : Hart := { runningHart with cfg := { runningHart.cfg with nscratch := 2 } }

theorem witness_EntryToDebugMode : (machine scratchHart []).harts[0]? = some scratchHart ∧ 1 ≤ scratchHart.cfg.nscratch ∧
    2 ≤ scratchHart.cfg.nscratch ∧ (machine scratchHart []).cfg.hasHartinfo = true ∧ scratchHart.avail = true ∧
    scratchHart.inReset = false := by
  and_intros <;> first | rfl | decide

/-- A halted hart that is asked to resume, and one that is not. -/
def resumingHart : Hart := { haltedHart with ctl := { haltedHart.ctl with resumereq := true } }

theorem witness_ResumeTransition :
    let s := machine resumingHart [.hart 0]
    s.queue = .hart 0 :: [] ∧ s.harts[0]? = some resumingHart ∧ resumingHart.avail = true ∧ resumingHart.inReset = false ∧
    resumingHart.debugMode = true ∧ resumingHart.inProgbuf = false ∧ resumingHart.ctl.resumereq = true ∧
    resumingHart.ctl.haltreq = false ∧ resumingHart.ctl.resumeack = false ∧ ¬(s.dm.busy = true ∧ s.dm.cmdHart = 0) ∧
    resumingHart.dpc.toNat % 4 = 0 ∧ resumingHart.dpc.toNat < 2 ^ resumingHart.cfg.xlen ∧
    privOfCode resumingHart.dcsr.prv = some .m ∧ .m ∈ resumingHart.cfg.privs := by
  and_intros <;> first | rfl | decide

theorem witness_ResumeTransition_stays :
    let s := machine haltedHart [.hart 0]
    s.queue = .hart 0 :: [] ∧ s.harts[0]? = some haltedHart ∧ haltedHart.avail = true ∧ haltedHart.inReset = false ∧
    haltedHart.debugMode = true ∧ haltedHart.inProgbuf = false ∧
    ¬(haltedHart.ctl.resumereq = true ∧ haltedHart.ctl.haltreq = false ∧ haltedHart.ctl.resumeack = false ∧
      ¬(s.dm.busy = true ∧ s.dm.cmdHart = 0)) := by
  and_intros <;> first | rfl | decide

/-- A hart with this halt request, in reset or not. -/
def requestedHart (haltreq inReset : Bool) : Hart :=
  { runningHart with inReset := inReset, ctl := { runningHart.ctl with haltreq := haltreq } }

theorem witness_HaltRequest :
    let hart := requestedHart true false
    let s := machine hart [.hart 0]
    s.queue = .hart 0 :: [] ∧ s.harts[0]? = some hart ∧ hart.avail = true ∧ hart.debugMode = false ∧ s.dm.phase ≠ .quickHalt ∧
    hart.inReset = false ∧ hart.ctl.haltreq = true ∧ hart.ebreakEnabled = false ∧
    ∀ trig ∈ hart.trigs, trig.enabledAt hart.priv = false := by
  and_intros <;> first | rfl | decide

theorem witness_HaltRequest_leaving_reset : [true, false].all (fun haltreq =>
    let hart := requestedHart haltreq true
    let s := machine hart [.hart 0]
    decide (s.queue = .hart 0 :: [] ∧ s.harts[0]? = some hart ∧ hart.avail = true ∧ hart.debugMode = false ∧
      s.dm.phase ≠ .quickHalt ∧ hart.inReset = true ∧ s.resetLine hart = false ∧ hart.ctl.haltreq = haltreq ∧
      hart.resetHalt = false)) = true := by decide

/-- An execute trigger at the reset entry that enters Debug Mode. -/
def entryTrigger : Trigger :=
  { Trigger.reset minimalTrigger with dmode := true, action := 1, m := true, execute := true, tdata2 := 0x80000000 }

/-- A running hart with that trigger alone, and a halt request that the trigger precedes. -/
def triggerHart : Hart := { requestedHart true false with trigs := [entryTrigger] }

theorem witness_EntryPriority_trigger :
    let s := machine triggerHart [.hart 0]
    s.queue = .hart 0 :: [] ∧ s.harts[0]? = some triggerHart ∧ triggerHart.avail = true ∧ triggerHart.inReset = false ∧
    triggerHart.debugMode = false ∧ s.dm.phase ≠ .quickHalt ∧ triggerHart.trigs = [entryTrigger] ∧
    entryTrigger.cfg.kind = 2 ∧ entryTrigger.enabledAt triggerHart.priv = true ∧ entryTrigger.execute = true ∧
    entryTrigger.select = false ∧ entryTrigger.timing = false ∧ entryTrigger.chain = false ∧ entryTrigger.action = 1 ∧
    entryTrigger.mtch = 0 ∧ entryTrigger.tdata2 = triggerHart.pc ∧
    fetchInsn (moving s) triggerHart (moving s).free ≠ none := by
  and_intros <;> first | rfl | decide

/-- A running hart whose ebreak enters Debug Mode, with a halt request that the ebreak precedes. -/
def ebreakHart : Hart := { requestedHart true false with dcsr := { runningHart.dcsr with ebreakm := true } }

theorem witness_EntryPriority_ebreak :
    let s := programState ebreakHart ebreakMem
    s.queue = .hart 0 :: [] ∧ s.harts[0]? = some ebreakHart ∧ ebreakHart.avail = true ∧ ebreakHart.inReset = false ∧
    ebreakHart.debugMode = false ∧ s.dm.phase ≠ .quickHalt ∧
    (∀ trig ∈ ebreakHart.trigs, trig.enabledAt ebreakHart.priv = false) ∧ ebreakHart.ebreakEnabled = true ∧
    fetchInsn (moving s) ebreakHart (moving s).free = some 0x00100073 := by
  and_intros <;> first | rfl | decide

/-- A running hart in single step. -/
def steppingHart : Hart := { runningHart with dcsr := { runningHart.dcsr with step := true } }

theorem witness_EntryPriority_step : (machine steppingHart []).harts[0]? = some steppingHart ∧
    steppingHart.debugMode = false ∧ steppingHart.dcsr.step = true ∧ (machine steppingHart []).dm.phase ≠ .quickHalt := by
  and_intros <;> first | rfl | decide

/-- A trigger that matches the instruction at the reset entry after it, on hardware whose actions may come late. -/
theorem witness_EntryPriority_stepped_trigger :
    let trig := { entryTrigger with timing := true }
    let hart := { steppingHart with trigs := [trig] }
    let f : Facts := { pc := some 0x80000000, insn := some 0x10500073, load := none, store := none }
    (machine hart []).harts[0]? = some hart ∧ hart.debugMode = false ∧ hart.trapped = false ∧ hart.dcsr.step = true ∧
    (machine hart []).dm.phase ≠ .quickHalt ∧ trig.raw hart.cfg.xlen .m true f = true ∧ trig.chain = false ∧
    trig.action = 1 ∧ trig.cfg.skids = true := by
  and_intros <;> first | rfl | decide

/-- Then the stepped instruction ends with cause 2 at the next pc, not with 4 (R551, R670 (a)). -/
theorem test_step_trigger : afterStep
    (programState { steppingHart with trigs := [{ entryTrigger with timing := true }] } wfiMem)
    (ofHart fun x => (x.debugMode, x.dcsr.cause, x.dpc)) = some (some (true, 2, 0x80000004)) := by decide

/-- The bytes of jal x1, 8 and of beq x0, x0, 8 at the reset entry. -/
def jalMem : Mem := [(0x80000000, 0xef), (0x80000002, 0x80)]
def beqMem : Mem := [(0x80000000, 0x63), (0x80000001, 0x04)]

/-- A hart with a timer interrupt pending and enabled, in machine mode. -/
def interrupted (hart : Hart) : Hart :=
  { hart with sys := { hart.sys with mip := 0x80, mie := 0x80, mstatus := 8 } }

theorem witness_SingleStep :
    let s := programState steppingHart wfiMem
    s.queue = .hart 0 :: [] ∧ s.harts[0]? = some steppingHart ∧ steppingHart.avail = true ∧ steppingHart.inReset = false ∧
    steppingHart.debugMode = false ∧ s.dm.phase ≠ .quickHalt ∧ steppingHart.dcsr.step = true ∧
    steppingHart.dcsr.stepie = false ∧ steppingHart.ctl.haltreq = false ∧
    (∀ trig ∈ steppingHart.trigs, trig.enabledAt steppingHart.priv = false) ∧ steppingHart.dueEntry = false ∧
    steppingHart.dueBreak = false ∧
    fetchInsn (moving s) steppingHart (moving s).free = some 0x10500073 ∧ decodeHart 0x10500073 = .ok .wfi := by
  and_intros <;> first | rfl | decide

theorem witness_SingleStep_others :
    (let s := programState steppingHart ecallMem
     fetchInsn (moving s) steppingHart (moving s).free = some 0x00000073 ∧ decodeHart 0x00000073 = .ok .ecall) ∧
    (let s := programState steppingHart jalMem
     fetchInsn (moving s) steppingHart (moving s).free = some 0x008000ef ∧ 0x008000ef % 2 ^ 7 = 0x6f ∧
     (steppingHart.trunc (steppingHart.pc + immJ 0x008000ef)).toNat % 4 = 0) ∧
    (let s := programState steppingHart beqMem
     fetchInsn (moving s) steppingHart (moving s).free = some 0x00000463 ∧ 0x00000463 % 2 ^ 7 = 0x63 ∧
     steppingHart.cfg.hasC = true ∧ branchTaken steppingHart (0x00000463 / 2 ^ 12 % 8)
       (steppingHart.gpr (field5 0x00000463 15)) (steppingHart.gpr (field5 0x00000463 20)) = some true) ∧
    (let hart := interrupted { steppingHart with dcsr := { steppingHart.dcsr with stepie := true } }
     hart.dcsr.step = true ∧ hart.dcsr.stepie = true ∧ hart.ebreakEnabled = false ∧
     interruptOrder.find? hart.interruptReady = some 7) := by
  and_intros <;> rfl

/-- A hart about to execute a wfi in the Program Buffer. -/
def bufferWfiState (hart : Hart) : State :=
  let buffer := vset (Vector.replicate 16 (0 : Word)) 0 0x10500073
  { machine hart [.hart 0] with dm := { bufferState.dm with
      progbuf := buffer
      fetchBuf := buffer } }

/-- The timer interrupt is the third of the order; a hart with none ready; a halted hart and one in the Program Buffer with
the interrupt pending, and a wfi before it. -/
theorem witness_Interrupts :
    (let hart := interrupted runningHart
     let s := programState hart wfiMem
     s.harts[0]? = some hart ∧ s.queue = .hart 0 :: [] ∧ hart.avail = true ∧ hart.inReset = false ∧ hart.debugMode = false ∧
     s.dm.phase ≠ .quickHalt ∧ hart.ctl.haltreq = false ∧ (∀ trig ∈ hart.trigs, trig.enabledAt hart.priv = false) ∧
     hart.ebreakEnabled = false ∧ hart.dcsr.step = false ∧ [11, 3, 7, 9, 1, 5, 8, 0, 4][2]? = some 7 ∧
     hart.sys.mip.getLsbD 7 = true ∧ hart.sys.mie.getLsbD 7 = true ∧ hart.sys.mstatus.getLsbD 3 = true ∧
     .s ∉ hart.cfg.privs ∧ hart.sys.mip.getLsbD 11 = false ∧ hart.sys.mip.getLsbD 3 = false) ∧
    (let s := programState runningHart wfiMem
     (∀ c ∈ [11, 3, 7, 9, 1, 5, 8, 0, 4], ¬runningHart.sys.mip.getLsbD c = true) ∧ runningHart.dueEntry = false ∧
     runningHart.dueBreak = false ∧ fetchInsn (moving s) runningHart (moving s).free = some 0x10500073 ∧
     decodeHart 0x10500073 = .ok .wfi) ∧
    (let hart := interrupted haltedHart
     hart.debugMode = true ∧ hart.inProgbuf = false ∧ hart.ctl.resumereq = false) ∧
    (let hart := interrupted bufferHart
     let s := bufferWfiState hart
     s.harts[0]? = some hart ∧ hart.inProgbuf = true ∧
     fetchInsn (moving s) hart (moving s).free = some 0x10500073) ∧
    (machine haltedHart [.setMip 0 0x80]).queue = .setMip 0 0x80 :: [] := by
  and_intros <;> first | rfl | decide

/-! ### Witnesses: triggers -/

/-- Every match value; for match 1 the lowest 0 bit of 0x80001007 is bit 3 and maskmax just reaches it. -/
theorem witness_TriggerMatching :
    [0, 1, 2, 3, 4, 5].all (fun n => decide (({ entryTrigger with mtch := BitVec.ofNat 4 n } : Trigger).mtch.toNat = n)) = true ∧
    (let t : Trigger :=
     { entryTrigger with cfg := { minimalTrigger with maskmax := 4 }, mtch := 1, tdata2 := 0x80001007 }
     t.mtch = 1 ∧ 3 < 32 ∧ 3 + 1 ≤ t.cfg.maskmax ∧ t.tdata2.toNat.testBit 3 = false ∧
     ∀ j, j < 3 → t.tdata2.toNat.testBit j = true) ∧
    ∀ t ∈ [{ entryTrigger with chain := true }, entryTrigger], t.cfg.kind = 2 := by
  and_intros <;> first | rfl | decide

/-- An instruction count trigger of this count. -/
def countTrigger (n : Nat) (m : Bool) : Trigger :=
  { Trigger.reset { minimalTrigger with kind := 3 } with count := BitVec.ofNat 14 n, m := m }

theorem witness_TriggerMatching_counts : (countTrigger 5 false).cfg.kind = 3 ∧ (countTrigger 5 false).enabledAt .m = false ∧
    (countTrigger 0 true).count = 0 ∧ (countTrigger 2 true).enabledAt .m = true ∧ 1 < (countTrigger 2 true).count.toNat ∧
    (countTrigger 1 true).enabledAt .m = true ∧ (countTrigger 1 true).count = 1 := by
  and_intros <;> first | rfl | decide

/-- Triggers that fire on the first instruction of a program: on its address before or after it, on its bits, on what lw
x3, 0(x1) loads from and loads, on what sw x3, 0(x1) stores; and a count of 1. -/
def lwMem : Mem := [(0x80000000, 0x83), (0x80000001, 0xa1), (0x80000100, 0x2a)]
def swMem : Mem := [(0x80000000, 0x23), (0x80000001, 0xa0), (0x80000002, 0x30)]

/-- A running hart with this trigger alone, x1 pointing into RAM. -/
def watchedHart (t : Trigger) : Hart :=
  { (runningHart.setGpr 1 0x80000100).setGpr 3 7 with trigs := [t] }

theorem witness_TriggerActions :
    (let hart := watchedHart entryTrigger
     let s := programState hart wfiMem
     s.queue = .hart 0 :: [] ∧ s.harts[0]? = some hart ∧ hart.avail = true ∧ hart.inReset = false ∧ hart.debugMode = false ∧
     s.dm.phase ≠ .quickHalt ∧ hart.ctl.haltreq = false ∧ hart.ebreakEnabled = false ∧ hart.interrupt = none ∧
     hart.dcsr.step = false ∧ hart.dueEntry = false ∧ hart.dueBreak = false ∧ hart.trigs = [entryTrigger] ∧
     entryTrigger.enabledAt hart.priv = true ∧ entryTrigger.chain = false ∧ entryTrigger.mtch = 0 ∧
     fetchInsn (moving s) hart (moving s).free = some 0x10500073 ∧ entryTrigger.cfg.kind = 2 ∧
     entryTrigger.timing = false ∧ entryTrigger.execute = true ∧ entryTrigger.select = false ∧
     entryTrigger.tdata2 = hart.pc ∧ entryTrigger.action = 1 ∧ decodeHart 0x10500073 = .ok .wfi) ∧
    ({ entryTrigger with timing := true, action := 0, cfg := { minimalTrigger with skids := false } } : Trigger).timing = true ∧
    (let t := { entryTrigger with select := true, tdata2 := 0x10500073, action := 0 }
     t.tdata2 = BitVec.ofNat 128 0x10500073 ∧ t.enabledAt .m = true) ∧
    ({ countTrigger 1 true with action := 1 } : Trigger).cfg.kind = 3 ∧ (countTrigger 1 true).count = 1 ∧
    (countTrigger 1 true).enabledAt .m = true ∧ (countTrigger 1 true).chain = false ∧ (countTrigger 1 true).mtch = 0 := by
  and_intros <;> first | rfl | decide

theorem witness_TriggerActions_load :
    let t := { entryTrigger with execute := false, load := true, tdata2 := 0x80000100 }
    let hart := watchedHart t
    let s := programState hart lwMem
    fetchInsn (moving s) hart (moving s).free = some 0x0000a183 ∧ hart.trigs = [t] ∧ t.load = true ∧
    (effectOf (moving s) hart (s.free + 2) 0x0000a183).load = some (0x80000100, some 0x2a) ∧
    BitVec.ofNat 128 0x80000100 = t.tdata2 ∧ 0x0000a183 % 2 ^ 7 = 0x03 ∧ 0x0000a183 / 2 ^ 12 % 8 = 2 := by
  and_intros <;> rfl

theorem witness_TriggerActions_store :
    let t := { entryTrigger with execute := false, store := true, select := true, tdata2 := 7 }
    let hart := watchedHart t
    let s := programState hart swMem
    fetchInsn (moving s) hart (moving s).free = some 0x0030a023 ∧ hart.trigs = [t] ∧ t.store = true ∧
    (effectOf (moving s) hart (s.free + 2) 0x0030a023).store = some (0x80000100, [7, 0, 0, 0]) ∧
    BitVec.ofNat 128 (bytesToNat [7, 0, 0, 0]) = t.tdata2 ∧ 0x0030a023 % 2 ^ 7 = 0x23 := by
  and_intros <;> rfl

/-! ### Witnesses: hart instructions -/

theorem witness_WfiAndCNop : (machine haltedHart []).harts[(machine haltedHart []).cur]? = some haltedHart ∧
    haltedHart.cfg.hasC = true ∧
    (let hart : Hart := { runningHart with cfg := { minimalHart with hasC := false } }
     (machine hart []).harts[0]? = some hart ∧ hart.cfg.hasC = false ∧ hart.debugMode = false) := by
  and_intros <;> rfl

theorem witness_Dret : bufferState.harts[bufferState.cur]? = some bufferHart ∧ bufferHart.debugMode = true ∧
    bufferHart.cfg.hasDret = true ∧ bufferHart.dpc.toNat % 4 = 0 ∧ bufferHart.dpc.toNat < 2 ^ bufferHart.cfg.xlen ∧
    privOfCode bufferHart.dcsr.prv = some .m ∧ .m ∈ bufferHart.cfg.privs ∧
    (bufferState.dm.phase = .progbuf ∧ bufferState.dm.cmdHart = bufferState.cur) ∧
    (machine runningHart []).harts[0]? = some runningHart ∧ runningHart.debugMode = false := by
  and_intros <;> first | rfl | decide

theorem witness_ProgramBufferEnds : bufferState.harts[bufferState.cur]? = some bufferHart ∧ bufferHart.debugMode = true ∧
    bufferState.dm.quick = false ∧ bufferHart.cfg.hasC = true ∧ bufferHart.cfg.progbufClobbersDpc = false ∧
    bufferState.dm.phase = .progbuf ∧ bufferState.dm.cmdHart = bufferState.cur := by
  and_intros <;> rfl

theorem witness_EbreakOutsideDebugMode : (machine ebreakHart []).harts[(machine ebreakHart []).cur]? = some ebreakHart ∧
    ebreakHart.debugMode = false ∧ ebreakHart.cfg.hasC = true ∧ (ebreakHart.priv = .m ∧ ebreakHart.dcsr.ebreakm = true) ∧
    (machine runningHart []).harts[(machine runningHart []).cur]? = some runningHart ∧ runningHart.debugMode = false ∧
    ¬((runningHart.priv = .m ∧ runningHart.dcsr.ebreakm = true) ∨ (runningHart.priv = .s ∧ runningHart.dcsr.ebreaks = true) ∨
      (runningHart.priv = .u ∧ runningHart.dcsr.ebreaku = true)) := by
  and_intros <;> first | rfl | decide

theorem witness_TrapInstructions_in_Debug_Mode : bufferState.harts[bufferState.cur]? = some bufferHart ∧
    bufferHart.debugMode = true ∧ Instr.uret ∈ [Instr.ecall, .mret, .hret, .sret, .uret] := by
  and_intros <;> first | rfl | decide

/-- A running hart with every privilege level and user-level interrupts, at this level. -/
def levelHart (p : Priv) : Hart :=
  { runningHart with cfg := { minimalHart with privs := [.m, .s, .u], hasN := true }, priv := p }

theorem witness_TrapInstructions :
    [Priv.u, .s, .m].all (fun p =>
      decide ((machine (levelHart p) []).harts[0]? = some (levelHart p) ∧ (levelHart p).debugMode = false ∧
        (levelHart p).priv = p ∧ .s ∈ (levelHart p).cfg.privs ∧ .u ∈ (levelHart p).cfg.privs ∧ (levelHart p).cfg.hasN = true ∧
        privOfCode ((levelHart p).sys.mstatus.extractLsb' 11 2) = some .u)) = true ∧
    .s ∉ runningHart.cfg.privs ∧ runningHart.cfg.hasN = false := by
  and_intros <;> first | rfl | decide

theorem witness_TrapSaves : runningHart.delegated false 2 = false ∧
    (let hart := { levelHart .u with sys := { runningHart.sys with medeleg := 4 } }
     hart.delegated false 2 = true) ∧
    (let hart := { levelHart .u with sys := { runningHart.sys with mideleg := 0x20 } }
     hart.delegated true 5 = true ∧ hart.delegated true 7 = false) := by
  and_intros <;> rfl

/-! ### Witnesses: debug and trigger CSRs -/

/-- csrrs with source x0, which only reads; and csrrw with source x8. -/
def readOp : CsrOp := { kind := .rs, imm := false, rd := 31, src := 0 }
def writeOp : CsrOp := { kind := .rw, imm := false, rd := 8, src := 8 }

theorem witness_CsrReads : (machine bufferHart []).harts[(machine bufferHart []).cur]? = some bufferHart ∧
    bufferHart.debugMode = true ∧ (Instr.dcsr, 0x7b0) ∈ csrRows ∧
    readCsr (machine bufferHart []) bufferHart 0x7b0 = some 0x400000c3 ∧ csrWrites readOp = false ∧
    bufferHart.cfg.hasDscratch0 = true ∧ bufferHart.cfg.hasDscratch1 = true ∧
    (runningHart.priv = .m ∧ (Instr.tdata1, 0x7a1) ∈ csrRows ∧ 0x7a1 < 0x7b0 ∧
      readCsr (machine triggerHart []) triggerHart 0x7a1 = some 0x28001044 ∧
      triggerHart.trigs[triggerHart.tselect.toNat]? = some entryTrigger ∧ triggerHart.cfg.xlen = 32 ∧
      entryTrigger.cfg.kind < 16 ∧ entryTrigger.cfg.maskmax < 64) ∧
    ({ bufferHart with tselect := 2 } : Hart).trigs[2]? = none :=
  ⟨rfl, rfl, .head _, by decide, rfl, rfl, rfl, ⟨rfl, by simp [csrRows], by decide, by decide, rfl, rfl, by decide,
    by decide⟩, rfl⟩

theorem witness_DcsrWrite : (machine bufferHart []).harts[(machine bufferHart []).cur]? = some bufferHart ∧
    bufferHart.debugMode = true ∧ csrWrites writeOp = true ∧
    (let hart := bufferHart.setGpr 8 0xffffffff
     let v := hart.trunc (csrResult writeOp hart (BitVec.ofNat 128 hart.dcsrNat))
     privOfCode (v.extractLsb' 0 2) = some .m ∧ .m ∈ hart.cfg.privs) := by
  and_intros <;> first | rfl | decide

theorem witness_DpcDscratchTselectWrite : (machine bufferHart []).harts[(machine bufferHart []).cur]? = some bufferHart ∧
    bufferHart.debugMode = true ∧ csrWrites writeOp = true ∧ bufferHart.cfg.hasDscratch0 = true ∧
    bufferHart.cfg.hasDscratch1 = true ∧ (bufferHart.trunc (csrResult writeOp bufferHart bufferHart.dpc)).toNat % 4 = 0 ∧
    (bufferHart.trunc (csrResult writeOp (bufferHart.setGpr 8 1) bufferHart.tselect)).toNat < bufferHart.trigs.length ∧
    ({ bufferHart with trigs := [] } : Hart).trigs = [] := by
  and_intros <;> first | rfl | decide

theorem witness_TdataWrite :
    [bufferHart, runningHart].all (fun hart =>
      decide ((machine hart []).harts[(machine hart []).cur]? = some hart ∧ (hart.debugMode = true ∨ hart.priv = .m) ∧
        csrWrites writeOp = true ∧ hart.trigs[hart.tselect.toNat]? = some (Trigger.reset minimalTrigger) ∧
        (Trigger.reset minimalTrigger).cfg.kind = 2 ∧ (Trigger.reset minimalTrigger).cfg.badCombos = [])) = true ∧
    (triggerHart.debugMode = false ∧ triggerHart.priv = .m ∧ triggerHart.trigs[triggerHart.tselect.toNat]? = some entryTrigger ∧
      entryTrigger.dmode = true) ∧
    (let hart := { bufferHart with trigs := [countTrigger 1 true] }
     hart.trigs[hart.tselect.toNat]? = some (countTrigger 1 true) ∧ (countTrigger 1 true).cfg.kind = 3 ∧
     (countTrigger 1 true).cfg.badCombos = []) ∧
    (let trig := Trigger.reset { minimalTrigger with kind := 15 }
     let hart := { bufferHart with trigs := [trig] }
     hart.trigs[hart.tselect.toNat]? = some trig ∧ hart.debugMode = true ∧ trig.cfg.kind ≠ 2 ∧ trig.cfg.kind ≠ 3) := by
  and_intros <;> first | rfl | decide

theorem witness_CsrRefused : (machine runningHart []).harts[(machine runningHart []).cur]? = some runningHart ∧
    (Instr.dcsr, 0x7b0) ∈ csrRows ∧ runningHart.debugMode = false ∧ (levelHart .s).debugMode = false ∧
    (levelHart .s).priv ≠ .m ∧ (Instr.tselect, 0x7a0) ∈ csrRows ∧
    (let hart := { bufferHart with cfg := { minimalHart with hasDscratch0 := false, hasDscratch1 := false } }
     hart.debugMode = true ∧ hart.cfg.hasDscratch0 = false ∧ hart.cfg.hasDscratch1 = false) :=
  ⟨rfl, .head _, rfl, rfl, by decide, by simp [csrRows], rfl, rfl, rfl⟩

/-! ### Witnesses: the Debug Module -/

/-- A halted hart, an active DM, nothing in progress. -/
def readyState : State := machine haltedHart []

/-- The same DM before authentication. -/
def lockedState : State :=
  { readyState with cfg := { minimalConfig with hasAuth := true }, dm := { readyState.dm with authenticated := false } }

theorem readyState_ready : readyState.dmReady := by unfold State.dmReady; decide

theorem witness_DmcontrolRead : readyState.dm.authenticated = true ∧ lockedState.dm.authenticated = false := by
  and_intros <;> rfl

theorem witness_DmcontrolWriteSelectsThenRequests : readyState.dm.dmactive = true ∧ readyState.dm.authenticated = true ∧
    (0xc0010001 : Word).getLsbD 0 = true ∧ (0xc0010001 : Word).getLsbD 1 = false ∧ readyState.extReset = false ∧
    readyState.cfg.hasHartreset = false ∧ ∀ hart ∈ readyState.harts, hart.ctl.hartreset = false := by
  and_intros <;> first | rfl | decide

theorem witness_Ndmreset : readyState.dm.dmactive = true ∧ readyState.dm.authenticated = true ∧
    (3 : Word).getLsbD 0 = true ∧ (3 : Word).getLsbD 1 = true ∧ readyState.dm.phase = .idle ∧
    readyState.harts[0]? = some haltedHart ∧ haltedHart.inReset = false ∧ readyState.cfg.inResetUnavailable = true ∧
    readyState.cfg.ndmresetClearsTriggers = true := by
  and_intros <;> rfl

/-- The same state with hart resets implemented. -/
def hartresetState : State := { readyState with cfg := { minimalConfig with hasHartreset := true } }

theorem witness_HartReset : hartresetState.dm.dmactive = true ∧ hartresetState.dm.authenticated = true ∧
    (0x20000001 : Word).getLsbD 0 = true ∧ (0x20000001 : Word).getLsbD 1 = false ∧ (0x20000001 : Word).getLsbD 29 = true ∧
    hartresetState.extReset = false ∧ hartresetState.cfg.hasHartreset = true ∧ hartresetState.dm.phase = .idle ∧
    hartresetState.harts[0]? = some haltedHart ∧ haltedHart.inReset = false := by
  and_intros <;> rfl

/-- A hart with its own reset bit set, which this write of dmcontrol does not select: hart 1 is, by hartsel alone. -/
theorem witness_HartReset_unselected :
    let hart := { haltedHart with ctl := { haltedHart.ctl with hartreset := true } }
    let s := { hartresetState with harts := [hart] }
    s.harts[0]? = some hart ∧ hart.ctl.hartreset = true ∧
    after (.dmcontrol (.write 0x00010001)) s (fun t => (t.dm.hartsel, t.dm.hasel)) = some (1, false) := by
  and_intros <;> rfl

/-- An external reset about to come and one about to end; a hart that was halted before a reset, about to leave it. -/
theorem witness_ExternalReset :
    (let s := machine haltedHart [.extReset true]
     s.queue = .extReset true :: [] ∧ s.dm.phase = .idle ∧ s.harts[0]? = some haltedHart ∧ haltedHart.inReset = false ∧
     haltedHart.ctl.hartreset = false ∧ s.cfg.ndmresetClearsTriggers = true ∧
     (requestedHart false true).inReset = true ∧ (requestedHart false true).ctl.hartreset = false) ∧
    (let s := { machine (requestedHart false true) [.extReset false] with extReset := true }
     s.queue = .extReset false :: [] ∧ s.dm.ndmreset = false ∧ ∀ hart ∈ s.harts, hart.ctl.hartreset = false) ∧
    (machine haltedHart [.hartReset 0]).queue = .hartReset 0 :: [] ∧
    (let hart := { requestedHart false true with resetHalt := true }
     let s := machine hart [.hart 0]
     s.queue = .hart 0 :: [] ∧ s.harts[0]? = some hart ∧ hart.avail = true ∧ hart.inReset = true ∧
     s.resetLine hart = false ∧ hart.ctl.haltreq = false ∧ hart.resetHalt = true ∧ s.dm.phase ≠ .quickHalt ∧
     s.cfg.haltKeptAcrossNdmreset = true ∧ s.dm.dmactive = true) := by
  and_intros <;> first | rfl | decide

theorem witness_DmReset : (0xfffffffe : Word).getLsbD 0 = false ∧ readyState.dm.phase ≠ .started ∧
    readyState.sb.pending = none ∧ readyState.harts[0]? = some haltedHart ∧ haltedHart.inProgbuf = false ∧
    bufferHart.inProgbuf = true ∧ bufferHart.cfg.progbufClobbersDpc = false ∧ (1 : Word).getLsbD 0 = true ∧
    State.reset.dm.dmactive = false ∧ State.reset.cfg.activatingWriteAppliesFields = false := by
  and_intros <;> first | rfl | decide

/-- A DM reset leaves any value in a dpc that the running Program Buffer clobbers, and the dpc of another hart (U8, U34). -/
theorem test_dmReset_dpc : (let hart := { bufferHart with cfg := { minimalHart with progbufClobbersDpc := true } }
    (hart.dmReset 0).dpc = hart.trunc (Config.freeWord 1) ∧ ({ hart with inProgbuf := false }.dmReset 0).dpc = hart.dpc) :=
  ⟨rfl, rfl⟩

/-- What an abandoned command could not have written stays: the register where its reserved bits make it unsupported, and dpc
where its transfer fails (U8, R370, R246). -/
theorem test_abandonCommand :
    (let s := { readyState with
      cfg := { minimalConfig with cmdReservedNotSupported := true }
      dm := { readyState.dm with phase := .started, cmd := 0x00a31008 } }
     abandonCommand s = s) ∧
    (let hart := { haltedHart with cfg := { minimalHart with progbufClobbersDpc := true } }
     let s := machine hart []
     let t := abandonCommand { s with dm := { s.dm with phase := .started, cmd := 0x00371008 } }
     ofHart (fun x => (x.dpc, x.gprs)) t = some (hart.dpc, hart.gprs)) := by
  and_intros <;> rfl

/-- R664: what Access Register writes to a hart held in reset that reads as running does not outlast the reset. -/
theorem test_write_in_reset :
    (let hart := requestedHart true true
     let s := machine hart []
     [RegRef.gpr 8, .csr 0x7b0, .csr 0x7b1, .csr 0x7a1, .csr 0x300].all (fun ref =>
       ofHart (fun x => decide (x = hart)) (writeReg 0 ref 0xffffffff s) == some true)) = true := by decide

theorem witness_DmstatusRead : readyState.dm.authenticated = true ∧ readyState.dm.ndmreset = false ∧
    readyState.extReset = false := by
  and_intros <;> rfl

/-- The same state with every optional register of hart selection. -/
def wideState : State :=
  { readyState with cfg := { minimalConfig with
      hasHasel := true
      hartsellen := 20
      hasHaltsum1 := true
      hasHaltsum2 := true
      hasHaltsum3 := true } }

theorem witness_HaltSummaries : wideState.dmReady ∧ wideState.cfg.hasHaltsum1 = true ∧ wideState.cfg.hasHaltsum2 = true ∧
    wideState.cfg.hasHaltsum3 = true := by
  unfold State.dmReady; decide

theorem witness_HartArrayMask : wideState.dmReady ∧ wideState.cfg.hasHasel = true ∧
    wideState.harts.length ≤ 2 ^ wideState.cfg.hartsellen ∧ wideState.harts[0]? = some haltedHart ∧
    0 / 32 = wideState.dm.hawindowsel.toNat := by
  unfold State.dmReady; decide

theorem witness_AuthenticationAndGates : lockedState.dm.ndmreset = false ∧ lockedState.extReset = false ∧
    lockedState.cfg.hasAuth = true ∧ lockedState.dm.dmactive = true ∧ lockedState.dm.authbusy = false ∧
    readyState.cfg.hasAuth = false ∧
    (let s := { lockedState with queue := [.auth], dm := { lockedState.dm with authbusy := true } }
     s.queue = .auth :: [] ∧ s.dm.authbusy = true ∧ s.dm.ndmreset = false ∧ s.extReset = false) := by
  and_intros <;> rfl

theorem witness_InformationAndAbsentRegisters : readyState.dmReady ∧
    readyState.harts[readyState.dm.hartsel.toNat]? = some haltedHart ∧ haltedHart.cfg.nscratch < 16 ∧
    haltedHart.cfg.datasize < 16 ∧ readyState.cfg.hasHartinfo = true ∧
    ({ readyState with dm := { readyState.dm with hartsel := 1 } } : State).harts[1]? = none ∧
    (Instr.data2, false) ∈ optionalRows readyState.cfg ∧
    (Instr.sbdata3, false) ∈ optionalRows readyState.cfg :=
  ⟨readyState_ready, rfl, by decide, by decide, rfl, rfl,
    by simp [optionalRows, dataRows, readyState, machine, State.reset, State.resetWith, minimalConfig],
    by simp [optionalRows, dataRows, readyState, machine, State.reset, State.resetWith, minimalConfig]⟩

/-- The inactive DM of the reset state, and one before authentication. -/
theorem witness_AuthenticationAndGates_gates : State.reset.dm.ndmreset = false ∧ State.reset.extReset = false ∧
    State.reset.dm.dmactive = false ∧ lockedState.dm.ndmreset = false ∧ lockedState.extReset = false ∧
    lockedState.dm.authenticated = false ∧ lockedState.cfg.authGatingStrict = true ∧ (1 : Word).getLsbD 0 = true ∧
    State.reset.dm.authenticated = true ∧ State.reset.inactiveOk ∧ State.reset.cfg.progbufsize ≤ 16 ∧
    State.reset.cfg.datacount ≤ 12 ∧ 0 < State.reset.cfg.sbasize ∧ State.reset.cfg.sbasize < 128 ∧
    State.reset.cfg.hasHartinfo = true ∧ (∃ hart, State.reset.harts[0]? = some hart ∧ hart.cfg.nscratch < 16 ∧
      hart.cfg.datasize < 16) ∧
    [Instr.devtreeaddr0, .devtreeaddr1, .devtreeaddr2, .devtreeaddr3][3]? = some .devtreeaddr3 :=
  ⟨rfl, rfl, rfl, rfl, rfl, rfl, rfl, rfl, rfl, by unfold State.inactiveOk; decide, by decide, by decide, by decide,
    by decide, rfl, ⟨_, rfl, by decide, by decide⟩, rfl⟩

theorem witness_Abstractcs : readyState.dmReady ∧ readyState.dm.busy = false ∧ readyState.cfg.progbufsize ≤ 16 ∧
    readyState.cfg.datacount ≤ 12 :=
  ⟨readyState_ready, by decide, by decide, by decide⟩

theorem witness_CommandAndAutoexec_command : readyState.dmReady ∧ readyState.dm.busy = false ∧ readyState.dm.cmderr = 0 ∧
    (let s := { readyState with dm := { readyState.dm with cmderr := 7 } }
     s.dmReady ∧ s.dm.busy = false ∧ s.dm.cmderr ≠ 0) := by
  unfold State.dmReady; decide

/-- The first and the last data and progbuf words there are, the last with its bit of abstractauto set. -/
theorem witness_CommandAndAutoexec : readyState.dmReady ∧ readyState.dm.busy = false ∧
    readyState.cfg.hasAbstractauto = true ∧ dataRows[0]? = some .data0 ∧
    0 < readyState.cfg.datacount ∧ dataRows[1]? = some .data1 ∧ 1 < readyState.cfg.datacount ∧
    progbufRows[1]? = some .progbuf1 ∧ 1 < readyState.cfg.progbufsize ∧
    (let s := { readyState with dm := { readyState.dm with auto := 0x00020002 } }
     s.dm.auto.getLsbD 1 = true ∧ s.dm.auto.getLsbD 17 = true ∧ s.dm.cmderr = 0) :=
  ⟨readyState_ready, by decide, rfl, rfl, by decide, rfl, by decide, rfl, by decide, by decide⟩

theorem witness_BusyAccesses :
    let s := { readyState with dm := { readyState.dm with phase := .started } }
    s.dmReady ∧ s.dm.busy = true ∧ (dataRows[1]? = some .data1 ∧ 1 < s.cfg.datacount) ∧
    (progbufRows[1]? = some .progbuf1 ∧ 1 < s.cfg.progbufsize) :=
  ⟨readyState_ready, by decide, ⟨rfl, by decide⟩, rfl, by decide⟩

theorem witness_AccessRegisterGpr : readyState.harts[readyState.dm.cmdHart]? = some haltedHart ∧ haltedHart.avail = true ∧
    haltedHart.inReset = false ∧ haltedHart.debugMode = true ∧ 2 ≤ (2 : BitVec 3).toNat ∧ (2 : BitVec 3).toNat ≤ 4 ∧
    2 ^ (2 : BitVec 3).toNat / 4 ≤ readyState.cfg.datacount ∧ 31 < 32 ∧ 31 < haltedHart.cfg.ngpr ∧
    (0x101f : BitVec 16).toNat = 0x1000 + 31 ∧ 0 < readyState.cfg.progbufsize ∧
    8 * 2 ^ (2 : BitVec 3).toNat = haltedHart.cfg.xlen ∧
    (0x1000 : BitVec 16).toNat = 0x1000 + 0 ∧ haltedHart.cfg.x0Writable = true := by
  and_intros <;> first | rfl | decide

/-- A hart with floating-point registers on which dpc, mepc and the floating-point registers can be accessed, dpc and x1 on
a running hart too, and written with 32 bits. -/
def supportHart (debugMode : Bool) : Hart :=
  { runningHart with debugMode := debugMode, dcsr := { runningHart.dcsr with cause := 3 }, cfg := { minimalHart with
      xlen := 64
      flen := 64
      regSupport := [{ lo := 0x7b1, hi := 0x7b1, write := false, sizes := [2, 3], running := true },
        { lo := 0x341, hi := 0x7b1, write := true, sizes := [2, 3], running := true },
        { lo := 0x1020, hi := 0x103f, write := false, sizes := [2, 3], running := false },
        { lo := 0x1020, hi := 0x103f, write := true, sizes := [2, 3], running := false },
        { lo := 0x1001, hi := 0x1001, write := true, sizes := [2, 3], running := true }] } }

theorem witness_AccessRegisterElsewhere :
    (let s := machine (supportHart true) []
     s.harts[s.dm.cmdHart]? = some (supportHart true) ∧ (supportHart true).avail = true ∧ (supportHart true).inReset = false ∧
     2 ^ (3 : BitVec 3).toNat / 4 ≤ s.cfg.datacount ∧ (supportHart true).supportedHalted 0x7b1 3 false = true ∧
     (readCsr s (supportHart true) 0x7b1).isSome = true ∧
     8 * 2 ^ (3 : BitVec 3).toNat = csrWidth (supportHart true).cfg.xlen (supportHart true).cfg.csrWidths 0x7b1 ∧
     (supportHart true).supportedHalted 0x341 2 true = true ∧ (readCsr s (supportHart true) 0x341).isSome = true ∧
     0x341 / 2 ^ 10 % 4 ≠ 3 ∧ (supportHart true).shadowCsr s 0x341 = none ∧
     (supportHart true).supportedHalted 0x103f 3 false = true ∧ (supportHart true).supportedHalted 0x1020 2 true = true ∧
     8 * 2 ^ (3 : BitVec 3).toNat ≤ (supportHart true).cfg.flen ∧
     (supportHart true).supportedHalted 0x1001 2 true = true ∧ (supportHart true).debugMode = true ∧
     0 < s.cfg.progbufsize) ∧
    (let s := machine (supportHart false) []
     s.harts[s.dm.cmdHart]? = some (supportHart false) ∧ (supportHart false).debugMode = false ∧
     (supportHart false).supportedRunning 0x7b1 3 false = true ∧ (supportHart false).supportedRunning 0x7b1 2 true = true ∧
     (supportHart false).supportedRunning 0x1020 3 true = false ∧ (supportHart false).supportedRunning 0x1001 2 true = true ∧
     (supportHart false).supportedRunning 0x101f 3 false = false ∧ 0x101f < 0x1000 + min 32 (supportHart false).cfg.ngpr) := by
  and_intros <;> first | rfl | decide

theorem witness_CommandsTurnedAway : readyState.cfg.quickAccess = false ∧
    readyState.harts[readyState.dm.cmdHart]? = some haltedHart ∧ haltedHart.avail = true ∧ haltedHart.inReset = false ∧
    ((1 : BitVec 3).toNat < 2 ∧ 4 < (5 : BitVec 3).toNat ∧ readyState.cfg.datacount < 2 ^ (4 : BitVec 3).toNat / 4 ∧
      (0x1000 ≤ (0x101f : BitVec 16).toNat ∧ (0x101f : BitVec 16).toNat < 0x1020 ∧
        haltedHart.cfg.xlen < 8 * 2 ^ (3 : BitVec 3).toNat) ∧
      ((0xfff : BitVec 16).toNat < 0x1000 ∧
        csrWidth haltedHart.cfg.xlen haltedHart.cfg.csrWidths (0xfff : BitVec 16).toNat < 8 * 2 ^ (3 : BitVec 3).toNat) ∧
      (0x1040 ≤ (0x1040 : BitVec 16).toNat ∧ (0xbfff : BitVec 16).toNat < 0xc000)) ∧
    readyState.status readyState.dm.cmdHart = .halted ∧
    (let s := machine { haltedHart with avail := false } []
     s.status s.dm.cmdHart = .unavailable) ∧
    (let s := { readyState with dm := { readyState.dm with cmdHart := 1 } }
     s.status s.dm.cmdHart = .nonexistent) ∧
    (machine runningHart []).status (machine runningHart []).dm.cmdHart = .running ∧
    (let s := { readyState with cfg := { minimalConfig with progbufsize := 0 } }
     s.cfg.progbufsize = 0 ∧ s.harts[s.dm.cmdHart]? = some haltedHart) ∧
    (let s := machine runningHart []
     s.harts[s.dm.cmdHart]? = some runningHart ∧ runningHart.debugMode = false ∧ 0 < s.cfg.progbufsize) ∧
    (let s := { readyState with cfg := { minimalConfig with quickAccess := true } }
     s.cfg.quickAccess = true ∧ s.harts[s.dm.cmdHart]? = some haltedHart ∧ haltedHart.debugMode = true ∧
     (1 : BitVec 24) ≠ 0 ∧ s.cfg.cmdReservedNotSupported = false) ∧
    ({ minimalConfig with cmdReservedNotSupported := true } : Config).cmdReservedNotSupported = true := by
  and_intros <;> first | rfl | decide

/-- The idle command leaves everything but busy; an undefined cmdtype sets cmderr 2 (R370, R245). -/
theorem test_idle_and_reserved : exec (.accessRegister 2 false false true 0x1001 false false) readyState =
    .next { readyState with dm := { readyState.dm with phase := .idle } } ∧
    exec (.commandReservedCmdtype 2 0) readyState =
      .next { readyState with dm := { readyState.dm with phase := .idle, cmderr := 2 } } :=
  ⟨rfl, rfl⟩

/-- A DM with Quick Access, in this phase of a Quick Access for this hart. -/
def quickState (phase : Phase) (hart : Hart) (q : List Event) : State :=
  let s := machine hart q
  { s with cfg := { minimalConfig with quickAccess := true }, dm := { s.dm with phase := phase, quick := true } }

theorem witness_QuickAccess :
    (let s := quickState .started runningHart []
     s.harts[s.dm.cmdHart]? = some runningHart ∧ runningHart.avail = true ∧ runningHart.inReset = false ∧
     runningHart.debugMode = false ∧ s.cfg.quickAccess = true ∧ 0 < s.cfg.progbufsize) ∧
    (let s := quickState .quickHalt runningHart [.hart 0]
     s.queue = .hart 0 :: [] ∧ s.harts[0]? = some runningHart ∧ s.dm.phase = .quickHalt ∧ s.dm.cmdHart = 0 ∧
     runningHart.ctl.haltreq = false ∧ runningHart.ebreakEnabled = false ∧
     ∀ trig ∈ runningHart.trigs, trig.enabledAt runningHart.priv = false) ∧
    (let s := quickState .progbuf bufferHart []
     s.harts[0]? = some bufferHart ∧ s.dm.phase = .progbuf ∧ s.dm.cmdHart = 0 ∧ s.dm.quick = true) := by
  and_intros <;> first | rfl | decide

/-- A Quick Access waits for a hart that is about to leave reset: with a halt request, and halted before the reset. -/
theorem witness_QuickAccess_leaving_reset : [(true, false), (false, true), (false, false)].all (fun p =>
    let hart := { requestedHart p.1 true with resetHalt := p.2 }
    let s := quickState .quickHalt hart [.hart 0]
    decide (s.queue = .hart 0 :: [] ∧ s.harts[0]? = some hart ∧ hart.avail = true ∧ hart.inReset = true ∧
      s.resetLine hart = false ∧ s.dm.phase = .quickHalt ∧ s.dm.cmdHart = 0 ∧ hart.ctl.haltreq = p.1 ∧
      hart.resetHalt = p.2 ∧ s.cfg.haltKeptAcrossNdmreset = true ∧ s.dm.dmactive = true)) = true := by decide

/-- The kept halt is another reason for the hart to halt: cmderr 4 (R400), and the hart stays halted. -/
theorem test_quickAccess_kept_halt : afterStep
    (quickState .quickHalt { requestedHart false true with resetHalt := true } [.hart 0])
    (fun t => (t.dm.cmderr, t.dm.busy, ofHart (fun x => (x.debugMode, x.dcsr.cause, x.inProgbuf)) t)) =
      some (4, false, some (true, 3, false)) := by decide

/-! ### Witnesses: System Bus Access -/

theorem witness_Sbcs : readyState.dmReady ∧ 0 < readyState.cfg.sbasize ∧ readyState.cfg.sbasize < 128 :=
  ⟨readyState_ready, by decide, by decide⟩

/-- A bus access about to complete, of this kind at this address. -/
def pendingState (write : Bool) (address : Nat) : State :=
  let s := machine haltedHart [.bus]
  { s with
    cfg := { minimalConfig with regions := minimalConfig.regions ++
      [{ base := 0x1000, size := 0x100, kind := .timeout }, { base := 0x2000, size := 0x100, kind := .other }] }
    sb := { s.sb with
      address := BitVec.ofNat 128 address
      pending := some { write := write, bytes := 4, address := address, data := 0xdeadbeef, inc := true } } }

/-- The last word of RAM, and a region of each kind of error. -/
theorem witness_BusAccess_completes :
    (pendingState true 0x8000fffc).queue = .bus :: [] ∧
    (pendingState true 0x8000fffc).sb.pending =
      some { write := true, bytes := 4, address := 0x8000fffc, data := 0xdeadbeef, inc := true } ∧
    (pendingState true 0x8000fffc).dm.ndmreset = false ∧ (pendingState true 0x8000fffc).extReset = false ∧
    (pendingState true 0x8000fffc).memoryOk ∧
    regionAt (pendingState true 0).cfg.regions 0x8000fffc 4 = .ram ∧
    regionAt (pendingState true 0).cfg.regions 0x8000fffd 4 = .bad ∧
    regionAt (pendingState true 0).cfg.regions 0x1000 4 = .timeout ∧
    regionAt (pendingState true 0).cfg.regions 0x2000 4 = .other := by
  and_intros <;> first | rfl | decide

/-- Size 4 at an aligned and a misaligned address, and an unsupported size. -/
theorem witness_BusAccess_starts :
    (let s := { readyState with sb := { readyState.sb with address := 0x80000004 } }
     2 ^ s.sb.access.toNat = 4 ∧ s.cfg.sbaccess32 = true ∧ s.sb.address.toNat % 4 = 0) ∧
    (let s := { readyState with sb := { readyState.sb with address := 0x80000001 } }
     s.sb.address.toNat % 4 ≠ 0 ∧ s.cfg.sbaMisalignedPerformed = false) ∧
    (let s := { readyState with sb := { readyState.sb with access := 3 } }
     2 ^ s.sb.access.toNat = 8 ∧ s.cfg.sbaccess64 = false) := by
  and_intros <;> first | rfl | decide

theorem witness_SbaddressAndSbdata_address : readyState.dmReady ∧
    [Instr.sbaddress0, .sbaddress1, .sbaddress2, .sbaddress3][0]? = some .sbaddress0 ∧ 32 * 0 < readyState.cfg.sbasize ∧
    readyState.sb.busy = false ∧ busState.sb.busy = true ∧ busState.dmReady ∧
    (let s := { readyState with cfg := { minimalConfig with sbasize := 97 } }
     [Instr.sbaddress0, .sbaddress1, .sbaddress2, .sbaddress3][3]? = some .sbaddress3 ∧ 32 * 3 < s.cfg.sbasize) :=
  ⟨readyState_ready, rfl, by decide, by decide, by decide, by unfold State.dmReady; decide, rfl, by decide⟩

theorem witness_SbaddressAndSbdata : readyState.dmReady ∧
    [Instr.sbdata0, .sbdata1, .sbdata2, .sbdata3][0]? = some .sbdata0 ∧ (Instr.sbdata0, true) ∈ optionalRows readyState.cfg ∧
    busState.sb.busy = true ∧ (readyState.sb.busy = false ∧ readyState.sb.error = 0 ∧ readyState.sb.busyerror = false) ∧
    (let s := { readyState with sb := { readyState.sb with error := 3 } }
     s.sb.busy = false ∧ ¬(s.sb.error = 0 ∧ s.sb.busyerror = false)) ∧
    ({ minimalConfig with sbdata0ReadIncrWithoutRead := true } : Config).sbdata0ReadIncrWithoutRead = true ∧
    (let c := { minimalConfig with sbaccess128 := true }
     [Instr.sbdata0, .sbdata1, .sbdata2, .sbdata3][3]? = some .sbdata3 ∧ (Instr.sbdata3, true) ∈ optionalRows c) :=
  ⟨readyState_ready, rfl,
    by simp [optionalRows, dataRows, readyState, machine, State.reset, State.resetWith, minimalConfig],
    by decide, by decide, by decide, rfl, rfl, by simp [optionalRows, dataRows, minimalConfig]⟩

/-! ### Witnesses: the JTAG DTM -/

theorem witness_JtagInstructions : (Instr.bypass1f, 0x1f) ∈ irRows ∧ 5 ≤ State.reset.cfg.irlen ∧
    Instr.reservedBypass17 ∈ bypassRows ∧ State.reset.cfg.idVersion < 16 ∧ State.reset.cfg.idPart < 65536 ∧
    State.reset.cfg.idManuf < 2048 ∧
    ({ State.reset with queue := [.tapReset] } : State).queue = .tapReset :: [] ∧
    (let s := { State.reset with dtm := { State.reset.dtm with ir := 0x02 }, queue := [.scanDR 1] }
     s.queue = .scanDR 1 :: [] ∧ irRow s.dtm.ir = none) :=
  ⟨by simp [irRows], by decide, by simp [bypassRows], by decide, by decide, by decide, rfl, rfl, rfl⟩

theorem witness_Dtmcs : State.reset.cfg.idle < 8 ∧ State.reset.cfg.abits < 64 := by decide

/-- A DTM with this status and transaction. -/
def dtmState (status : BitVec 2) (pending : DmiPending) : State :=
  { State.reset with dtm := { State.reset.dtm with status := status, pending := pending } }

theorem witness_DmiUpdate : State.reset.cfg.abits ≤ 32 ∧ (dtmState 3 .none).dtm.status ≠ 0 ∧
    (dtmState 0 .none).dtm.status = 0 ∧ (dtmState 0 (.inProgress 0x7f .read)).dtm.pending = .inProgress 0x7f .read ∧
    (∀ a acc, (dtmState 0 (.finished 5 false)).dtm.pending ≠ .inProgress a acc) ∧
    (Instr.dmiWrite 0x7f 1, DmAcc.write 1) ∈ [(Instr.dmiRead 0x7f 1, DmAcc.read), (.dmiWrite 0x7f 1, .write 1)] :=
  ⟨by decide, by decide, rfl, rfl, fun _ _ => DmiPending.noConfusion, by simp⟩

theorem witness_DmiCapture : (dtmState 2 .none).dtm.status ≠ 0 ∧ (dtmState 0 (.finished 5 false)).dtm.status = 0 ∧
    (dtmState 0 (.finished 5 false)).dtm.pending = .finished 5 false ∧
    ∀ result failed, (dtmState 0 .none).dtm.pending ≠ .finished result failed :=
  ⟨by decide, rfl, rfl, fun _ _ => DmiPending.noConfusion⟩

theorem witness_DmiScan : State.reset.cfg.abits ≤ 32 ∧ (0x7f : Word).toNat < 2 ^ State.reset.cfg.abits ∧
    (dtmState 0 (.finished 5 false)).dtm.status = 0 ∧ (dtmState 0 (.finished 5 false)).dtm.pending = .finished 5 false ∧
    (dtmState 0 (.inProgress 0x11 .read)).dtm.pending = .inProgress 0x11 .read ∧
    ((2 : BitVec 66), DmAcc.write 7) ∈ [((1 : BitVec 66), DmAcc.read), (2, .write 7)] :=
  ⟨by decide, by decide, rfl, rfl, rfl, by simp⟩

end Sys2Proof.Tests
end

section
/-! PROOF. Reset: the power-up state is a good state (O8), and an external reset, the platform's reset of one hart, and a
hart that was halted before a reset leaving it (O39). -/

namespace Sys2Proof.Machine

/-! ### The power-up state -/

/-- A hart after power-up meets the invariants of a hart. -/
theorem Hart.reset_ok (c : HartCfg) (trigs : List TrigCfg) :
    (Hart.reset c trigs).modesOk ∧ (Hart.reset c trigs).privOk ∧ (Hart.reset c trigs).triggersOk := by
  refine ⟨by simp [Hart.modesOk, Hart.reset, Dcsr.reset], fun hp => hp.1, fun t ht => ?_⟩
  obtain ⟨c, -, rfl⟩ := List.mem_map.mp ht
  simp [Trigger.ok, Trigger.reset]

/-- What holds of every hart after power-up holds of every hart of the power-up state. -/
theorem State.resetWith_everyHart {P : Hart → Prop} (hP : ∀ c trigs, P (Hart.reset c trigs)) (c : Config)
    (hs : List (HartCfg × List TrigCfg)) : (State.resetWith c hs).everyHart P := by
  intro hart hm
  obtain ⟨p, -, rfl⟩ := List.mem_map.mp hm
  exact hP p.1 p.2

/-- After power-up the DM is inactive and nothing is requested of any hart. -/
theorem State.resetWith_inactiveOk (c : Config) (hs : List (HartCfg × List TrigCfg)) :
    (State.resetWith c hs).inactiveOk := fun _ =>
  ⟨rfl, rfl, State.resetWith_everyHart (fun _ _ => ⟨rfl, rfl, rfl, rfl, rfl⟩) c hs⟩

/-- After power-up no memory lists a byte, which is the canonical form of memory with nothing written. -/
theorem State.resetWith_memoryOk (c : Config) (hs : List (HartCfg × List TrigCfg)) :
    (State.resetWith c hs).memoryOk := by
  have hwf : Mem.wf [] := ⟨.nil, nofun⟩
  exact ⟨hwf, hwf, hwf⟩

/-- The power-up state of every configuration is good, DTM_STATUS_RESET not being the reserved status. -/
theorem State.resetWith_ok (c : Config) (hs : List (HartCfg × List TrigCfg)) (h1 : c.dtmStatusReset ≠ 1) :
    (State.resetWith c hs).ok := by
  have hdtm : (State.resetWith c hs).dtmOk := ⟨h1, Nat.two_pow_pos _⟩
  have hdm : (State.resetWith c hs).dmOk := ⟨Nat.two_pow_pos _, BitVec.zero_and, fun _ => rfl, fun _ => rfl⟩
  have hsb : (State.resetWith c hs).sbOk := ⟨show Sb.reset.error.toNat < 4 by decide, Nat.two_pow_pos _⟩
  exact ⟨State.resetWith_memoryOk c hs, hdtm, hdm, hsb, State.resetWith_inactiveOk c hs,
    State.resetWith_everyHart (fun c trigs => (Hart.reset_ok c trigs).1) c hs,
    State.resetWith_everyHart (fun c trigs => (Hart.reset_ok c trigs).2.1) c hs,
    State.resetWith_everyHart (fun c trigs => (Hart.reset_ok c trigs).2.2) c hs⟩

/-- The minimal model's parameters are within their ranges (spec/00_scope.md R10, R11, R14). -/
theorem State.reset_legalParameters : legalParameters State.reset.fixedPart.1 State.reset.fixedPart.2 := by
  unfold legalParameters HartCfg.legal TrigCfg.legal
  decide

/-- Settles O8: every component of the power-up state holds its reset value. -/
theorem resetIsGood : Obligations.ResetIsGood :=
  ⟨State.reset_legalParameters, State.resetWith_ok _ _ (by decide), State.resetWith_ok⟩

/-! ### What a reset does to a hart (spec/70_reset_and_hazards.md R714) -/

/-- What every reset of a hart writes. -/
@[simp] theorem Hart.doReset_writes (hart : Hart) (n : Nat) (system clear : Bool) :
    (Hart.doReset n system clear hart).inReset = true ∧
    (Hart.doReset n system clear hart).ctl = { hart.ctl with havereset := true } ∧
    (Hart.doReset n system clear hart).debugMode = false ∧
    (Hart.doReset n system clear hart).resetHalt = (system && hart.debugMode) ∧
    (Hart.doReset n system clear hart).dpc = 0 ∧
    (Hart.doReset n system clear hart).dcsr = Dcsr.reset hart.cfg ∧
    (Hart.doReset n system clear hart).pc = BitVec.ofNat 128 hart.cfg.resetPc ∧
    (Hart.doReset n system clear hart).priv = .m := by
  cases clear <;> (and_intros <;> rfl)

/-- The Trigger Module after a reset of the hart: at its reset values where the reset clears the triggers. -/
theorem Hart.doReset_triggers (hart : Hart) (n : Nat) (system clear : Bool) :
    (clear = true → (Hart.doReset n system clear hart).tselect = 0 ∧
      (Hart.doReset n system clear hart).trigs = hart.trigs.map fun t => Trigger.reset t.cfg) ∧
    (clear = false → (Hart.doReset n system clear hart).tselect = hart.tselect ∧
      (Hart.doReset n system clear hart).trigs = hart.trigs) := by
  cases clear
  · exact ⟨nofun, fun _ => ⟨rfl, rfl⟩⟩
  · exact ⟨fun _ => ⟨rfl, rfl⟩, nofun⟩

/-- A hart that is in reset already stays there, its havereset bit set (R328, R329). -/
@[simp] theorem Hart.stillInReset_writes (hart : Hart) :
    hart.stillInReset.inReset = hart.inReset ∧ hart.stillInReset.ctl = { hart.ctl with havereset := true } := by
  unfold Hart.stillInReset
  split <;> exact ⟨rfl, rfl⟩

/-- The Trigger Module of a hart that is in reset already: at its reset values where the hart's own reset bit is 1 (R718). -/
theorem Hart.stillInReset_triggers (hart : Hart) :
    (hart.ctl.hartreset = true → hart.stillInReset.tselect = 0 ∧
      hart.stillInReset.trigs = hart.trigs.map fun t => Trigger.reset t.cfg) ∧
    (hart.ctl.hartreset = false → hart.stillInReset.tselect = hart.tselect ∧ hart.stillInReset.trigs = hart.trigs) := by
  unfold Hart.stillInReset
  split
  next h => exact ⟨fun _ => ⟨rfl, rfl⟩, fun h' => by simp [h] at h'⟩
  next h => exact ⟨fun h' => absurd h' h, fun _ => ⟨rfl, rfl⟩⟩

/-! ### Changing one hart alone -/

/-- Changing hart `h` and passing over free values is a change of hart `h` alone. -/
theorem State.onlyHart_modHart (s : State) (h : Nat) (f : Hart → Hart) (k : Nat) :
    s.onlyHart h ((s.modHart h f).bump k) :=
  ⟨⟨rfl, rfl, rfl, fun _ => ⟨rfl, rfl, rfl⟩, rfl, rfl, rfl, rfl, rfl, s.modHart_length h f,
    fun i hi => (s.modHart_get h f i).trans (if_neg hi.symm)⟩, rfl⟩

/-- One change of hart `h` alone after another is a change of hart `h` alone. -/
theorem State.onlyHart.trans {s t u : State} {h : Nat} (hst : s.onlyHart h t) (htu : t.onlyHart h u) : s.onlyHart h u := by
  obtain ⟨⟨cfg, dtm, sb, bytes, ext, queue, cur, rr, out, len, others⟩, dm⟩ := hst
  obtain ⟨⟨cfg', dtm', sb', bytes', ext', queue', cur', rr', out', len', others'⟩, dm'⟩ := htu
  refine ⟨⟨cfg'.trans cfg, dtm'.trans dtm, sb'.trans sb, fun a => ?_, ext'.trans ext, queue'.trans queue, cur'.trans cur,
    rr'.trans rr, out'.trans out, len'.trans len, fun k hk => (others' k hk).trans (others k hk)⟩, dm'.trans dm⟩
  obtain ⟨mem, hmem, imem⟩ := bytes a
  obtain ⟨mem', hmem', imem'⟩ := bytes' a
  exact ⟨mem'.trans mem, hmem'.trans hmem, imem'.trans imem⟩

/-! ### Reset signals (spec/70_reset_and_hazards.md R712, R718) -/

/-- A reset of a hart while no command is in progress changes that hart alone. -/
theorem resetHart_idle {s : State} {h : Nat} {hart : Hart} (hh : s.harts[h]? = some hart) (hi : s.dm.phase = .idle)
    (system clear : Bool) :
    resetHart system clear h s =
      (s.modHart h (Hart.doReset (s.free + 1) system clear)).bump (100 + hart.cfg.csrList.length) := by
  simp [resetHart, hh, hi]

/-- What its reset signal in `s` makes of a hart: held in reset where the signal is asserted, else as it was. -/
def State.resetSeen (s : State) (old new : Hart) : Prop :=
  if s.resetLine old then
    if old.inReset then new = old.stillInReset
    else ∃ n, new = Hart.doReset n (s.dm.ndmreset || s.extReset) (old.ctl.hartreset || s.cfg.ndmresetClearsTriggers) old
  else new = old

/-- Hart `k` sees its reset signal: one round of `applyResets`. -/
def seeReset (k : Nat) (s : State) : State :=
  match s.harts[k]? with
  | none => s
  | some hart =>
    if s.resetLine hart then
      if hart.inReset then s.modHart k Hart.stillInReset
      else resetHart (s.dm.ndmreset || s.extReset) (hart.ctl.hartreset || s.cfg.ndmresetClearsTriggers) k s
    else s

theorem applyResets_succ (k : Nat) (s : State) : applyResets (k + 1) s = seeReset k (applyResets k s) := rfl

/-- While no command is in progress, hart `k` seeing its reset signal changes hart `k` alone, as `State.resetSeen` says. -/
theorem seeReset_idle {k : Nat} {s : State} {hart : Hart} (hh : s.harts[k]? = some hart) (hi : s.dm.phase = .idle) :
    ∃ f n, seeReset k s = (s.modHart k f).bump n ∧ s.resetSeen hart (f hart) := by
  simp only [seeReset, hh, State.resetSeen]
  split
  · split
    · exact ⟨Hart.stillInReset, 0, rfl, rfl⟩
    · rw [resetHart_idle hh hi]
      exact ⟨_, _, rfl, _, rfl⟩
  · refine ⟨id, 0, ?_, rfl⟩
    simp [State.modHart, State.bump, List.modify_id]

/-- A reset signal is seen by its own hart alone. -/
theorem seeReset_get {k i : Nat} {s : State} {old : Hart} (hi : s.dm.phase = .idle) (ho : s.harts[i]? = some old) :
    ∃ new, (seeReset k s).harts[i]? = some new ∧ if i = k then s.resetSeen old new else new = old := by
  by_cases hik : i = k
  · subst hik
    obtain ⟨f, n, he, hf⟩ := seeReset_idle ho hi
    exact ⟨f old, by simp [he, ho], by rwa [if_pos rfl]⟩
  · refine ⟨old, ?_, by rw [if_neg hik]⟩
    cases hk : s.harts[k]? with
    | none => simpa [seeReset, hk] using ho
    | some hart =>
      obtain ⟨f, n, he, -⟩ := seeReset_idle hk hi
      simp [he, Ne.symm hik, ho]

/-- While no command is in progress, the reset signals change nothing but the harts, and not their number. -/
theorem applyResets_idle (k : Nat) {s : State} (hi : s.dm.phase = .idle) :
    applyResets k s = { s with harts := (applyResets k s).harts, free := (applyResets k s).free } ∧
      (applyResets k s).harts.length = s.harts.length := by
  induction k with
  | zero => exact ⟨rfl, rfl⟩
  | succ k ih =>
    rw [applyResets_succ]
    generalize applyResets k s = t at ih
    obtain ⟨heq, hlen⟩ := ih
    cases hk : t.harts[k]? with
    | none => simpa [seeReset, hk] using ⟨heq, hlen⟩
    | some hart =>
      obtain ⟨f, n, he, -⟩ := seeReset_idle hk (by rw [heq]; exact hi)
      exact ⟨by rw [he, heq]; rfl, by simp [he, hlen]⟩

/-- While no command is in progress, harts 0 to `k` - 1 see their reset signals and the others stay. -/
theorem applyResets_get (k : Nat) {s : State} (hi : s.dm.phase = .idle) {i : Nat} {old : Hart}
    (ho : s.harts[i]? = some old) :
    ∃ new, (applyResets k s).harts[i]? = some new ∧ if i < k then s.resetSeen old new else new = old := by
  induction k with
  | zero => exact ⟨old, ho, rfl⟩
  | succ k ih =>
    obtain ⟨mid, hm, hmid⟩ := ih
    obtain ⟨hs, -⟩ := applyResets_idle k hi
    obtain ⟨new, hn, hnew⟩ := seeReset_get (k := k) (by rw [hs]; exact hi) hm
    refine ⟨new, hn, ?_⟩
    rcases Nat.lt_trichotomy i k with h | rfl | h
    · rw [if_neg h.ne] at hnew
      rw [if_pos h] at hmid
      rwa [if_pos (h.trans k.lt_succ_self), hnew]
    · rw [if_pos rfl, hs] at hnew
      rw [if_neg (Nat.lt_irrefl i)] at hmid
      rwa [if_pos i.lt_succ_self, ← hmid]
    · rw [if_neg h.ne'] at hnew
      rw [if_neg h.not_gt] at hmid
      rwa [if_neg (Nat.not_lt.mpr h), hnew]

/-- Where no reset signal is asserted, none is seen. -/
theorem applyResets_none (k : Nat) {s : State} (hn : ∀ hart ∈ s.harts, s.resetLine hart = false) :
    applyResets k s = s := by
  induction k with
  | zero => rfl
  | succ k ih =>
    rw [applyResets_succ, ih, seeReset]
    split
    · rfl
    next hart hh => simp [hn hart (List.mem_of_getElem? hh)]

/-! ### The external reset (spec/41_reset_select_run.md R329) -/

/-- What an external reset leaves of a hart (R329, R712, R714, R152). -/
theorem State.resetSeen_ext {s : State} {old new : Hart} (hext : s.extReset = true) (hs : s.resetSeen old new) :
    new.inReset = true ∧ new.ctl = { old.ctl with havereset := true } ∧
    (old.inReset = false → new.debugMode = false ∧ new.resetHalt = old.debugMode ∧ new.dpc = 0 ∧
      new.dcsr = Dcsr.reset old.cfg ∧ new.pc = BitVec.ofNat 128 old.cfg.resetPc ∧ new.priv = .m) ∧
    (old.ctl.hartreset = true ∨ (old.inReset = false ∧ s.cfg.ndmresetClearsTriggers = true) →
      new.tselect = 0 ∧ new.trigs = old.trigs.map fun t => Trigger.reset t.cfg) ∧
    (¬(old.ctl.hartreset = true ∨ (old.inReset = false ∧ s.cfg.ndmresetClearsTriggers = true)) →
      new.tselect = old.tselect ∧ new.trigs = old.trigs) := by
  have hline : s.resetLine old = true := by simp [State.resetLine, hext]
  rw [State.resetSeen, if_pos hline] at hs
  cases hr : old.inReset with
  | true =>
    rw [if_pos hr] at hs
    subst hs
    obtain ⟨hclear, hkeep⟩ := old.stillInReset_triggers
    exact ⟨by simp [hr], by simp, nofun, fun h => hclear (by simpa using h), fun h => hkeep (by simpa using h)⟩
  | false =>
    rw [if_neg (by simp [hr])] at hs
    obtain ⟨n, rfl⟩ := hs
    obtain ⟨hclear, hkeep⟩ := old.doReset_triggers n (s.dm.ndmreset || s.extReset)
      (old.ctl.hartreset || s.cfg.ndmresetClearsTriggers)
    exact ⟨by simp, by simp, fun _ => by simp [hext], fun h => hclear (by simpa using h),
      fun h => hkeep (by simpa using h)⟩

/-! ### Leaving reset (spec/41_reset_select_run.md R334) -/

/-- A hart out of reset that has executed nothing yet: its havereset bit is set and a halt before the reset forgotten. -/
def Hart.outOfReset (hart : Hart) : Hart :=
  { hart with inReset := false, resetHalt := false, ctl := { hart.ctl with havereset := true } }

/-- A hart with no reset signal asserted leaves reset at its next move. -/
theorem hartMove_leaveReset {s : State} {h : Nat} {hart : Hart} (hh : s.harts[h]? = some hart) (ha : hart.avail = true)
    (hr : hart.inReset = true) (hl : s.resetLine hart = false) :
    hartMove h s = .quiet (leaveReset h hart { s with cur := h }) := by
  have hl' : State.resetLine { s with cur := h } hart = false := hl
  simp [hartMove, hh, ha, hr, hl']

/-- Without a halt request, and no Quick Access waiting, a hart that leaves reset halts only for a halt it remembers. -/
theorem leaveReset_unrequested {s : State} {h : Nat} {hart : Hart} (hq : hart.ctl.haltreq = false)
    (hp : s.dm.phase ≠ .quickHalt) :
    leaveReset h hart s =
      if hart.resetHalt && s.cfg.haltKeptAcrossNdmreset && s.dm.dmactive then
        enterDebug h 3 (BitVec.ofNat 128 hart.cfg.resetPc) (s.modHart h Hart.outOfReset)
      else s.modHart h Hart.outOfReset := by
  have hquick : (s.dm.phase == .quickHalt) = false := by simpa using hp
  simp only [leaveReset, enterOther, quickPending, State.modHart_frame, hq, hquick, Bool.false_and, Bool.false_eq_true,
    if_false]
  rfl

/-! ### External reset, hart reset and leaving reset (O39) -/

/-- Settles O39: an external reset and its release by the signals each hart sees, the platform's reset of one hart by what
a reset writes, and leaving reset by whether the halt before the reset is kept. -/
theorem externalReset : Obligations.ExternalReset := by
  refine ⟨fun s q hq hi => ?_, fun s q hq hn hr => ?_, fun s h q old hq hh hi => ?_,
    fun s h q hart hq hh ha hr hl hreq hhalt hp => ?_⟩
  · let r : State := { s with queue := q, extReset := true }
    obtain ⟨hs, hlen⟩ := applyResets_idle s.harts.length (s := r) hi
    refine ⟨_, step_quiet s _ (nextMove_event s _ q hq), hs, hlen, fun k old new ho hn => ?_⟩
    obtain ⟨new', hn', hseen⟩ := applyResets_get s.harts.length (s := r) hi ho
    obtain rfl : new' = new := Option.some.inj (hn'.symm.trans hn)
    rw [if_pos (List.getElem?_eq_some_iff.mp ho).1] at hseen
    exact State.resetSeen_ext (s := r) rfl hseen
  · refine step_quiet s _ ((nextMove_event s _ q hq).trans (congrArg Move.quiet (applyResets_none _ fun hart hm => ?_)))
    simp [State.resetLine, hn, hr hart hm]
  · have hs : step s = .next (resetHart false true h { s with queue := q }) :=
      step_quiet s _ (nextMove_event s _ q hq)
    rw [resetHart_idle (s := { s with queue := q }) hh hi] at hs
    obtain ⟨hin, hctl, hdebug, -, hdpc, hdcsr, -⟩ := old.doReset_writes (s.free + 1) false true
    obtain ⟨htsel, htrigs⟩ := (old.doReset_triggers (s.free + 1) false true).1 rfl
    exact ⟨_, _, hs, State.onlyHart_modHart _ h _ _, by simp [hh], hin, hctl, hdebug, hdcsr, hdpc, htsel, htrigs⟩
  · have hs : step s = .next (leaveReset h hart { s with queue := q, cur := h }) :=
      step_quiet s _ ((nextMove_event s _ q hq).trans (hartMove_leaveReset hh ha hr hl))
    rw [leaveReset_unrequested (s := { s with queue := q, cur := h }) hreq hp, hhalt, Bool.true_and] at hs
    intro kept
    by_cases hk : kept
    · rw [if_pos (by simpa [kept] using hk)] at hs
      exact ⟨_, hart.outOfReset.enterDebug s.cfg s.free 3 (BitVec.ofNat 128 hart.cfg.resetPc), hs,
        (State.onlyHart_modHart _ h _ 0).trans (State.onlyHart_modHart _ h _ 3), by simp [enterDebug_get, hh], rfl, rfl,
        rfl, fun _ => ⟨by simp [Hart.status, Hart.outOfReset, ha], rfl, rfl, rfl⟩, fun h => absurd hk h⟩
    · rw [if_neg (by simpa [kept] using hk)] at hs
      exact ⟨_, hart.outOfReset, hs, State.onlyHart_modHart _ h _ 0, by simp [hh], rfl, rfl, rfl, fun h => absurd h hk,
        fun _ => rfl⟩

end Sys2Proof.Machine
end

section
/-! PROOF. The state's constant parts: no step changes the configuration (O14), the values after power-up (O7), and the
DM registers that only inform or are absent (O45). -/

namespace Sys2Proof.Machine

/-! ### The configuration of a hart and of its triggers (spec/10_state.md R41) -/

/-- No write of a tdata register changes the configuration of a trigger. -/
@[simp] theorem Trigger.writeTdata_cfg (xlen which : Nat) (dbg : Bool) (v : XWord) (t : Trigger) :
    (t.writeTdata xlen which dbg v).cfg = t.cfg := by
  have hmcontrol (dmode : Bool) : (t.writeMcontrol dmode v).cfg = t.cfg := by
    unfold Trigger.writeMcontrol
    split <;> rfl
  have hicount (dmode : Bool) : (t.writeIcount dmode v).cfg = t.cfg := by
    unfold Trigger.writeIcount
    split <;> rfl
  have htdata1 : (t.writeTdata1 xlen dbg v).cfg = t.cfg := by
    simp only [Trigger.writeTdata1]
    split
    · exact hmcontrol _
    · split
      · exact hicount _
      · rfl
  unfold Trigger.writeTdata
  split
  · rfl
  · split
    · exact htdata1
    · repeat' split
      all_goals rfl

/-- Counting down does not change the configuration of a trigger. -/
@[simp] theorem Trigger.countDown_cfg (p : Priv) (t : Trigger) : (t.countDown p).cfg = t.cfg := by
  simp only [Trigger.countDown]
  repeat' split
  all_goals rfl

/-- Setting hit bits changes the configuration of no trigger. -/
@[simp] theorem markHits_map_cfg (ms : List Bool) (ts : List Trigger) :
    (markHits ms ts).map (·.cfg) = ts.map (·.cfg) := by
  induction ts generalizing ms with
  | nil => cases ms <;> rfl
  | cons t ts ih =>
    cases ms with
    | nil => rfl
    | cons m ms => cases m <;> simp [markHits, ih]

/-- A hart keeps its configuration where its own and the list of its triggers' are kept. -/
theorem Hart.fixedPart_congr {a b : Hart} (hcfg : b.cfg = a.cfg) (htrigs : b.trigs.map (·.cfg) = a.trigs.map (·.cfg)) :
    b.fixedPart = a.fixedPart := by
  rw [Hart.fixedPart, Hart.fixedPart, hcfg, htrigs]

/-- Clearing the triggers keeps the configuration. -/
theorem Hart.clearTriggers_fixedPart (hart : Hart) : hart.clearTriggers.fixedPart = hart.fixedPart :=
  Hart.fixedPart_congr rfl (List.map_map ..)

/-- A write of a CSR reaches the triggers through the tdata registers alone, and keeps the configuration. -/
theorem Hart.writeCsr_fixedPart (hart : Hart) (dbg : Bool) (n num : Nat) (v : XWord) :
    (hart.writeCsr dbg n num v).fixedPart = hart.fixedPart := by
  have htdata (which : Nat) (w : XWord) : (hart.writeTdata which dbg w).fixedPart = hart.fixedPart := by
    refine Hart.fixedPart_congr rfl (List.ext_getElem? fun i => ?_)
    simp only [Hart.writeTdata, List.getElem?_map, List.getElem?_modify]
    cases hart.trigs[i]? with
    | none => rfl
    | some t => split <;> simp
  unfold Hart.writeCsr
  split
  case h_5 => exact Hart.fixedPart_congr (by simp) (by simp)
  case h_6 | h_7 | h_8 => exact htdata _ _
  case h_29 => split <;> rfl
  all_goals exact Hart.fixedPart_congr rfl rfl

/-- Every primitive change of a hart keeps its configuration and its triggers'. -/
theorem hartRel_fixedPart : HartRel fun old new => new.fixedPart = old.fixedPart where
  refl _ := rfl
  trans hab hbc := hbc.trans hab
  onCtl _ _ := rfl
  onDscratch _ _ _ := rfl
  onEnterDebug _ _ _ _ _ _ := rfl
  onLeaveDebug _ _ _ := rfl
  onStartProgbuf _ _ _ := rfl
  onStopProgbuf _ := rfl
  onPc _ _ := rfl
  onDpc _ _ := rfl
  onTrap h i c v := by simp [Hart.fixedPart]
  onReset h n b c := by
    cases c
    · rfl
    · exact h.clearTriggers_fixedPart
  onClear h := h.clearTriggers_fixedPart
  onLeaveReset _ := rfl
  onReservation _ _ := rfl
  onWriteCsr h d n num v := h.writeCsr_fixedPart d n num v
  onGprs _ _ := rfl
  onFprs _ _ := rfl
  onCounters _ _ _ := rfl
  onTimer _ _ := rfl
  onPriv _ _ _ := rfl
  onSys _ _ := rfl
  onHits h ms := Hart.fixedPart_congr rfl (markHits_map_cfg ms h.trigs)
  onCountDown h p := Hart.fixedPart_congr rfl (by simp [Hart.countDown, Function.comp_def])
  onTrapped _ _ := rfl
  onDue _ _ _ := rfl
  onAvail _ _ := rfl

/-- Harts that evolve by a change that keeps a hart's `f` keep the list of these. -/
theorem State.evolves.map_eq {α : Type} {f : Hart → α} {s t : State}
    (h : State.evolves (fun old new => f new = f old) s t) : t.harts.map f = s.harts.map f := by
  obtain ⟨hlen, hkeep⟩ := h
  refine List.ext_getElem (by simp [hlen]) fun k ht hs => ?_
  simp only [List.getElem_map]
  exact hkeep k _ _ (List.getElem?_eq_getElem _) (List.getElem?_eq_getElem _)

/-! ### The configuration of the machine -/

/-- Running a meaning on the executing hart keeps the configuration if the meaning does. -/
theorem onHart_cfg {s t : State} {f : Hart → State} (he : onHart s f = .next t) (hf : ∀ hart, (f hart).cfg = s.cfg) :
    t.cfg = s.cfg := by
  unfold onHart at he
  split at he
  next hart _ =>
    cases he
    exact hf hart
  · cases he

/-- An access to a DM register keeps the configuration if the register's own read and write do. -/
theorem dmAccess_cfg {rd : State → State × Word} {wr : Word → State → State} (present : Bool) (a : DmAcc) (s : State)
    (hrd : ∀ s, (rd s).1.cfg = s.cfg) (hwr : ∀ v s, (wr v s).cfg = s.cfg) :
    (dmAccess present a rd wr s).cfg = s.cfg := by
  rcases dmAccess_cases present a rd wr s with ⟨v, k, e⟩ | ⟨k, e⟩ | ⟨_, _, v, j, k, e⟩ | ⟨v, _, _, j, e⟩ <;> rw [e]
  · rfl
  · rfl
  · exact hrd (s.bump j)
  · exact hwr v (s.bump j)

@[simp] theorem dmReadOnly_cfg (present : Bool) (a : DmAcc) (value : State → Word) (s : State) :
    (dmReadOnly present a value s).cfg = s.cfg :=
  dmAccess_cfg present a s (fun _ => rfl) fun _ _ => rfl

theorem bufferRead_cfg (bit : Nat) (v : Word) (s : State) : (bufferRead bit v s).1.cfg = s.cfg := by
  unfold bufferRead
  split <;> simp

theorem bufferWrite_cfg (bit : Nat) {store : State → State} (s : State) (hs : (store s).cfg = s.cfg) :
    (bufferWrite bit store s).cfg = s.cfg := by
  unfold bufferWrite
  split <;> simp [hs]

@[simp] theorem dataAccess_cfg (i : Nat) (a : DmAcc) (s : State) : (dataAccess i a s).cfg = s.cfg :=
  dmAccess_cfg _ a s (fun s => bufferRead_cfg i _ s) fun _ s => bufferWrite_cfg i s rfl

@[simp] theorem progbufAccess_cfg (i : Nat) (a : DmAcc) (s : State) : (progbufAccess i a s).cfg = s.cfg :=
  dmAccess_cfg _ a s (fun s => bufferRead_cfg (16 + i) _ s) fun _ s => bufferWrite_cfg (16 + i) s rfl

@[simp] theorem readHartinfo_cfg (s : State) : (readHartinfo s).1.cfg = s.cfg := by
  unfold readHartinfo
  split <;> rfl

@[simp] theorem writeAbstractcs_cfg (v : Word) (s : State) : (writeAbstractcs v s).cfg = s.cfg := by
  unfold writeAbstractcs
  split <;> rfl

@[simp] theorem writeCommand_cfg (v : Word) (s : State) : (writeCommand v s).cfg = s.cfg := by
  unfold writeCommand
  repeat' split
  all_goals rfl

@[simp] theorem writeAbstractauto_cfg (v : Word) (s : State) : (writeAbstractauto v s).cfg = s.cfg := by
  unfold writeAbstractauto
  split <;> rfl

@[simp] theorem readSbaddress_cfg (k : Nat) (s : State) : (readSbaddress k s).1.cfg = s.cfg := by
  unfold readSbaddress
  repeat' split
  all_goals rfl

@[simp] theorem readSbdata_cfg (k : Nat) (s : State) : (readSbdata k s).1.cfg = s.cfg := by
  unfold readSbdata
  split <;> rfl

@[simp] theorem readSbdata0_cfg (s : State) : (readSbdata0 s).1.cfg = s.cfg := by
  simp only [readSbdata0]
  repeat' split
  all_goals simp

@[simp] theorem applyResets_cfg (k : Nat) (s : State) : (applyResets k s).cfg = s.cfg := by
  induction k generalizing s with
  | zero => rfl
  | succ k ih =>
    simp only [applyResets]
    repeat' split
    all_goals simp [ih]

@[simp] theorem writeDmcontrol_cfg (v : Word) (s : State) : (writeDmcontrol v s).cfg = s.cfg := by
  simp only [writeDmcontrol]
  split
  · simp [resetDm]
  · repeat' split
    all_goals simp [writeDmcontrolFields]

/-- An access to authdata keeps the configuration. -/
theorem execAuthdata_cfg {a : DmAcc} {s t : State} (he : execAuthdata a s = .next t) : t.cfg = s.cfg := by
  have hread (u : State) : (readAuthdata u).1.cfg = u.cfg := rfl
  cases he
  cases a with
  | read =>
    simp only
    repeat' split
    all_goals simp [hread]
  | write v =>
    simp only
    repeat' split
    all_goals simp

/-- Access Register keeps the configuration. -/
theorem execAccessRegister_cfg {size : BitVec 3} {postexec transfer write : Bool} {regno : BitVec 16} {r1 r2 : Bool}
    {s t : State} (he : execAccessRegister size postexec transfer write regno r1 r2 s = .next t) : t.cfg = s.cfg := by
  cases he
  simp only
  repeat' split
  all_goals simp

/-- Quick Access keeps the configuration. -/
theorem execQuickAccess_cfg {r : BitVec 24} {s t : State} (he : execQuickAccess r s = .next t) : t.cfg = s.cfg := by
  cases he
  simp only
  repeat' split
  all_goals simp

/-- No instruction changes the configuration of the machine. -/
theorem exec_cfg {i : Instr} {s t : State} (he : exec i s = .next t) : t.cfg = s.cfg := by
  have hraise (h c : Nat) : (raise h c s).cfg = s.cfg := (raise_frame s h c).1
  have hundef : (undefinedInDebug s).cfg = s.cfg := (undefinedInDebug_frame s).1
  cases i with
  | dret =>
    refine onHart_cfg he fun hart => ?_
    simp only
    repeat' split
    all_goals simp
  | ebreak => exact onHart_cfg he fun hart => (breakAt_frame s hart).1
  | cEbreak =>
    refine onHart_cfg he fun hart => ?_
    split <;> simp
  | cNop =>
    refine onHart_cfg he fun hart => ?_
    split <;> simp
  | wfi => exact onHart_cfg he fun _ => rfl
  | ecall | hret =>
    refine onHart_cfg he fun hart => ?_
    split <;> simp
  | mret | sret | uret =>
    refine onHart_cfg he fun hart => ?_
    split
    · exact hundef
    · split
      · rfl
      · exact hraise _ _
  | accessRegister => exact execAccessRegister_cfg he
  | quickAccess => exact execQuickAccess_cfg he
  | commandReservedCmdtype => cases he; rfl
  | bypass00 op | reservedBypass12 op | reservedBypass13 op | reservedBypass14 op | reservedBypass15 op
  | reservedBypass16 op | reservedBypass17 op | bypass1f op => cases he; simp
  | idcode op | dtmcs op | dmi op => cases op <;> cases he <;> simp
  | dmiNop | dmiRead | dmiWrite | dmiOpReserved | dmiStatusOk | dmiStatusFailed | dmiStatusBusy | dtmcsDmireset
  | dtmcsDmihardreset => cases he; simp
  | data0 | data1 | data2 | data3 | data4 | data5 | data6 | data7 | data8 | data9 | data10 | data11 => cases he; simp
  | progbuf0 | progbuf1 | progbuf2 | progbuf3 | progbuf4 | progbuf5 | progbuf6 | progbuf7 | progbuf8 | progbuf9
  | progbuf10 | progbuf11 | progbuf12 | progbuf13 | progbuf14 | progbuf15 => cases he; simp
  | devtreeaddr0 | devtreeaddr1 | devtreeaddr2 | devtreeaddr3 | nextdm | haltsum0 | haltsum1 | haltsum2 | haltsum3 =>
    cases he; simp
  | dmcontrol a => cases a <;> cases he <;> simp
  | dmstatus a =>
    cases a with
    | read => cases he; split <;> simp
    | write v => cases he; rfl
  | authdata => exact execAuthdata_cfg he
  | hartinfo | hawindowsel | hawindow | abstractcs | command | abstractauto | sbcs | sbaddress0 | sbaddress1
  | sbaddress2 | sbaddress3 | sbdata0 | sbdata1 | sbdata2 | sbdata3 =>
    cases he
    exact dmAccess_cfg _ _ s (by simp) (by simp)
  | dcsr op | dpc op | dscratch0 op | dscratch1 op | tselect op | tdata1 op | tdata2 op | tdata3 op =>
    exact onHart_cfg he fun _ => (csrInsn_frame s _ op _).1

/-! ### Moves -/

/-- The state a move leaves, or leaves to the instruction it names. -/
def Move.state : Move → State
  | .run _ t _ => t
  | .quiet t => t

@[simp] theorem Move.state_run (i : Instr) (t : State) (a : After) : (Move.run i t a).state = t := rfl

@[simp] theorem Move.state_quiet (t : State) : (Move.quiet t).state = t := rfl

@[simp] theorem finish_cfg (a : After) (s : State) : (finish a s).cfg = s.cfg := by
  cases a with
  | none => rfl
  | dtm w => rfl
  | hart h p f => exact (finishHart_frame s h p f).1

theorem wordMove_cfg (h w : Nat) (e : Effect) (s : State) (a : After) {fin : State → State}
    (hfin : ∀ u, (fin u).cfg = u.cfg) : (wordMove h w e s a fin).state.cfg = s.cfg := by
  unfold wordMove
  repeat' split
  all_goals simp [hfin]

@[simp] theorem debugMove_cfg (h : Nat) (hart : Hart) (s : State) : (debugMove h hart s).state.cfg = s.cfg := by
  simp only [debugMove]
  repeat' split
  all_goals simp [wordMove_cfg]

@[simp] theorem runMove_cfg (h : Nat) (hart : Hart) (s : State) : (runMove h hart s).state.cfg = s.cfg := by
  simp only [runMove]
  repeat' split
  all_goals simp [wordMove_cfg]

@[simp] theorem hartMove_cfg (h : Nat) (s : State) : (hartMove h s).state.cfg = s.cfg := by
  simp only [hartMove]
  repeat' split
  all_goals simp

@[simp] theorem missAccess_cfg (inside : Bool) (acc : DmAcc) (s : State) : (missAccess inside acc s).cfg = s.cfg := by
  unfold missAccess
  repeat' split
  all_goals simp

@[simp] theorem dmiMove_cfg (address : Word) (acc : DmAcc) (a : After) (s : State) :
    (dmiMove address acc a s).state.cfg = s.cfg := by
  unfold dmiMove
  repeat' split
  all_goals simp

@[simp] theorem dtmMove_cfg (s : State) : (dtmMove s).state.cfg = s.cfg := by
  unfold dtmMove
  split <;> simp

@[simp] theorem engineMove_cfg (s : State) : (engineMove s).state.cfg = s.cfg := by
  unfold engineMove
  split <;> rfl

/-- The move of an event keeps the configuration. -/
@[simp] theorem eventMove_cfg (e : Event) (s : State) : (eventMove e s).state.cfg = s.cfg := by
  cases e with
  | tapReset => exact (tapReset_frame s).1
  | scanIR v =>
    simp only [eventMove, scanIrMove]
    split <;> simp
  | scanDR tdi =>
    simp only [eventMove, scanDrMove]
    split <;> simp
  | captureDR =>
    simp only [eventMove, captureMove]
    split <;> simp
  | updateDR tdi =>
    simp only [eventMove, updateMove]
    repeat' split
    all_goals rfl
  | dmi address acc => exact dmiMove_cfg _ _ _ s
  | dtm => exact dtmMove_cfg s
  | engine => exact engineMove_cfg s
  | bus => exact (busComplete_frame s).1
  | auth => exact (authComplete_frame s).1
  | hart h => exact hartMove_cfg h s
  | extReset b => exact applyResets_cfg _ _
  | hartReset h => exact (resetHart_frame s _ _ h).1
  | runIdle | avail | setMip | tick | dropReservation | busToHart | hartToBus | syncFetch => rfl

/-- The next move keeps the configuration. -/
theorem nextMove_cfg (s : State) : (nextMove s).state.cfg = s.cfg := by
  unfold nextMove
  split
  · unfold idleMove
    repeat' split
    all_goals simp
  · exact eventMove_cfg _ _

/-! ### No step changes the configuration (O14) -/

/-- All a step can do: a move without an instruction, or the instruction a move names, run to its end. -/
theorem step_cases {s t : State} (h : step s = .next t) :
    nextMove s = .quiet t ∨ ∃ i u a v, nextMove s = .run i u a ∧ exec i u = .next v ∧ t = finish a v := by
  unfold step at h
  split at h
  next u hu =>
    cases h
    exact .inl hu
  next i u a hu =>
    split at h
    next v hv =>
      cases h
      exact .inr ⟨i, u, a, v, hu, hv, rfl⟩
    · cases h
    · cases h

/-- No step changes the configuration of the machine. -/
theorem step_cfg {s t : State} (h : step s = .next t) : t.cfg = s.cfg := by
  have hmove := nextMove_cfg s
  obtain hq | ⟨i, u, a, v, hr, he, rfl⟩ := step_cases h
  · rwa [hq] at hmove
  · rw [hr] at hmove
    calc (finish a v).cfg = v.cfg := finish_cfg a v
      _ = u.cfg := exec_cfg he
      _ = s.cfg := hmove

/-- Settles O14: the harts' part along `HartRel`, the machine's own part along the moves and the instructions. -/
theorem stepKeepsConfiguration : Obligations.StepKeepsConfiguration := fun s t h =>
  Prod.ext (step_cfg h) (hartRel_fixedPart.evolves_step s t h).map_eq

/-! ### The values after power-up (O7) -/

/-- A vector of equal values has that value everywhere. -/
theorem vget_replicate {α : Type} (n i : Nat) (x : α) : vget (Vector.replicate n x) i x = x := by
  simp only [vget, Vector.toList_replicate, List.getD_eq_getElem?_getD, List.getElem?_replicate]
  split <;> rfl

/-- A timing the hardware never fixes is the one written (spec/45_triggers.md R548). -/
theorem timingOf_notFixed {c : TrigCfg} (h : c.fixedTiming = []) (fields : Nat) (written : Bool) :
    timingOf c fields written = written := by
  simp [timingOf, h]

/-- Settles O7: each register from the reset value of its record, a hart's and a trigger's for every configuration. -/
theorem powerUpValues : Obligations.PowerUpValues := by
  intro c hs s
  refine ⟨rfl, rfl, rfl, rfl, rfl, rfl, rfl, rfl, rfl, rfl, fun i _ => vget_replicate 12 i 0,
    fun i _ => vget_replicate 16 i 0, rfl, rfl, rfl, rfl, rfl, rfl, rfl, rfl, rfl, rfl, rfl, rfl, rfl, rfl, rfl, rfl,
    State.resetWith_everyHart (fun hc ts => ?_) c hs⟩
  refine ⟨rfl, rfl, rfl, rfl, rfl, rfl, rfl, rfl, rfl, rfl, rfl, rfl, rfl, rfl, rfl, rfl, rfl, rfl, rfl, rfl, rfl,
    fun t ht => ?_⟩
  obtain ⟨tc, -, rfl⟩ := List.mem_map.mp ht
  exact ⟨rfl, rfl, rfl, fun hfixed => timingOf_notFixed hfixed 0 false, rfl, rfl, rfl, rfl, rfl, rfl, rfl, rfl, rfl,
    rfl, rfl, rfl⟩

/-! ### Registers that only inform (spec/10_state.md R55, R65, R66) -/

/-- A DM that is ready is live and outside the reset window. -/
theorem State.dmReady.live {s : State} (h : s.dmReady) : s.inResetWindow = false ∧ s.dmLive = true := by
  obtain ⟨hactive, hauth, hndm, hext⟩ := h
  simp [State.inResetWindow, State.dmLive, hactive, hauth, hndm, hext]

/-- A read of a register without side effect on a ready DM. -/
theorem dmReadOnly_read {s : State} (h : s.dmReady) (value : State → Word) :
    dmReadOnly true .read value s = { s with dmiOut := value s } :=
  dmAccess_read _ _ s h.live.1 h.live.2

/-- A write of a register that ignores writes, present or not, changes nothing outside the reset window. -/
theorem dmAccess_write_ignored (present : Bool) (v : Word) (rd : State → State × Word) {s : State}
    (hw : s.inResetWindow = false) : dmAccess present (.write v) rd (fun _ s => s) s = s := by
  cases present <;> simp [dmAccess, hw]

/-- A 32-bit slice of a wider value, as a quotient. -/
theorem ofNat_div_eq_extractLsb' {w : Nat} (x : BitVec w) (k : Nat) :
    BitVec.ofNat 32 (x.toNat / 2 ^ k) = x.extractLsb' k 32 := by
  rw [BitVec.extractLsb', Nat.shiftRight_eq_div_pow]

/-- A sum of fields that lie side by side is their bitwise or. -/
theorem add_eq_or_of_dvd_of_lt (k : Nat) {x y : Nat} (hx : 2 ^ k ∣ x) (hy : y < 2 ^ k) : x + y = x ||| y := by
  obtain ⟨q, rfl⟩ := hx
  exact Nat.two_pow_add_eq_or_of_lt hy q

/-- hartinfo's fields lie side by side where they fit (R55). -/
theorem hartinfoOf_eq {c : HartCfg} (hn : c.nscratch < 16) (hd : c.datasize < 16) :
    hartinfoOf c = BitVec.ofNat 32 c.nscratch <<< 20 ||| wordBit c.dataaccess 16 |||
      BitVec.ofNat 32 c.datasize <<< 12 ||| c.dataaddr.setWidth 32 := by
  have haddr := c.dataaddr.isLt
  have haccess : c.dataaccess.toNat < 2 := c.dataaccess.toNat_lt
  have hbit : bitAt c.dataaccess 16 = c.dataaccess.toNat * 2 ^ 16 := by cases c.dataaccess <;> rfl
  have hfields : c.nscratch * 2 ^ 20 + c.dataaccess.toNat * 2 ^ 16 + c.datasize * 2 ^ 12 + c.dataaddr.toNat =
      c.nscratch * 2 ^ 20 ||| c.dataaccess.toNat * 2 ^ 16 ||| c.datasize * 2 ^ 12 ||| c.dataaddr.toNat := by
    rw [add_eq_or_of_dvd_of_lt 12 (by omega) haddr, add_eq_or_of_dvd_of_lt 16 (by omega) (by omega),
      add_eq_or_of_dvd_of_lt 20 (by omega) (by omega)]
  rw [hartinfoOf, hbit, Nat.mod_eq_of_lt hn, Nat.mod_eq_of_lt hd, hfields]
  apply BitVec.eq_of_toNat_eq
  simp [wordBit, Nat.shiftLeft_eq]

/-- A read of hartinfo of a hart that does not exist leaves the reserved bits 0 (notes/assumptions/49.md). -/
theorem readHartinfo_none {s : State} (h : s.harts[s.dm.hartsel.toNat]? = none) :
    ∃ r, readHartinfo s = (s.bump 1, r) ∧ r &&& 0xff0e0000 = 0 :=
  ⟨freeWord32 s.free &&& 0x00f1ffff, by simp [readHartinfo, State.hartsel, h], by simp [BitVec.and_assoc]⟩

/-! ### Absent registers (spec/40_dmi_dm_access.md R288) -/

/-- The rows data0 to data11 in order. -/
theorem exec_dataRow {i : Nat} (h : i < dataRows.length) (a : DmAcc) (s : State) :
    exec (dataRows[i] a) s = .next (dataAccess i a s) := by
  have hrows : dataRows.map (fun row => exec (row a) s) = (List.range 12).map fun i => .next (dataAccess i a s) := rfl
  have hrow := congrArg (·[i]?) hrows
  have hi : i < 12 := h
  simpa only [List.getElem?_map, List.getElem?_eq_getElem h, List.getElem?_range hi, Option.map_some, Option.some.injEq]
    using hrow

/-- The rows progbuf0 to progbuf15 in order. -/
theorem exec_progbufRow {i : Nat} (h : i < progbufRows.length) (a : DmAcc) (s : State) :
    exec (progbufRows[i] a) s = .next (progbufAccess i a s) := by
  have hrows : progbufRows.map (fun row => exec (row a) s) =
      (List.range 16).map fun i => .next (progbufAccess i a s) := rfl
  have hrow := congrArg (·[i]?) hrows
  have hi : i < 16 := h
  simpa only [List.getElem?_map, List.getElem?_eq_getElem h, List.getElem?_range hi, Option.map_some, Option.some.injEq]
    using hrow

/-- Every register that may be absent is accessed behind its presence condition. -/
theorem exec_optionalRow {s : State} {row : DmAcc → Instr} {present : Bool} (h : (row, present) ∈ optionalRows s.cfg)
    (a : DmAcc) : ∃ rd wr, exec (row a) s = .next (dmAccess present a rd wr s) := by
  obtain (hdata | hprogbuf) | hother := by simpa only [optionalRows, List.mem_append] using h
  · obtain ⟨i, hi, he⟩ := List.mem_mapIdx.mp hdata
    cases he
    exact ⟨_, _, exec_dataRow hi a s⟩
  · obtain ⟨i, hi, he⟩ := List.mem_mapIdx.mp hprogbuf
    cases he
    exact ⟨_, _, exec_progbufRow hi a s⟩
  · simp only [List.mem_cons, List.not_mem_nil, or_false, Prod.mk.injEq] at hother
    rcases hother with ⟨rfl, rfl⟩ | ⟨rfl, rfl⟩ | ⟨rfl, rfl⟩ | ⟨rfl, rfl⟩ | ⟨rfl, rfl⟩ | ⟨rfl, rfl⟩ | ⟨rfl, rfl⟩ |
      ⟨rfl, rfl⟩ | ⟨rfl, rfl⟩ | ⟨rfl, rfl⟩ | ⟨rfl, rfl⟩ | ⟨rfl, rfl⟩ | ⟨rfl, rfl⟩ | ⟨rfl, rfl⟩ | ⟨rfl, rfl⟩ |
      ⟨rfl, rfl⟩ <;>
      exact ⟨_, _, rfl⟩

/-! ### Registers that only inform, and absent registers (O45) -/

/-- Settles O45: the reads of a ready DM one by one, the absent registers by their presence condition. -/
theorem informationAndAbsentRegisters : Obligations.InformationAndAbsentRegisters := by
  refine ⟨fun s hr => ?_, fun s row v hrow => ?_⟩
  · obtain ⟨hw, hl⟩ := hr.live
    have hinfo (hp : s.cfg.hasHartinfo = true) :
        exec (.hartinfo .read) s = .next (answer (readHartinfo s).2 (readHartinfo s).1) := by
      rw [← dmAccess_read readHartinfo (fun _ s => s) s hw hl, ← hp]
      rfl
    have hslice (k : Nat) : dmReadOnly true .read (fun s => BitVec.ofNat 32 (s.cfg.devtreeaddr.toNat / 2 ^ k)) s =
        { s with dmiOut := s.cfg.devtreeaddr.extractLsb' k 32 } := by
      rw [dmReadOnly_read hr, ofNat_div_eq_extractLsb']
    refine ⟨fun hart hp hh hn hd => ?_, fun hp hh => ?_, congrArg _ (hslice 0), congrArg _ (hslice 32),
      congrArg _ (hslice 64), congrArg _ (hslice 96), congrArg _ (dmReadOnly_read hr _), fun row hrow w => ?_⟩
    · have hread : readHartinfo s = (s, hartinfoOf hart.cfg) := by simp [readHartinfo, State.hartsel, hh]
      rw [hinfo hp, hread, hartinfoOf_eq hn hd]
      rfl
    · obtain ⟨r, hread, hres⟩ := readHartinfo_none hh
      exact ⟨r, by rw [hinfo hp, hread]; rfl, hres⟩
    · simp only [List.mem_cons, List.not_mem_nil, or_false] at hrow
      rcases hrow with rfl | rfl | rfl | rfl | rfl | rfl <;> exact congrArg _ (dmAccess_write_ignored _ w _ hw)
  · obtain ⟨rd, wr, hread⟩ := exec_optionalRow hrow .read
    obtain ⟨rd', wr', hwrite⟩ := exec_optionalRow hrow (.write v)
    exact ⟨by rw [hread, dmAccess_absent]; rfl, by rw [hwrite, dmAccess_absent]⟩

end Sys2Proof.Machine
end

section
/-! PROOF. Memory: every step keeps the three memories in canonical form (O9). Of the table rows only a write of dmcontrol
writes memory, by the bus write a DM reset abandons; of the moves, the completion of a bus access, a hart's stores and
fence.i, and the events that let the views of memory catch up. -/

namespace Sys2Proof.Machine

/-! ### The three memories -/

/-- The bus's memory, the harts' and that of instruction fetch (spec/20_memory.md R225, R228). -/
def State.memories (s : State) : Mem × Mem × Mem := (s.mem, s.hmem, s.imem)

@[simp] theorem State.memories_eq_iff {s t : State} :
    t.memories = s.memories ↔ t.mem = s.mem ∧ t.hmem = s.hmem ∧ t.imem = s.imem := by
  simp [State.memories]

/-- What leaves the memories alone keeps them canonical. -/
theorem State.memoryOk.of_eq {s t : State} (hs : s.memoryOk) (h : t.memories = s.memories) : t.memoryOk := by
  obtain ⟨hmem, hhmem, himem⟩ := State.memories_eq_iff.mp h
  unfold State.memoryOk
  rwa [hmem, hhmem, himem]

theorem Mem.ite_wf {c : Prop} [Decidable c] {m n : Mem} (hm : m.wf) (hn : n.wf) : Mem.wf (if c then m else n) := by
  split
  · exact hm
  · exact hn

/-- What the harts' loads and stores see is canonical. -/
theorem State.memoryOk.dataView {s : State} (hs : s.memoryOk) : s.dataView.wf := by
  obtain ⟨hmem, hhmem, -⟩ := hs
  exact Mem.ite_wf hmem hhmem

/-! ### What writes memory -/

/-- An abandoned bus write keeps memory canonical (spec/93_implementation_defined.md U8). -/
theorem abandonBus_memoryOk {s : State} (hs : s.memoryOk) : (abandonBus s).memoryOk := by
  have ⟨hmem, hhmem, himem⟩ := hs
  unfold abandonBus
  split
  · split
    · exact ⟨Mem.writes_wf hmem _ _, hhmem, himem⟩
    · exact hs
  · exact hs

/-- A DM reset writes memory only by the bus write it abandons. -/
theorem resetDm_memoryOk {s : State} (hs : s.memoryOk) : (resetDm s).memoryOk :=
  (abandonBus_memoryOk hs).of_eq (by simp [resetDm])

/-- The completion of a bus access keeps memory canonical (spec/43_system_bus_access.md R437). -/
theorem busComplete_memoryOk {s : State} (hs : s.memoryOk) : (busComplete s).memoryOk := by
  have ⟨hmem, hhmem, himem⟩ := hs
  simp only [busComplete]
  split
  · exact hs
  · split
    · exact hs
    · split
      · exact hs
      · split
        · split
          · exact ⟨Mem.writes_wf hmem _ _, hhmem, himem⟩
          · exact hs
        · exact hs

/-- A store of a hart keeps memory canonical. -/
theorem effectStore_memoryOk (h : Nat) (e : Effect) {s : State} (hs : s.memoryOk) : (effectStore h e s).memoryOk := by
  have ⟨hmem, hhmem, himem⟩ := hs
  unfold effectStore
  split
  next a bytes _ =>
    obtain ⟨hmem', hhmem'⟩ := hartStore_wf h a bytes s hmem hhmem
    exact ⟨hmem', hhmem', by simpa using himem⟩
  · exact hs

/-- fence.i copies what the harts see, which is canonical (spec/20_memory.md R228). -/
theorem syncFetchAll_memoryOk (h : Nat) {s : State} (hs : s.memoryOk) : (syncFetchAll h s).memoryOk := by
  have ⟨hmem, hhmem, himem⟩ := hs
  exact ⟨hmem, hhmem, Mem.ite_wf himem hs.dataView⟩

/-- An instruction without a row of its own keeps memory canonical. -/
theorem applyEffect_memoryOk (h len : Nat) (e : Effect) {s : State} (hs : s.memoryOk) :
    (applyEffect h len e s).memoryOk := by
  have hstore : (effectCsr h e (effectStore h e s)).memoryOk := (effectStore_memoryOk h e hs).of_eq (by simp)
  simp only [applyEffect]
  split
  · exact hs.of_eq (by simp)
  · split
    · exact (syncFetchAll_memoryOk h hstore).of_eq (by simp)
    · exact hstore.of_eq (by simp)

/-! ### Accesses to the DM registers other than dmcontrol -/

/-- An access to a DM register leaves the memories alone if the register's own read and write do. -/
theorem dmAccess_memories {rd : State → State × Word} {wr : Word → State → State} (present : Bool) (a : DmAcc) (s : State)
    (hrd : ∀ s, (rd s).1.memories = s.memories) (hwr : ∀ v s, (wr v s).memories = s.memories) :
    (dmAccess present a rd wr s).memories = s.memories := by
  rcases dmAccess_cases present a rd wr s with ⟨v, k, e⟩ | ⟨k, e⟩ | ⟨_, _, v, j, k, e⟩ | ⟨v, _, _, j, e⟩ <;> rw [e]
  · rfl
  · rfl
  · exact hrd (s.bump j)
  · exact hwr v (s.bump j)

theorem dmReadOnly_memories (present : Bool) (a : DmAcc) (value : State → Word) (s : State) :
    (dmReadOnly present a value s).memories = s.memories :=
  dmAccess_memories present a s (fun _ => rfl) fun _ _ => rfl

theorem bufferRead_memories (bit : Nat) (v : Word) (s : State) : (bufferRead bit v s).1.memories = s.memories := by
  unfold bufferRead
  split <;> simp

theorem bufferWrite_memories (bit : Nat) {store : State → State} (s : State) (hs : (store s).memories = s.memories) :
    (bufferWrite bit store s).memories = s.memories := by
  unfold bufferWrite
  split
  · simp
  · simpa using hs

theorem dataAccess_memories (i : Nat) (a : DmAcc) (s : State) : (dataAccess i a s).memories = s.memories :=
  dmAccess_memories _ a s (fun _ => bufferRead_memories i _ _) fun _ s => bufferWrite_memories i s rfl

theorem progbufAccess_memories (i : Nat) (a : DmAcc) (s : State) : (progbufAccess i a s).memories = s.memories :=
  dmAccess_memories _ a s (fun _ => bufferRead_memories (16 + i) _ _) fun _ s => bufferWrite_memories (16 + i) s rfl

theorem readHartinfo_memories (s : State) : (readHartinfo s).1.memories = s.memories := by
  unfold readHartinfo
  split <;> rfl

theorem writeAbstractcs_memories (v : Word) (s : State) : (writeAbstractcs v s).memories = s.memories := by
  unfold writeAbstractcs
  split <;> rfl

theorem writeCommand_memories (v : Word) (s : State) : (writeCommand v s).memories = s.memories := by
  unfold writeCommand
  repeat' split
  all_goals rfl

theorem writeAbstractauto_memories (v : Word) (s : State) : (writeAbstractauto v s).memories = s.memories := by
  unfold writeAbstractauto
  split <;> rfl

theorem readSbaddress_memories (k : Nat) (s : State) : (readSbaddress k s).1.memories = s.memories := by
  unfold readSbaddress
  repeat' split
  all_goals rfl

theorem readSbdata_memories (k : Nat) (s : State) : (readSbdata k s).1.memories = s.memories := by
  unfold readSbdata
  split <;> rfl

theorem readSbdata0_memories (s : State) : (readSbdata0 s).1.memories = s.memories := by
  simp only [readSbdata0]
  repeat' split
  all_goals simp

theorem execAuthdata_memories {a : DmAcc} {s t : State} (he : execAuthdata a s = .next t) : t.memories = s.memories := by
  cases he
  cases a with
  | read =>
    simp only
    repeat' split
    all_goals simp [readAuthdata]
  | write v =>
    simp only
    repeat' split
    all_goals simp

/-! ### dmcontrol -/

/-- A reset of harts leaves memory alone (spec/70_reset_and_hazards.md R713; notes/assumptions/52.md). -/
theorem applyResets_memories (k : Nat) (s : State) : (applyResets k s).memories = s.memories := by
  induction k with
  | zero => rfl
  | succ k ih =>
    simp only [applyResets]
    repeat' split
    all_goals simpa using ih

/-- A write of dmcontrol keeps memory canonical. -/
theorem writeDmcontrol_memoryOk (v : Word) {s : State} (hs : s.memoryOk) : (writeDmcontrol v s).memoryOk := by
  simp only [writeDmcontrol]
  split
  · exact resetDm_memoryOk hs
  · split
    · exact hs
    · split
      · exact hs
      · exact hs.of_eq (applyResets_memories _ _)

/-! ### Instructions -/

/-- Running a meaning on the executing hart leaves the memories alone if the meaning does. -/
theorem onHart_memories {s t : State} {f : Hart → State} (he : onHart s f = .next t)
    (hf : ∀ hart, (f hart).memories = s.memories) : t.memories = s.memories := by
  unfold onHart at he
  split at he
  next hart _ =>
    cases he
    exact hf hart
  · cases he

theorem execAccessRegister_memories {size : BitVec 3} {postexec transfer write : Bool} {regno : BitVec 16}
    {r1 r2 : Bool} {s t : State} (he : execAccessRegister size postexec transfer write regno r1 r2 s = .next t) :
    t.memories = s.memories := by
  cases he
  simp only
  repeat' split
  all_goals simp

theorem execQuickAccess_memories {r : BitVec 24} {s t : State} (he : execQuickAccess r s = .next t) :
    t.memories = s.memories := by
  cases he
  simp only
  repeat' split
  all_goals simp

/-- The only instruction that writes memory is a write of dmcontrol. -/
theorem exec_memories {i : Instr} {s t : State} (he : exec i s = .next t) (hi : ∀ v, i ≠ .dmcontrol (.write v)) :
    t.memories = s.memories := by
  cases i with
  | wfi => exact onHart_memories he fun _ => rfl
  | ebreak => exact onHart_memories he fun _ => by simp
  | dret =>
    refine onHart_memories he fun hart => ?_
    split
    · simp only
      split <;> simp
    · simp
  | cEbreak | cNop | ecall | hret | mret | sret | uret =>
    refine onHart_memories he fun hart => ?_
    repeat' split
    all_goals simp
  | dcsr op | dpc op | dscratch0 op | dscratch1 op | tselect op | tdata1 op | tdata2 op | tdata3 op =>
    exact onHart_memories he fun _ => by simp
  | accessRegister => exact execAccessRegister_memories he
  | quickAccess => exact execQuickAccess_memories he
  | commandReservedCmdtype => cases he; simp
  | bypass00 op | reservedBypass12 op | reservedBypass13 op | reservedBypass14 op | reservedBypass15 op
  | reservedBypass16 op | reservedBypass17 op | bypass1f op => cases he; simp
  | idcode op | dtmcs op | dmi op => cases op <;> cases he <;> simp
  | dmiNop | dmiRead | dmiWrite | dmiOpReserved | dmiStatusOk | dmiStatusFailed | dmiStatusBusy | dtmcsDmireset
  | dtmcsDmihardreset => cases he; simp
  | data0 | data1 | data2 | data3 | data4 | data5 | data6 | data7 | data8 | data9 | data10 | data11 =>
    cases he
    exact dataAccess_memories _ _ s
  | progbuf0 | progbuf1 | progbuf2 | progbuf3 | progbuf4 | progbuf5 | progbuf6 | progbuf7 | progbuf8 | progbuf9
  | progbuf10 | progbuf11 | progbuf12 | progbuf13 | progbuf14 | progbuf15 =>
    cases he
    exact progbufAccess_memories _ _ s
  | devtreeaddr0 | devtreeaddr1 | devtreeaddr2 | devtreeaddr3 | nextdm | haltsum0 | haltsum1 | haltsum2 | haltsum3 =>
    cases he
    exact dmReadOnly_memories _ _ _ s
  | dmcontrol a =>
    cases a with
    | read => cases he; simp
    | write v => exact absurd rfl (hi v)
  | dmstatus a =>
    cases a with
    | read => cases he; split <;> simp
    | write v => cases he; rfl
  | authdata => exact execAuthdata_memories he
  | hartinfo => cases he; exact dmAccess_memories _ _ s readHartinfo_memories fun _ _ => rfl
  | abstractcs => cases he; exact dmAccess_memories _ _ s (fun _ => rfl) writeAbstractcs_memories
  | command => cases he; exact dmAccess_memories _ _ s (fun _ => rfl) writeCommand_memories
  | abstractauto => cases he; exact dmAccess_memories _ _ s (fun _ => rfl) writeAbstractauto_memories
  | hawindowsel | hawindow | sbcs => cases he; exact dmAccess_memories _ _ s (fun _ => rfl) (by simp)
  | sbaddress0 | sbaddress1 | sbaddress2 | sbaddress3 =>
    cases he
    exact dmAccess_memories _ _ s (readSbaddress_memories _) (by simp)
  | sbdata0 => cases he; exact dmAccess_memories _ _ s readSbdata0_memories (by simp)
  | sbdata1 | sbdata2 | sbdata3 => cases he; exact dmAccess_memories _ _ s (readSbdata_memories _) (by simp)

/-- Every instruction keeps memory canonical. -/
theorem exec_memoryOk {i : Instr} {s t : State} (he : exec i s = .next t) (hs : s.memoryOk) : t.memoryOk := by
  by_cases hi : ∃ v, i = .dmcontrol (.write v)
  · obtain ⟨v, rfl⟩ := hi
    cases he
    exact writeDmcontrol_memoryOk v hs
  · exact hs.of_eq (exec_memories he fun v h => hi ⟨v, h⟩)

/-! ### Moves -/

/-- What is left to do after an instruction leaves the memories alone. -/
theorem finish_memories (a : After) (s : State) : (finish a s).memories = s.memories := by
  cases a with
  | none => rfl
  | dtm w => rfl
  | hart h p f => simp [finish]

/-- An instruction word keeps memory canonical if what follows it leaves the memories alone. -/
theorem wordMove_memoryOk (h w : Nat) (e : Effect) {s : State} (a : After) {fin : State → State} (hs : s.memoryOk)
    (hfin : ∀ u, (fin u).memories = u.memories) : (wordMove h w e s a fin).state.memoryOk := by
  unfold wordMove
  split
  · exact hs
  · split
    · exact hs.of_eq ((hfin _).trans (by simp))
    · exact (applyEffect_memoryOk h _ e hs).of_eq (hfin _)

theorem debugMove_memoryOk (h : Nat) (hart : Hart) {s : State} (hs : s.memoryOk) :
    (debugMove h hart s).state.memoryOk := by
  simp only [debugMove]
  repeat' split
  · exact hs.of_eq (by simp)
  · exact wordMove_memoryOk h _ _ _ hs fun _ => rfl
  · exact hs.of_eq (by simp)
  · exact hs

theorem runMove_memoryOk (h : Nat) (hart : Hart) {s : State} (hs : s.memoryOk) : (runMove h hart s).state.memoryOk := by
  simp only [runMove]
  repeat' split
  case h_2 => exact wordMove_memoryOk h _ _ _ (hs.of_eq (by simp)) fun _ => by simp
  all_goals exact hs.of_eq (by simp)

theorem hartMove_memoryOk (h : Nat) {s : State} (hs : s.memoryOk) : (hartMove h s).state.memoryOk := by
  simp only [hartMove]
  repeat' split
  · exact hs
  · exact hs
  · exact hs
  · exact hs.of_eq (by simp)
  · exact debugMove_memoryOk h _ hs
  · exact runMove_memoryOk h _ hs

/-- A DMI access leaves the memories to the instruction it names. -/
theorem dmiMove_memories (address : Word) (acc : DmAcc) (a : After) (s : State) :
    (dmiMove address acc a s).state.memories = s.memories := by
  have hmiss (inside : Bool) (u : State) : (missAccess inside acc u).memories = u.memories := by
    unfold missAccess
    repeat' split
    all_goals rfl
  unfold dmiMove
  repeat' split
  · rfl
  · exact (finish_memories ..).trans (hmiss ..)
  · exact (finish_memories ..).trans (hmiss ..)
  · rfl
  · exact (finish_memories ..).trans (hmiss ..)

theorem dtmMove_memories (s : State) : (dtmMove s).state.memories = s.memories := by
  unfold dtmMove
  split
  · exact dmiMove_memories ..
  · rfl

theorem engineMove_memories (s : State) : (engineMove s).state.memories = s.memories := by
  unfold engineMove
  split <;> rfl

/-- The move of an event keeps memory canonical: also where the views of memory catch up byte by byte
(spec/20_memory.md R225, R228). -/
theorem eventMove_memoryOk (e : Event) {s : State} (hs : s.memoryOk) : (eventMove e s).state.memoryOk := by
  have ⟨hmem, hhmem, himem⟩ := hs
  cases e with
  | tapReset => exact hs.of_eq (by simp [eventMove])
  | scanIR | scanDR | captureDR =>
    refine hs.of_eq ?_
    simp only [eventMove, scanIrMove, scanDrMove, captureMove]
    split <;> simp
  | updateDR tdi =>
    simp only [eventMove, updateMove]
    repeat' split
    all_goals exact hs
  | dmi address acc => exact hs.of_eq (dmiMove_memories ..)
  | dtm => exact hs.of_eq (dtmMove_memories s)
  | engine => exact hs.of_eq (engineMove_memories s)
  | bus => exact busComplete_memoryOk hs
  | auth => exact hs.of_eq (by simp [eventMove])
  | hart h => exact hartMove_memoryOk h hs
  | extReset b => exact hs.of_eq (applyResets_memories _ _)
  | hartReset h => exact hs.of_eq (by simp [eventMove])
  | runIdle | avail | setMip | tick | dropReservation => exact hs
  | busToHart a => exact ⟨hmem, Mem.ite_wf hhmem (Mem.write_wf hhmem _ _), himem⟩
  | hartToBus a => exact ⟨Mem.ite_wf hmem (Mem.write_wf hmem _ _), hhmem, himem⟩
  | syncFetch a => exact ⟨hmem, hhmem, Mem.ite_wf himem (Mem.write_wf himem _ _)⟩

/-- The next move keeps memory canonical. -/
theorem nextMove_memoryOk {s : State} (hs : s.memoryOk) : (nextMove s).state.memoryOk := by
  unfold nextMove
  split
  · unfold idleMove
    repeat' split
    · exact hs.of_eq (dtmMove_memories s)
    · exact hs.of_eq (engineMove_memories s)
    · exact busComplete_memoryOk hs
    · exact hs.of_eq (by simp)
    · exact hartMove_memoryOk _ hs
  · exact eventMove_memoryOk _ hs

/-! ### Every step keeps every memory in canonical form (O9) -/

/-- Settles O9, along the move of the step, the instruction it runs and what is left to do after it. -/
theorem stepKeepsMemoryCanonical : Obligations.StepKeepsMemoryCanonical := by
  intro s t hs h
  have hmove := nextMove_memoryOk hs
  obtain hq | ⟨i, u, a, v, hr, he, rfl⟩ := step_cases h
  · rwa [hq] at hmove
  · rw [hr] at hmove
    exact (exec_memoryOk he hmove).of_eq (finish_memories a v)

end Sys2Proof.Machine
end

section
/-! PROOF. The encodings: every well-formed instruction is what its encoding decodes to (O1), no bit of a command word
or of a dmi scan is dropped (O2), and the words the spec writes out (O3). The fields of a word are read and written by the
lemmas about `bits`, `bit` and `flag`; each encoding space has one lemma that says what the decoder makes of an encoded
word. -/

namespace Sys2Proof

/-! ### Fields of a word -/

/-- A field that is read as a number. -/
@[simp] theorem bits_toNat (w lo n : Nat) : (bits w lo n).toNat = w / 2 ^ lo % 2 ^ n := BitVec.toNat_ofNat ..

/-- A field with the value of `x` is `x`. -/
theorem bits_eq_of_field {w lo n : Nat} {x : BitVec n} (h : w / 2 ^ lo % 2 ^ n = x.toNat) : bits w lo n = x :=
  BitVec.eq_of_toNat_eq ((bits_toNat w lo n).trans h)

/-- A bit with the value of `b` is `b`. -/
theorem bit_eq_of_field {w lo : Nat} {b : Bool} (h : w / 2 ^ lo % 2 = b.toNat) : bit w lo = b := by
  cases b <;> simp_all [bit]

/-- A flag in its place. -/
theorem flag_eq (b : Bool) (lo : Nat) : flag b lo = b.toNat * 2 ^ lo := by
  cases b <;> simp [flag]

/-- The bit that is read at a place, as a flag there. -/
theorem flag_bit (w lo : Nat) : flag (bit w lo) lo = w / 2 ^ lo % 2 * 2 ^ lo := by
  rcases Nat.mod_two_eq_zero_or_one (w / 2 ^ lo) with h | h <;> simp [flag, bit, h]

/-! ### Hart instructions (spec/30_encoding.md R250, R251) -/

/-- funct3 of a CSR instruction gives back how it combines and whether its source is immediate. -/
theorem csrKind_funct3 (op : CsrOp) : csrKind op.funct3 = some (op.kind, op.imm) := by
  obtain ⟨kind, imm, rd, src⟩ := op
  cases kind <;> cases imm <;> rfl

theorem CsrOp.funct3_lt (op : CsrOp) : op.funct3 < 8 := by
  obtain ⟨kind, imm, rd, src⟩ := op
  cases kind <;> cases imm <;> simp [CsrOp.funct3]

/-- The fields of a CSR instruction's word. -/
theorem csrWord_fields (csr : Nat) (op : CsrOp) :
    csrWord csr op % 2 ^ 7 = 0x73 ∧ csrWord csr op / 2 ^ 7 % 2 ^ 5 = op.rd.toNat ∧
    csrWord csr op / 2 ^ 12 % 8 = op.funct3 ∧ csrWord csr op / 2 ^ 15 % 2 ^ 5 = op.src.toNat ∧
    csrWord csr op / 2 ^ 20 = csr := by
  have hfunct3 := op.funct3_lt
  have hrd := op.rd.isLt
  have hsrc := op.src.isLt
  simp only [csrWord]
  omega

/-- A CSR instruction's word gives back its operands. -/
theorem csrOperands_csrWord (csr : Nat) (op : CsrOp) : csrOperands (csrWord csr op) = some op := by
  obtain ⟨hopcode, hrd, hfunct3, hsrc, -⟩ := csrWord_fields csr op
  rw [csrOperands, if_pos hopcode, hfunct3, csrKind_funct3, bits_eq_of_field hrd, bits_eq_of_field hsrc]

/-- A word with CSR operands and the number of a CSR row is that row: it is none of the words without operands, since
these have funct3 0. -/
theorem decodeHart32_csr {w : Nat} {op : CsrOp} {row : CsrOp → Instr} (hop : csrOperands w = some op)
    (hrow : csrRow (w / 2 ^ 20 % 2 ^ 12) = some row) : decodeHart32 w = .ok (row op) := by
  have hne (c : Nat) (hc : csrOperands c = none) : w ≠ c := by
    rintro rfl
    rw [hc] at hop
    cases hop
  rw [decodeHart32, if_neg (hne _ rfl), if_neg (hne _ rfl), if_neg (hne _ rfl), if_neg (hne _ rfl), if_neg (hne _ rfl),
    if_neg (hne _ rfl), if_neg (hne _ rfl), if_neg (hne _ rfl), hop, hrow]

/-- The decoder on a CSR instruction's word. -/
theorem decodeHart_csrWord {csr : Nat} {row : CsrOp → Instr} (hcsr : csr < 2 ^ 12) (hrow : csrRow csr = some row)
    (op : CsrOp) : decodeHart (csrWord csr op) = .ok (row op) := by
  obtain ⟨hopcode, -, -, -, hnum⟩ := csrWord_fields csr op
  rw [decodeHart, if_pos (by omega), Nat.mod_eq_of_lt (csrWord_lt csr op hcsr)]
  exact decodeHart32_csr (csrOperands_csrWord csr op) (by rwa [hnum, Nat.mod_eq_of_lt hcsr])

/-! ### Abstract commands (spec/30_encoding.md R241 to R246) -/

/-- The decoder on an Access Register command. -/
theorem decodeCommand_accessRegister (size : BitVec 3) (postexec transfer write : Bool) (regno : BitVec 16)
    (res23 res19 : Bool) :
    decodeCommand (flag res23 23 + size.toNat * 2 ^ 20 + flag res19 19 + flag postexec 18 + flag transfer 17 +
      flag write 16 + regno.toNat) = .accessRegister size postexec transfer write regno res23 res19 := by
  simp only [flag_eq]
  have hsize := size.isLt
  have hpostexec := postexec.toNat_lt
  have htransfer := transfer.toNat_lt
  have hwrite := write.toNat_lt
  have hregno := regno.isLt
  have hres23 := res23.toNat_lt
  have hres19 := res19.toNat_lt
  generalize hw : res23.toNat * 2 ^ 23 + size.toNat * 2 ^ 20 + res19.toNat * 2 ^ 19 + postexec.toNat * 2 ^ 18 +
    transfer.toNat * 2 ^ 17 + write.toNat * 2 ^ 16 + regno.toNat = w
  rw [decodeCommand, if_pos (by omega), bits_eq_of_field (x := size) (by omega),
    bit_eq_of_field (b := postexec) (by omega), bit_eq_of_field (b := transfer) (by omega),
    bit_eq_of_field (b := write) (by omega), bits_eq_of_field (x := regno) (by omega),
    bit_eq_of_field (b := res23) (by omega), bit_eq_of_field (b := res19) (by omega)]

/-- The decoder on a Quick Access command. -/
theorem decodeCommand_quickAccess (reserved : BitVec 24) :
    decodeCommand (2 ^ 24 + reserved.toNat) = .quickAccess reserved := by
  have hreserved := reserved.isLt
  rw [decodeCommand, if_neg (by omega), if_pos (by omega), bits_eq_of_field (x := reserved) (by omega)]

/-- The decoder on a command of a reserved type. -/
theorem decodeCommand_reserved {cmdtype : BitVec 8} (h : 2 ≤ cmdtype.toNat) (control : BitVec 24) :
    decodeCommand (cmdtype.toNat * 2 ^ 24 + control.toNat) = .commandReservedCmdtype cmdtype control := by
  have hcmdtype := cmdtype.isLt
  have hcontrol := control.isLt
  rw [decodeCommand, if_neg (by omega), if_neg (by omega), bits_eq_of_field (x := cmdtype) (by omega),
    bits_eq_of_field (x := control) (by omega)]

/-! ### dmi scans (spec/30_encoding.md R255) -/

/-- The op of a dmi scan value. -/
@[simp] theorem dmiWord_op (address data : Word) {op : Nat} (hop : op < 4) : dmiWord address data op % 4 = op := by
  simp only [dmiWord]
  omega

/-- The data of a dmi scan value. -/
@[simp] theorem dmiWord_data (address data : Word) {op : Nat} (hop : op < 4) :
    bits (dmiWord address data op) 2 32 = data := by
  have hdata := data.isLt
  refine bits_eq_of_field ?_
  simp only [dmiWord]
  omega

/-- The address of a dmi scan value. -/
@[simp] theorem dmiWord_address (address data : Word) {op : Nat} (hop : op < 4) :
    bits (dmiWord address data op) 34 32 = address := by
  have haddress := address.isLt
  have hdata := data.isLt
  refine bits_eq_of_field ?_
  simp only [dmiWord]
  omega

/-- A dmi scan value is made of its own fields. -/
theorem dmiWord_bits {w op : Nat} (hw : w < 2 ^ 66) (hop : w % 4 = op) :
    dmiWord (bits w 34 32) (bits w 2 32) op = w := by
  simp only [dmiWord, bits_toNat]
  omega

/-! ### JTAG instructions (spec/30_encoding.md R260) -/

/-- The decoder on an IR word: the row of its IR value, used as it says. -/
theorem decodeIr_irWord {code : Nat} (hcode : code < 2 ^ 8) (op : IrOp) :
    decodeIr (irWord code op) = decodeIrCode code op := by
  cases op with
  | select =>
    rw [decodeIr, irWord, bit_eq_of_field (b := false) (by rw [Bool.toNat_false]; omega), Nat.mod_eq_of_lt hcode]
    rfl
  | scan tdi =>
    have htdi := tdi.isLt
    have hscan : bit (irWord code (.scan tdi)) 8 = true :=
      bit_eq_of_field (by simp only [irWord, Bool.toNat_true]; omega)
    have hvalue : bits (irWord code (.scan tdi)) 9 66 = tdi := bits_eq_of_field (by simp only [irWord]; omega)
    have hlow : irWord code (.scan tdi) % 2 ^ 8 = code := by simp only [irWord]; omega
    rw [decodeIr, hscan, hvalue, hlow, if_pos rfl]

/-- The decoder on the IR word of a listed row. -/
theorem decodeIr_row {code width : Nat} {row : IrOp → Instr} (hcode : code < 2 ^ 8)
    (hrow : irRow code = some (width, row)) {op : IrOp} (hop : op.fits width = true) :
    decodeIr (irWord code op) = .ok (row op) := by
  rw [decodeIr_irWord hcode, decodeIrCode, hrow]
  exact if_pos hop

/-- Every scan value fits the longest data register. -/
theorem IrOp.fits_longest (op : IrOp) : op.fits 66 = true := by
  cases op with
  | select => rfl
  | scan tdi => exact decide_eq_true tdi.isLt

/-! ### Debug Module registers (spec/10_state.md R50) -/

/-- The decoder on a DM register word: the register at its offset, accessed as it says. -/
theorem decodeDm_dmWord {offset : Nat} (hoffset : offset < 2 ^ 32) (a : DmAcc) :
    decodeDm (dmWord offset a) = decodeDmAt haltsum1Default offset a := by
  cases a with
  | read =>
    rw [decodeDm, dmWord, bit_eq_of_field (b := false) (by rw [Bool.toNat_false]; omega), Nat.mod_eq_of_lt hoffset]
    rfl
  | write v =>
    have hv := v.isLt
    have hwrite : bit (dmWord offset (.write v)) 64 = true :=
      bit_eq_of_field (by simp only [dmWord, Bool.toNat_true]; omega)
    have hvalue : bits (dmWord offset (.write v)) 32 32 = v := bits_eq_of_field (by simp only [dmWord]; omega)
    have hlow : dmWord offset (.write v) % 2 ^ 32 = offset := by simp only [dmWord]; omega
    rw [decodeDm, hwrite, hvalue, hlow, if_pos rfl]

/-- The decoder on the word of an access to the register at an offset. -/
theorem decodeDm_row {offset : Nat} {row : DmAcc → Instr} (hoffset : offset < 2 ^ 32)
    (hrow : dmRowAt haltsum1Default offset = some row) (a : DmAcc) : decodeDm (dmWord offset a) = .ok (row a) := by
  rw [decodeDm_dmWord hoffset, decodeDmAt, hrow]

/-! ### Decoding the encoding (O1) -/

/-- Settles O1: each instruction by the decoder's lemma for its encoding space; the last case is every access to a DM
register. -/
theorem decodeEncode : Obligations.DecodeEncode := by
  intro i hi
  cases i with
  | dret | ebreak | cEbreak | cNop | wfi | ecall | mret | hret | sret | uret => rfl
  | dcsr op | dpc op | dscratch0 op | dscratch1 op | tselect op | tdata1 op | tdata2 op | tdata3 op =>
    exact decodeHart_csrWord (by decide) rfl op
  | accessRegister => exact congrArg Except.ok (decodeCommand_accessRegister ..)
  | quickAccess reserved => exact congrArg Except.ok (decodeCommand_quickAccess reserved)
  | commandReservedCmdtype cmdtype control =>
    exact congrArg Except.ok (decodeCommand_reserved (of_decide_eq_true hi) control)
  | dmiNop | dmiRead | dmiWrite | dmiOpReserved => simp [encode, decode, decodeDmiIn]
  | dmiStatusOk | dmiStatusFailed | dmiStatusBusy => simp [encode, decode, decodeDmiOut]
  | dtmcsDmireset | dtmcsDmihardreset => rfl
  | bypass00 | idcode | dtmcs | reservedBypass12 | reservedBypass13 | reservedBypass14 | reservedBypass15
  | reservedBypass16 | reservedBypass17 | bypass1f => exact decodeIr_row (by decide) rfl hi
  | dmi op => exact decodeIr_row (by decide) rfl op.fits_longest
  | _ => exact decodeDm_row (by decide) rfl _

/-! ### Nothing is dropped (O2) -/

/-- A command word is the encoding of the well-formed command it decodes to. -/
theorem encode_decodeCommand {w : Nat} (hw : w < 2 ^ 32) :
    (decodeCommand w).wellFormed = true ∧ encode (decodeCommand w) = (.command, w) := by
  unfold decodeCommand
  split
  · refine ⟨rfl, Prod.ext rfl ?_⟩
    simp only [encode, flag_bit, bits_toNat]
    omega
  · split
    · refine ⟨rfl, Prod.ext rfl ?_⟩
      simp only [encode, bits_toNat]
      omega
    · refine ⟨decide_eq_true ?_, Prod.ext rfl ?_⟩
      · rw [bits_toNat]
        omega
      · simp only [encode, bits_toNat]
        omega

/-- A value shifted into dmi is the encoding of what it decodes to. -/
theorem encode_decodeDmiIn {w : Nat} (hw : w < 2 ^ 66) : encode (decodeDmiIn w) = (.dmiIn, w) := by
  unfold decodeDmiIn
  repeat' split
  · exact congrArg _ (dmiWord_bits hw ‹w % 4 = 0›)
  · exact congrArg _ (dmiWord_bits hw ‹w % 4 = 1›)
  · exact congrArg _ (dmiWord_bits hw ‹w % 4 = 2›)
  · exact congrArg _ (dmiWord_bits hw (show w % 4 = 3 by omega))

/-- A value captured from dmi is the encoding of what it decodes to. -/
theorem encode_of_decodeDmiOut {w : Nat} {i : Instr} (hw : w < 2 ^ 66) (hi : decodeDmiOut w = .ok i) :
    encode i = (.dmiOut, w) := by
  unfold decodeDmiOut at hi
  repeat' split at hi
  all_goals cases hi
  · exact congrArg _ (dmiWord_bits hw ‹w % 4 = 0›)
  · exact congrArg _ (dmiWord_bits hw ‹w % 4 = 2›)
  · exact congrArg _ (dmiWord_bits hw ‹w % 4 = 3›)

/-- A value captured from dmi is rejected for its status exactly where that is 1 (spec/30_encoding.md R265). -/
theorem decodeDmiOut_reserved_iff (w : Nat) : decodeDmiOut w = .error .reservedStatus ↔ w % 4 = 1 := by
  unfold decodeDmiOut
  repeat' split
  · exact iff_of_false nofun (by omega)
  · exact iff_of_false nofun (by omega)
  · exact iff_of_false nofun (by omega)
  · exact iff_of_true rfl (by omega)

/-- Settles O2: each clause is what the decoder of its words keeps. -/
theorem wordsLossless : Obligations.WordsLossless :=
  ⟨fun _ => encode_decodeCommand, fun _ => encode_decodeDmiIn, fun _ _ => encode_of_decodeDmiOut,
    decodeDmiOut_reserved_iff⟩

/-! ### The words of the spec (O3) -/

/-- Settles O3: each word is the encoding of the instruction it stands for, and so decodes to it (O1). -/
theorem specWordsDecode : Obligations.SpecWordsDecode := by
  have hencoded := decodeEncode
  exact ⟨hencoded .dret rfl, hencoded .cEbreak rfl,
    hencoded (.accessRegister 2 false true false 0x1008 false false) rfl, hencoded (.quickAccess 0) rfl,
    hencoded (.dmiRead 0x11 0) rfl, hencoded (.dmiWrite 0x10 0x80000001) rfl, hencoded .dtmcsDmireset rfl,
    hencoded .dtmcsDmihardreset rfl, hencoded (.bypass1f .select) rfl⟩

end Sys2Proof
end

section
/-! PROOF. Every step keeps the fields of the DTM, the DM and System Bus Access within what they can hold (O12). Most of
what happens leaves these fields alone; the DTM's are written by the JTAG operations, the DM's by dmcontrol and
abstractauto, those of System Bus Access by its own registers and by the bus master. -/

namespace Sys2Proof.Machine

/-! ### Keeping the fields legal -/

/-- The registers of the DM that `State.dmOk` bounds. -/
def Dm.bounded (d : Dm) : BitVec 20 × Word × Bool × Bool := (d.hartsel, d.auto, d.hasel, d.hartresetLatch)

/-- What holds the bounded fields, and the configuration that bounds them. -/
def State.bounded (s : State) : Config × Dtm × (BitVec 20 × Word × Bool × Bool) × Sb :=
  (s.cfg, s.dtm, s.dm.bounded, s.sb)

@[simp] theorem State.bounded_eq_iff {s t : State} :
    t.bounded = s.bounded ↔ t.cfg = s.cfg ∧ t.dtm = s.dtm ∧ t.dm.bounded = s.dm.bounded ∧ t.sb = s.sb := by
  simp [State.bounded]

theorem State.dtmOk.of_eq {s t : State} (hs : s.dtmOk) (hcfg : t.cfg = s.cfg) (hdtm : t.dtm = s.dtm) : t.dtmOk := by
  unfold State.dtmOk
  rwa [hcfg, hdtm]

theorem State.dmOk.of_eq {s t : State} (hs : s.dmOk) (hcfg : t.cfg = s.cfg) (hdm : t.dm.bounded = s.dm.bounded) :
    t.dmOk := by
  obtain ⟨hhartsel, hauto, hhasel, hlatch⟩ : t.dm.hartsel = s.dm.hartsel ∧ t.dm.auto = s.dm.auto ∧
    t.dm.hasel = s.dm.hasel ∧ t.dm.hartresetLatch = s.dm.hartresetLatch := by simpa [Dm.bounded] using hdm
  unfold State.dmOk
  rwa [hcfg, hhartsel, hauto, hhasel, hlatch]

theorem State.sbOk.of_eq {s t : State} (hs : s.sbOk) (hcfg : t.cfg = s.cfg) (hsb : t.sb = s.sb) : t.sbOk := by
  unfold State.sbOk
  rwa [hcfg, hsb]

/-- From `s` to `t` the configuration stays, and each block whose fields were within their bounds keeps them so. -/
structure State.keepsFields (s t : State) : Prop where
  cfg : t.cfg = s.cfg
  dtm : s.cfg.dtmStatusReset ≠ 1 → s.dtmOk → t.dtmOk
  dm : s.dmOk → t.dmOk
  sb : s.sbOk → t.sbOk

namespace State.keepsFields

/-- What leaves the bounded fields alone keeps them. -/
theorem of_eq {s t : State} (h : t.bounded = s.bounded) : s.keepsFields t := by
  obtain ⟨hcfg, hdtm, hdm, hsb⟩ := State.bounded_eq_iff.mp h
  exact ⟨hcfg, fun _ hs => hs.of_eq hcfg hdtm, fun hs => hs.of_eq hcfg hdm, fun hs => hs.of_eq hcfg hsb⟩

theorem refl (s : State) : s.keepsFields s := of_eq rfl

theorem trans {s t u : State} (hst : s.keepsFields t) (htu : t.keepsFields u) : s.keepsFields u where
  cfg := htu.cfg.trans hst.cfg
  dtm hc hs := htu.dtm (by rwa [hst.cfg]) (hst.dtm hc hs)
  dm hs := htu.dm (hst.dm hs)
  sb hs := htu.sb (hst.sb hs)

/-- What changes the DTM alone keeps the fields if it keeps the DTM's. -/
theorem of_dtm {s t : State} (h : t.cfg = s.cfg ∧ t.dm = s.dm ∧ t.sb = s.sb)
    (hdtm : s.cfg.dtmStatusReset ≠ 1 → s.dtmOk → t.dtmOk) : s.keepsFields t := by
  obtain ⟨hcfg, hdm, hsb⟩ := h
  exact ⟨hcfg, hdtm, fun hs => hs.of_eq hcfg (congrArg _ hdm), fun hs => hs.of_eq hcfg hsb⟩

/-- What changes the DM alone keeps the fields if it keeps the DM's. -/
theorem of_dm {s t : State} (h : t.cfg = s.cfg ∧ t.dtm = s.dtm ∧ t.sb = s.sb) (hdm : s.dmOk → t.dmOk) :
    s.keepsFields t := by
  obtain ⟨hcfg, hdtm, hsb⟩ := h
  exact ⟨hcfg, fun _ hs => hs.of_eq hcfg hdtm, hdm, fun hs => hs.of_eq hcfg hsb⟩

/-- What changes System Bus Access alone keeps the fields if it keeps those of System Bus Access. -/
theorem of_sb {s t : State} (h : t.cfg = s.cfg ∧ t.dtm = s.dtm ∧ t.dm = s.dm) (hsb : s.sbOk → t.sbOk) :
    s.keepsFields t := by
  obtain ⟨hcfg, hdtm, hdm⟩ := h
  exact ⟨hcfg, fun _ hs => hs.of_eq hcfg hdtm, fun hs => hs.of_eq hcfg (congrArg _ hdm), hsb⟩

end State.keepsFields

/-- A number reduced to `k` bits fits `k` bits in a word of any width. -/
theorem toNat_ofNat_mod_two_pow_lt (w k x : Nat) : (BitVec.ofNat w (x % 2 ^ k)).toNat < 2 ^ k :=
  calc (BitVec.ofNat w (x % 2 ^ k)).toNat = x % 2 ^ k % 2 ^ w := BitVec.toNat_ofNat ..
    _ ≤ x % 2 ^ k := Nat.mod_le ..
    _ < 2 ^ k := Nat.mod_lt _ (Nat.two_pow_pos k)

/-! ### Operations that leave hartsel, hasel, the hartreset latch and abstractauto alone -/

@[simp] theorem setCmderr_dmBounded (e : BitVec 3) (d : Dm) : (setCmderr e d).bounded = d.bounded := by
  simp [Dm.bounded]

@[simp] theorem finishCommand_dmBounded (e : Option (BitVec 3)) (s : State) :
    (finishCommand e s).dm.bounded = s.dm.bounded := by
  rw [finishCommand_dm]
  rfl

@[simp] theorem finishQuiet_dmBounded (e : Option (BitVec 3)) (s : State) :
    (finishQuiet e s).dm.bounded = s.dm.bounded := by
  rw [finishQuiet_dm]
  rfl

@[simp] theorem busyViolation_dmBounded (s : State) : (busyViolation s).dm.bounded = s.dm.bounded :=
  setCmderr_dmBounded errBusy s.dm

@[simp] theorem startCommand_dmBounded (v : Word) (s : State) : (startCommand v s).dm.bounded = s.dm.bounded := rfl

@[simp] theorem storeArg_dmBounded (first words v : Nat) (s : State) :
    (storeArg first words v s).dm.bounded = s.dm.bounded := rfl

@[simp] theorem startProgbuf_dmBounded (h : Nat) (s : State) : (startProgbuf h s).dm.bounded = s.dm.bounded := rfl

@[simp] theorem syncFetchAll_dmBounded (h : Nat) (s : State) : (syncFetchAll h s).dm.bounded = s.dm.bounded := rfl

@[simp] theorem autoexecBit_dmBounded (bit : Nat) (s : State) : (autoexecBit bit s).dm.bounded = s.dm.bounded := by
  simp only [autoexecBit, autoexec_eq]
  repeat' split
  all_goals rfl

@[simp] theorem endProgbuf_dmBounded (h : Nat) (e : Option (BitVec 3)) (s : State) :
    (endProgbuf h e s).dm.bounded = s.dm.bounded := by
  simp only [endProgbuf]
  repeat' split
  all_goals simp

@[simp] theorem raise_dmBounded (h c : Nat) (s : State) : (raise h c s).dm.bounded = s.dm.bounded := by
  unfold raise
  repeat' split
  all_goals simp

@[simp] theorem resetHart_dmBounded (b c : Bool) (h : Nat) (s : State) :
    (resetHart b c h s).dm.bounded = s.dm.bounded := by
  simp only [resetHart]
  repeat' split
  · rfl
  · exact finishCommand_dmBounded _ _
  · rfl

@[simp] theorem writeCsr_dmBounded (d : Bool) (h num : Nat) (v : XWord) (s : State) :
    (writeCsr d h num v s).dm.bounded = s.dm.bounded := by
  unfold writeCsr
  repeat' split
  all_goals rfl

@[simp] theorem csrInsn_dmBounded (num : Nat) (op : CsrOp) (h : Nat) (s : State) :
    (csrInsn num op h s).dm.bounded = s.dm.bounded := by
  unfold csrInsn
  repeat' split
  all_goals simp

@[simp] theorem writeReg_dmBounded (h : Nat) (r : RegRef) (v : XWord) (s : State) :
    (writeReg h r v s).dm.bounded = s.dm.bounded := by
  unfold writeReg
  repeat' split
  all_goals simp

@[simp] theorem doTransfer_dmBounded (h : Nat) (size : BitVec 3) (w : Bool) (r : Nat) (s : State) :
    (doTransfer h size w r s).dm.bounded = s.dm.bounded := by
  simp only [doTransfer]
  repeat' split
  all_goals simp

@[simp] theorem hartStore_dmBounded (h a : Nat) (bs : List Byte) (s : State) :
    (hartStore h a bs s).dm.bounded = s.dm.bounded := by
  simp only [hartStore]
  repeat' split
  all_goals simp [Dm.bounded]

@[simp] theorem effectStore_dmBounded (h : Nat) (e : Effect) (s : State) :
    (effectStore h e s).dm.bounded = s.dm.bounded := by
  unfold effectStore
  split <;> simp

@[simp] theorem effectCsr_dmBounded (h : Nat) (e : Effect) (s : State) :
    (effectCsr h e s).dm.bounded = s.dm.bounded := by
  unfold effectCsr
  repeat' split
  all_goals simp

@[simp] theorem applyEffect_dmBounded (h len : Nat) (e : Effect) (s : State) :
    (applyEffect h len e s).dm.bounded = s.dm.bounded := by
  simp only [applyEffect]
  repeat' split
  all_goals simp

@[simp] theorem breakAt_dmBounded (hart : Hart) (s : State) : (breakAt hart s).dm.bounded = s.dm.bounded := by
  unfold breakAt
  repeat' split
  all_goals simp

@[simp] theorem undefinedInDebug_dmBounded (s : State) : (undefinedInDebug s).dm.bounded = s.dm.bounded := by
  unfold undefinedInDebug
  split <;> simp

@[simp] theorem enterOther_dmBounded (h : Nat) (c : BitVec 3) (a : XWord) (s : State) :
    (enterOther h c a s).dm.bounded = s.dm.bounded := by
  simp only [enterOther]
  split <;> simp

@[simp] theorem enterRequested_dmBounded (h : Nat) (b : Bool) (a : XWord) (s : State) :
    (enterRequested h b a s).dm.bounded = s.dm.bounded := by
  simp only [enterRequested]
  repeat' split
  all_goals simp

@[simp] theorem stepEnd_dmBounded (h : Nat) (s : State) : (stepEnd h s).dm.bounded = s.dm.bounded := by
  unfold stepEnd
  repeat' split
  all_goals simp

@[simp] theorem breakpoints_dmBounded (h fuel : Nat) (s : State) :
    (breakpoints h fuel s).dm.bounded = s.dm.bounded := by
  induction fuel generalizing s with
  | zero => exact stepEnd_dmBounded h s
  | succ fuel ih =>
    simp only [breakpoints]
    repeat' split
    all_goals simp [ih]

@[simp] theorem finishHart_dmBounded (h : Nat) (p : Priv) (f : Facts) (s : State) :
    (finishHart h p f s).dm.bounded = s.dm.bounded := by
  unfold finishHart
  split
  · rfl
  · split
    · split <;> simp
    · simp only
      repeat' split
      all_goals simp

@[simp] theorem leaveReset_dmBounded (h : Nat) (hart : Hart) (s : State) :
    (leaveReset h hart s).dm.bounded = s.dm.bounded := by
  simp only [leaveReset]
  repeat' split
  all_goals simp

@[simp] theorem authComplete_dmBounded (s : State) : (authComplete s).dm.bounded = s.dm.bounded := by
  unfold authComplete
  split <;> rfl

/-! ### The DTM (spec/46_jtag_dtm.md R590 to R607) -/

@[simp] theorem dmiAddress_lt (c : Config) (a : Word) : (dmiAddress c a).toNat < 2 ^ c.abits :=
  toNat_ofNat_mod_two_pow_lt ..

theorem dmihardreset_keepsFields (s : State) : s.keepsFields (dmihardreset s) :=
  .of_dtm (by simp) fun hc _ => ⟨hc, Nat.two_pow_pos _⟩

theorem dmireset_keepsFields (s : State) : s.keepsFields (dmireset s) :=
  .of_dtm (by simp) fun _ ⟨_, haddr⟩ => ⟨by simp [dmireset], haddr⟩

theorem updateDtmcs_keepsFields (tdi : Nat) (s : State) : s.keepsFields (updateDtmcs tdi s) := by
  unfold updateDtmcs
  repeat' split
  · exact dmihardreset_keepsFields s
  · exact dmireset_keepsFields s
  · exact .refl s

/-- What a scan shifts out is no field of the DTM. -/
theorem shiftOut_dtmOk (v : BitVec 66) (s : State) : (shiftOut v s).dtmOk ↔ s.dtmOk := .rfl

theorem bump_dtmOk (s : State) (k : Nat) : (s.bump k).dtmOk ↔ s.dtmOk := .rfl

theorem shiftOut_keepsFields (v : BitVec 66) (s : State) : s.keepsFields (shiftOut v s) :=
  .of_dtm (by simp) fun _ h => h

theorem selectIr_keepsFields (code : Nat) (s : State) : s.keepsFields (selectIr code s) :=
  .of_dtm (by simp) fun _ h => h

theorem bypassInsn_keepsFields (code : Nat) (op : IrOp) (s : State) : s.keepsFields (bypassInsn code op s) := by
  cases op with
  | select => exact selectIr_keepsFields code s
  | scan tdi => exact shiftOut_keepsFields 0 s

theorem captureOk_keepsFields (address data : Word) (s : State) : s.keepsFields (captureOk address data s) :=
  .of_dtm (by simp) fun _ h => by
    unfold captureOk
    split
    all_goals simp only [shiftOut_dtmOk, bump_dtmOk]
    all_goals exact h

/-- The status a capture makes sticky is 2, or 3 (R601). -/
theorem captureFailed_keepsFields (address data : Word) (s : State) : s.keepsFields (captureFailed address data s) :=
  .of_dtm (by simp) fun _ ⟨hstatus, haddr⟩ => by
    unfold captureFailed
    split
    all_goals simp only [shiftOut_dtmOk, bump_dtmOk]
    · exact ⟨hstatus, haddr⟩
    · exact ⟨show dtmFailed ≠ 1 by decide, haddr⟩

theorem captureBusy_keepsFields (address data : Word) (s : State) : s.keepsFields (captureBusy address data s) :=
  .of_dtm (by simp) fun _ ⟨hstatus, haddr⟩ => by
    unfold captureBusy
    split
    all_goals simp only [shiftOut_dtmOk, bump_dtmOk]
    · exact ⟨hstatus, haddr⟩
    · exact ⟨show dtmBusy ≠ 1 by decide, haddr⟩

theorem captureDmi_keepsFields (s : State) : s.keepsFields (captureDmi s) := by
  simp only [captureDmi]
  repeat' split
  · exact captureFailed_keepsFields _ _ s
  · exact captureBusy_keepsFields _ _ s
  · exact captureOk_keepsFields _ _ s

theorem updateNop_keepsFields (address data : Word) (s : State) : s.keepsFields (updateNop address data s) :=
  .of_dtm (by simp) fun _ ⟨hstatus, haddr⟩ => by
    unfold updateNop
    split
    · exact ⟨hstatus, haddr⟩
    · exact ⟨hstatus, dmiAddress_lt s.cfg address⟩

theorem updateStart_keepsFields (address data : Word) (acc : DmAcc) (s : State) :
    s.keepsFields (updateStart address data acc s) :=
  .of_dtm (by simp) fun _ ⟨hstatus, haddr⟩ => by
    unfold updateStart
    repeat' split
    · exact ⟨hstatus, haddr⟩
    · exact ⟨show dtmBusy ≠ 1 by decide, haddr⟩
    · exact ⟨hstatus, dmiAddress_lt s.cfg address⟩

theorem updateDmi_keepsFields (tdi : Nat) (s : State) : s.keepsFields (updateDmi tdi s) := by
  simp only [updateDmi]
  repeat' split
  · exact updateStart_keepsFields _ _ _ s
  · exact updateStart_keepsFields _ _ _ s
  · exact updateNop_keepsFields _ _ s

/-- A TAP reset may give the status its reset value, and may clear the address (notes/assumptions/24.md). -/
theorem tapReset_statusAddress (s : State) :
    (tapReset s).dtm.status = (if Config.freeBit s.free then s.cfg.dtmStatusReset else s.dtm.status) ∧
    (tapReset s).dtm.address = if Config.freeBit (s.free + 2) then 0 else s.dtm.address := by
  simp only [tapReset, State.bump]
  cases Config.freeBit s.free <;> cases Config.freeBit (s.free + 1) <;> cases Config.freeBit (s.free + 2) <;>
    exact ⟨rfl, rfl⟩

theorem tapReset_keepsFields (s : State) : s.keepsFields (tapReset s) :=
  .of_dtm (by simp) fun hc ⟨hstatus, haddr⟩ => by
    obtain ⟨hstatus', haddr'⟩ := tapReset_statusAddress s
    unfold State.dtmOk
    rw [hstatus', haddr', (tapReset_frame s).1]
    constructor
    · split
      · exact hc
      · exact hstatus
    · split
      · exact Nat.two_pow_pos _
      · exact haddr

/-! ### System Bus Access (spec/43_system_bus_access.md R432 to R450) -/

/-- The platform's errors are sberror 1 to 3 (R436). -/
theorem busError_lt {s : State} {p : SbAccess} {e : BitVec 3} (h : busError s p = some e) : e.toNat < 4 := by
  unfold busError at h
  split at h <;> cases h <;> decide

theorem incremented_lt (c : Config) (a : BitVec 128) (n : Nat) : (incremented c a n).toNat < 2 ^ c.sbasize :=
  toNat_ofNat_mod_two_pow_lt ..

theorem busComplete_keepsFields (s : State) : s.keepsFields (busComplete s) :=
  .of_sb (by simp) fun ⟨herror, haddr⟩ => by
    simp only [busComplete]
    split
    · exact ⟨herror, haddr⟩
    next p hp =>
      split
      · exact ⟨herror, haddr⟩
      · split
        next e he => exact ⟨busError_lt he, haddr⟩
        next =>
          by_cases hinc : p.inc
          · simp only [if_pos hinc]
            repeat' split
            all_goals exact ⟨herror, incremented_lt ..⟩
          · simp only [if_neg hinc]
            repeat' split
            all_goals exact ⟨herror, haddr⟩

theorem startAccess_keepsFields (write : Bool) (s : State) : s.keepsFields (startAccess write s) :=
  .of_sb (by simp) fun ⟨herror, haddr⟩ => by
    unfold State.sbOk
    rw [startAccess_sb, (startAccess_frame s write).1]
    split
    · exact ⟨show sbOther.toNat < 4 by decide, haddr⟩
    · exact ⟨herror, haddr⟩

/-- Writing 1 to bits of sberror clears them, which makes it no larger (R433). -/
theorem writeSbcs_keepsFields (v : Word) (s : State) : s.keepsFields (writeSbcs v s) :=
  .of_sb (by simp) fun ⟨herror, haddr⟩ => by
    refine ⟨?_, haddr⟩
    simp only [writeSbcs, w1c, BitVec.toNat_and]
    exact Nat.and_le_left.trans_lt herror

theorem setSbbusyerror_keepsFields (s : State) : s.keepsFields { s with sb := setSbbusyerror s.sb } :=
  .of_sb ⟨rfl, rfl, rfl⟩ fun h => h

theorem writeSbaddress_keepsFields (k : Nat) (v : Word) (s : State) : s.keepsFields (writeSbaddress k v s) := by
  unfold writeSbaddress
  split
  · exact setSbbusyerror_keepsFields s
  · exact .of_sb ⟨rfl, rfl, rfl⟩ fun ⟨herror, _⟩ => ⟨herror, toNat_ofNat_mod_two_pow_lt ..⟩

theorem writeSbaddress0_keepsFields (v : Word) (s : State) : s.keepsFields (writeSbaddress0 v s) := by
  have hwrite := writeSbaddress_keepsFields 0 v s
  simp only [writeSbaddress0]
  split
  · exact hwrite.trans (startAccess_keepsFields false _)
  · exact hwrite

theorem readSbaddress_keepsFields (k : Nat) (s : State) : s.keepsFields (readSbaddress k s).1 := by
  unfold readSbaddress
  repeat' split
  all_goals exact .of_eq rfl

theorem readSbdata_keepsFields (k : Nat) (s : State) : s.keepsFields (readSbdata k s).1 := by
  unfold readSbdata
  split
  · exact (setSbbusyerror_keepsFields s).trans (.of_eq rfl)
  · exact .refl s

theorem writeSbdata_keepsFields (k : Nat) (v : Word) (s : State) : s.keepsFields (writeSbdata k v s) := by
  unfold writeSbdata
  split
  · exact setSbbusyerror_keepsFields s
  · exact .of_sb ⟨rfl, rfl, rfl⟩ fun h => h

theorem readSbdata0_keepsFields (s : State) : s.keepsFields (readSbdata0 s).1 := by
  simp only [readSbdata0]
  repeat' split
  · exact (setSbbusyerror_keepsFields s).trans (.of_eq rfl)
  · exact .refl s
  · exact startAccess_keepsFields false s
  · exact .of_sb ⟨rfl, rfl, rfl⟩ fun ⟨herror, _⟩ => ⟨herror, incremented_lt ..⟩
  · exact .refl s

theorem writeSbdata0_keepsFields (v : Word) (s : State) : s.keepsFields (writeSbdata0 v s) := by
  unfold writeSbdata0
  repeat' split
  · exact setSbbusyerror_keepsFields s
  · exact .refl s
  · refine .trans ?_ (startAccess_keepsFields true _)
    exact .of_sb ⟨rfl, rfl, rfl⟩ fun h => h

/-! ### Accesses to the DM registers (spec/40_dmi_dm_access.md R281 to R294) -/

/-- An access to a DM register keeps the fields if the register's own read and write do. -/
theorem dmAccess_keepsFields {rd : State → State × Word} {wr : Word → State → State} (present : Bool) (a : DmAcc)
    (s : State) (hrd : ∀ s : State, s.keepsFields (rd s).1) (hwr : ∀ v (s : State), s.keepsFields (wr v s)) :
    s.keepsFields (dmAccess present a rd wr s) := by
  rcases dmAccess_cases present a rd wr s with ⟨v, k, e⟩ | ⟨k, e⟩ | ⟨_, _, v, j, k, e⟩ | ⟨v, _, _, j, e⟩ <;> rw [e]
  · exact .of_eq rfl
  · exact .of_eq rfl
  · exact .trans (.of_eq (t := s.bump j) rfl) ((hrd _).trans (.of_eq rfl))
  · exact .trans (.of_eq (t := s.bump j) rfl) (hwr v _)

theorem dmReadOnly_keepsFields (present : Bool) (a : DmAcc) (value : State → Word) (s : State) :
    s.keepsFields (dmReadOnly present a value s) :=
  dmAccess_keepsFields present a s .refl fun _ => .refl

theorem bufferRead_keepsFields (bit : Nat) (v : Word) (s : State) : s.keepsFields (bufferRead bit v s).1 := by
  unfold bufferRead
  split <;> exact .of_eq (by simp)

theorem bufferWrite_keepsFields (bit : Nat) {store : State → State} {s : State}
    (hs : (store s).bounded = s.bounded) : s.keepsFields (bufferWrite bit store s) := by
  unfold bufferWrite
  split
  · exact .of_eq (by simp)
  · exact .trans (.of_eq hs) (.of_eq (by simp))

theorem dataAccess_keepsFields (i : Nat) (a : DmAcc) (s : State) : s.keepsFields (dataAccess i a s) :=
  dmAccess_keepsFields _ a s (fun _ => bufferRead_keepsFields i _ _) fun _ _ => bufferWrite_keepsFields i rfl

theorem progbufAccess_keepsFields (i : Nat) (a : DmAcc) (s : State) : s.keepsFields (progbufAccess i a s) :=
  dmAccess_keepsFields _ a s (fun _ => bufferRead_keepsFields (16 + i) _ _) fun _ _ =>
    bufferWrite_keepsFields (16 + i) rfl

theorem readHartinfo_keepsFields (s : State) : s.keepsFields (readHartinfo s).1 := by
  unfold readHartinfo
  split <;> exact .of_eq rfl

theorem writeAbstractcs_keepsFields (v : Word) (s : State) : s.keepsFields (writeAbstractcs v s) := by
  unfold writeAbstractcs
  split
  · exact .of_eq (by simp)
  · exact .of_eq rfl

theorem writeCommand_keepsFields (v : Word) (s : State) : s.keepsFields (writeCommand v s) := by
  unfold writeCommand
  repeat' split
  · exact .of_eq (by simp)
  · exact .refl s
  · exact .of_eq rfl

/-- A write of abstractauto stores supported bits alone (spec/42_abstract_commands.md R366). -/
theorem writeAbstractauto_keepsFields (v : Word) (s : State) : s.keepsFields (writeAbstractauto v s) := by
  unfold writeAbstractauto
  split
  · exact .of_eq (by simp)
  · refine .of_dm ⟨rfl, rfl, rfl⟩ fun ⟨hhartsel, _, hhasel, hlatch⟩ => ⟨hhartsel, ?_, hhasel, hlatch⟩
    simp [BitVec.and_assoc]

theorem execAuthdata_keepsFields {a : DmAcc} {s t : State} (he : execAuthdata a s = .next t) : s.keepsFields t := by
  cases he
  refine .of_eq ?_
  cases a with
  | read =>
    simp only
    repeat' split
    all_goals rfl
  | write v =>
    simp only
    repeat' split
    all_goals rfl

/-! ### dmcontrol (spec/41_reset_select_run.md R311 to R314) -/

/-- Reset signals are seen by the harts; the bounded fields stay. -/
theorem applyResets_bounded (k : Nat) (s : State) : (applyResets k s).bounded = s.bounded := by
  induction k with
  | zero => rfl
  | succ k ih =>
    refine Eq.trans ?_ ih
    rw [applyResets_succ]
    unfold seeReset
    repeat' split
    all_goals simp

/-- A DM reset gives every field its reset value. -/
theorem resetDm_keepsFields (s : State) : s.keepsFields (resetDm s) where
  cfg := by simp [resetDm]
  dtm _ hs := by simpa [resetDm, State.dtmOk] using hs
  dm _ := ⟨Nat.two_pow_pos _, BitVec.zero_and, fun _ => rfl, fun _ => rfl⟩
  sb _ := ⟨show Sb.reset.error.toNat < 4 by decide, Nat.two_pow_pos _⟩

theorem writeDmcontrolFields_keepsFields (v : Word) (s : State) : s.keepsFields (writeDmcontrolFields v s) := by
  have habsent {has bit : Bool} (h : has = false) : (has && bit) = false := by rw [h, Bool.false_and]
  refine .trans ?_ (.of_eq (applyResets_bounded _ _))
  exact .of_dm ⟨rfl, rfl, rfl⟩ fun ⟨_, hauto, _, _⟩ => ⟨toNat_ofNat_mod_two_pow_lt .., hauto, habsent, habsent⟩

theorem writeDmcontrol_keepsFields (v : Word) (s : State) : s.keepsFields (writeDmcontrol v s) := by
  simp only [writeDmcontrol]
  repeat' split
  · exact resetDm_keepsFields s
  · exact .of_eq rfl
  · exact .of_eq rfl
  · refine .trans ?_ (writeDmcontrolFields_keepsFields v _)
    exact .of_eq rfl

/-! ### Instructions -/

/-- Running a meaning on the executing hart keeps the fields if the meaning leaves them alone. -/
theorem onHart_keepsFields {s t : State} {f : Hart → State} (he : onHart s f = .next t)
    (hf : ∀ hart, (f hart).bounded = s.bounded) : s.keepsFields t := by
  unfold onHart at he
  split at he
  next hart _ =>
    cases he
    exact .of_eq (hf hart)
  · cases he

theorem execAccessRegister_keepsFields {size : BitVec 3} {postexec transfer write : Bool} {regno : BitVec 16}
    {r1 r2 : Bool} {s t : State} (he : execAccessRegister size postexec transfer write regno r1 r2 s = .next t) :
    s.keepsFields t := by
  cases he
  refine .of_eq ?_
  simp only
  repeat' split
  all_goals simp

theorem execQuickAccess_keepsFields {r : BitVec 24} {s t : State} (he : execQuickAccess r s = .next t) :
    s.keepsFields t := by
  cases he
  refine .of_eq ?_
  simp only
  repeat' split
  all_goals simp
  rfl

/-- Every instruction keeps the fields. -/
theorem exec_keepsFields {i : Instr} {s t : State} (he : exec i s = .next t) : s.keepsFields t := by
  cases i with
  | wfi => exact onHart_keepsFields he fun _ => rfl
  | ebreak => exact onHart_keepsFields he fun _ => by simp
  | dret =>
    refine onHart_keepsFields he fun hart => ?_
    simp only
    repeat' split
    all_goals simp
  | cEbreak | cNop | ecall | hret | mret | sret | uret =>
    refine onHart_keepsFields he fun hart => ?_
    repeat' split
    all_goals simp
  | dcsr op | dpc op | dscratch0 op | dscratch1 op | tselect op | tdata1 op | tdata2 op | tdata3 op =>
    exact onHart_keepsFields he fun _ => by simp
  | accessRegister => exact execAccessRegister_keepsFields he
  | quickAccess => exact execQuickAccess_keepsFields he
  | commandReservedCmdtype => cases he; exact .of_eq (by simp)
  | bypass00 op | reservedBypass12 op | reservedBypass13 op | reservedBypass14 op | reservedBypass15 op
  | reservedBypass16 op | reservedBypass17 op | bypass1f op => cases he; exact bypassInsn_keepsFields _ op s
  | idcode op =>
    cases op <;> cases he
    · exact selectIr_keepsFields _ s
    · exact shiftOut_keepsFields _ s
  | dtmcs op =>
    cases op <;> cases he
    · exact selectIr_keepsFields _ s
    · exact (shiftOut_keepsFields _ s).trans (updateDtmcs_keepsFields _ _)
  | dmi op =>
    cases op <;> cases he
    · exact selectIr_keepsFields _ s
    · exact (captureDmi_keepsFields s).trans (updateDmi_keepsFields _ _)
  | dmiNop | dmiOpReserved => cases he; exact updateNop_keepsFields _ _ s
  | dmiRead | dmiWrite => cases he; exact updateStart_keepsFields _ _ _ s
  | dmiStatusOk => cases he; exact captureOk_keepsFields _ _ s
  | dmiStatusFailed => cases he; exact captureFailed_keepsFields _ _ s
  | dmiStatusBusy => cases he; exact captureBusy_keepsFields _ _ s
  | dtmcsDmireset => cases he; exact dmireset_keepsFields s
  | dtmcsDmihardreset => cases he; exact dmihardreset_keepsFields s
  | data0 | data1 | data2 | data3 | data4 | data5 | data6 | data7 | data8 | data9 | data10 | data11 =>
    cases he
    exact dataAccess_keepsFields _ _ s
  | progbuf0 | progbuf1 | progbuf2 | progbuf3 | progbuf4 | progbuf5 | progbuf6 | progbuf7 | progbuf8 | progbuf9
  | progbuf10 | progbuf11 | progbuf12 | progbuf13 | progbuf14 | progbuf15 =>
    cases he
    exact progbufAccess_keepsFields _ _ s
  | devtreeaddr0 | devtreeaddr1 | devtreeaddr2 | devtreeaddr3 | nextdm | haltsum0 | haltsum1 | haltsum2 | haltsum3 =>
    cases he
    exact dmReadOnly_keepsFields _ _ _ s
  | dmcontrol a =>
    cases a <;> cases he
    · exact .of_eq rfl
    · exact writeDmcontrol_keepsFields _ s
  | dmstatus a =>
    cases a <;> cases he
    · exact .of_eq (by split <;> rfl)
    · exact .refl s
  | authdata => exact execAuthdata_keepsFields he
  | hartinfo => cases he; exact dmAccess_keepsFields _ _ s readHartinfo_keepsFields fun _ => .refl
  | abstractcs => cases he; exact dmAccess_keepsFields _ _ s .refl writeAbstractcs_keepsFields
  | command => cases he; exact dmAccess_keepsFields _ _ s .refl writeCommand_keepsFields
  | abstractauto => cases he; exact dmAccess_keepsFields _ _ s .refl writeAbstractauto_keepsFields
  | hawindowsel | hawindow => cases he; exact dmAccess_keepsFields _ _ s .refl fun _ _ => .of_eq rfl
  | sbcs => cases he; exact dmAccess_keepsFields _ _ s .refl writeSbcs_keepsFields
  | sbaddress0 =>
    cases he
    exact dmAccess_keepsFields _ _ s (readSbaddress_keepsFields 0) writeSbaddress0_keepsFields
  | sbaddress1 | sbaddress2 | sbaddress3 =>
    cases he
    exact dmAccess_keepsFields _ _ s (readSbaddress_keepsFields _) (writeSbaddress_keepsFields _)
  | sbdata0 => cases he; exact dmAccess_keepsFields _ _ s readSbdata0_keepsFields writeSbdata0_keepsFields
  | sbdata1 | sbdata2 | sbdata3 =>
    cases he
    exact dmAccess_keepsFields _ _ s (readSbdata_keepsFields _) (writeSbdata_keepsFields _)

/-! ### Moves -/

/-- What is left to do after an instruction keeps the fields: of the DTM it writes the pending transaction alone. -/
theorem finish_keepsFields (a : After) (s : State) : s.keepsFields (finish a s) := by
  cases a with
  | none => exact .refl s
  | dtm w => exact .of_dtm ⟨rfl, rfl, rfl⟩ fun _ h => h
  | hart h p f => exact .of_eq (by simp [finish])

/-- An instruction word leaves the fields alone if what follows it does. -/
theorem wordMove_bounded (h w : Nat) (e : Effect) (s : State) (a : After) {fin : State → State}
    (hfin : ∀ u, (fin u).bounded = u.bounded) : (wordMove h w e s a fin).state.bounded = s.bounded := by
  unfold wordMove
  repeat' split
  · rfl
  · exact (hfin _).trans (by simp)
  · exact (hfin _).trans (by simp)

theorem debugMove_bounded (h : Nat) (hart : Hart) (s : State) : (debugMove h hart s).state.bounded = s.bounded := by
  simp only [debugMove]
  repeat' split
  · simp
  · exact wordMove_bounded h _ _ (s.bump 8) _ fun _ => rfl
  · simp
  · rfl

theorem runMove_bounded (h : Nat) (hart : Hart) (s : State) : (runMove h hart s).state.bounded = s.bounded := by
  simp only [runMove]
  repeat' split
  case h_2 => exact (wordMove_bounded h _ _ _ _ fun _ => by simp).trans (by simp)
  all_goals simp

theorem hartMove_bounded (h : Nat) (s : State) : (hartMove h s).state.bounded = s.bounded := by
  simp only [hartMove]
  repeat' split
  · rfl
  · rfl
  · rfl
  · simp
  · exact debugMove_bounded h _ _
  · exact runMove_bounded h _ _

theorem dmiMove_keepsFields (address : Word) (acc : DmAcc) (a : After) (s : State) :
    s.keepsFields (dmiMove address acc a s).state := by
  have hmiss (inside : Bool) (k : Nat) : s.keepsFields (finish a (missAccess inside acc (s.bump k))) := by
    refine .trans (.of_eq ?_) (finish_keepsFields a _)
    unfold missAccess
    repeat' split
    all_goals rfl
  unfold dmiMove
  repeat' split
  · exact .refl s
  · exact hmiss true 0
  · exact hmiss true 1
  · exact .of_dtm ⟨rfl, rfl, rfl⟩ fun _ h => h
  · exact hmiss false 1

theorem dtmMove_keepsFields (s : State) : s.keepsFields (dtmMove s).state := by
  unfold dtmMove
  split
  · exact dmiMove_keepsFields ..
  · exact .refl s

theorem engineMove_keepsFields (s : State) : s.keepsFields (engineMove s).state := by
  unfold engineMove
  split <;> exact .refl s

/-- The move of an event keeps the fields. -/
theorem eventMove_keepsFields (e : Event) (s : State) : s.keepsFields (eventMove e s).state := by
  cases e with
  | tapReset => exact tapReset_keepsFields s
  | scanIR v =>
    simp only [eventMove, scanIrMove]
    split
    · exact .refl s
    · exact selectIr_keepsFields v s
  | scanDR tdi =>
    simp only [eventMove, scanDrMove]
    split
    · exact .refl s
    · exact shiftOut_keepsFields 0 s
  | captureDR =>
    simp only [eventMove, captureMove]
    split
    · exact .refl s
    all_goals exact shiftOut_keepsFields _ s
  | updateDR tdi =>
    simp only [eventMove, updateMove]
    repeat' split
    all_goals exact .refl s
  | dmi address acc => exact dmiMove_keepsFields ..
  | dtm => exact dtmMove_keepsFields s
  | engine => exact engineMove_keepsFields s
  | bus => exact busComplete_keepsFields s
  | auth => exact .of_eq (by simp [eventMove])
  | hart h => exact .of_eq (hartMove_bounded h s)
  | extReset b => exact .of_eq (applyResets_bounded ..)
  | hartReset h => exact .of_eq (by simp [eventMove])
  | runIdle | avail | setMip | tick | dropReservation | busToHart | hartToBus | syncFetch => exact .of_eq rfl

/-- The next move keeps the fields. -/
theorem nextMove_keepsFields (s : State) : s.keepsFields (nextMove s).state := by
  unfold nextMove
  split
  · unfold idleMove
    repeat' split
    · exact dtmMove_keepsFields s
    · exact engineMove_keepsFields s
    · exact busComplete_keepsFields s
    · exact .of_eq (by simp)
    · exact .of_eq (hartMove_bounded ..)
  · refine .trans ?_ (eventMove_keepsFields _ _)
    exact .of_eq rfl

/-! ### Every step keeps the fields legal (O12) -/

/-- Every step keeps the fields: along its move, the instruction it runs and what is left to do after it. -/
theorem step_keepsFields {s t : State} (h : step s = .next t) : s.keepsFields t := by
  have hmove := nextMove_keepsFields s
  obtain hq | ⟨i, u, a, v, hr, he, rfl⟩ := step_cases h
  · rwa [hq] at hmove
  · rw [hr] at hmove
    exact hmove.trans ((exec_keepsFields he).trans (finish_keepsFields a v))

/-- Settles O12: a step keeps the fields of each of the three blocks. -/
theorem stepKeepsFieldsLegal : Obligations.StepKeepsFieldsLegal :=
  ⟨fun _ _ hc hs h => (step_keepsFields h).dtm hc hs, fun _ _ hs h => (step_keepsFields h).dm hs,
    fun _ _ hs h => (step_keepsFields h).sb hs⟩

end Sys2Proof.Machine
end

section
/-! PROOF. Every step keeps the DM at its reset values while dmactive is 0 (O13). Nothing but a write of dmcontrol lowers
dmactive, and that write resets the DM. Of a DM at its reset values, whatever would change a register of it waits for
something that is not there: an access has no effect on an inactive DM, a command ends only where one is in progress, the
bus master and the authentication module have nothing to complete, and a hart reaches no register of an inactive DM. -/

namespace Sys2Proof.Machine

/-! ### A dormant DM -/

/-- The requests of the debugger a hart's control bits hold, with their acknowledgement and the mask bit: all of them but
havereset, which a DM reset may leave (spec/41_reset_select_run.md R312). -/
def Hart.requests (hart : Hart) : Ctl := { hart.ctl with havereset := false }

/-- No request, no acknowledgement and no mask bit. -/
def Hart.unrequested (hart : Hart) : Prop :=
  hart.ctl.haltreq = false ∧ hart.ctl.resumereq = false ∧ hart.ctl.hartreset = false ∧ hart.ctl.resumeack = false ∧
    hart.ctl.mask = false

theorem Hart.unrequested_congr {a b : Hart} (h : b.requests = a.requests) : b.unrequested ↔ a.unrequested := by
  obtain ⟨hhaltreq, hresumereq, hhartreset, hresumeack, hmask⟩ : b.ctl.haltreq = a.ctl.haltreq ∧
    b.ctl.resumereq = a.ctl.resumereq ∧ b.ctl.hartreset = a.ctl.hartreset ∧ b.ctl.resumeack = a.ctl.resumeack ∧
    b.ctl.mask = a.ctl.mask := by simpa [Hart.requests] using h
  unfold Hart.unrequested
  rw [hhaltreq, hresumereq, hhartreset, hresumeack, hmask]

theorem Hart.dmReset_unrequested (hart : Hart) (n : Nat) : (hart.dmReset n).unrequested := ⟨rfl, rfl, rfl, rfl, rfl⟩

/-- The DM holds its reset values, and nothing is requested of any hart. -/
def State.dormant (s : State) : Prop := s.dm = Dm.reset s.cfg ∧ s.sb = Sb.reset ∧ s.everyHart Hart.unrequested

theorem State.inactiveOk_iff (s : State) : s.inactiveOk ↔ (s.dm.dmactive = false → s.dormant) := .rfl

namespace State.dormant

variable {s : State} (h : s.dormant)
include h

theorem dm_eq : s.dm = Dm.reset s.cfg := by
  obtain ⟨hdm, -, -⟩ := h
  exact hdm

theorem sb_eq : s.sb = Sb.reset := by
  obtain ⟨-, hsb, -⟩ := h
  exact hsb

theorem not_dmactive : s.dm.dmactive = false := congrArg Dm.dmactive h.dm_eq

/-- A dormant DM does not act: its registers are out of reach for the harts, and accesses to them have no effect. -/
theorem not_live : s.dmLive = false := by
  simp [State.dmLive, h.not_dmactive]

/-- A dormant DM has no command in progress. -/
theorem idle : s.dm.phase = .idle := congrArg Dm.phase h.dm_eq

theorem not_authbusy : s.dm.authbusy = false := congrArg Dm.authbusy h.dm_eq

/-- A dormant DM has no bus access in progress. -/
theorem no_pending : s.sb.pending = none := congrArg Sb.pending h.sb_eq

theorem unrequested {k : Nat} {hart : Hart} (hh : s.harts[k]? = some hart) : hart.unrequested := by
  obtain ⟨-, -, hharts⟩ := h
  exact hharts hart (List.mem_of_getElem? hh)

end State.dormant

/-! ### Keeping the DM dormant -/

/-- From `s` to `t` an active DM stays active, and a dormant one stays dormant. -/
structure State.keepsDormant (s t : State) : Prop where
  active : s.dm.dmactive = true → t.dm.dmactive = true
  dormant : s.dormant → t.dormant

namespace State.keepsDormant

theorem refl (s : State) : s.keepsDormant s := ⟨id, id⟩

theorem trans {s t u : State} (hst : s.keepsDormant t) (htu : t.keepsDormant u) : s.keepsDormant u :=
  ⟨htu.active ∘ hst.active, htu.dormant ∘ hst.dormant⟩

/-- An inactive DM that held its reset values still holds them. -/
theorem inactiveOk {s t : State} (h : s.keepsDormant t) (hs : s.inactiveOk) : t.inactiveOk := by
  rw [State.inactiveOk_iff] at hs ⊢
  intro ht
  cases hactive : s.dm.dmactive with
  | false => exact h.dormant (hs hactive)
  | true => simp [h.active hactive] at ht

/-- What leaves the DM's own registers alone keeps the DM dormant if it requests nothing of a hart. -/
theorem of_harts {s t : State} (h : t.cfg = s.cfg ∧ t.dm = s.dm ∧ t.sb = s.sb)
    (hharts : s.everyHart Hart.unrequested → t.everyHart Hart.unrequested) : s.keepsDormant t := by
  obtain ⟨hcfg, hdm, hsb⟩ := h
  refine ⟨fun hs => by rwa [hdm], fun ⟨hdm', hsb', hharts'⟩ => ⟨?_, ?_, hharts hharts'⟩⟩
  · rw [hdm, hcfg, hdm']
  · rw [hsb, hsb']

/-- What leaves the DM's own registers and the harts alone keeps the DM dormant. -/
theorem of_eq {s t : State} (h : t.cfg = s.cfg ∧ t.dm = s.dm ∧ t.sb = s.sb ∧ t.harts = s.harts) : s.keepsDormant t := by
  obtain ⟨hcfg, hdm, hsb, hharts⟩ := h
  exact of_harts ⟨hcfg, hdm, hsb⟩ fun hs => by rwa [State.everyHart, hharts]

/-- What can happen only where the DM is not dormant need only leave dmactive alone. -/
theorem of_awake {s t : State} (hs : ¬s.dormant) (h : t.dm.dmactive = s.dm.dmactive) : s.keepsDormant t :=
  ⟨fun hactive => h.trans hactive, fun hd => absurd hd hs⟩

/-- What can happen only while a command is in progress. -/
theorem of_busy {s t : State} (hs : s.dm.phase ≠ .idle) (h : t.dm.dmactive = s.dm.dmactive) : s.keepsDormant t :=
  of_awake (fun hd => hs hd.idle) h

/-- What can happen only while the DM acts. -/
theorem of_live {s t : State} (hs : s.dmLive = true) (h : t.dm.dmactive = s.dm.dmactive) : s.keepsDormant t :=
  of_awake (fun hd => by simp [hd.not_live] at hs) h

theorem bump (s : State) (k : Nat) : s.keepsDormant (s.bump k) := of_eq ⟨rfl, rfl, rfl, rfl⟩

/-- A change of a hart that leaves its requests alone. -/
theorem modHart (s : State) (h : Nat) {f : Hart → Hart} (hf : ∀ hart, (f hart).requests = hart.requests) :
    s.keepsDormant (s.modHart h f) := by
  refine of_harts ⟨rfl, rfl, rfl⟩ fun hs hart hm => ?_
  obtain hmem | ⟨old, ho, rfl⟩ := State.mem_modHart hm
  · exact hs hart hmem
  · exact (Hart.unrequested_congr (hf old)).mpr (hs old (List.mem_of_getElem? ho))

theorem modHart_bump (s : State) (h k : Nat) {f : Hart → Hart} (hf : ∀ hart, (f hart).requests = hart.requests) :
    s.keepsDormant ((s.modHart h f).bump k) :=
  (modHart s h hf).trans (bump _ k)

end State.keepsDormant

/-! ### Operations that leave dmactive alone -/

@[simp] theorem finishCommand_dmactive (e : Option (BitVec 3)) (s : State) :
    (finishCommand e s).dm.dmactive = s.dm.dmactive := by
  rw [finishCommand_dm]

@[simp] theorem finishQuiet_dmactive (e : Option (BitVec 3)) (s : State) :
    (finishQuiet e s).dm.dmactive = s.dm.dmactive := by
  rw [finishQuiet_dm]

@[simp] theorem startProgbuf_dmactive (h : Nat) (s : State) : (startProgbuf h s).dm.dmactive = s.dm.dmactive := rfl

@[simp] theorem storeArg_dmactive (first words v : Nat) (s : State) :
    (storeArg first words v s).dm.dmactive = s.dm.dmactive := rfl

@[simp] theorem writeCsr_dmactive (d : Bool) (h num : Nat) (v : XWord) (s : State) :
    (writeCsr d h num v s).dm.dmactive = s.dm.dmactive := by
  unfold writeCsr
  repeat' split
  all_goals rfl

@[simp] theorem writeReg_dmactive (h : Nat) (r : RegRef) (v : XWord) (s : State) :
    (writeReg h r v s).dm.dmactive = s.dm.dmactive := by
  unfold writeReg
  repeat' split
  all_goals simp

@[simp] theorem doTransfer_dmactive (h : Nat) (size : BitVec 3) (w : Bool) (r : Nat) (s : State) :
    (doTransfer h size w r s).dm.dmactive = s.dm.dmactive := by
  simp only [doTransfer]
  repeat' split
  all_goals simp

@[simp] theorem busyViolation_dmactive (s : State) : (busyViolation s).dm.dmactive = s.dm.dmactive := by
  simp [busyViolation]

@[simp] theorem autoexecBit_dmactive (bit : Nat) (s : State) : (autoexecBit bit s).dm.dmactive = s.dm.dmactive := by
  simp only [autoexecBit, autoexec_eq]
  repeat' split
  all_goals rfl

@[simp] theorem bufferRead_dmactive (bit : Nat) (v : Word) (s : State) :
    (bufferRead bit v s).1.dm.dmactive = s.dm.dmactive := by
  unfold bufferRead
  split <;> simp

theorem bufferWrite_dmactive (bit : Nat) {store : State → State} {s : State}
    (hs : (store s).dm.dmactive = s.dm.dmactive) : (bufferWrite bit store s).dm.dmactive = s.dm.dmactive := by
  unfold bufferWrite
  split
  · simp
  · simpa using hs

/-! ### Entering and leaving Debug Mode, exceptions and resets -/

theorem enterDebug_keepsDormant (h : Nat) (c : BitVec 3) (a : XWord) (s : State) :
    s.keepsDormant (enterDebug h c a s) :=
  .modHart_bump s h 3 fun _ => rfl

theorem leaveDebug_keepsDormant (h : Nat) (s : State) : s.keepsDormant (leaveDebug h s) :=
  .modHart_bump s h 3 fun _ => rfl

/-- The end of the Program Buffer changes the DM's registers only where a command executes it. -/
theorem endProgbuf_keepsDormant (h : Nat) (e : Option (BitVec 3)) (s : State) : s.keepsDormant (endProgbuf h e s) := by
  by_cases hc : s.dm.phase = .progbuf ∧ s.dm.cmdHart = h
  · obtain ⟨hp, hh⟩ := hc
    refine .of_busy (by simp [hp]) ?_
    rw [endProgbuf_command h e s hp hh]
    simp only [finishCommand_dmactive]
    split <;> rfl
  · rw [endProgbuf_alone h e s hc]
    exact .modHart s h fun _ => rfl

theorem raise_keepsDormant (h c : Nat) (s : State) : s.keepsDormant (raise h c s) := by
  unfold raise
  repeat' split
  · exact .refl s
  · exact endProgbuf_keepsDormant h _ s
  · exact .modHart_bump s h 1 fun hart => by simp [Hart.requests]

/-- A Quick Access that waits is a command in progress. -/
theorem busy_of_quickPending {s : State} {h : Nat} (hq : quickPending s h = true) : s.dm.phase ≠ .idle := by
  obtain ⟨hp, -⟩ : s.dm.phase = .quickHalt ∧ s.dm.cmdHart = h := by simpa [quickPending] using hq
  simp [hp]

theorem enterOther_keepsDormant (h : Nat) (c : BitVec 3) (a : XWord) (s : State) :
    s.keepsDormant (enterOther h c a s) := by
  simp only [enterOther]
  split
  next hq => exact .of_busy (busy_of_quickPending hq) (by simp)
  next => exact enterDebug_keepsDormant h c a s

theorem enterRequested_keepsDormant (h : Nat) (b : Bool) (a : XWord) (s : State) :
    s.keepsDormant (enterRequested h b a s) := by
  simp only [enterRequested]
  split
  next hq => exact .of_busy (busy_of_quickPending hq) (by split <;> simp)
  next => exact (State.keepsDormant.bump s 1).trans (enterDebug_keepsDormant h 3 a _)

theorem stepEnd_keepsDormant (h : Nat) (s : State) : s.keepsDormant (stepEnd h s) := by
  unfold stepEnd
  repeat' split
  · exact .refl s
  · exact .refl s
  · exact enterRequested_keepsDormant h _ _ s
  · exact enterDebug_keepsDormant h 4 _ s

theorem breakpoints_keepsDormant (h fuel : Nat) (s : State) : s.keepsDormant (breakpoints h fuel s) := by
  induction fuel generalizing s with
  | zero => exact stepEnd_keepsDormant h s
  | succ fuel ih =>
    simp only [breakpoints]
    split
    · exact .refl s
    next hart _ =>
      have hraise := (raise_keepsDormant h excBreakpoint s).trans
        (.modHart _ h (f := (Hart.countDown · hart.priv)) fun _ => by simp [Hart.requests])
      repeat' split
      · exact hraise.trans (enterOther_keepsDormant h 2 _ _)
      · exact hraise.trans (ih _)
      · exact hraise.trans (stepEnd_keepsDormant h _)

theorem finishHart_keepsDormant (h : Nat) (p : Priv) (f : Facts) (s : State) : s.keepsDormant (finishHart h p f s) := by
  unfold finishHart
  split
  · exact .refl s
  next hart _ =>
    split
    · split
      next hq => exact .of_busy (busy_of_quickPending hq) (by simp)
      next => exact .refl s
    · generalize (if hart.trapped = true then [] else hart.trigMatches p true f) = ms
      have hseen (b c : Bool) : s.keepsDormant ((s.modHart h fun hart => hart.afterTriggers p ms b c).bump 1) :=
        .modHart_bump s h 1 fun _ => rfl
      simp only
      repeat' split
      · exact (hseen _ _).trans (enterOther_keepsDormant h 2 _ _)
      · exact (hseen _ _).trans (breakpoints_keepsDormant h _ _)
      · exact (hseen _ _).trans (stepEnd_keepsDormant h _)

theorem resumeHart_dmactive (h : Nat) (s : State) : (resumeHart h s).dm.dmactive = s.dm.dmactive := rfl

theorem leaveReset_keepsDormant (h : Nat) (hart : Hart) (s : State) : s.keepsDormant (leaveReset h hart s) := by
  have hout : s.keepsDormant (s.modHart h Hart.outOfReset) := .modHart s h fun _ => rfl
  simp only [leaveReset]
  repeat' split
  · exact hout.trans (enterRequested_keepsDormant h true _ _)
  · exact hout.trans (enterOther_keepsDormant h 3 _ _)
  · exact hout

/-- A reset of a hart ends a command only where one is in progress on it. -/
theorem resetHart_keepsDormant (b c : Bool) (h : Nat) (s : State) : s.keepsDormant (resetHart b c h s) := by
  simp only [resetHart]
  split
  · exact .refl s
  · split
    next hc =>
      obtain ⟨hp, -⟩ := hc
      exact .of_busy hp (by simp)
    next => exact .modHart_bump s h _ fun hart => by simp [Hart.requests]

theorem applyResets_keepsDormant (k : Nat) (s : State) : s.keepsDormant (applyResets k s) := by
  induction k with
  | zero => exact .refl s
  | succ k ih =>
    refine ih.trans ?_
    rw [applyResets_succ, seeReset]
    repeat' split
    · exact .refl _
    · exact .modHart _ k fun hart => by simp [Hart.requests]
    · exact resetHart_keepsDormant _ _ k _
    · exact .refl _

/-! ### What a hart reaches of the DM (spec/60_exceptions.md R688, spec/40_dmi_dm_access.md R293) -/

theorem Hart.live_of_shadowCsr {hart : Hart} {s : State} {num k : Nat} (h : hart.shadowCsr s num = some k) :
    s.dmLive = true := by
  unfold Hart.shadowCsr at h
  split at h
  next hc =>
    simp only [Bool.and_eq_true] at hc
    tauto
  · cases h

theorem Hart.live_of_inDataWindow {hart : Hart} {s : State} {a n : Nat} (h : hart.inDataWindow s a n = true) :
    s.dmLive = true := by
  simp only [Hart.inDataWindow, Hart.reachesDm, Bool.and_eq_true] at h
  tauto

theorem live_of_inProgbufWindow {hart : Hart} {s : State} {a n : Nat} (h : inProgbufWindow s hart a n = true) :
    s.dmLive = true := by
  simp only [inProgbufWindow, Hart.reachesDm, Bool.and_eq_true] at h
  tauto

/-- A write of a CSR reaches the data registers only where the DM acts. -/
theorem writeCsr_keepsDormant (d : Bool) (h num : Nat) (v : XWord) (s : State) :
    s.keepsDormant (writeCsr d h num v s) := by
  unfold writeCsr
  split
  · exact .refl s
  · split
    next hk => exact .of_live (Hart.live_of_shadowCsr hk) rfl
    next => exact .modHart_bump s h 1 fun hart => by simp [Hart.requests]

theorem csrInsn_keepsDormant (num : Nat) (op : CsrOp) (h : Nat) (s : State) : s.keepsDormant (csrInsn num op h s) := by
  unfold csrInsn
  split
  · exact .refl s
  · split
    next =>
      refine .trans ?_ (.modHart _ h fun hart => by simp [Hart.requests])
      split
      · exact writeCsr_keepsDormant _ h num _ s
      · exact .refl s
    next => exact raise_keepsDormant h excIllegal s

/-- A store breaks reservations of harts and nothing else of them. -/
theorem breakOthers_keepsDormant (h a n : Nat) (s : State) : s.keepsDormant (breakOthers h a n s) := by
  refine .of_harts ⟨rfl, rfl, rfl⟩ fun hs hart hm => ?_
  obtain ⟨k, hk, rfl⟩ := List.mem_mapIdx.mp hm
  refine (Hart.unrequested_congr ?_).mpr (hs _ (List.getElem_mem hk))
  split <;> simp [Hart.requests]

/-- A store of a hart reaches the DM's registers only where the DM acts. -/
theorem hartStore_keepsDormant (h a : Nat) (bs : List Byte) (s : State) : s.keepsDormant (hartStore h a bs s) := by
  simp only [hartStore]
  repeat' split
  next => exact .refl s
  next hw => exact .of_live (Hart.live_of_inDataWindow hw) rfl
  next hw _ => exact .of_live (live_of_inProgbufWindow hw) rfl
  next => exact .refl s
  next =>
    refine .trans ?_ (breakOthers_keepsDormant h a _ _)
    exact .of_eq (by simp)
  next => exact .refl s

/-- fence.i touches the Program Buffer a hart executes only while a command executes it. -/
theorem syncFetchAll_keepsDormant (h : Nat) (s : State) : s.keepsDormant (syncFetchAll h s) := by
  simp only [syncFetchAll]
  split
  next hc =>
    obtain ⟨hp, -⟩ := hc
    exact .of_busy (by simp [hp]) rfl
  next => exact .of_eq ⟨rfl, rfl, rfl, rfl⟩

theorem Hart.finishEffect_requests (len : Nat) (e : Effect) (hart : Hart) :
    (hart.finishEffect len e).requests = hart.requests := by
  simp only [Hart.finishEffect]
  repeat' split
  all_goals simp [Hart.requests]

theorem applyEffect_keepsDormant (h len : Nat) (e : Effect) (s : State) :
    s.keepsDormant (applyEffect h len e s) := by
  have hstore : s.keepsDormant (effectStore h e s) := by
    unfold effectStore
    split
    · exact hartStore_keepsDormant h _ _ s
    · exact .refl s
  have hcsr (t : State) : t.keepsDormant (effectCsr h e t) := by
    unfold effectCsr
    repeat' split
    · exact writeCsr_keepsDormant _ h _ _ t
    · exact .refl t
    · exact .refl t
  have hregs (t : State) : t.keepsDormant (t.modHart h (Hart.finishEffect len e)) :=
    .modHart t h (Hart.finishEffect_requests len e)
  simp only [applyEffect]
  repeat' split
  · exact raise_keepsDormant h _ s
  · exact (hstore.trans (hcsr _)).trans ((syncFetchAll_keepsDormant h _).trans (hregs _))
  · exact (hstore.trans (hcsr _)).trans (hregs _)

/-! ### Hart instructions -/

theorem retireCur_keepsDormant (len : Nat) (s : State) : s.keepsDormant (retireCur len s) :=
  .modHart s s.cur fun hart => by simp [Hart.requests]

theorem undefinedInDebug_keepsDormant (s : State) : s.keepsDormant (undefinedInDebug s) := by
  unfold undefinedInDebug
  split
  · exact (State.keepsDormant.bump s 1).trans (raise_keepsDormant s.cur excIllegal _)
  · exact (State.keepsDormant.bump s 1).trans (retireCur_keepsDormant 4 _)

theorem breakAt_keepsDormant (hart : Hart) (s : State) : s.keepsDormant (breakAt hart s) := by
  have hcount : s.keepsDormant (s.modHart s.cur fun hart => hart.countUp true) :=
    .modHart s s.cur fun hart => by simp [Hart.requests]
  simp only [breakAt]
  repeat' split
  · exact (hcount.trans (.bump _ 1)).trans (endProgbuf_keepsDormant _ none _)
  · exact (State.keepsDormant.bump s 1).trans (endProgbuf_keepsDormant _ none _)
  · exact enterDebug_keepsDormant _ 1 _ s
  · exact hcount.trans (enterDebug_keepsDormant _ 1 _ _)
  · exact raise_keepsDormant _ excBreakpoint s

/-- Running a meaning on the executing hart keeps the DM dormant if the meaning does. -/
theorem onHart_keepsDormant {s t : State} {f : Hart → State} (he : onHart s f = .next t)
    (hf : ∀ hart, s.keepsDormant (f hart)) : s.keepsDormant t := by
  unfold onHart at he
  split at he
  next hart _ =>
    cases he
    exact hf hart
  · cases he

theorem execDret_keepsDormant {s t : State} (he : execDret s = .next t) : s.keepsDormant t := by
  refine onHart_keepsDormant he fun hart => ?_
  simp only
  repeat' split
  next hc =>
    obtain ⟨hp, -⟩ : s.dm.phase = .progbuf ∧ s.dm.cmdHart = s.cur := hc
    exact .of_busy (by simp [hp]) (by simp)
  next => exact leaveDebug_keepsDormant s.cur s
  next => exact raise_keepsDormant s.cur excIllegal s

/-! ### Abstract commands -/

theorem execAccessRegister_dmactive {size : BitVec 3} {postexec transfer write : Bool} {regno : BitVec 16}
    {r1 r2 : Bool} {s t : State} (he : execAccessRegister size postexec transfer write regno r1 r2 s = .next t) :
    t.dm.dmactive = s.dm.dmactive := by
  cases he
  simp only
  repeat' split
  all_goals simp

theorem execQuickAccess_dmactive {r : BitVec 24} {s t : State} (he : execQuickAccess r s = .next t) :
    t.dm.dmactive = s.dm.dmactive := by
  cases he
  simp only
  repeat' split
  all_goals simp

/-! ### Accesses to the DM registers (spec/40_dmi_dm_access.md R281 to R294) -/

/-- An access to a DM register has an effect only where the DM acts; it keeps the DM dormant if the register's own read and
write leave dmactive alone. -/
theorem dmAccess_keepsDormant {rd : State → State × Word} {wr : Word → State → State} (present : Bool) (a : DmAcc)
    (s : State) (hrd : ∀ s : State, (rd s).1.dm.dmactive = s.dm.dmactive)
    (hwr : ∀ v (s : State), (wr v s).dm.dmactive = s.dm.dmactive) : s.keepsDormant (dmAccess present a rd wr s) := by
  rcases dmAccess_cases present a rd wr s with ⟨v, k, e⟩ | ⟨k, e⟩ | ⟨_, hl, v, j, k, e⟩ | ⟨v, _, hl, j, e⟩ <;> rw [e]
  · exact .of_eq ⟨rfl, rfl, rfl, rfl⟩
  · exact .bump s k
  · exact .of_live hl (hrd (s.bump j))
  · exact .of_live hl (hwr v (s.bump j))

theorem dmReadOnly_keepsDormant (present : Bool) (a : DmAcc) (value : State → Word) (s : State) :
    s.keepsDormant (dmReadOnly present a value s) :=
  dmAccess_keepsDormant present a s (fun _ => rfl) fun _ _ => rfl

theorem dataAccess_keepsDormant (i : Nat) (a : DmAcc) (s : State) : s.keepsDormant (dataAccess i a s) :=
  dmAccess_keepsDormant _ a s (fun _ => bufferRead_dmactive i _ _) fun _ _ => bufferWrite_dmactive i rfl

theorem progbufAccess_keepsDormant (i : Nat) (a : DmAcc) (s : State) : s.keepsDormant (progbufAccess i a s) :=
  dmAccess_keepsDormant _ a s (fun _ => bufferRead_dmactive (16 + i) _ _) fun _ _ => bufferWrite_dmactive (16 + i) rfl

theorem readHartinfo_dmactive (s : State) : (readHartinfo s).1.dm.dmactive = s.dm.dmactive := by
  unfold readHartinfo
  split <;> rfl

theorem writeAbstractcs_dmactive (v : Word) (s : State) : (writeAbstractcs v s).dm.dmactive = s.dm.dmactive := by
  unfold writeAbstractcs
  split <;> simp

theorem writeCommand_dmactive (v : Word) (s : State) : (writeCommand v s).dm.dmactive = s.dm.dmactive := by
  unfold writeCommand
  repeat' split
  · simp
  · rfl
  · rfl

theorem writeAbstractauto_dmactive (v : Word) (s : State) : (writeAbstractauto v s).dm.dmactive = s.dm.dmactive := by
  unfold writeAbstractauto
  split <;> simp

theorem readSbaddress_dmactive (k : Nat) (s : State) : (readSbaddress k s).1.dm.dmactive = s.dm.dmactive := by
  unfold readSbaddress
  repeat' split
  all_goals rfl

theorem readSbdata_dmactive (k : Nat) (s : State) : (readSbdata k s).1.dm.dmactive = s.dm.dmactive := by
  unfold readSbdata
  split <;> rfl

theorem readSbdata0_dmactive (s : State) : (readSbdata0 s).1.dm.dmactive = s.dm.dmactive := by
  simp only [readSbdata0]
  repeat' split
  all_goals simp

/-- The authentication module takes no step while the DM is inactive. -/
theorem execAuthdata_keepsDormant {a : DmAcc} {s t : State} (he : execAuthdata a s = .next t) : s.keepsDormant t := by
  cases he
  cases hactive : s.dm.dmactive with
  | true =>
    refine .of_awake (fun hd => by simp [hd.not_dmactive] at hactive) ?_
    cases a with
    | read =>
      simp only
      repeat' split
      all_goals rfl
    | write v =>
      simp only
      repeat' split
      all_goals rfl
  | false =>
    refine .of_eq ?_
    cases a with
    | read =>
      simp only
      repeat' split
      all_goals simp_all
    | write v => simp

/-- A DM reset gives every register of the DM its reset value (spec/41_reset_select_run.md R312). -/
theorem resetDm_dormant (s : State) : (resetDm s).dormant := by
  refine ⟨by simp [resetDm], rfl, fun hart hm => ?_⟩
  obtain ⟨k, hk, rfl⟩ := List.mem_mapIdx.mp hm
  exact Hart.dmReset_unrequested _ _

/-- A write of dmcontrol resets the DM or leaves it active (spec/41_reset_select_run.md R311, R312). -/
theorem writeDmcontrol_inactiveOk (v : Word) (s : State) : (writeDmcontrol v s).inactiveOk := by
  have hactive {t : State} (ht : t.dm.dmactive = true) : t.inactiveOk := fun hd => by simp [hd] at ht
  simp only [writeDmcontrol]
  repeat' split
  · exact (State.inactiveOk_iff _).mpr fun _ => resetDm_dormant s
  · exact hactive rfl
  · exact hactive rfl
  · exact hactive ((applyResets_keepsDormant _ _).active rfl)

/-! ### Instructions -/

/-- An instruction other than a write of dmcontrol keeps the DM dormant, an abstract command because the command engine
has it in progress. -/
theorem exec_keepsDormant {i : Instr} {s t : State} (he : exec i s = .next t) (hi : ∀ v, i ≠ .dmcontrol (.write v))
    (hcmd : (encode i).1 = .command → s.dm.phase ≠ .idle) : s.keepsDormant t := by
  have hsame {u : State} (h : u.cfg = s.cfg ∧ u.dm = s.dm ∧ u.sb = s.sb ∧ u.harts = s.harts)
      (hu : exec i s = .next u) : s.keepsDormant t := by
    cases hu.symm.trans he
    exact .of_eq h
  cases i with
  | ebreak => exact onHart_keepsDormant he fun hart => breakAt_keepsDormant hart s
  | wfi => exact onHart_keepsDormant he fun _ => retireCur_keepsDormant 4 s
  | dret => exact execDret_keepsDormant he
  | cEbreak =>
    refine onHart_keepsDormant he fun hart => ?_
    split
    · exact breakAt_keepsDormant hart s
    · exact raise_keepsDormant _ _ s
  | cNop =>
    refine onHart_keepsDormant he fun hart => ?_
    split
    · exact retireCur_keepsDormant 2 s
    · exact raise_keepsDormant _ _ s
  | ecall | hret =>
    refine onHart_keepsDormant he fun hart => ?_
    split
    · exact undefinedInDebug_keepsDormant s
    · exact raise_keepsDormant _ _ s
  | mret =>
    refine onHart_keepsDormant he fun hart => ?_
    repeat' split
    · exact undefinedInDebug_keepsDormant s
    · exact .modHart_bump s _ 1 fun hart => by simp [Hart.requests]
    · exact raise_keepsDormant _ _ s
  | sret | uret =>
    refine onHart_keepsDormant he fun hart => ?_
    repeat' split
    · exact undefinedInDebug_keepsDormant s
    · exact .modHart s _ fun hart => by simp [Hart.requests]
    · exact raise_keepsDormant _ _ s
  | dcsr op | dpc op | dscratch0 op | dscratch1 op | tselect op | tdata1 op | tdata2 op | tdata3 op =>
    exact onHart_keepsDormant he fun _ => csrInsn_keepsDormant _ op _ s
  | accessRegister => exact .of_busy (hcmd rfl) (execAccessRegister_dmactive he)
  | quickAccess => exact .of_busy (hcmd rfl) (execQuickAccess_dmactive he)
  | commandReservedCmdtype => cases he; exact .of_busy (hcmd rfl) (by simp)
  | bypass00 | reservedBypass12 | reservedBypass13 | reservedBypass14 | reservedBypass15 | reservedBypass16
  | reservedBypass17 | bypass1f | dmiNop | dmiRead | dmiWrite | dmiOpReserved | dmiStatusOk | dmiStatusFailed
  | dmiStatusBusy | dtmcsDmireset | dtmcsDmihardreset => exact hsame (by simp) rfl
  | idcode op | dtmcs op | dmi op => cases op <;> exact hsame (by simp) rfl
  | data0 | data1 | data2 | data3 | data4 | data5 | data6 | data7 | data8 | data9 | data10 | data11 =>
    cases he
    exact dataAccess_keepsDormant _ _ s
  | progbuf0 | progbuf1 | progbuf2 | progbuf3 | progbuf4 | progbuf5 | progbuf6 | progbuf7 | progbuf8 | progbuf9
  | progbuf10 | progbuf11 | progbuf12 | progbuf13 | progbuf14 | progbuf15 =>
    cases he
    exact progbufAccess_keepsDormant _ _ s
  | devtreeaddr0 | devtreeaddr1 | devtreeaddr2 | devtreeaddr3 | nextdm | haltsum0 | haltsum1 | haltsum2 | haltsum3 =>
    cases he
    exact dmReadOnly_keepsDormant _ _ _ s
  | dmcontrol a =>
    cases a with
    | read => exact hsame (by simp) rfl
    | write v => exact absurd rfl (hi v)
  | dmstatus a =>
    cases a with
    | read => cases he; exact .of_eq (by split <;> simp)
    | write v => cases he; exact .refl s
  | authdata => exact execAuthdata_keepsDormant he
  | hartinfo => cases he; exact dmAccess_keepsDormant _ _ s readHartinfo_dmactive fun _ _ => rfl
  | hawindowsel | hawindow | sbcs => cases he; exact dmAccess_keepsDormant _ _ s (fun _ => rfl) fun _ _ => rfl
  | abstractcs => cases he; exact dmAccess_keepsDormant _ _ s (fun _ => rfl) writeAbstractcs_dmactive
  | command => cases he; exact dmAccess_keepsDormant _ _ s (fun _ => rfl) writeCommand_dmactive
  | abstractauto => cases he; exact dmAccess_keepsDormant _ _ s (fun _ => rfl) writeAbstractauto_dmactive
  | sbaddress0 | sbaddress1 | sbaddress2 | sbaddress3 =>
    cases he
    exact dmAccess_keepsDormant _ _ s (readSbaddress_dmactive _) (by simp)
  | sbdata0 => cases he; exact dmAccess_keepsDormant _ _ s readSbdata0_dmactive (by simp)
  | sbdata1 | sbdata2 | sbdata3 => cases he; exact dmAccess_keepsDormant _ _ s (readSbdata_dmactive _) (by simp)

/-- Every instruction keeps an inactive DM at its reset values, an abstract command while the command engine has it in
progress. -/
theorem exec_inactiveOk {i : Instr} {s t : State} (he : exec i s = .next t) (hs : s.inactiveOk)
    (hcmd : (encode i).1 = .command → s.dm.phase ≠ .idle) : t.inactiveOk := by
  by_cases hi : ∃ v, i = .dmcontrol (.write v)
  · obtain ⟨v, rfl⟩ := hi
    cases he
    exact writeDmcontrol_inactiveOk v s
  · exact (exec_keepsDormant he (fun v h => hi ⟨v, h⟩) hcmd).inactiveOk hs

/-! ### The encoding spaces moves take their instructions from -/

theorem csrRow_space {n : Nat} {row : CsrOp → Instr} (h : csrRow n = some row) (op : CsrOp) :
    (encode (row op)).1 = .hart := by
  unfold csrRow at h
  split at h <;> cases h <;> rfl

/-- A fetched word is a hart instruction. -/
theorem decodeHart_space {w : Nat} {i : Instr} (h : decodeHart w = .ok i) : (encode i).1 = .hart := by
  unfold decodeHart decodeHart32 decodeHart16 at h
  repeat' split at h
  case h_1 hrow => cases h; exact csrRow_space hrow _
  all_goals cases h
  all_goals rfl

/-- An IR value is a JTAG instruction. -/
theorem decodeIrCode_space {code : Nat} {op : IrOp} {i : Instr} (h : decodeIrCode code op = .ok i) :
    (encode i).1 = .ir := by
  have hrow {n width : Nat} {row : IrOp → Instr} (hn : irRow n = some (width, row)) : (encode (row op)).1 = .ir := by
    unfold irRow at hn
    split at hn <;> cases hn <;> rfl
  unfold decodeIrCode at h
  repeat' split at h
  · cases h
    exact hrow ‹_›
  · cases h
  · cases h

/-- A DMI access is an access to a DM register. -/
theorem decodeDmAt_space {haltsum1Addr offset : Nat} {a : DmAcc} {i : Instr}
    (h : decodeDmAt haltsum1Addr offset a = .ok i) : (encode i).1 = .dm := by
  have hrow {n : Nat} {row : DmAcc → Instr} (hn : dmRow n = some row) : (encode (row a)).1 = .dm := by
    unfold dmRow at hn
    split at hn <;> cases hn <;> rfl
  have hrowAt {row : DmAcc → Instr} (hn : dmRowAt haltsum1Addr offset = some row) : (encode (row a)).1 = .dm := by
    unfold dmRowAt at hn
    repeat' split at hn
    all_goals cases hn
    · exact hrow ‹_›
    · rfl
  unfold decodeDmAt at h
  split at h
  · cases h
    exact hrowAt ‹_›
  · cases h

theorem decodeDtmcsIn_space {w : Nat} {i : Instr} (h : decodeDtmcsIn w = .ok i) : (encode i).1 = .dtmcsIn := by
  unfold decodeDtmcsIn at h
  repeat' split at h
  all_goals cases h
  all_goals rfl

theorem decodeDmiIn_space (w : Nat) : (encode (decodeDmiIn w)).1 = .dmiIn := by
  unfold decodeDmiIn
  repeat' split
  all_goals rfl

theorem captureInsn_space (s : State) : (encode (captureInsn s)).1 = .dmiOut := by
  simp only [captureInsn]
  repeat' split
  all_goals rfl

/-! ### Moves -/

/-- From `s` the move keeps the DM dormant, up to the instruction it names, which is an abstract command only where one is
in progress. -/
def Move.keepsDormant (s : State) : Move → Prop
  | .quiet t => s.keepsDormant t
  | .run i t _ => s.keepsDormant t ∧ ((encode i).1 = .command → t.dm.phase ≠ .idle)

namespace Move.keepsDormant

theorem trans {s t : State} {m : Move} (hst : s.keepsDormant t) (hm : m.keepsDormant t) : m.keepsDormant s := by
  cases m with
  | quiet u => exact hst.trans hm
  | run i u a =>
    obtain ⟨hu, hcmd⟩ := hm
    exact ⟨hst.trans hu, hcmd⟩

/-- An instruction of another encoding space than the abstract commands'. -/
theorem of_space {s t : State} {i : Instr} {a : After} {space : Space} (h : s.keepsDormant t)
    (hi : (encode i).1 = space) (hne : space ≠ .command) : (Move.run i t a).keepsDormant s :=
  ⟨h, fun hcmd => absurd (hi.symm.trans hcmd) hne⟩

end Move.keepsDormant

theorem finish_keepsDormant (a : After) (s : State) : s.keepsDormant (finish a s) := by
  cases a with
  | none => exact .refl s
  | dtm w => exact .of_eq ⟨rfl, rfl, rfl, rfl⟩
  | hart h p f => exact finishHart_keepsDormant h p f s

theorem wordMove_keepsDormant (h w : Nat) (e : Effect) (s : State) (a : After) {fin : State → State}
    (hfin : ∀ u : State, u.keepsDormant (fin u)) : (wordMove h w e s a fin).keepsDormant s := by
  unfold wordMove
  repeat' split
  next hi => exact .of_space (.refl s) (decodeHart_space hi) nofun
  next => exact (csrInsn_keepsDormant _ _ h s).trans (hfin _)
  next => exact (applyEffect_keepsDormant h _ e s).trans (hfin _)

/-- A halted hart resumes only where it is requested to. -/
theorem debugMove_keepsDormant (h : Nat) {hart : Hart} {s : State} (hreq : s.dormant → hart.unrequested) :
    (debugMove h hart s).keepsDormant s := by
  simp only [debugMove]
  repeat' split
  next => exact (State.keepsDormant.bump s 8).trans (raise_keepsDormant h 1 _)
  next => exact .trans (.bump s 8) (wordMove_keepsDormant h _ _ _ _ .refl)
  next hr =>
    refine State.keepsDormant.of_awake (fun hd => ?_) (resumeHart_dmactive h s)
    obtain ⟨-, hresumereq, -⟩ := hreq hd
    simp [resumeEnabled, hresumereq] at hr
  next => exact State.keepsDormant.modHart s h fun hart => by simp [Hart.requests]

theorem runMove_keepsDormant (h : Nat) (hart : Hart) (s : State) : (runMove h hart s).keepsDormant s := by
  have hhit (ms : List Bool) : s.keepsDormant ((s.bump 8).modHart h fun hart => hart.setHits ms) :=
    (State.keepsDormant.bump s 8).trans (.modHart _ h fun hart => by simp [Hart.requests])
  have htrap (v : XWord) :
      s.keepsDormant ((s.bump 8).modHart h fun hart => hart.trap true (hart.interrupt.getD 0) v) :=
    (State.keepsDormant.bump s 8).trans (.modHart _ h fun hart => by simp [Hart.requests])
  simp only [runMove]
  repeat' split
  · exact (hhit _).trans (enterOther_keepsDormant h 2 _ _)
  · exact (State.keepsDormant.bump s 8).trans (enterRequested_keepsDormant h _ _ _)
  · exact (htrap _).trans (stepEnd_keepsDormant h _)
  · exact (hhit _).trans ((raise_keepsDormant h _ _).trans (finishHart_keepsDormant h _ _ _))
  · exact (hhit _).trans ((raise_keepsDormant h _ _).trans (finishHart_keepsDormant h _ _ _))
  · exact .trans (hhit _) (wordMove_keepsDormant h _ _ _ _ fun u => finishHart_keepsDormant h _ _ u)

theorem hartMove_keepsDormant (h : Nat) (s : State) : (hartMove h s).keepsDormant s := by
  have hcur : s.keepsDormant { s with cur := h } := .of_eq ⟨rfl, rfl, rfl, rfl⟩
  have htrapped : s.keepsDormant (({ s with cur := h } : State).modHart h fun hart => { hart with trapped := false }) :=
    hcur.trans (.modHart _ h fun _ => rfl)
  simp only [hartMove]
  repeat' split
  next => exact hcur
  next => exact hcur
  next => exact hcur
  next => exact hcur.trans (leaveReset_keepsDormant h _ _)
  next hart hh _ _ _ =>
    refine .trans htrapped (debugMove_keepsDormant h fun hd => ?_)
    exact hd.unrequested (k := h) (hart := { hart with trapped := false }) (by simp [hh])
  next => exact .trans htrapped (runMove_keepsDormant h _ _)

theorem missAccess_keepsDormant (inside : Bool) (acc : DmAcc) (s : State) :
    s.keepsDormant (missAccess inside acc s) := by
  refine .of_eq ?_
  unfold missAccess
  repeat' split
  all_goals simp

theorem dmiMove_keepsDormant (address : Word) (acc : DmAcc) (a : After) (s : State) :
    (dmiMove address acc a s).keepsDormant s := by
  have hmiss (inside : Bool) (t : State) : t.keepsDormant (finish a (missAccess inside acc t)) :=
    (missAccess_keepsDormant inside acc t).trans (finish_keepsDormant a _)
  unfold dmiMove
  repeat' split
  next hi => exact .of_space (.refl s) (decodeDmAt_space hi) nofun
  next => exact hmiss true s
  next => exact (State.keepsDormant.bump s 1).trans (hmiss true _)
  next => exact State.keepsDormant.of_eq ⟨rfl, rfl, rfl, rfl⟩
  next => exact (State.keepsDormant.bump s 1).trans (hmiss false _)

theorem dtmMove_keepsDormant (s : State) : (dtmMove s).keepsDormant s := by
  unfold dtmMove
  split
  · exact dmiMove_keepsDormant ..
  · exact State.keepsDormant.refl s

/-- The command engine runs the command that is in progress. -/
theorem engineMove_keepsDormant (s : State) : (engineMove s).keepsDormant s := by
  unfold engineMove
  split
  next hp => exact ⟨.refl s, fun _ => by simp [hp]⟩
  next => exact State.keepsDormant.refl s

/-- A dormant DM has no bus access to complete. -/
theorem busComplete_keepsDormant (s : State) : s.keepsDormant (busComplete s) := by
  cases hp : s.sb.pending with
  | none => simpa [busComplete, hp] using State.keepsDormant.refl s
  | some p => exact .of_awake (fun hd => by simp [hd.no_pending] at hp) (by simp)

/-- The authentication module of a dormant DM is not busy. -/
theorem authComplete_keepsDormant (s : State) : s.keepsDormant (authComplete s) := by
  unfold authComplete
  split
  next hb => exact .of_awake (fun hd => by simp [hd.not_authbusy] at hb) rfl
  next => exact .refl s

/-- The move of an event keeps the DM dormant. -/
theorem eventMove_keepsDormant (e : Event) (s : State) : (eventMove e s).keepsDormant s := by
  have hsame {t : State} (h : t.cfg = s.cfg ∧ t.dm = s.dm ∧ t.sb = s.sb ∧ t.harts = s.harts) :
      (Move.quiet t).keepsDormant s := State.keepsDormant.of_eq h
  have hhart (h : Nat) {f : Hart → Hart} (hf : ∀ hart, (f hart).requests = hart.requests) :
      (Move.quiet (s.modHart h f)).keepsDormant s := State.keepsDormant.modHart s h hf
  cases e with
  | tapReset => exact hsame (by simp)
  | scanIR v =>
    simp only [eventMove, scanIrMove]
    split
    next hi => exact .of_space (.refl s) (decodeIrCode_space hi) nofun
    next => exact hsame (by simp)
  | scanDR tdi =>
    simp only [eventMove, scanDrMove]
    split
    next hi => exact .of_space (.refl s) (decodeIrCode_space hi) nofun
    next => exact hsame (by simp)
  | captureDR =>
    simp only [eventMove, captureMove]
    split
    · exact .of_space (.refl s) (captureInsn_space s) nofun
    all_goals exact hsame (by simp)
  | updateDR tdi =>
    simp only [eventMove, updateMove]
    repeat' split
    next => exact .of_space (.refl s) (decodeDmiIn_space _) nofun
    next hi => exact .of_space (.refl s) (decodeDtmcsIn_space hi) nofun
    all_goals exact hsame ⟨rfl, rfl, rfl, rfl⟩
  | dmi address acc => exact dmiMove_keepsDormant ..
  | dtm => exact dtmMove_keepsDormant s
  | engine => exact engineMove_keepsDormant s
  | bus => exact busComplete_keepsDormant s
  | auth => exact authComplete_keepsDormant s
  | hart h => exact hartMove_keepsDormant h s
  | extReset b =>
    have hext : s.keepsDormant { s with extReset := b } := .of_eq ⟨rfl, rfl, rfl, rfl⟩
    exact hext.trans (applyResets_keepsDormant _ _)
  | hartReset h => exact resetHart_keepsDormant false true h s
  | avail h b => exact hhart h fun _ => rfl
  | setMip h v => exact hhart h fun _ => rfl
  | tick h n => exact hhart h fun hart => by simp [Hart.requests]
  | dropReservation h => exact hhart h fun hart => by split <;> rfl
  | runIdle | busToHart | hartToBus | syncFetch => exact hsame ⟨rfl, rfl, rfl, rfl⟩

theorem nextMove_keepsDormant (s : State) : (nextMove s).keepsDormant s := by
  unfold nextMove
  split
  · unfold idleMove
    repeat' split
    · exact dtmMove_keepsDormant s
    · exact engineMove_keepsDormant s
    · exact busComplete_keepsDormant s
    · exact authComplete_keepsDormant s
    · refine .trans ?_ (hartMove_keepsDormant _ _)
      exact .of_eq ⟨rfl, rfl, rfl, rfl⟩
  · refine .trans ?_ (eventMove_keepsDormant _ _)
    exact .of_eq ⟨rfl, rfl, rfl, rfl⟩

/-! ### Every step keeps an inactive DM at its reset values (O13) -/

/-- Settles O13, along the move of the step, the instruction it runs and what is left to do after it. -/
theorem stepKeepsInactiveDmReset : Obligations.StepKeepsInactiveDmReset := by
  intro s t hs h
  have hmove := nextMove_keepsDormant s
  obtain hq | ⟨i, u, a, v, hr, he, rfl⟩ := step_cases h
  · rw [hq] at hmove
    exact State.keepsDormant.inactiveOk hmove hs
  · rw [hr] at hmove
    obtain ⟨hu, hcmd⟩ := hmove
    exact (finish_keepsDormant a v).inactiveOk (exec_inactiveOk he (hu.inactiveOk hs) hcmd)

end Sys2Proof.Machine
end

section
/-! PROOF. The authentication module and the gates in front of the DM's registers (O44). Every register but dmcontrol,
dmstatus and authdata is accessed through `dmAccess`, which holds both gates; what an inactive DM answers is each register's
own read of a dormant DM. -/

namespace Sys2Proof.Machine

/-! ### The gates (spec/40_dmi_dm_access.md R291, R294) -/

/-- Every gated register is accessed through the gates. -/
theorem exec_gatedRow {row : DmAcc → Instr} (h : row ∈ gatedRows) (s : State) :
    ∃ present rd wr, ∀ a, exec (row a) s = .next (dmAccess present a rd wr s) := by
  obtain (hdata | hprogbuf) | hother := by simpa only [gatedRows, List.mem_append] using h
  · obtain ⟨i, hi, rfl⟩ := List.getElem_of_mem hdata
    exact ⟨_, _, _, fun a => exec_dataRow hi a s⟩
  · obtain ⟨i, hi, rfl⟩ := List.getElem_of_mem hprogbuf
    exact ⟨_, _, _, fun a => exec_progbufRow hi a s⟩
  · simp only [List.mem_cons, List.not_mem_nil, or_false] at hother
    rcases hother with rfl | rfl | rfl | rfl | rfl | rfl | rfl | rfl | rfl | rfl | rfl | rfl | rfl | rfl | rfl | rfl |
      rfl | rfl | rfl | rfl | rfl | rfl | rfl | rfl <;>
      exact ⟨_, _, _, fun _ => rfl⟩

section
variable {present : Bool} {rd : State → State × Word} {wr : Word → State → State} {s : State}

/-- Through a closed gate a write has no effect. -/
theorem dmAccess_write_gated (hw : s.inResetWindow = false) (hl : s.dmLive = false) (v : Word) :
    dmAccess present (.write v) rd wr s = s := by
  cases present <;> simp [dmAccess, hw, hl]

/-- Without authentication a read answers 0, or any value where the register is present and gating is not strict
(notes/assumptions/19.md). -/
theorem dmAccess_read_unauthenticated (hw : s.inResetWindow = false) (ha : s.dm.authenticated = false) :
    dmAccess present .read rd wr s = if present && !s.cfg.authGatingStrict then answerFree s else answer 0 s := by
  cases present <;> cases hstrict : s.cfg.authGatingStrict <;> simp [dmAccess, hw, ha, hstrict]

/-- While dmactive is 0 a read answers the register's value and has no side effect (R291). -/
theorem dmAccess_read_inactive (hw : s.inResetWindow = false) (ha : s.dm.authenticated = true)
    (hd : s.dm.dmactive = false) :
    dmAccess true .read rd wr s = answer (rd s).2 (s.bump ((rd s).1.free - s.free)) := by
  simp [dmAccess, hw, ha, hd]

/-- All a read through a closed gate can do: it leaves an answer and passes over free values (R291, R294). -/
theorem dmAccess_read_gated (hw : s.inResetWindow = false)
    (hg : s.dm.dmactive = false ∨ s.dm.authenticated = false) :
    ∃ v k, dmAccess present .read rd wr s = answer v (s.bump k) ∧
      (s.dm.authenticated = false → (v = 0 ∧ k = 0) ∨
        (s.cfg.authGatingStrict = false ∧ v = freeWord32 s.free ∧ k = 1)) := by
  cases ha : s.dm.authenticated with
  | false =>
    rw [dmAccess_read_unauthenticated hw ha]
    split
    next hc =>
      obtain ⟨-, hstrict⟩ : present = true ∧ s.cfg.authGatingStrict = false := by simpa using hc
      exact ⟨_, 1, rfl, fun _ => .inr ⟨hstrict, rfl, rfl⟩⟩
    next => exact ⟨0, 0, rfl, fun _ => .inl ⟨rfl, rfl⟩⟩
  | true =>
    have hd : s.dm.dmactive = false := hg.resolve_right (by simp [ha])
    cases present with
    | false => exact ⟨0, 0, rfl, nofun⟩
    | true => exact ⟨_, _, dmAccess_read_inactive hw ha hd, nofun⟩

/-- While dmactive is 0 a read without side effect answers what it reads, also of an absent register if that is 0. -/
theorem dmAccess_read_inactive_pure {v : Word} (hw : s.inResetWindow = false) (ha : s.dm.authenticated = true)
    (hd : s.dm.dmactive = false) (hrd : rd s = (s, v)) (hp : present = false → v = 0) :
    dmAccess present .read rd wr s = answer v s := by
  cases present with
  | false =>
    rw [hp rfl]
    rfl
  | true =>
    rw [dmAccess_read_inactive hw ha hd, hrd, Nat.sub_self]
    rfl

end

/-! ### Words made of fields -/

/-- Fields that lie side by side in a word. -/
theorem ofNat_add_eq_or (k : Nat) {x y : Nat} (hx : 2 ^ k ∣ x) (hy : y < 2 ^ k) :
    BitVec.ofNat 32 (x + y) = BitVec.ofNat 32 x ||| BitVec.ofNat 32 y := by
  rw [add_eq_or_of_dvd_of_lt k hx hy]
  apply BitVec.eq_of_toNat_eq
  simp

/-- A number in a field from bit `k` up. -/
theorem ofNat_mul_two_pow (x k : Nat) : BitVec.ofNat 32 (x * 2 ^ k) = BitVec.ofNat 32 x <<< k := by
  apply BitVec.eq_of_toNat_eq
  simp [Nat.shiftLeft_eq]

theorem bitAt_eq (b : Bool) (k : Nat) : bitAt b k = b.toNat * 2 ^ k := by
  cases b <;> simp [bitAt]

/-- A bit below the fields above it. -/
theorem ofNat_add_bitAt {x k : Nat} (hx : 2 ^ (k + 1) ∣ x) (b : Bool) :
    BitVec.ofNat 32 (x + bitAt b k) = BitVec.ofNat 32 x ||| wordBit b k := by
  have hb : b.toNat < 2 := b.toNat_lt
  have hlt : b.toNat * 2 ^ k < 2 ^ (k + 1) := by
    rw [Nat.pow_succ']
    exact Nat.mul_lt_mul_of_pos_right hb (Nat.two_pow_pos k)
  rw [bitAt_eq, ofNat_add_eq_or (k + 1) hx hlt, ofNat_mul_two_pow]
  cases b <;> rfl

/-! ### What a dormant DM answers (spec/10_state.md R110) -/

theorem packBits_eq_zero {f : Nat → Bool} (hf : ∀ i, f i = false) (n : Nat) : packBits n f = 0 := by
  induction n with
  | zero => rfl
  | succ n ih => simp [packBits, ih, hf]

namespace State.dormant

variable {s : State} (h : s.dormant)
include h

/-- A read of a data or progbuf register that is neither busy nor starts a command. -/
theorem bufferRead_eq (bit : Nat) (v : Word) : bufferRead bit v s = (s, v) := by
  simp [bufferRead, autoexecBit, Dm.busy, h.dm_eq, Dm.reset]

theorem readSbaddress_eq (k : Nat) : readSbaddress k s = (s, 0) := by
  simp [readSbaddress, h.sb_eq, Sb.reset, getSlice]

theorem readSbdata_eq (k : Nat) : readSbdata k s = (s, 0) := by
  simp [readSbdata, Sb.busy, h.sb_eq, Sb.reset, getSlice]

theorem readSbdata0_eq : readSbdata0 s = (s, 0) := by
  simp [readSbdata0, Sb.busy, Sb.errorsClear, h.sb_eq, Sb.reset, getSlice]

/-- No hart of a dormant DM is in the hart array mask. -/
theorem readHawindow_eq : readHawindow s = 0 := by
  unfold readHawindow
  rw [packBits_eq_zero fun i => ?_]
  · rfl
  · split
    next hart hh =>
      obtain ⟨-, -, -, -, hmask⟩ := h.unrequested hh
      simp [hmask]
    next => rfl

theorem readAbstractcs_eq (hd : s.cfg.datacount < 2 ^ 24) :
    readAbstractcs s = BitVec.ofNat 32 s.cfg.progbufsize <<< 24 ||| BitVec.ofNat 32 s.cfg.datacount := by
  rw [← ofNat_mul_two_pow, ← ofNat_add_eq_or 24 (Nat.dvd_mul_left ..) hd]
  simp [readAbstractcs, Dm.busy, h.dm_eq, Dm.reset, bitAt]

/-- sbcs of a dormant DM: version 1, sbaccess 2, and what the configuration supports (spec/10_state.md R90). -/
theorem readSbcs_eq (hs : s.cfg.sbasize < 128) :
    readSbcs s = 0x20040000 ||| BitVec.ofNat 32 s.cfg.sbasize <<< 5 ||| wordBit s.cfg.sbaccess128 4 |||
      wordBit s.cfg.sbaccess64 3 ||| wordBit s.cfg.sbaccess32 2 ||| wordBit s.cfg.sbaccess16 1 |||
      wordBit s.cfg.sbaccess8 0 := by
  have hfields : readSbcs s = BitVec.ofNat 32 (0x20040000 + s.cfg.sbasize * 2 ^ 5 + bitAt s.cfg.sbaccess128 4 +
      bitAt s.cfg.sbaccess64 3 + bitAt s.cfg.sbaccess32 2 + bitAt s.cfg.sbaccess16 1 + bitAt s.cfg.sbaccess8 0) := by
    simp [readSbcs, Sb.busy, h.sb_eq, Sb.reset, bitAt]
  rw [hfields, ofNat_add_bitAt, ofNat_add_bitAt, ofNat_add_bitAt, ofNat_add_bitAt, ofNat_add_bitAt,
    ofNat_add_eq_or 12 (by omega) (by omega), ofNat_mul_two_pow]
  · rfl
  all_goals
    simp only [bitAt_eq, Nat.reducePow]
    omega

theorem readHartinfo_eq {hart : Hart} (hh : s.harts[0]? = some hart) : readHartinfo s = (s, hartinfoOf hart.cfg) := by
  have hsel : s.hartsel = 0 := by simp [State.hartsel, h.dm_eq, Dm.reset]
  simp [readHartinfo, hsel, hh]

end State.dormant

/-! ### Reads of a dormant DM one by one -/

/-- A dormant DM with authentication passed, outside the reset window: of the gates only dmactive is closed. -/
def State.gatedDormant (s : State) : Prop := s.dormant ∧ s.dm.authenticated = true ∧ s.inResetWindow = false

/-- A dormant DM answers a read that has no side effect with the register's value. -/
theorem dmAccess_read_dormant {present : Bool} {rd : State → State × Word} {wr : Word → State → State} {s : State}
    {v : Word} (h : s.gatedDormant) (hrd : rd s = (s, v)) (hp : present = false → v = 0) :
    (.next (dmAccess present .read rd wr s) : Host.Outcome State Fault Refusal) = .next { s with dmiOut := v } := by
  obtain ⟨hd, ha, hw⟩ := h
  rw [dmAccess_read_inactive_pure hw ha hd.not_dmactive hrd hp]
  rfl

theorem dmReadOnly_read_dormant {value : State → Word} {s : State} (h : s.gatedDormant) :
    (.next (dmReadOnly true .read value s) : Host.Outcome State Fault Refusal) =
      .next { s with dmiOut := value s } :=
  dmAccess_read_dormant h rfl nofun

/-- The registers a dormant DM answers 0 for (spec/92_eei_decisions.md D6, D7). -/
theorem exec_read_zero {s : State} (h : s.gatedDormant) {row : DmAcc → Instr}
    (hrow : row ∈ dataRows ++ progbufRows ++ [Instr.command, .abstractauto, .hawindowsel, .hawindow, .sbaddress0,
      .sbaddress1, .sbaddress2, .sbaddress3, .sbdata0, .sbdata1, .sbdata2, .sbdata3]) :
    exec (row .read) s = .next { s with dmiOut := 0 } := by
  have ⟨hd, _, _⟩ := h
  obtain (hdata | hprogbuf) | hother := by simpa only [List.mem_append] using hrow
  · obtain ⟨i, hi, rfl⟩ := List.getElem_of_mem hdata
    rw [exec_dataRow hi]
    refine dmAccess_read_dormant h ?_ fun _ => rfl
    rw [hd.bufferRead_eq, hd.dm_eq]
    exact congrArg _ (vget_replicate 12 i 0)
  · obtain ⟨i, hi, rfl⟩ := List.getElem_of_mem hprogbuf
    rw [exec_progbufRow hi]
    refine dmAccess_read_dormant h ?_ fun _ => rfl
    rw [hd.bufferRead_eq, hd.dm_eq]
    exact congrArg _ (vget_replicate 16 i 0)
  · simp only [List.mem_cons, List.not_mem_nil, or_false] at hother
    rcases hother with rfl | rfl | rfl | rfl | rfl | rfl | rfl | rfl | rfl | rfl | rfl | rfl
    · exact dmAccess_read_dormant h rfl fun _ => rfl
    · exact dmAccess_read_dormant h (by rw [hd.dm_eq]; rfl) fun _ => rfl
    · exact dmAccess_read_dormant h (by rw [hd.dm_eq]; rfl) fun _ => rfl
    · exact dmAccess_read_dormant h (by rw [hd.readHawindow_eq]) fun _ => rfl
    · exact dmAccess_read_dormant h (hd.readSbaddress_eq 0) fun _ => rfl
    · exact dmAccess_read_dormant h (hd.readSbaddress_eq 1) fun _ => rfl
    · exact dmAccess_read_dormant h (hd.readSbaddress_eq 2) fun _ => rfl
    · exact dmAccess_read_dormant h (hd.readSbaddress_eq 3) fun _ => rfl
    · exact dmAccess_read_dormant h hd.readSbdata0_eq fun _ => rfl
    · exact dmAccess_read_dormant h (hd.readSbdata_eq 1) fun _ => rfl
    · exact dmAccess_read_dormant h (hd.readSbdata_eq 2) fun _ => rfl
    · exact dmAccess_read_dormant h (hd.readSbdata_eq 3) fun _ => rfl

/-- devtreeaddr<k> of a dormant DM is its slice of the configured address (spec/10_state.md R65). -/
theorem exec_devtreeaddr_read {s : State} (h : s.gatedDormant) {k : Nat} {row : DmAcc → Instr}
    (hrow : [Instr.devtreeaddr0, .devtreeaddr1, .devtreeaddr2, .devtreeaddr3][k]? = some row) :
    exec (row .read) s = .next { s with dmiOut := s.cfg.devtreeaddr.extractLsb' (32 * k) 32 } := by
  have hslice : exec (row .read) s =
      .next (dmReadOnly true .read (fun s => BitVec.ofNat 32 (s.cfg.devtreeaddr.toNat / 2 ^ (32 * k))) s) := by
    match k with
    | 0 | 1 | 2 | 3 => cases hrow; rfl
    | k + 4 => cases hrow
  rw [hslice, dmReadOnly_read_dormant h, ofNat_div_eq_extractLsb']

/-! ### dmcontrol, dmstatus and authdata -/

theorem inResetWindow_of_noReset {s : State} (hndm : s.dm.ndmreset = false) (hext : s.extReset = false) :
    s.inResetWindow = false := by
  simp [State.inResetWindow, hndm, hext]

/-- Without authentication a write of dmcontrol that does not reset the DM activates it and nothing else (R294). -/
theorem writeDmcontrol_unauthenticated {s : State} {v : Word} (ha : s.dm.authenticated = false)
    (hv : v.getLsbD 0 = true) : writeDmcontrol v s = { s with dm := { s.dm with dmactive := true } } := by
  simp [writeDmcontrol, ha, hv]

/-- Without authentication dmstatus shows authbusy and the version (R294). -/
theorem readDmstatus_unauthenticated {s : State} (ha : s.dm.authenticated = false) :
    readDmstatus s = wordBit s.dm.authbusy 6 ||| 2 := by
  simp only [readDmstatus, ha]
  cases s.dm.authbusy <;> rfl

/-- Outside the reset window dmstatus is readable whatever the gates are (R291, R294). -/
theorem execDmstatus_read {s : State} (hw : s.inResetWindow = false) :
    execDmstatus .read s = .next (answer (readDmstatus s) s) := by
  simp [execDmstatus, hw]

/-- On an active DM that is not busy an access to authdata is one step of the authentication module (R296). -/
theorem execAuthdata_ready {s : State} (hw : s.inResetWindow = false) (hauth : s.cfg.hasAuth = true)
    (hd : s.dm.dmactive = true) (hb : s.dm.authbusy = false) (v : Word) :
    execAuthdata .read s = .next (answer (readAuthdata s).2 (readAuthdata s).1) ∧
    execAuthdata (.write v) s = .next (writeAuthdata v s) := by
  simp [execAuthdata, hw, hauth, hd, hb]

/-- Without HAS_AUTH authdata reads 0 and ignores writes (spec/92_eei_decisions.md D7). -/
theorem execAuthdata_absent {s : State} (hw : s.inResetWindow = false) (hauth : s.cfg.hasAuth = false) (v : Word) :
    execAuthdata .read s = .next (answer 0 s) ∧ execAuthdata (.write v) s = .next s := by
  simp [execAuthdata, hw, hauth]

/-- The authentication module finishes in the step of its event. -/
theorem step_auth {s : State} {q : List Event} (hq : s.queue = .auth :: q) (hb : s.dm.authbusy = true) :
    step s = .next { s with
      queue := q
      dm := { s.dm with
        authbusy := false
        authenticated := s.dm.authenticated || Config.authPassed s.dm.auth } } := by
  rw [step_quiet s _ (nextMove_event s .auth q hq), authComplete, if_pos hb]

/-! ### Authentication and the gates (O44) -/

/-- Settles O44: authdata by what the authentication module does, the gates by the two ways they can be closed, and the
answers of an inactive DM by the reset values it holds. -/
theorem authenticationAndGates : Obligations.AuthenticationAndGates := by
  refine ⟨fun s v hndm hext => ?_, fun s v hndm hext => ?_⟩
  · have hw := inResetWindow_of_noReset hndm hext
    exact ⟨fun hauth hd hb => execAuthdata_ready hw hauth hd hb v, fun hauth => execAuthdata_absent hw hauth v,
      fun q => step_auth⟩
  · have hw := inResetWindow_of_noReset hndm hext
    refine ⟨fun hg row hrow => ?_, fun hd ha hok => ?_, fun ha hv => ?_, fun ha => ?_⟩
    · obtain ⟨present, rd, wr, hexec⟩ := exec_gatedRow hrow s
      have hl : s.dmLive = false := by
        rcases hg with hg | hg <;> simp [State.dmLive, hg]
      obtain ⟨answer, k, hread, hunauth⟩ := dmAccess_read_gated (present := present) (rd := rd) (wr := wr) hw hg
      exact ⟨by rw [hexec, dmAccess_write_gated hw hl], answer, k, by rw [hexec, hread]; rfl, hunauth⟩
    · have hdorm : s.dormant := hok hd
      have h : s.gatedDormant := ⟨hdorm, ha, hw⟩
      refine ⟨fun row => exec_read_zero h, fun _ hdata => ?_, fun hpos hsba => ?_, fun hart hinfo hh hn hsize => ?_,
        fun k row => exec_devtreeaddr_read h, dmReadOnly_read_dormant h⟩
      · exact dmAccess_read_dormant h (by rw [hdorm.readAbstractcs_eq (by omega)]) nofun
      · exact dmAccess_read_dormant h (by rw [hdorm.readSbcs_eq hsba]) fun hp => by simp [hpos] at hp
      · refine dmAccess_read_dormant h ?_ fun hp => by simp [hinfo] at hp
        rw [hdorm.readHartinfo_eq hh, hartinfoOf_eq hn hsize]
    · exact congrArg _ (writeDmcontrol_unauthenticated ha hv)
    · rw [← readDmstatus_unauthenticated ha]
      exact execDmstatus_read hw

end Sys2Proof.Machine
end

section
/-! PROOF. Selecting harts and reading what the DM says of them: dmcontrol (O35), dmstatus (O41), the halt summaries (O42)
and the hart array mask (O43). A register made of one-bit fields is read bit by bit; what a bit says of the selected harts
is stated once, over hart indexes. -/

namespace Sys2Proof.Machine

/-! ### Fields of a word -/

theorem ofNat_bitAt (b : Bool) (k : Nat) : BitVec.ofNat 32 (bitAt b k) = wordBit b k := by
  simpa using ofNat_add_bitAt (Nat.dvd_zero (2 ^ (k + 1))) b

/-- The bits of a Bool as bit `lo` of a word. -/
theorem wordBit_getLsbD (b : Bool) (lo i : Nat) :
    (wordBit b lo).getLsbD i = (decide (i < 32 ∧ i = lo) && b) := by
  by_cases h : i = lo
  · subst h
    simp [wordBit]
  · have hbit : lo ≤ i → (BitVec.ofBool b).getLsbD (i - lo) = false := fun hle =>
      BitVec.getLsbD_of_ge _ _ (by omega)
    by_cases hle : i < lo
    · simp [wordBit, h, hle]
    · simp [wordBit, h, hle, hbit (by omega)]

/-- A field as a slice of its register. -/
theorem ofNat_getField {w : Nat} (x : BitVec w) (lo n : Nat) :
    BitVec.ofNat 32 (getField x lo n) = (x.extractLsb' lo n).setWidth 32 := by
  apply BitVec.eq_of_toNat_eq
  simp [getField, Nat.shiftRight_eq_div_pow]

theorem getField_lt {w : Nat} (x : BitVec w) (lo n : Nat) : getField x lo n < 2 ^ n := Nat.mod_lt _ (Nat.two_pow_pos n)

/-- The bits of a field are bits of its register. -/
theorem getField_testBit {w : Nat} (x : BitVec w) (lo n i : Nat) :
    (getField x lo n).testBit i = (decide (i < n) && x.getLsbD (lo + i)) := by
  rw [getField, Nat.testBit_mod_two_pow, Nat.testBit_div_two_pow, Nat.add_comm, BitVec.getLsbD]

/-! ### dmcontrol (spec/41_reset_select_run.md R331) -/

/-- The fields of dmcontrol in their places. -/
theorem readDmcontrol_authenticated {s : State} (ha : s.dm.authenticated = true) :
    readDmcontrol s = wordBit s.dm.hartresetLatch 29 ||| wordBit s.dm.hasel 26 |||
      (s.dm.hartsel.extractLsb' 0 10).setWidth 32 <<< 16 ||| (s.dm.hartsel.extractLsb' 10 10).setWidth 32 <<< 6 |||
      wordBit s.dm.ndmreset 1 ||| wordBit s.dm.dmactive 0 := by
  have hlo := getField_lt s.dm.hartsel 0 10
  have hhi := getField_lt s.dm.hartsel 10 10
  simp only [readDmcontrol, ha, Bool.not_true, Bool.false_eq_true, if_false]
  rw [ofNat_add_bitAt, ofNat_add_bitAt, ofNat_add_eq_or 16, ofNat_mul_two_pow, ofNat_add_eq_or 26, ofNat_mul_two_pow,
    ofNat_add_bitAt, ofNat_bitAt, ofNat_getField, ofNat_getField]
  all_goals
    simp only [bitAt_eq, Nat.reducePow] at *
    omega

/-- Without authentication dmcontrol shows dmactive alone (R294). -/
theorem readDmcontrol_unauthenticated {s : State} (ha : s.dm.authenticated = false) :
    readDmcontrol s = wordBit s.dm.dmactive 0 := by
  simp only [readDmcontrol, ha, Bool.not_false, if_true, ofNat_bitAt]

/-- Settles O35: the two forms of the word read, side by side. -/
theorem dmcontrolRead : Obligations.DmcontrolRead := fun s =>
  ⟨fun ha => by rw [← readDmcontrol_authenticated ha]; rfl, fun ha => by rw [← readDmcontrol_unauthenticated ha]; rfl⟩

/-! ### The selected harts (spec/41_reset_select_run.md R316, R321) -/

/-- What makes an existing hart a selected one. -/
theorem State.isSelected_iff {s : State} {k : Nat} {hart : Hart} (hh : s.harts[k]? = some hart) :
    s.isSelected k hart = true ↔ s.selects k := by
  simp [State.isSelected, State.selects, State.hartsel, hh]

/-- A selected hart index that names no hart is hartsel: the hart array mask selects existing harts only. -/
theorem State.selects_of_none {s : State} {k : Nat} (hk : s.harts[k]? = none) :
    s.selects k ↔ k = s.dm.hartsel.toNat := by
  simp [State.selects, hk]

theorem State.mem_selectedHarts {s : State} {hart : Hart} :
    hart ∈ s.selectedHarts ↔ ∃ k, s.harts[k]? = some hart ∧ s.selects k := by
  simp only [State.selectedHarts, List.mem_filterMap, List.mem_mapIdx]
  constructor
  · rintro ⟨p, ⟨k, hk, rfl⟩, hp⟩
    obtain ⟨hsel, rfl⟩ : s.isSelected k s.harts[k] = true ∧ s.harts[k] = hart := by simpa using hp
    exact ⟨k, List.getElem?_eq_getElem hk, (State.isSelected_iff (List.getElem?_eq_getElem hk)).mp hsel⟩
  · rintro ⟨k, hk, hsel⟩
    obtain ⟨hlt, rfl⟩ := List.getElem?_eq_some_iff.mp hk
    exact ⟨_, ⟨k, hlt, rfl⟩, by simp [(State.isSelected_iff hk).mpr hsel]⟩

/-- The condition on hart index `h`: `f` where the hart exists, `e` where it does not. -/
theorem State.allSelected_iff (s : State) (e : Bool) (f : Hart → Bool) :
    s.allSelected e f = true ↔ ∀ h, s.selects h → s.harts[h]?.elim e f = true := by
  simp only [State.allSelected, Bool.and_eq_true, Bool.or_eq_true, decide_eq_true_eq, List.all_eq_true,
    State.mem_selectedHarts]
  constructor
  · rintro ⟨hall, hsel⟩ h hs
    cases hh : s.harts[h]? with
    | some hart => exact hall hart ⟨h, hh, hs⟩
    | none =>
      rw [State.selects_of_none hh] at hs
      subst hs
      exact hsel.resolve_left (Nat.not_lt.mpr (List.getElem?_eq_none_iff.mp hh))
  · refine fun hall => ⟨fun hart ⟨k, hk, hs⟩ => by simpa [hk] using hall k hs, ?_⟩
    by_cases hlt : s.hartsel < s.harts.length
    · exact .inl hlt
    · have hnone : s.harts[s.dm.hartsel.toNat]? = none := List.getElem?_eq_none (Nat.not_lt.mp hlt)
      have he := hall s.dm.hartsel.toNat (.inl rfl)
      rw [hnone] at he
      exact .inr he

/-- An existential statement about the selected hart indexes is no universal one about the opposite condition. -/
theorem State.anySelected_eq (s : State) (e : Bool) (f : Hart → Bool) :
    s.anySelected e f = !s.allSelected (!e) fun h => !f h := by
  simp [State.anySelected, State.allSelected, List.not_all_eq_any_not]

theorem State.anySelected_iff (s : State) (e : Bool) (f : Hart → Bool) :
    s.anySelected e f = true ↔ ∃ h, s.selects h ∧ s.harts[h]?.elim e f = true := by
  have hnot (o : Option Hart) : o.elim (!e) (fun h => !f h) = !o.elim e f := by cases o <;> rfl
  rw [State.anySelected_eq, Bool.not_eq_true', ← Bool.not_eq_true, State.allSelected_iff]
  simp [hnot]

/-! ### The status of a hart index (spec/41_reset_select_run.md R320) -/

/-- No existing hart has the status nonexistent. -/
theorem Hart.status_ne_nonexistent (c : Config) (hart : Hart) : hart.status c ≠ .nonexistent := by
  unfold Hart.status
  repeat' split
  all_goals nofun

/-- A hart index has one of the three statuses of a hart if the hart exists and has it. -/
theorem State.elim_hasStatus (s : State) (h : Nat) {st : HartStatus} (hst : st ≠ .nonexistent) :
    s.harts[h]?.elim false (Hart.hasStatus s.cfg st) = true ↔ s.status h = st := by
  unfold State.status
  cases s.harts[h]? with
  | none => simpa using hst.symm
  | some hart => simp [Hart.hasStatus]

/-- A hart index is nonexistent if it names no hart. -/
theorem State.elim_nonexistent (s : State) (h : Nat) :
    s.harts[h]?.elim true (fun _ => false) = true ↔ s.status h = .nonexistent := by
  unfold State.status
  cases s.harts[h]? with
  | none => simp
  | some hart => simpa using hart.status_ne_nonexistent s.cfg

theorem elim_false_iff (o : Option Hart) (f : Hart → Bool) :
    o.elim false f = true ↔ ∃ hart, o = some hart ∧ f hart = true := by
  cases o <;> simp

/-! ### dmstatus (spec/10_state.md R51) -/

/-- The fields of dmstatus in their places, from impebreak down to the version. -/
theorem readDmstatus_authenticated {s : State} (ha : s.dm.authenticated = true) :
    readDmstatus s = wordBit s.cfg.impebreak 22 |||
      wordBit (s.allSelected false fun h => h.ctl.havereset) 19 |||
      wordBit (s.anySelected false fun h => h.ctl.havereset) 18 |||
      wordBit (s.allSelected false fun h => h.ctl.resumeack) 17 |||
      wordBit (s.anySelected false fun h => h.ctl.resumeack) 16 |||
      wordBit (s.allSelected true fun _ => false) 15 ||| wordBit (s.anySelected true fun _ => false) 14 |||
      wordBit (s.allSelected false (Hart.hasStatus s.cfg .unavailable)) 13 |||
      wordBit (s.anySelected false (Hart.hasStatus s.cfg .unavailable)) 12 |||
      wordBit (s.allSelected false (Hart.hasStatus s.cfg .running)) 11 |||
      wordBit (s.anySelected false (Hart.hasStatus s.cfg .running)) 10 |||
      wordBit (s.allSelected false (Hart.hasStatus s.cfg .halted)) 9 |||
      wordBit (s.anySelected false (Hart.hasStatus s.cfg .halted)) 8 |||
      wordBit true 7 ||| wordBit s.dm.authbusy 6 ||| wordBit s.cfg.devtreevalid 4 ||| wordBit true 1 := by
  simp only [readDmstatus, ha, Bool.not_true, Bool.false_eq_true, if_false]
  change BitVec.ofNat 32 (_ + bitAt true 7 + bitAt s.dm.authbusy 6 + bitAt s.cfg.devtreevalid 4 + bitAt true 1) = _
  iterate 16 rw [ofNat_add_bitAt]
  · rw [ofNat_bitAt]
  all_goals
    simp only [bitAt_eq, Nat.reducePow]
    omega

/-- dmstatus is readable outside the reset window. -/
theorem exec_dmstatus_read {s : State} (hw : s.inResetWindow = false) :
    exec (.dmstatus .read) s = .next { s with dmiOut := readDmstatus s } := execDmstatus_read hw

/-- Settles O41: every bit of the word read is one field, and a field is a statement about the selected hart indexes. -/
theorem dmstatusRead : Obligations.DmstatusRead := by
  intro s ha hndm hext
  refine ⟨fun w => rfl, _, exec_dmstatus_read (inResetWindow_of_noReset hndm hext), ?_⟩
  rw [readDmstatus_authenticated ha]
  have hhalted (h : Nat) := s.elim_hasStatus h (st := .halted) nofun
  have hrunning (h : Nat) := s.elim_hasStatus h (st := .running) nofun
  have hunavailable (h : Nat) := s.elim_hasStatus h (st := .unavailable) nofun
  refine ⟨?_, ?_, ?_, ?_, ?_, ?_, ?_, ?_, ?_, ?_, ?_, ?_, ?_, ?_, ?_, ?_, ?_, ?_, ?_, ?_⟩
  case refine_17 | refine_19 | refine_20 =>
    refine BitVec.eq_of_getLsbD_eq fun i hi => ?_
    simp only [BitVec.getLsbD_extractLsb', BitVec.getLsbD_or, wordBit_getLsbD]
    interval_cases i <;> simp
  all_goals simp only [BitVec.getLsbD_or, wordBit_getLsbD]
  all_goals simp [State.allSelected_iff, State.anySelected_iff, hhalted, hrunning, hunavailable,
    State.elim_nonexistent, elim_false_iff]

/-! ### The halt summaries (spec/41_reset_select_run.md R336) -/

/-- Whether a hart index of a group is halted, the list's head having index `i`. -/
theorem anyHalted_iff (c : Config) (level group : Nat) (harts : List Hart) (i : Nat) :
    anyHalted c level group i harts = true ↔
      ∃ j hart, harts[j]? = some hart ∧ (i + j) / 2 ^ (5 * level) = group ∧ hart.status c = .halted := by
  induction harts generalizing i with
  | nil => simp [anyHalted]
  | cons x xs ih =>
    simp only [anyHalted, Bool.or_eq_true, Bool.and_eq_true, beq_iff_eq, ih]
    constructor
    · rintro (⟨hg, hs⟩ | ⟨j, hart, hj, hg, hs⟩)
      · exact ⟨0, x, rfl, hg, hs⟩
      · exact ⟨j + 1, hart, hj, by rwa [show i + (j + 1) = i + 1 + j by omega], hs⟩
    · rintro ⟨_ | j, hart, hj, hg, hs⟩
      · obtain rfl : x = hart := by simpa using hj
        exact .inl ⟨hg, hs⟩
      · exact .inr ⟨j, hart, hj, by rwa [show i + 1 + j = i + (j + 1) by omega], hs⟩

/-- A hart index is halted if it names a hart that is. -/
theorem State.status_eq_halted {s : State} {k : Nat} :
    s.status k = .halted ↔ ∃ hart, s.harts[k]? = some hart ∧ hart.status s.cfg = .halted := by
  unfold State.status
  cases s.harts[k]? <;> simp

/-- Bit `i` of a halt summary: some hart of group `i` of the window that hartsel selects is halted. -/
theorem haltsum_getLsbD (level : Nat) (s : State) {i : Nat} (hi : i < 32) :
    (haltsum level s).getLsbD i = true ↔ ∃ j, j < 2 ^ (5 * level) ∧
      s.status ((s.dm.hartsel.toNat / 2 ^ (5 * level + 5) * 32 + i) * 2 ^ (5 * level) + j) = .halted := by
  have hpos : 0 < 2 ^ (5 * level) := Nat.two_pow_pos _
  simp only [haltsum, BitVec.getLsbD_ofNat, packBits_testBit, hi, decide_true, Bool.true_and, anyHalted_iff, Nat.zero_add,
    State.hartsel]
  generalize s.dm.hartsel.toNat / 2 ^ (5 * level + 5) * 32 + i = group
  constructor
  · rintro ⟨k, hart, hk, rfl, hs⟩
    refine ⟨k % 2 ^ (5 * level), Nat.mod_lt _ hpos, State.status_eq_halted.mpr ⟨hart, ?_, hs⟩⟩
    rwa [Nat.div_add_mod']
  · rintro ⟨j, hj, hs⟩
    obtain ⟨hart, hk, hs⟩ := State.status_eq_halted.mp hs
    refine ⟨_, hart, hk, ?_, hs⟩
    rw [Nat.mul_comm, Nat.mul_add_div hpos, Nat.div_eq_of_lt hj, Nat.add_zero]

/-- A read of a present halt summary on a ready DM. -/
theorem haltsum_read {s : State} (hr : s.dmReady) {present : Bool} (hp : present = true) (level : Nat) :
    (.next (dmReadOnly present .read (haltsum level) s) : Host.Outcome State Fault Refusal) =
      .next { s with dmiOut := haltsum level s } := by
  rw [hp, dmReadOnly_read hr]

/-- Settles O42: every summary by its level, the top one's window being the only one there is. -/
theorem haltSummaries : Obligations.HaltSummaries := by
  intro s hr sel
  have htop : s.dm.hartsel.toNat / 2 ^ (5 * 3 + 5) = 0 := Nat.div_eq_of_lt s.dm.hartsel.isLt
  refine ⟨⟨_, haltsum_read hr rfl 0, fun i hi => ?_⟩, fun hp => ⟨_, haltsum_read hr hp 1, fun i hi => ?_⟩,
    fun hp => ⟨_, haltsum_read hr hp 2, fun i hi => ?_⟩, fun hp => ⟨_, haltsum_read hr hp 3, fun i hi => ?_⟩,
    fun row hrow w => ?_⟩
  · simpa using haltsum_getLsbD 0 s hi
  · exact haltsum_getLsbD 1 s hi
  · exact haltsum_getLsbD 2 s hi
  · have hbit := haltsum_getLsbD 3 s hi
    rwa [htop, Nat.zero_mul, Nat.zero_add] at hbit
  · simp only [List.mem_cons, List.not_mem_nil, or_false] at hrow
    rcases hrow with rfl | rfl | rfl | rfl <;> exact congrArg _ (dmAccess_write_ignored _ w _ hr.live.1)

/-! ### The hart array mask (spec/41_reset_select_run.md R317) -/

/-- hawindowsel stores the bits that reach 2^HARTSELLEN harts (spec/92_eei_decisions.md D6). -/
theorem writtenHawindowsel_getLsbD (c : Config) (v : Word) {i : Nat} (hi : i < 15) :
    (writtenHawindowsel c v).getLsbD i = (decide (i + 5 < c.hartsellen) && v.getLsbD i) := by
  simp only [writtenHawindowsel, BitVec.getLsbD_ofNat, Nat.testBit_mod_two_pow, getField_testBit, hi, decide_true,
    Bool.true_and, Nat.lt_sub_iff_add_lt, Nat.zero_add]

/-- Every existing hart has a mask bit where hartsel can reach every hart. -/
theorem State.maskable_of_getElem? {s : State} (hlen : s.harts.length ≤ 2 ^ s.cfg.hartsellen) {k : Nat} {hart : Hart}
    (hk : s.harts[k]? = some hart) : s.maskable k = true := by
  have := (List.getElem?_eq_some_iff.mp hk).1
  simp only [State.maskable, decide_eq_true_eq]
  omega

/-- A bit of hawindow is the mask bit of a hart of the window (spec/10_state.md R57). -/
theorem readHawindow_getLsbD {s : State} (hlen : s.harts.length ≤ 2 ^ s.cfg.hartsellen) {i : Nat} (hi : i < 32) :
    (readHawindow s).getLsbD i = true ↔
      ∃ hart, s.harts[s.dm.hawindowsel.toNat * 32 + i]? = some hart ∧ hart.ctl.mask = true := by
  simp only [readHawindow, BitVec.getLsbD_ofNat, packBits_testBit, hi, decide_true, Bool.true_and]
  cases hk : s.harts[s.dm.hawindowsel.toNat * 32 + i]? with
  | none => simp
  | some hart => simp [State.maskable_of_getElem? hlen hk]

/-- A write of hawindow gives each hart of the window its bit and leaves the other harts. -/
theorem writeHawindow_get {s : State} (hlen : s.harts.length ≤ 2 ^ s.cfg.hartsellen) (v : Word) {k : Nat} {hart : Hart}
    (hk : s.harts[k]? = some hart) :
    (writeHawindow v s).harts[k]? = some (if k / 32 = s.dm.hawindowsel.toNat then
      { hart with ctl := { hart.ctl with mask := v.getLsbD (k % 32) } } else hart) := by
  have hwindow : (s.dm.hawindowsel.toNat * 32 ≤ k ∧ k < s.dm.hawindowsel.toNat * 32 + 32 ∧ s.maskable k = true) ↔
      k / 32 = s.dm.hawindowsel.toNat := by
    simp only [State.maskable_of_getElem? hlen hk, and_true]
    omega
  simp only [writeHawindow, List.getElem?_mapIdx, hk, Option.map_some, hwindow]
  split
  next h => rw [← h, show k - k / 32 * 32 = k % 32 by omega]
  next => rfl

/-- Settles O43: the two registers of the window through the open gates of a ready DM. -/
theorem hartArrayMask : Obligations.HartArrayMask := by
  intro s v hr hasel hlen
  obtain ⟨hw, hl⟩ := hr.live
  have hread (rd : State → State × Word) (wr : Word → State → State) :
      dmAccess s.cfg.hasHasel .read rd wr s = answer (rd s).2 (rd s).1 := by rw [hasel, dmAccess_read rd wr s hw hl]
  have hwrite (rd : State → State × Word) (wr : Word → State → State) :
      dmAccess s.cfg.hasHasel (.write v) rd wr s = wr v s := by rw [hasel, dmAccess_write v rd wr s hw hl]
  refine ⟨congrArg Host.Outcome.next (hread ..),
    ⟨_, congrArg Host.Outcome.next (hwrite ..), rfl, fun i hi => writtenHawindowsel_getLsbD s.cfg v hi⟩,
    ⟨_, congrArg Host.Outcome.next (hread ..), fun i hi => readHawindow_getLsbD hlen hi⟩,
    ⟨_, congrArg Host.Outcome.next (hwrite ..), rfl, by simp [writeHawindow], fun k hart hk => ?_⟩⟩
  rw [writeHawindow_get hlen v hk]
  exact ⟨fun h => by rw [if_pos h], fun h => by rw [if_neg h]⟩

end Sys2Proof.Machine
end

section
/-! PROOF. Writing dmcontrol: the selection and the requests (O36), ndmreset (O37), hartreset (O38) and the reset of the DM
(O40). A write on an active DM is a change of the selection and of the request bits, followed by the reset signals; what the
signals make of each hart is said once, whether or not a command is in progress. -/

namespace Sys2Proof.Machine

/-! ### The selection and the requests (spec/41_reset_select_run.md R311) -/

/-- The machine after the fields of a dmcontrol write, before the harts see their reset signals. -/
def State.controlled (v : Word) (s : State) : State :=
  let sel := { s with dm := { s.dm with hasel := s.cfg.hasHasel && v.getLsbD 26, hartsel := writtenHartsel s.cfg v } }
  { s with
    harts := s.harts.mapIdx fun k hart => if sel.isSelected k hart then hart.applyControl s.cfg v else hart
    dm := { s.dm with
      hasel := s.cfg.hasHasel && v.getLsbD 26
      hartsel := writtenHartsel s.cfg v
      hartresetLatch := s.cfg.hasHartreset && v.getLsbD 29
      ndmreset := v.getLsbD 1 } }

/-- A write of dmcontrol that keeps an active DM active, authentication passed. -/
theorem exec_dmcontrol_write_active {s : State} {v : Word} (hd : s.dm.dmactive = true) (ha : s.dm.authenticated = true)
    (hv : v.getLsbD 0 = true) :
    exec (.dmcontrol (.write v)) s = .next (applyResets s.harts.length (s.controlled v)) := by
  have hsame : { s with dm := { s.dm with dmactive := true } } = s := by rw [← hd]
  have hlen : (s.controlled v).harts.length = s.harts.length := List.length_mapIdx
  calc exec (.dmcontrol (.write v)) s
      = .next (writeDmcontrolFields v { s with dm := { s.dm with dmactive := true } }) := by
        simp only [exec, execDmcontrol, writeDmcontrol]
        rw [if_neg (by simpa using hv), if_neg (by simpa using ha), if_neg (by simp [hd])]
    _ = .next (applyResets (s.controlled v).harts.length (s.controlled v)) := by
        rw [hsame]
        rfl
    _ = .next (applyResets s.harts.length (s.controlled v)) := by rw [hlen]

/-- The bits of hartsel in a written dmcontrol, HARTSELLEN of them implemented (R52, R314). -/
theorem writtenHartsel_getLsbD (c : Config) (v : Word) {i : Nat} (hi : i < 20) :
    (writtenHartsel c v).getLsbD i =
      (decide (i < c.hartsellen) && if i < 10 then v.getLsbD (16 + i) else v.getLsbD (i - 4)) := by
  have hlo : getField v 16 10 < 2 ^ 10 := getField_lt v 16 10
  rw [writtenHartsel, BitVec.getLsbD_ofNat, Nat.testBit_mod_two_pow, Nat.mul_comm, Nat.testBit_two_pow_mul_add _ hlo,
    getField_testBit, getField_testBit]
  by_cases h : i < 10
  · simp [hi, h]
  · simp [hi, h, show i - 10 < 10 by omega, show 6 + (i - 10) = i - 4 by omega]

/-- Whether a hart index is selected depends on hartsel, hasel and the mask bit of the hart. -/
theorem State.selects_congr {s t : State} {k : Nat} (hdm : t.dm.hartsel = s.dm.hartsel ∧ t.dm.hasel = s.dm.hasel)
    (hmask : t.harts[k]?.map (·.ctl.mask) = s.harts[k]?.map (·.ctl.mask)) : t.selects k ↔ s.selects k := by
  obtain ⟨hhartsel, hhasel⟩ := hdm
  simp only [State.selects, ← Option.map_eq_some_iff (f := fun hart : Hart => hart.ctl.mask), hhartsel, hhasel, hmask]

/-- A hart the write selects gets its requests, another one stays as it is. -/
theorem State.controlled_get {s : State} (v : Word) {k : Nat} {hart : Hart} (hk : s.harts[k]? = some hart) :
    ((s.controlled v).selects k → (s.controlled v).harts[k]? = some (hart.applyControl s.cfg v)) ∧
    (¬(s.controlled v).selects k → (s.controlled v).harts[k]? = some hart) := by
  let sel := { s with dm := { s.dm with hasel := s.cfg.hasHasel && v.getLsbD 26, hartsel := writtenHartsel s.cfg v } }
  have hget : (s.controlled v).harts[k]? =
      some (if sel.isSelected k hart then hart.applyControl s.cfg v else hart) := by
    simp only [State.controlled, List.getElem?_mapIdx, hk, Option.map_some, sel]
  have hsel : (s.controlled v).selects k ↔ sel.isSelected k hart = true := by
    rw [State.isSelected_iff (s := sel) hk]
    refine State.selects_congr ⟨rfl, rfl⟩ ?_
    rw [hget, show sel.harts[k]? = some hart from hk]
    split <;> rfl
  rw [hget]
  exact ⟨fun h => by rw [if_pos (hsel.mp h)], fun h => by rw [if_neg (mt hsel.mpr h)]⟩

/-- The write changes no mask bit. -/
theorem State.controlled_mask (s : State) (v : Word) (k : Nat) :
    (s.controlled v).harts[k]?.map (·.ctl.mask) = s.harts[k]?.map (·.ctl.mask) := by
  cases hk : s.harts[k]? with
  | none => simp [State.controlled, hk]
  | some hart =>
    obtain ⟨hselected, hother⟩ := State.controlled_get v hk
    by_cases hs : (s.controlled v).selects k
    · rw [hselected hs]
      rfl
    · rw [hother hs]

/-- The reset signal of a hart after the write: ndmreset as written, or another one that is high. -/
theorem State.controlled_resetLine (s : State) (v : Word) (hart : Hart) :
    (s.controlled v).resetLine hart = (v.getLsbD 1 || s.extReset || hart.ctl.hartreset) := rfl

theorem State.controlled_length (s : State) (v : Word) : (s.controlled v).harts.length = s.harts.length :=
  List.length_mapIdx

/-! ### A write that asserts no reset (O36) -/

/-- Settles O36: with every reset signal low, what the write leaves is the selection and the requests. -/
theorem dmcontrolWriteSelectsThenRequests : Obligations.DmcontrolWriteSelectsThenRequests := by
  intro s v hd ha hv hndm hext hno hreset
  have hlow : ∀ hart ∈ (s.controlled v).harts, (s.controlled v).resetLine hart = false := by
    intro hart hm
    obtain ⟨k, hk, rfl⟩ := List.mem_mapIdx.mp hm
    have hold : s.harts[k].ctl.hartreset = false := hreset _ (List.getElem_mem hk)
    have hnew (b : Bool) : (if b then s.harts[k].applyControl s.cfg v else s.harts[k]).ctl.hartreset = false := by
      cases b <;> simp [Hart.applyControl, hno, hold]
    rw [State.controlled_resetLine, hndm, hext]
    exact hnew _
  refine ⟨s.controlled v, by rw [exec_dmcontrol_write_active hd ha hv, applyResets_none _ hlow], ?_,
    fun i hi => writtenHartsel_getLsbD s.cfg v hi, s.controlled_length v, fun k hart hk => ?_⟩
  · rw [State.controlled, hno, hndm]
    rfl
  · obtain ⟨hselected, hother⟩ := State.controlled_get v hk
    refine ⟨fun hs => ?_, hother⟩
    rw [hselected hs, Hart.applyControl]
    simp [hno]

/-! ### What a reset ends (spec/70_reset_and_hazards.md R712, R718) -/

/-- From `s` to `t` nothing changes outside the harts, but for what the end of a command leaves: the command in progress,
cmderr and the data registers, and none of these if there was no command. -/
structure State.onlyResets (s t : State) : Prop where
  eq : t = { s with
    harts := t.harts
    free := t.free
    dm := { s.dm with phase := t.dm.phase, cmderr := t.dm.cmderr, data := t.dm.data, defined := t.dm.defined } }
  idle : s.dm.phase = .idle → t.dm = s.dm
  length : t.harts.length = s.harts.length

theorem State.onlyResets.refl (s : State) : s.onlyResets s := ⟨rfl, fun _ => rfl, rfl⟩

theorem State.onlyResets.trans {s t u : State} (hst : s.onlyResets t) (htu : t.onlyResets u) : s.onlyResets u where
  eq := by
    rw [htu.eq, hst.eq]
  idle h := (htu.idle (by rw [hst.idle h, h])).trans (hst.idle h)
  length := htu.length.trans hst.length

theorem State.onlyResets.modHart_bump (s : State) (h : Nat) (f : Hart → Hart) (k : Nat) :
    s.onlyResets ((s.modHart h f).bump k) := ⟨rfl, fun _ => rfl, s.modHart_length h f⟩

/-- The end of a command changes the command in progress, cmderr and the data registers. -/
theorem finishCommand_eq (err : Option (BitVec 3)) (s : State) :
    finishCommand err s = { s with
      free := s.free + 12
      dm := { s.dm with
        phase := .idle
        data := (finishCommand err s).dm.data
        cmderr := (finishCommand err s).dm.cmderr } } := by
  cases err with
  | none => rfl
  | some e =>
    simp only [finishCommand, setCmderr]
    split <;> rfl

/-- A reset of hart `h` changes that hart alone. -/
theorem resetHart_get (system clear : Bool) (h : Nat) (s : State) (k : Nat) :
    (resetHart system clear h s).harts[k]? =
      if h = k then s.harts[k]?.map (Hart.doReset (s.free + 1) system clear) else s.harts[k]? := by
  simp only [resetHart]
  split
  next hh =>
    split
    next hk => rw [← hk, hh]; rfl
    next => rfl
  next => split <;> simp

/-- A reset of a hart ends the command in progress on it (spec/93_implementation_defined.md U8). -/
theorem resetHart_onlyResets (system clear : Bool) (h : Nat) (s : State) :
    s.onlyResets (resetHart system clear h s) := by
  simp only [resetHart]
  split
  · exact .refl s
  next hart _ =>
    have hmod := State.onlyResets.modHart_bump s h (Hart.doReset (s.free + 1) system clear) (100 + hart.cfg.csrList.length)
    split
    next hbusy =>
      refine hmod.trans ⟨?_, fun hi => absurd hi hbusy.1, by simp⟩
      rw [finishCommand_eq]
    next => exact hmod

/-- Hart `k` seeing its reset signal changes that hart alone, and ends the command in progress on it. -/
theorem seeReset_onlyResets (k : Nat) (s : State) : s.onlyResets (seeReset k s) := by
  unfold seeReset
  repeat' split
  · exact .refl s
  · exact .modHart_bump s k Hart.stillInReset 0
  · exact resetHart_onlyResets ..
  · exact .refl s

/-- What a reset signal makes of a hart, a command in progress or not. -/
theorem seeReset_harts {k i : Nat} {s : State} {old : Hart} (ho : s.harts[i]? = some old) :
    ∃ new, (seeReset k s).harts[i]? = some new ∧ if i = k then s.resetSeen old new else new = old := by
  by_cases hik : i = k
  · subst hik
    simp only [seeReset, ho, State.resetSeen, if_true]
    split
    · split
      · exact ⟨_, by rw [State.modHart_get, if_pos rfl, ho]; rfl, rfl⟩
      · exact ⟨_, by rw [resetHart_get, if_pos rfl, ho]; rfl, _, rfl⟩
    · exact ⟨old, ho, rfl⟩
  · refine ⟨old, ?_, by rw [if_neg hik]⟩
    unfold seeReset
    repeat' split
    · exact ho
    · rw [State.modHart_get, if_neg (Ne.symm hik), ho]
    · rw [resetHart_get, if_neg (Ne.symm hik), ho]
    · exact ho

theorem applyResets_onlyResets (k : Nat) (s : State) : s.onlyResets (applyResets k s) := by
  induction k with
  | zero => exact .refl s
  | succ k ih => exact ih.trans (seeReset_onlyResets k _)

/-- What a hart makes of its reset signal depends on the signals alone. -/
theorem State.onlyResets.resetSeen_iff {s t : State} (h : s.onlyResets t) (old new : Hart) :
    t.resetSeen old new ↔ s.resetSeen old new := by
  rw [h.eq]
  rfl

/-- Harts 0 to `k` - 1 see their reset signals and the others stay, a command in progress or not. -/
theorem applyResets_harts (k : Nat) {s : State} {i : Nat} {old : Hart} (ho : s.harts[i]? = some old) :
    ∃ new, (applyResets k s).harts[i]? = some new ∧ if i < k then s.resetSeen old new else new = old := by
  induction k with
  | zero => exact ⟨old, ho, rfl⟩
  | succ k ih =>
    obtain ⟨mid, hm, hmid⟩ := ih
    obtain ⟨new, hn, hnew⟩ := seeReset_harts (k := k) hm
    rw [(applyResets_onlyResets k s).resetSeen_iff] at hnew
    refine ⟨new, hn, ?_⟩
    by_cases hik : i = k
    · subst hik
      rw [if_neg (Nat.lt_irrefl i)] at hmid
      simpa [hmid] using hnew
    · rw [if_neg hik] at hnew
      simpa [hnew, show i < k + 1 ↔ i < k by omega] using hmid

/-- Every hart sees its reset signal. -/
theorem applyResets_all {s : State} {n i : Nat} {old new : Hart} (hlen : s.harts.length = n) (ho : s.harts[i]? = some old)
    (hn : (applyResets n s).harts[i]? = some new) : s.resetSeen old new := by
  obtain ⟨new', hn', hseen⟩ := applyResets_harts n ho
  obtain rfl : new' = new := Option.some.inj (hn'.symm.trans hn)
  rwa [if_pos (hlen ▸ (List.getElem?_eq_some_iff.mp ho).1)] at hseen

/-- What being held in reset makes of a hart but for its control bits (R714, R718; R152: `clears` says whether a system
reset clears the triggers). -/
structure Hart.heldInReset (clears : Bool) (old new : Hart) : Prop where
  inReset : new.inReset = true
  already : old.inReset = true → new = { old with ctl := new.ctl, tselect := new.tselect, trigs := new.trigs }
  fresh : old.inReset = false → new.debugMode = false ∧ new.priv = .m ∧ new.dpc = 0 ∧ new.reservation = none ∧
    new.dcsr = Dcsr.reset old.cfg ∧ new.pc = BitVec.ofNat 128 old.cfg.resetPc
  cleared : new.ctl.hartreset = true ∨ (old.inReset = false ∧ clears = true) →
    new.tselect = 0 ∧ new.trigs = old.trigs.map fun t => Trigger.reset t.cfg
  kept : ¬(new.ctl.hartreset = true ∨ (old.inReset = false ∧ clears = true)) →
    new.tselect = old.tselect ∧ new.trigs = old.trigs

/-- The control bits a hart had before play no part. -/
theorem Hart.heldInReset.of_applyControl {clears : Bool} {c : Config} {v : Word} {old new : Hart}
    (h : (old.applyControl c v).heldInReset clears new) : old.heldInReset clears new :=
  ⟨h.inReset, h.already, h.fresh, h.cleared, h.kept⟩

/-- A hart that is in reset already keeps everything but its control bits and its triggers. -/
theorem Hart.stillInReset_heldInReset (hart : Hart) (hr : hart.inReset = true) (clears : Bool) :
    hart.heldInReset clears hart.stillInReset := by
  obtain ⟨hin, hctl⟩ := hart.stillInReset_writes
  obtain ⟨hclear, hkeep⟩ := hart.stillInReset_triggers
  refine ⟨hin.trans hr, fun _ => ?_, fun h => by simp [hr] at h, fun h => hclear (by simpa [hr] using h),
    fun h => hkeep (by simpa [hr] using h)⟩
  unfold Hart.stillInReset
  split <;> rfl

/-- A hart that was not in reset takes its reset values. -/
theorem Hart.doReset_heldInReset (hart : Hart) (hr : hart.inReset = false) (n : Nat) (system clears : Bool) :
    hart.heldInReset clears (Hart.doReset n system (hart.ctl.hartreset || clears) hart) := by
  obtain ⟨hin, hctl, hdebug, -, hdpc, hdcsr, hpc, hpriv⟩ := hart.doReset_writes n system (hart.ctl.hartreset || clears)
  obtain ⟨hclear, hkeep⟩ := hart.doReset_triggers n system (hart.ctl.hartreset || clears)
  exact ⟨hin, fun h => by simp [hr] at h, fun _ => ⟨hdebug, hpriv, hdpc, rfl, hdcsr, hpc⟩,
    fun h => hclear (by simpa [hr] using h), fun h => hkeep (by simpa [hr] using h)⟩

/-- A hart whose reset signal is asserted is held in reset, its havereset bit set. -/
theorem State.resetSeen.heldInReset {s : State} {old new : Hart} (hs : s.resetSeen old new)
    (hline : s.resetLine old = true) :
    new.ctl = { old.ctl with havereset := true } ∧ old.heldInReset s.cfg.ndmresetClearsTriggers new := by
  rw [State.resetSeen, if_pos hline] at hs
  cases hr : old.inReset with
  | true =>
    rw [if_pos hr] at hs
    subst hs
    exact ⟨by simp, old.stillInReset_heldInReset hr _⟩
  | false =>
    rw [if_neg (by simp [hr])] at hs
    obtain ⟨n, rfl⟩ := hs
    exact ⟨by simp, old.doReset_heldInReset hr n _ _⟩

/-- A hart whose reset signal is low stays as it is. -/
theorem State.resetSeen.eq {s : State} {old new : Hart} (hs : s.resetSeen old new) (hline : s.resetLine old = false) :
    new = old := by
  rwa [State.resetSeen, if_neg (by simp [hline])] at hs

/-- No reset signal changes a mask bit. -/
theorem State.resetSeen.mask {s : State} {old new : Hart} (hs : s.resetSeen old new) : new.ctl.mask = old.ctl.mask := by
  cases hline : s.resetLine old with
  | true => rw [(hs.heldInReset hline).1]
  | false => rw [hs.eq hline]

/-! ### A write that asserts a reset -/

/-- What a dmcontrol write leaves once the harts have seen their reset signals. -/
def State.afterDmcontrol (v : Word) (s : State) : State := applyResets s.harts.length (s.controlled v)

theorem State.afterDmcontrol_length (s : State) (v : Word) : (s.afterDmcontrol v).harts.length = s.harts.length :=
  (applyResets_onlyResets ..).length.trans (s.controlled_length v)

/-- What a dmcontrol write changes outside the harts: the selection and the reset bits it names, and the command in
progress on a hart that is reset. -/
theorem State.afterDmcontrol_eq (s : State) (v : Word) :
    s.afterDmcontrol v = { s with
      harts := (s.afterDmcontrol v).harts
      free := (s.afterDmcontrol v).free
      dm := { s.dm with
        hasel := s.cfg.hasHasel && v.getLsbD 26
        hartsel := writtenHartsel s.cfg v
        hartresetLatch := s.cfg.hasHartreset && v.getLsbD 29
        ndmreset := v.getLsbD 1
        phase := (s.afterDmcontrol v).dm.phase
        cmderr := (s.afterDmcontrol v).dm.cmderr
        data := (s.afterDmcontrol v).dm.data
        defined := (s.afterDmcontrol v).dm.defined } } :=
  (applyResets_onlyResets s.harts.length (s.controlled v)).eq

/-- With no command in progress there is none to end. -/
theorem State.afterDmcontrol_idle {s : State} (v : Word) (hi : s.dm.phase = .idle) :
    (s.afterDmcontrol v).dm.phase = .idle ∧ (s.afterDmcontrol v).dm.cmderr = s.dm.cmderr ∧
    (s.afterDmcontrol v).dm.data = s.dm.data ∧ (s.afterDmcontrol v).dm.defined = s.dm.defined := by
  rw [State.afterDmcontrol, (applyResets_onlyResets s.harts.length (s.controlled v)).idle hi]
  exact ⟨hi, rfl, rfl, rfl⟩

/-- The selection is the one the write makes: no reset changes it. -/
theorem State.afterDmcontrol_selects (s : State) (v : Word) (k : Nat) :
    (s.afterDmcontrol v).selects k ↔ (s.controlled v).selects k := by
  have honly := applyResets_onlyResets s.harts.length (s.controlled v)
  refine State.selects_congr ?_ ?_
  · rw [State.afterDmcontrol, honly.eq]
    exact ⟨rfl, rfl⟩
  · cases hk : (s.controlled v).harts[k]? with
    | none =>
      have hle : (s.afterDmcontrol v).harts.length ≤ k := by
        rw [s.afterDmcontrol_length v, ← s.controlled_length v]
        exact List.getElem?_eq_none_iff.mp hk
      rw [List.getElem?_eq_none hle]
    | some old =>
      obtain ⟨new, hn, -⟩ := applyResets_harts s.harts.length hk
      have hseen := applyResets_all (s.controlled_length v) hk hn
      rw [State.afterDmcontrol, hn]
      exact congrArg some hseen.mask

/-- Each hart sees its reset signal as the write leaves it: after its requests if the write selects it. -/
theorem State.afterDmcontrol_get {s : State} {v : Word} {k : Nat} {old new : Hart} (ho : s.harts[k]? = some old)
    (hn : (s.afterDmcontrol v).harts[k]? = some new) :
    ((s.afterDmcontrol v).selects k → (s.controlled v).resetSeen (old.applyControl s.cfg v) new) ∧
    (¬(s.afterDmcontrol v).selects k → (s.controlled v).resetSeen old new) := by
  obtain ⟨hselected, hother⟩ := State.controlled_get v ho
  rw [s.afterDmcontrol_selects v]
  exact ⟨fun hs => applyResets_all (s.controlled_length v) (hselected hs) hn,
    fun hs => applyResets_all (s.controlled_length v) (hother hs) hn⟩

/-- Settles O37: every hart's signal is high, so every hart is held in reset, with its requests where it is selected. -/
theorem ndmreset : Obligations.Ndmreset := by
  intro s v hd ha hv hndm
  have heq := s.afterDmcontrol_eq v
  have hline (hart : Hart) : (s.controlled v).resetLine hart = true := by
    rw [State.controlled_resetLine, hndm]
    rfl
  have hhartsel : (s.afterDmcontrol v).dm.hartsel = writtenHartsel s.cfg v := by rw [heq]
  have hwindow : (s.afterDmcontrol v).dm.ndmreset = true := by rw [heq]; exact hndm
  refine ⟨s.afterDmcontrol v, exec_dmcontrol_write_active hd ha hv, ?_, ?_, ?_, fun i hi => ?_,
    State.afterDmcontrol_idle v, s.afterDmcontrol_length v, fun k old new ho hn => ?_⟩
  · rw [State.inResetWindow, hwindow, Bool.true_or]
  · rw [heq]
  · rw [heq]
    simp only [hndm]
  · rw [hhartsel, writtenHartsel_getLsbD s.cfg v hi]
  · obtain ⟨hselected, hother⟩ := State.afterDmcontrol_get ho hn
    have hctl : ((s.afterDmcontrol v).selects k → new.ctl = { (old.applyControl s.cfg v).ctl with havereset := true }) ∧
        (¬(s.afterDmcontrol v).selects k → new.ctl = { old.ctl with havereset := true }) :=
      ⟨fun hs => ((hselected hs).heldInReset (hline _)).1, fun hs => ((hother hs).heldInReset (hline _)).1⟩
    have hheld : old.heldInReset s.cfg.ndmresetClearsTriggers new := by
      by_cases hs : (s.afterDmcontrol v).selects k
      · exact ((hselected hs).heldInReset (hline _)).2.of_applyControl
      · exact ((hother hs).heldInReset (hline _)).2
    have hcfg : (s.afterDmcontrol v).cfg = s.cfg := by rw [heq]
    refine ⟨hheld.inReset, hctl.1, hctl.2, fun hu => ?_, hheld.already, hheld.fresh, hheld.cleared, hheld.kept⟩
    simp [Hart.status, hheld.inReset, hcfg, hu]

/-- Settles O38: a hart's signal is its own reset bit, which the write gives the harts it selects. -/
theorem hartReset : Obligations.HartReset := by
  intro s v hd ha hv hndm hext himpl resets
  have heq := s.afterDmcontrol_eq v
  rw [himpl, hndm, Bool.true_and] at heq
  have hline (hart : Hart) : (s.controlled v).resetLine hart = hart.ctl.hartreset := by
    rw [State.controlled_resetLine, hndm, hext]
    rfl
  have hresets {old new : Hart} (h : old.heldInReset s.cfg.ndmresetClearsTriggers new)
      (hbit : new.ctl.hartreset = true) : resets old new := by
    obtain ⟨htselect, htrigs⟩ := h.cleared (.inl hbit)
    exact ⟨h.inReset, htselect, htrigs, h.fresh⟩
  refine ⟨s.afterDmcontrol v, exec_dmcontrol_write_active hd ha hv, ?_, State.afterDmcontrol_idle v,
    s.afterDmcontrol_length v, fun k old new ho hn => ?_⟩
  · rw [heq]
  · obtain ⟨hselected, hother⟩ := State.afterDmcontrol_get ho hn
    have hbit : (old.applyControl s.cfg v).ctl.hartreset = v.getLsbD 29 := by simp [Hart.applyControl, himpl]
    refine ⟨fun hs h29 => ?_, fun hs h29 => ?_, fun hs hown => ?_, fun hs hown => ?_⟩
    · obtain ⟨hctl, hheld⟩ := (hselected hs).heldInReset (by rw [hline, hbit, h29])
      refine ⟨hresets hheld.of_applyControl (by rw [hctl, ← h29, ← hbit]), ?_⟩
      rw [hctl, Hart.applyControl, himpl, h29]
      rfl
    · rw [(hselected hs).eq (by rw [hline, hbit, h29]), Hart.applyControl, himpl, h29]
      rfl
    · obtain ⟨hctl, hheld⟩ := (hother hs).heldInReset (by rw [hline, hown])
      exact ⟨hresets hheld (by rw [hctl, ← hown]), hctl⟩
    · exact (hother hs).eq (by rw [hline, hown])

end Sys2Proof.Machine
end

section
/-! PROOF. The reset of the DM by a write of dmcontrol with dmactive 0, and the write that activates it (O40). What a reset
of the DM can do to a hart is what an abandoned command may have written, and the bits the DM holds for it. -/

namespace Sys2Proof.Machine

/-! ### What an abandoned command leaves of a hart (spec/93_implementation_defined.md U8) -/

/-- What no command writes: the bits the DM holds for a hart, whether it is in Debug Mode, whether it is in reset. -/
def Hart.standing (hart : Hart) : Ctl × Bool × Bool := (hart.ctl, hart.debugMode, hart.inReset)

/-- What no command writes, of every hart. -/
def State.standing (s : State) : List (Ctl × Bool × Bool) := s.harts.map Hart.standing

theorem State.standing_bump (s : State) (k : Nat) : (s.bump k).standing = s.standing := rfl

theorem State.standing_modHart (s : State) (h : Nat) {f : Hart → Hart} (hf : ∀ hart, (f hart).standing = hart.standing) :
    (s.modHart h f).standing = s.standing := by
  refine List.ext_getElem? fun k => ?_
  simp only [State.standing, List.getElem?_map, State.modHart_get]
  split
  · cases s.harts[k]? <;> simp [hf]
  · rfl

theorem writeCsr_standing (dbg : Bool) (h num : Nat) (v : XWord) (s : State) :
    (writeCsr dbg h num v s).standing = s.standing := by
  unfold writeCsr
  repeat' split
  · rfl
  · rfl
  · exact s.standing_modHart h fun hart => by simp [Hart.standing]

theorem writeReg_standing (h : Nat) (ref : RegRef) (v : XWord) (s : State) :
    (writeReg h ref v s).standing = s.standing := by
  unfold writeReg
  repeat' split
  · rfl
  · rfl
  · exact s.standing_modHart h fun _ => rfl
  · exact writeCsr_standing true h _ v s
  · exact s.standing_modHart h fun hart => by simp [Hart.standing]
  · exact s.standing_modHart h fun hart => by simp [Hart.standing]
  · rfl
  · rfl

theorem scrambleForCommand_standing (h : Nat) (s : State) : (scrambleForCommand h s).standing = s.standing :=
  s.standing_modHart h fun _ => rfl

theorem Hart.clobberDpc_standing (n : Nat) (hart : Hart) : (hart.clobberDpc n).standing = hart.standing := by
  rw [(hart.clobberDpc_frame n).1]
  rfl

/-- A command abandoned before it ran may have written what it would have written, and nothing that a hart stands by. -/
theorem abandonCommand_standing (s : State) : (abandonCommand s).standing = s.standing := by
  have hstart : (scrambleForCommand s.dm.cmdHart (s.bump 4)).standing = s.standing := scrambleForCommand_standing ..
  simp only [abandonCommand]
  repeat' split
  all_goals simp [hstart, writeReg_standing, State.standing_modHart, Hart.clobberDpc_standing]

/-! ### The harts after a reset of the DM (spec/70_reset_and_hazards.md R711) -/

/-- The machine when a reset of the DM has abandoned the bus access and the command in progress. -/
def State.abandoned (s : State) : State := abandonCommand (abandonBus s)

/-- A hart after a reset of the DM: what the abandoned command left of it, and the bits the DM holds reset. -/
theorem resetDm_get {s : State} {k : Nat} {new : Hart} (hn : (resetDm s).harts[k]? = some new) :
    ∃ mid n, s.abandoned.harts[k]? = some mid ∧ new = mid.dmReset n := by
  obtain ⟨mid, hm, rfl⟩ : ∃ mid, s.abandoned.harts[k]? = some mid ∧ mid.dmReset (s.abandoned.free + 2 * k) = new := by
    simpa [resetDm, State.abandoned] using hn
  exact ⟨mid, _, hm, rfl⟩

theorem State.abandoned_standing (s : State) : s.abandoned.standing = s.standing := by
  have hbus : (abandonBus s).standing = s.standing := by simp [State.standing]
  rw [State.abandoned, abandonCommand_standing, hbus]

/-- With no command that is still to run and no bus access in progress there is nothing to abandon. -/
theorem State.abandoned_quiet {s : State} (hp : s.dm.phase ≠ .started) (hb : s.sb.pending = none) : s.abandoned = s := by
  simp [State.abandoned, abandonBus, hb, abandonCommand, hp]

/-- What a reset of the DM makes of every hart: the bits the DM holds for it are at their reset values, havereset
cleared or not, and its mode and its reset stay. -/
theorem resetDm_standing {s : State} {k : Nat} {old new : Hart} (ho : s.harts[k]? = some old)
    (hn : (resetDm s).harts[k]? = some new) :
    new.ctl.haltreq = false ∧ new.ctl.resumereq = false ∧ new.ctl.hartreset = false ∧ new.ctl.resumeack = false ∧
      new.ctl.mask = false ∧ new.debugMode = old.debugMode ∧ new.inReset = old.inReset ∧
      (new.ctl.havereset = true → old.ctl.havereset = true) := by
  obtain ⟨mid, n, hm, rfl⟩ := resetDm_get hn
  have hstanding : mid.standing = old.standing := by
    have h := congrArg (·[k]?) s.abandoned_standing
    simpa [State.standing, hm, ho] using h
  obtain ⟨hctl, hdebug, hreset⟩ : mid.ctl = old.ctl ∧ mid.debugMode = old.debugMode ∧ mid.inReset = old.inReset := by
    simpa [Hart.standing] using hstanding
  refine ⟨rfl, rfl, rfl, rfl, rfl, by simp [hdebug], by simp [hreset], fun h => ?_⟩
  obtain ⟨hhavereset, -⟩ : mid.ctl.havereset = true ∧ Config.freeBit n = true := by simpa [Hart.dmReset] using h
  rwa [← hctl]

/-- Settles O40: a reset of the DM by what it abandons, and the activating write by its only effect. -/
theorem dmReset : Obligations.DmReset := by
  refine fun s v => ⟨fun hv => ?_, fun hv hd hnone => ?_⟩
  · have hexec : exec (.dmcontrol (.write v)) s = .next (resetDm s) := by
      simp only [exec, execDmcontrol, writeDmcontrol, hv, Bool.not_false, if_true]
    have hlen : (resetDm s).harts.length = s.harts.length := (hartRel_fixedPart.evolves_resetDm s).1
    refine ⟨_, hexec, by simp [resetDm], rfl, by simp [resetDm], by simp [resetDm], by simp [resetDm], hlen,
      fun k old new => resetDm_standing, fun hp hb => ⟨fun a => ?_, fun k old new ho hn => ?_⟩⟩
    · have hquiet : s.abandoned.memories = s.memories := by rw [s.abandoned_quiet hp hb]
      have hmem : (resetDm s).memories = s.memories := hquiet
      obtain ⟨hmem, hhmem, himem⟩ := State.memories_eq_iff.mp hmem
      rw [hmem, hhmem, himem]
      exact ⟨rfl, rfl, rfl⟩
    · obtain ⟨mid, n, hm, rfl⟩ := resetDm_get hn
      rw [State.abandoned_quiet hp hb, ho] at hm
      cases hm
      obtain ⟨heq, hdpc⟩ := old.dmReset_eq n
      exact ⟨heq, hdpc⟩
  · have hactivate : writeDmcontrol v s = { s with dm := { s.dm with dmactive := true } } := by
      simp only [writeDmcontrol]
      rw [if_neg (by simpa using hv), if_pos (c := (!s.dm.dmactive && _) = true) (by simp [hd, hnone]), ite_self]
    exact congrArg _ hactivate

end Sys2Proof.Machine
end

section
/-! PROOF. The resume of a halted hart (O17): its next move is the resume transition where that is enabled, and else counts
a cycle. -/

namespace Sys2Proof.Machine

/-! ### The address and the privilege a hart resumes with (spec/44_debug_mode.md R490) -/

/-- A pc holds every address that is a multiple of 4 and has XLEN bits. -/
theorem Hart.pcBits_aligned {hart : Hart} {v : XWord} (h4 : v.toNat % 4 = 0) (hlt : v.toNat < 2 ^ hart.cfg.xlen) :
    hart.pcBits v = v := by
  have htrunc : (hart.trunc v).toNat = v.toNat := by simp [Hart.trunc, Nat.mod_eq_of_lt hlt]
  have hround : v.toNat / (if hart.cfg.hasC then 2 else 4) * (if hart.cfg.hasC then 2 else 4) = v.toNat := by
    split <;> omega
  rw [Hart.pcBits, htrunc, hround, BitVec.ofNat_toNat, BitVec.setWidth_eq]

/-- The code of a level the hart supports stands for that level (R503). -/
theorem Hart.legalPriv_supported {hart : Hart} {code : BitVec 2} {p : Priv} (hc : privOfCode code = some p)
    (hp : p ∈ hart.cfg.privs) (n : Nat) : hart.legalPriv n code = p := by
  simp [Hart.legalPriv, hc, hp]

/-! ### The next move of a halted hart (spec/41_reset_select_run.md R325) -/

/-- The machine when hart `h` begins its move out of reset: it is the executing hart, and has taken no trap. -/
def State.moving (s : State) (h : Nat) : State :=
  ({ s with cur := h } : State).modHart h fun hart => { hart with trapped := false }

theorem State.moving_onlyHart (s : State) (h : Nat) : { s with cur := h }.onlyHart h (s.moving h) :=
  State.onlyHart_modHart { s with cur := h } h _ 0

theorem State.moving_get {s : State} {h : Nat} {hart : Hart} (hh : s.harts[h]? = some hart) :
    (s.moving h).harts[h]? = some { hart with trapped := false } := by
  rw [State.moving, State.modHart_get, if_pos rfl]
  exact congrArg (Option.map _) hh

/-- A hart halted outside the Program Buffer resumes where the resume transition is enabled, and else spends a cycle. -/
theorem hartMove_halted {s : State} {h : Nat} {hart : Hart} (hh : s.harts[h]? = some hart) (ha : hart.avail = true)
    (hr : hart.inReset = false) (hd : hart.debugMode = true) (hp : hart.inProgbuf = false) :
    hartMove h s = .quiet (if resumeEnabled s h hart then resumeHart h (s.moving h)
      else (s.moving h).modHart h fun hart => hart.countUp false) := by
  have hmove : hartMove h s = debugMove h hart (s.moving h) := by simp [hartMove, hh, ha, hr, hd, State.moving]
  have henabled : resumeEnabled (s.moving h) h hart = resumeEnabled s h hart := rfl
  rw [hmove, debugMove, if_neg (by simp [hp]), henabled]
  split <;> rfl

/-- The resume transition is enabled by an unacknowledged request that neither a halt request nor a command holds. -/
theorem resumeEnabled_iff (s : State) (h : Nat) (hart : Hart) :
    resumeEnabled s h hart = true ↔ hart.ctl.resumereq = true ∧ hart.ctl.haltreq = false ∧
      hart.ctl.resumeack = false ∧ ¬(s.dm.busy = true ∧ s.dm.cmdHart = h) := by
  simp [resumeEnabled, and_assoc, imp_iff_not_or]

/-- The resume transition changes hart `h` alone. -/
theorem resumeHart_onlyHart (s : State) (h : Nat) : s.onlyHart h (resumeHart h s) :=
  (State.onlyHart_modHart s h _ 3).trans (State.onlyHart_modHart (leaveDebug h s) h _ 0)

/-! ### The resume of a hart (O17) -/

/-- Settles O17: the step is the hart's next move, and the resume transition is the two cases of it. -/
theorem resumeTransition : Obligations.ResumeTransition := by
  intro s h q hart hq hh ha hr hd hp
  let r : State := { s with queue := q }
  have hstep : step s = .next (if resumeEnabled r h hart then resumeHart h (r.moving h)
      else (r.moving h).modHart h fun hart => hart.countUp false) :=
    step_quiet s _ ((nextMove_event s _ q hq).trans (hartMove_halted (s := r) hh ha hr hd hp))
  have hmoving : (r.moving h).harts[h]? = some { hart with trapped := false } := State.moving_get (s := r) hh
  refine ⟨fun henabled => ?_, fun hheld => ?_⟩
  · rw [if_pos ((resumeEnabled_iff r h hart).mpr henabled)] at hstep
    refine ⟨_, { ({ hart with trapped := false } : Hart).leaveDebug s.cfg s.free with
      ctl := { hart.ctl with resumeack := true } }, hstep, ?_,
      (r.moving_onlyHart h).trans (resumeHart_onlyHart _ h), rfl, ?_, rfl, rfl, Hart.pcBits_aligned,
      fun p hc hmem => Hart.legalPriv_supported hc hmem _, ?_⟩
    · rw [resumeHart_get, if_pos rfl, hmoving]
      rfl
    · simp [Hart.status, ha, hr]
    · rw [hp]
      rfl
  · rw [if_neg (mt (resumeEnabled_iff r h hart).mp hheld)] at hstep
    refine ⟨_, ({ hart with trapped := false } : Hart).countUp false, hstep, ?_,
      (r.moving_onlyHart h).trans (State.onlyHart_modHart _ h _ 0), ?_⟩
    · rw [State.modHart_get, if_pos rfl, hmoving]
      rfl
    · unfold Hart.countUp
      split <;> rfl

end Sys2Proof.Machine
end

section
/-! PROOF. Frames (O15): what each kind of instruction leaves as it was whenever it completes. Instructions of a hart and
abstract commands are made of operations on one hart and on the command in progress, JTAG instructions of operations on the
DTM; an access to a DM register is the register's own read or write behind the gates. -/

namespace Sys2Proof.Machine

/-! ### Operations on one hart and the command in progress -/

theorem State.sameElsewhere.refl (s : State) (h : Nat) : s.sameElsewhere h s :=
  ⟨rfl, rfl, rfl, fun _ => ⟨rfl, rfl, rfl⟩, rfl, rfl, rfl, rfl, rfl, rfl, fun _ _ => rfl⟩

theorem State.sameElsewhere.trans {s t u : State} {h : Nat} (hst : s.sameElsewhere h t) (htu : t.sameElsewhere h u) :
    s.sameElsewhere h u := by
  obtain ⟨cfg, dtm, sb, bytes, ext, queue, cur, rr, out, len, others⟩ := hst
  obtain ⟨cfg', dtm', sb', bytes', ext', queue', cur', rr', out', len', others'⟩ := htu
  refine ⟨cfg'.trans cfg, dtm'.trans dtm, sb'.trans sb, fun a => ?_, ext'.trans ext, queue'.trans queue, cur'.trans cur,
    rr'.trans rr, out'.trans out, len'.trans len, fun k hk => (others' k hk).trans (others k hk)⟩
  obtain ⟨mem, hmem, imem⟩ := bytes a
  obtain ⟨mem', hmem', imem'⟩ := bytes' a
  exact ⟨mem'.trans mem, hmem'.trans hmem, imem'.trans imem⟩

/-- What an instruction of hart `h` may do: change hart `h`, and of the DM what ends a command. -/
structure State.hartEffect (s : State) (h : Nat) (t : State) : Prop where
  elsewhere : s.sameElsewhere h t
  dm : t.dm = { s.dm with phase := t.dm.phase, cmderr := t.dm.cmderr, data := t.dm.data }

/-- What a command for hart `h` may do: change hart `h`, and of the DM the command in progress, cmderr and data. -/
structure State.commandEffect (s : State) (h : Nat) (t : State) : Prop where
  elsewhere : s.sameElsewhere h t
  dm : t.dm = { s.dm with
    phase := t.dm.phase
    cmderr := t.dm.cmderr
    data := t.dm.data
    defined := t.dm.defined
    quick := t.dm.quick }

namespace State.hartEffect

variable {s t : State} {h : Nat}

theorem refl (s : State) (h : Nat) : s.hartEffect h s := ⟨.refl s h, rfl⟩

theorem trans {u : State} (hst : s.hartEffect h t) (htu : t.hartEffect h u) : s.hartEffect h u :=
  ⟨hst.elsewhere.trans htu.elsewhere, by rw [htu.dm, hst.dm]⟩

theorem ite {u : State} (ht : s.hartEffect h t) (hu : s.hartEffect h u) (c : Prop) [Decidable c] :
    s.hartEffect h (if c then t else u) := by
  split
  · exact ht
  · exact hu

theorem bump (hst : s.hartEffect h t) (k : Nat) : s.hartEffect h (t.bump k) := hst.trans ⟨.refl t h, rfl⟩

theorem modHart (hst : s.hartEffect h t) (f : Hart → Hart) : s.hartEffect h (t.modHart h f) := by
  obtain ⟨helsewhere, hdm⟩ := t.onlyHart_modHart h f 0
  exact hst.trans ⟨helsewhere, by rw [show (t.modHart h f).dm = t.dm from hdm]⟩

theorem finishCommand (hst : s.hartEffect h t) (err : Option (BitVec 3)) : s.hartEffect h (finishCommand err t) := by
  refine hst.trans ?_
  rw [finishCommand_eq]
  exact ⟨.refl t h, rfl⟩

theorem finishQuiet (hst : s.hartEffect h t) (err : Option (BitVec 3)) : s.hartEffect h (finishQuiet err t) :=
  hst.trans ⟨.refl t h, by rw [finishQuiet_dm]⟩

theorem enterDebug (hst : s.hartEffect h t) (cause : BitVec 3) (a : XWord) :
    s.hartEffect h (enterDebug h cause a t) := (hst.modHart _).bump 3

theorem leaveDebug (hst : s.hartEffect h t) : s.hartEffect h (leaveDebug h t) := (hst.modHart _).bump 3

theorem endProgbuf (hst : s.hartEffect h t) (err : Option (BitVec 3)) : s.hartEffect h (endProgbuf h err t) := by
  by_cases hc : t.dm.phase = .progbuf ∧ t.dm.cmdHart = h
  · obtain ⟨hp, hh⟩ := hc
    rw [endProgbuf_command h err t hp hh]
    have hstop := ((hst.modHart fun hart => { hart with inProgbuf := false }).modHart (Hart.clobberDpc t.free)).bump 1
    exact (hstop.leaveDebug.ite hstop _).finishCommand err
  · rw [endProgbuf_alone h err t hc]
    exact hst.modHart _

theorem raise (hst : s.hartEffect h t) (cause : Nat) : s.hartEffect h (raise h cause t) := by
  unfold Machine.raise
  repeat' split
  · exact hst
  · exact hst.endProgbuf _
  · exact (hst.modHart _).bump 1

/-- A write of a CSR that is no shadow of a data register (spec/42_abstract_commands.md R395). -/
theorem writeCsr (hst : s.hartEffect h t) {num : Nat} (hnum : isDebugCsr num = true) (dbg : Bool) (v : XWord) :
    s.hartEffect h (writeCsr dbg h num v t) := by
  cases hh : t.harts[h]? with
  | none => simpa [Machine.writeCsr, hh] using hst
  | some hart =>
    rw [writeCsr_own dbg h num v t hart hh (hart.shadowCsr_debug t num hnum)]
    exact (hst.modHart _).bump 1

end State.hartEffect

/-! ### Instructions of a hart -/

section
variable {s : State} {h : Nat}

theorem retireCur_hartEffect (len : Nat) (s : State) : s.hartEffect s.cur (retireCur len s) :=
  (State.hartEffect.refl ..).modHart _

theorem undefinedInDebug_hartEffect (s : State) : s.hartEffect s.cur (undefinedInDebug s) := by
  have hbump : s.hartEffect s.cur (s.bump 1) := (State.hartEffect.refl ..).bump 1
  exact (hbump.raise _).ite (hbump.modHart _) _

theorem breakAt_hartEffect (hart : Hart) (s : State) : s.hartEffect s.cur (breakAt hart s) := by
  have hsame := State.hartEffect.refl s s.cur
  have hcount (b : Bool) : (if b then s.modHart s.cur fun hart => hart.countUp true else s).cur = s.cur := by
    split <;> rfl
  have hcount' (b : Bool) : (if b then s else s.modHart s.cur fun hart => hart.countUp true).cur = s.cur := by
    split <;> rfl
  simp only [breakAt, hcount, hcount']
  exact .ite ((((hsame.modHart _).ite hsame _).bump 1).endProgbuf _)
    (.ite ((hsame.ite (hsame.modHart _) _).enterDebug _ _) (hsame.raise _) _) _

/-- A CSR instruction on a debug or trigger CSR. -/
theorem csrInsn_hartEffect {num : Nat} (hnum : isDebugCsr num = true) (op : CsrOp) (h : Nat) (s : State) :
    s.hartEffect h (csrInsn num op h s) := by
  have hsame := State.hartEffect.refl s h
  unfold csrInsn
  split
  · exact hsame
  · split
    · exact .modHart (.ite (hsame.writeCsr hnum _ _) hsame _) _
    · exact hsame.raise _

/-- All a completed hart instruction can be: its meaning run on the executing hart. -/
theorem onHart_next {s t : State} {f : Hart → State} (he : onHart s f = .next t) : ∃ hart, t = f hart := by
  unfold onHart at he
  split at he
  next hart _ =>
    cases he
    exact ⟨hart, rfl⟩
  · cases he

/-- An instruction of a hart changes its own hart, and of the DM what ends a command. The cases stand in the order of
`hartRows`. -/
theorem exec_hartRow {i : Instr} {s t : State} (hi : i ∈ hartRows) (he : exec i s = .next t) : s.hartEffect s.cur t := by
  have hsame := State.hartEffect.refl s s.cur
  have hraise (cause : Nat) := hsame.raise cause
  have hundef := undefinedInDebug_hartEffect s
  simp only [hartRows, List.mem_cons, List.not_mem_nil, or_false] at hi
  rcases hi with rfl | rfl | rfl | rfl | rfl | rfl | rfl | rfl | rfl | rfl <;> obtain ⟨hart, rfl⟩ := onHart_next he
  · exact .ite (.ite (hsame.leaveDebug.finishCommand _) hsame.leaveDebug _) (hraise _) _
  · exact breakAt_hartEffect hart s
  · exact (breakAt_hartEffect hart s).ite (hraise _) _
  · exact (retireCur_hartEffect 2 s).ite (hraise _) _
  · exact retireCur_hartEffect 4 s
  · exact hundef.ite (hraise _) _
  · exact hundef.ite (.ite ((hsame.modHart _).bump 1) (hraise _) _) _
  · exact hundef.ite (hraise _) _
  · exact hundef.ite (.ite (hsame.modHart _) (hraise _) _) _
  · exact hundef.ite (.ite (hsame.modHart _) (hraise _) _) _

/-- So does an access to a debug or trigger CSR. -/
theorem exec_csrRow {row : CsrOp → Instr} {num : Nat} {op : CsrOp} {s t : State} (hrow : (row, num) ∈ csrRows)
    (he : exec (row op) s = .next t) : s.hartEffect s.cur t := by
  have hcsr (n : Nat) (hn : isDebugCsr n = true) (he : onHart s (fun _ => csrInsn n op s.cur s) = .next t) :
      s.hartEffect s.cur t := by
    obtain ⟨-, rfl⟩ := onHart_next he
    exact csrInsn_hartEffect hn op s.cur s
  simp only [csrRows, List.mem_cons, List.not_mem_nil, or_false, Prod.mk.injEq] at hrow
  rcases hrow with ⟨rfl, rfl⟩ | ⟨rfl, rfl⟩ | ⟨rfl, rfl⟩ | ⟨rfl, rfl⟩ | ⟨rfl, rfl⟩ | ⟨rfl, rfl⟩ | ⟨rfl, rfl⟩ |
    ⟨rfl, rfl⟩ <;> exact hcsr _ rfl he

end

/-! ### Abstract commands -/

namespace State.commandEffect

variable {s t u : State} {h : Nat}

theorem of_hartEffect (hst : s.hartEffect h t) : s.commandEffect h t :=
  ⟨hst.elsewhere, by rw [hst.dm]⟩

theorem refl (s : State) (h : Nat) : s.commandEffect h s := of_hartEffect (.refl s h)

theorem trans (hst : s.commandEffect h t) (htu : t.commandEffect h u) : s.commandEffect h u :=
  ⟨hst.elsewhere.trans htu.elsewhere, by rw [htu.dm, hst.dm]⟩

theorem ite (ht : s.commandEffect h t) (hu : s.commandEffect h u) (c : Prop) [Decidable c] :
    s.commandEffect h (if c then t else u) := by
  split
  · exact ht
  · exact hu

theorem bump (hst : s.commandEffect h t) (k : Nat) : s.commandEffect h (t.bump k) :=
  hst.trans (of_hartEffect ((hartEffect.refl t h).bump k))

theorem modHart (hst : s.commandEffect h t) (f : Hart → Hart) : s.commandEffect h (t.modHart h f) :=
  hst.trans (of_hartEffect ((hartEffect.refl t h).modHart f))

theorem finishCommand (hst : s.commandEffect h t) (err : Option (BitVec 3)) : s.commandEffect h (finishCommand err t) :=
  hst.trans (of_hartEffect ((hartEffect.refl t h).finishCommand err))

theorem finishQuiet (hst : s.commandEffect h t) (err : Option (BitVec 3)) : s.commandEffect h (finishQuiet err t) :=
  hst.trans (of_hartEffect ((hartEffect.refl t h).finishQuiet err))

theorem storeArg (hst : s.commandEffect h t) (first words v : Nat) : s.commandEffect h (storeArg first words v t) :=
  hst.trans ⟨.refl t h, rfl⟩

theorem writeCsr (hst : s.commandEffect h t) (dbg : Bool) (num : Nat) (v : XWord) :
    s.commandEffect h (writeCsr dbg h num v t) := by
  unfold Machine.writeCsr
  split
  · exact hst
  · split
    · exact hst.storeArg ..
    · exact (hst.modHart _).bump 1

theorem writeReg (hst : s.commandEffect h t) (ref : RegRef) (v : XWord) : s.commandEffect h (writeReg h ref v t) := by
  unfold Machine.writeReg
  split
  · exact hst
  · refine hst.ite ?_ _
    cases ref with
    | csr num => exact (hst.modHart _).ite (hst.writeCsr ..) _
    | gpr i => exact hst.modHart _
    | fpr i => exact hst.modHart _
    | custom => exact hst
    | unmapped => exact hst

theorem doTransfer (hst : s.commandEffect h t) (size : BitVec 3) (write : Bool) (regno : Nat) :
    s.commandEffect h (doTransfer h size write regno t) := by
  unfold Machine.doTransfer
  split
  · exact hst
  · exact ((hst.bump 1).writeReg ..).ite ((hst.bump 1).storeArg ..) _

theorem scrambleForCommand (hst : s.commandEffect h t) : s.commandEffect h (scrambleForCommand h t) :=
  (hst.modHart _).bump 2

theorem startProgbuf (hst : s.commandEffect h t) : s.commandEffect h (startProgbuf h t) :=
  (hst.trans ⟨.refl t h, rfl⟩ : s.commandEffect h { t with dm := { t.dm with phase := .progbuf } }).modHart _

end State.commandEffect

/-- An abstract command changes the hart it is for, and of the DM the command in progress, cmderr and data
(spec/42_abstract_commands.md R376). -/
theorem exec_command {i : Instr} {s t : State} (hi : (encode i).1 = .command) (he : exec i s = .next t) :
    s.commandEffect s.dm.cmdHart t := by
  have hsame := State.commandEffect.refl s s.dm.cmdHart
  cases i with
  | accessRegister size postexec transfer write regno res23 res19 =>
    cases he
    refine (hsame.finishCommand _).ite (.ite ?_ ?_ _) _
    · split
      · exact (hsame.bump 1).finishCommand _
      · exact hsame.finishQuiet none
    · have hstart := (hsame.bump 3).scrambleForCommand
      have hmove := hstart.doTransfer size write regno.toNat
      simp only
      generalize (if transfer = true then transferError _ _ _ _ _ _ else none) = transferErr
      generalize (if postexec = true then postexecError _ _ _ else none) = postexecErr
      split
      · exact hstart.finishCommand _
      · exact hstart.finishCommand _
      · exact (hmove.ite hstart _).finishCommand _
      · exact (hmove.ite hstart _).startProgbuf.ite ((hmove.ite hstart _).finishCommand none) _
  | quickAccess reserved =>
    cases he
    refine (hsame.finishQuiet _).ite (.ite (hsame.finishCommand _) ?_ _) _
    have hstart := (hsame.bump 1).scrambleForCommand
    simp only
    split
    · exact hstart.finishCommand _
    · refine .ite (hstart.finishCommand _) ?_ _
      refine .ite (hstart.finishCommand _) ?_ _
      refine .ite (hstart.finishCommand _) ?_ _
      exact hstart.trans ⟨.refl .., rfl⟩
  | commandReservedCmdtype cmdtype control =>
    cases he
    exact hsame.finishQuiet _
  | _ => cases hi

/-! ### JTAG instructions and scans -/

/-- Of `s` only the DTM has changed, and free values may have been used. -/
def State.onlyDtm (s t : State) : Prop := t = { s with dtm := t.dtm, free := t.free }

theorem State.onlyDtm_iff {s t : State} :
    s.onlyDtm t ↔ t.cfg = s.cfg ∧ t.dm = s.dm ∧ t.sb = s.sb ∧ t.harts = s.harts ∧ t.mem = s.mem ∧ t.hmem = s.hmem ∧
      t.imem = s.imem ∧ t.extReset = s.extReset ∧ t.queue = s.queue ∧ t.cur = s.cur ∧ t.rr = s.rr ∧
      t.dmiOut = s.dmiOut := by
  cases s
  cases t
  simp [State.onlyDtm]

/-- The DMI operations, dtmcs operations and JTAG instructions change the DTM alone (spec/46_jtag_dtm.md R587, R592). -/
theorem exec_jtag {i : Instr} {s t : State} (hi : (encode i).1 ∈ [Space.dmiIn, .dmiOut, .dtmcsIn, .ir])
    (he : exec i s = .next t) : s.onlyDtm t := by
  rw [State.onlyDtm_iff]
  cases i with
  | dmiNop | dmiRead | dmiWrite | dmiOpReserved | dmiStatusOk | dmiStatusFailed | dmiStatusBusy | dtmcsDmireset
  | dtmcsDmihardreset => cases he; simp
  | bypass00 | reservedBypass12 | reservedBypass13 | reservedBypass14 | reservedBypass15 | reservedBypass16
  | reservedBypass17 | bypass1f => cases he; simp
  | idcode op | dtmcs op | dmi op => cases op <;> cases he <;> simp
  | _ => simp [encode] at hi

/-! ### Accesses to DM registers -/

/-- What lies outside the DM, but for configuration and memory. -/
def State.outsideDm (s : State) : Dtm × List Hart × Bool × List Event × Nat × Nat :=
  (s.dtm, s.harts, s.extReset, s.queue, s.cur, s.rr)

@[simp] theorem State.outsideDm_eq_iff {s t : State} :
    t.outsideDm = s.outsideDm ↔ t.dtm = s.dtm ∧ t.harts = s.harts ∧ t.extReset = s.extReset ∧ t.queue = s.queue ∧
      t.cur = s.cur ∧ t.rr = s.rr := by
  simp [State.outsideDm]

theorem dmAccess_outsideDm {rd : State → State × Word} {wr : Word → State → State} (present : Bool) (a : DmAcc) (s : State)
    (hrd : ∀ s, (rd s).1.outsideDm = s.outsideDm) (hwr : ∀ v s, (wr v s).outsideDm = s.outsideDm) :
    (dmAccess present a rd wr s).outsideDm = s.outsideDm := by
  rcases dmAccess_cases present a rd wr s with ⟨v, k, e⟩ | ⟨k, e⟩ | ⟨_, _, v, j, k, e⟩ | ⟨v, _, _, j, e⟩ <;> rw [e]
  · rfl
  · rfl
  · exact hrd (s.bump j)
  · exact hwr v (s.bump j)

theorem bufferRead_outsideDm (bit : Nat) (v : Word) (s : State) : (bufferRead bit v s).1.outsideDm = s.outsideDm := by
  unfold bufferRead
  split <;> simp

theorem bufferWrite_outsideDm (bit : Nat) {store : State → State} (s : State) (hs : (store s).outsideDm = s.outsideDm) :
    (bufferWrite bit store s).outsideDm = s.outsideDm := by
  unfold bufferWrite
  split
  · simp
  · simpa using hs

theorem dataAccess_outsideDm (i : Nat) (a : DmAcc) (s : State) : (dataAccess i a s).outsideDm = s.outsideDm :=
  dmAccess_outsideDm _ a s (fun _ => bufferRead_outsideDm i _ _) fun _ s => bufferWrite_outsideDm i s rfl

theorem progbufAccess_outsideDm (i : Nat) (a : DmAcc) (s : State) : (progbufAccess i a s).outsideDm = s.outsideDm :=
  dmAccess_outsideDm _ a s (fun _ => bufferRead_outsideDm (16 + i) _ _) fun _ s => bufferWrite_outsideDm (16 + i) s rfl

theorem dmReadOnly_outsideDm (present : Bool) (a : DmAcc) (value : State → Word) (s : State) :
    (dmReadOnly present a value s).outsideDm = s.outsideDm :=
  dmAccess_outsideDm present a s (fun _ => rfl) fun _ _ => rfl

theorem readHartinfo_outsideDm (s : State) : (readHartinfo s).1.outsideDm = s.outsideDm := by
  unfold readHartinfo
  split <;> rfl

theorem writeAbstractcs_outsideDm (v : Word) (s : State) : (writeAbstractcs v s).outsideDm = s.outsideDm := by
  unfold writeAbstractcs
  split <;> rfl

theorem writeCommand_outsideDm (v : Word) (s : State) : (writeCommand v s).outsideDm = s.outsideDm := by
  unfold writeCommand
  repeat' split
  all_goals simp

theorem writeAbstractauto_outsideDm (v : Word) (s : State) : (writeAbstractauto v s).outsideDm = s.outsideDm := by
  unfold writeAbstractauto
  split <;> rfl

theorem readSbaddress_outsideDm (k : Nat) (s : State) : (readSbaddress k s).1.outsideDm = s.outsideDm := by
  unfold readSbaddress
  repeat' split
  all_goals rfl

theorem readSbdata_outsideDm (k : Nat) (s : State) : (readSbdata k s).1.outsideDm = s.outsideDm := by
  unfold readSbdata
  split <;> rfl

theorem readSbdata0_outsideDm (s : State) : (readSbdata0 s).1.outsideDm = s.outsideDm := by
  simp only [readSbdata0]
  repeat' split
  all_goals simp

theorem execAuthdata_outsideDm {a : DmAcc} {s t : State} (he : execAuthdata a s = .next t) :
    t.outsideDm = s.outsideDm := by
  cases he
  cases a with
  | read =>
    simp only
    repeat' split
    all_goals simp [readAuthdata]
  | write v =>
    simp only
    repeat' split
    all_goals simp [writeAuthdata]

/-- An access to a DM register other than dmcontrol stays in the DM, but for a write of hawindow. -/
theorem exec_outsideDm {i : Instr} {s t : State} (hi : (encode i).1 = .dm) (hctl : ∀ a, i ≠ .dmcontrol a)
    (hwindow : ∀ v, i ≠ .hawindow (.write v)) (he : exec i s = .next t) : t.outsideDm = s.outsideDm := by
  cases i with
  | data0 | data1 | data2 | data3 | data4 | data5 | data6 | data7 | data8 | data9 | data10 | data11 =>
    cases he
    exact dataAccess_outsideDm _ _ s
  | progbuf0 | progbuf1 | progbuf2 | progbuf3 | progbuf4 | progbuf5 | progbuf6 | progbuf7 | progbuf8 | progbuf9
  | progbuf10 | progbuf11 | progbuf12 | progbuf13 | progbuf14 | progbuf15 =>
    cases he
    exact progbufAccess_outsideDm _ _ s
  | devtreeaddr0 | devtreeaddr1 | devtreeaddr2 | devtreeaddr3 | nextdm | haltsum0 | haltsum1 | haltsum2 | haltsum3 =>
    cases he
    exact dmReadOnly_outsideDm _ _ _ s
  | dmcontrol a => exact absurd rfl (hctl a)
  | dmstatus a =>
    cases a with
    | read => cases he; split <;> simp
    | write v => cases he; rfl
  | authdata => exact execAuthdata_outsideDm he
  | hartinfo => cases he; exact dmAccess_outsideDm _ _ s readHartinfo_outsideDm fun _ _ => rfl
  | abstractcs => cases he; exact dmAccess_outsideDm _ _ s (fun _ => rfl) writeAbstractcs_outsideDm
  | command => cases he; exact dmAccess_outsideDm _ _ s (fun _ => rfl) writeCommand_outsideDm
  | abstractauto => cases he; exact dmAccess_outsideDm _ _ s (fun _ => rfl) writeAbstractauto_outsideDm
  | hawindow a =>
    cases a with
    | read => cases he; exact dmReadOnly_outsideDm s.cfg.hasHasel .read readHawindow s
    | write v => exact absurd rfl (hwindow v)
  | hawindowsel | sbcs => cases he; exact dmAccess_outsideDm _ _ s (fun _ => rfl) (by simp)
  | sbaddress0 | sbaddress1 | sbaddress2 | sbaddress3 =>
    cases he
    exact dmAccess_outsideDm _ _ s (readSbaddress_outsideDm _) (by simp)
  | sbdata0 => cases he; exact dmAccess_outsideDm _ _ s readSbdata0_outsideDm (by simp)
  | sbdata1 | sbdata2 | sbdata3 => cases he; exact dmAccess_outsideDm _ _ s (readSbdata_outsideDm _) (by simp)
  | _ => cases hi

/-- What an access to a DM register may do outside the DM: change hart array mask bits. -/
structure State.maskEffect (s t : State) : Prop where
  outside : t.outsideDm = { s with harts := t.harts }.outsideDm
  length : t.harts.length = s.harts.length
  mask : ∀ (k : Nat) (old new : Hart), s.harts[k]? = some old → t.harts[k]? = some new →
    new = { old with ctl := { old.ctl with mask := new.ctl.mask } }

theorem State.maskEffect.of_outsideDm {s t : State} (h : t.outsideDm = s.outsideDm) : s.maskEffect t := by
  obtain ⟨hdtm, hharts, hext, hqueue, hcur, hrr⟩ := State.outsideDm_eq_iff.mp h
  refine ⟨by simp [hdtm, hext, hqueue, hcur, hrr], by rw [hharts], fun k old new hold hnew => ?_⟩
  rw [hharts, hold] at hnew
  cases hnew
  rfl

/-- A write of hawindow changes hart array mask bits alone (spec/41_reset_select_run.md R317). -/
theorem writeHawindow_maskEffect (v : Word) (s : State) : s.maskEffect (writeHawindow v s) := by
  refine ⟨rfl, List.length_mapIdx .., fun k old new hold hnew => ?_⟩
  simp only [writeHawindow, List.getElem?_mapIdx, hold, Option.map_some, Option.some.injEq] at hnew
  split at hnew <;> subst hnew <;> rfl

theorem execHawindow_write_maskEffect {v : Word} {s t : State} (he : exec (.hawindow (.write v)) s = .next t) :
    s.maskEffect t := by
  cases he
  rcases dmAccess_cases s.cfg.hasHasel (.write v) (fun s => (s, readHawindow s)) writeHawindow s with
    ⟨_, k, e⟩ | ⟨k, e⟩ | ⟨hread, _⟩ | ⟨w, _, _, j, e⟩
  · rw [e]
    exact .of_outsideDm rfl
  · rw [e]
    exact .of_outsideDm rfl
  · cases hread
  · rw [e]
    obtain ⟨outside, length, mask⟩ := writeHawindow_maskEffect w (s.bump j)
    exact ⟨outside, length, mask⟩

/-- The rows behind the gates, dmstatus and authdata are DM register rows, and dmcontrol is none of them. -/
theorem dmRow_encode {row : DmAcc → Instr} (hrow : row ∈ gatedRows ++ [Instr.dmstatus, .authdata]) (a : DmAcc) :
    (encode (row a)).1 = .dm ∧ ∀ b, row a ≠ .dmcontrol b := by
  fin_cases hrow <;> exact ⟨rfl, nofun⟩

/-! ### Frames of all instructions (O15) -/

/-- Settles O15: instructions of a hart and commands by what their operations can change, JTAG instructions by the frames of
the DTM's operations, DM registers by the read or write behind the gates. -/
theorem instructionFrames : Obligations.InstructionFrames := by
  refine fun s t => ⟨fun i hi he => ?_, fun i hi he => ?_, fun i => exec_jtag, fun row hrow a he => ?_⟩
  · have heffect : s.hartEffect s.cur t := by
      obtain hrow | ⟨row, num, op, hrow, rfl⟩ := hi
      · exact exec_hartRow hrow he
      · exact exec_csrRow hrow he
    exact ⟨heffect.elsewhere, heffect.dm⟩
  · have heffect := exec_command hi he
    exact ⟨heffect.elsewhere, heffect.dm⟩
  · obtain ⟨hdm, hctl⟩ := dmRow_encode hrow a
    have hmem (v : Word) : row a ≠ .dmcontrol (.write v) := hctl _
    obtain ⟨hmem, hhmem, himem⟩ := State.memories_eq_iff.mp (exec_memories he hmem)
    have heffect : s.maskEffect t ∧ ((∀ v, row a ≠ .hawindow (.write v)) → t.harts = s.harts) := by
      by_cases hwindow : ∃ v, row a = .hawindow (.write v)
      · obtain ⟨v, hv⟩ := hwindow
        exact ⟨execHawindow_write_maskEffect (hv ▸ he), fun hne => absurd hv (hne v)⟩
      · have hout := exec_outsideDm hdm hctl (not_exists.mp hwindow) he
        obtain ⟨-, hharts, -⟩ := State.outsideDm_eq_iff.mp hout
        exact ⟨.of_outsideDm hout, fun _ => hharts⟩
    obtain ⟨⟨hout, hlen, hmask⟩, hharts⟩ := heffect
    obtain ⟨hdtm, -, hext, hqueue, hcur, hrr⟩ := State.outsideDm_eq_iff.mp hout
    exact ⟨exec_cfg he, hdtm, fun _ => ⟨by rw [hmem], by rw [hhmem], by rw [himem]⟩, hext, hqueue, hcur, hrr, hlen, hmask,
      hharts⟩

end Sys2Proof.Machine
end

section
/-! PROOF. The registers of the abstract command interface: abstractcs (O46), command, abstractauto, data and progbuf
(O47), and what all of them do while a command is in progress (O48). On a ready DM an access is the register's own read or
write; data and progbuf words share one account of their reads and writes. -/

namespace Sys2Proof.Machine

/-! ### Accesses on a ready DM -/

/-- A read of a present register of a ready DM is the register's own. -/
theorem State.dmReady.read {s : State} (h : s.dmReady) {present : Bool} (hp : present = true)
    (rd : State → State × Word) (wr : Word → State → State) :
    dmAccess present .read rd wr s = answer (rd s).2 (rd s).1 := by
  rw [hp, dmAccess_read rd wr s h.live.1 h.live.2]

/-- A write of a present register of a ready DM is the register's own. -/
theorem State.dmReady.write {s : State} (h : s.dmReady) {present : Bool} (hp : present = true) (v : Word)
    (rd : State → State × Word) (wr : Word → State → State) : dmAccess present (.write v) rd wr s = wr v s := by
  rw [hp, dmAccess_write v rd wr s h.live.1 h.live.2]

/-- A busy violation: cmderr 1 if it was 0, and nothing else (spec/42_abstract_commands.md R364). -/
theorem busyViolation_eq (s : State) :
    busyViolation s = { s with dm := { s.dm with cmderr := if s.dm.cmderr = 0 then 1 else s.dm.cmderr } } := by
  unfold busyViolation setCmderr
  split <;> rfl

/-! ### abstractcs (spec/42_abstract_commands.md R365) -/

/-- The field of abstractcs that a write clears bits of. -/
theorem ofNat_getField_cmderr (v : Word) : BitVec.ofNat 3 (getField v 8 3) = v.extractLsb' 8 3 := by
  apply BitVec.eq_of_toNat_eq
  simp [getField, Nat.shiftRight_eq_div_pow]

/-- The fields of abstractcs lie side by side. -/
theorem readAbstractcs_eq {s : State} (hd : s.cfg.datacount ≤ 12) :
    readAbstractcs s = BitVec.ofNat 32 s.cfg.progbufsize <<< 24 ||| wordBit s.dm.busy 12 |||
      s.dm.cmderr.setWidth 32 <<< 8 ||| BitVec.ofNat 32 s.cfg.datacount := by
  have hcmderr : s.dm.cmderr.toNat < 2 ^ 3 := s.dm.cmderr.isLt
  rw [readAbstractcs, ofNat_add_eq_or 8, ofNat_add_eq_or 12, ofNat_add_bitAt, ofNat_mul_two_pow, ofNat_mul_two_pow,
    BitVec.ofNat_toNat]
  all_goals
    simp only [bitAt_eq, Nat.reducePow] at *
    omega

/-- Settles O46: the write and the read of abstractcs on a ready DM. -/
theorem abstractcs : Obligations.Abstractcs := by
  refine fun s v hr => ⟨fun hb => ?_, fun _ hd => ?_⟩
  · have hwrite : exec (.abstractcs (.write v)) s = .next (writeAbstractcs v s) :=
      congrArg _ (hr.write rfl v _ writeAbstractcs)
    rw [hwrite, writeAbstractcs, if_neg (by simp [hb]), w1c, ofNat_getField_cmderr]
  · have hread : exec (.abstractcs .read) s = .next (answer (readAbstractcs s) s) := congrArg _ (hr.read rfl _ _)
    rw [hread, readAbstractcs_eq hd]
    rfl

/-! ### data and progbuf words (spec/42_abstract_commands.md R364, R366) -/

/-- A word of a small vector after a write. -/
theorem vget_vset {α : Type} {n : Nat} (v : Vector α n) {i : Nat} (hi : i < n) (x d : α) (k : Nat) :
    vget (vset v i x) k d = if k = i then x else vget v k d := by
  by_cases hk : k = i
  · subst hk
    simp [vget, vset, Vector.setIfInBounds, Vector.toList, hi]
  · simp [vget, vset, Vector.setIfInBounds, Vector.toList, List.getD_eq_getElem?_getD, hk, Ne.symm hk]

/-- After an access with its bit of abstractauto the latched command starts again, unless an error is set. -/
theorem autoexecBit_eq (bit : Nat) (s : State) :
    autoexecBit bit s = if s.dm.auto.getLsbD bit = true ∧ s.dm.cmderr = 0 then startCommand s.dm.latch s else s := by
  simp only [autoexecBit, autoexec_eq]
  split <;> simp_all

/-- The row of data word `i`. -/
theorem exec_dataRow_of_getElem? {i : Nat} {row : DmAcc → Instr} (h : dataRows[i]? = some row) (a : DmAcc) (s : State) :
    i < 12 ∧ exec (row a) s = .next (dataAccess i a s) := by
  obtain ⟨hi, rfl⟩ := List.getElem?_eq_some_iff.mp h
  exact ⟨hi, exec_dataRow hi a s⟩

/-- The row of Program Buffer word `i`. -/
theorem exec_progbufRow_of_getElem? {i : Nat} {row : DmAcc → Instr} (h : progbufRows[i]? = some row) (a : DmAcc)
    (s : State) : i < 16 ∧ exec (row a) s = .next (progbufAccess i a s) := by
  obtain ⟨hi, rfl⟩ := List.getElem?_eq_some_iff.mp h
  exact ⟨hi, exec_progbufRow hi a s⟩

section
variable {s : State} {i : Nat}

theorem dataAccess_read (hr : s.dmReady) (hi : i < s.cfg.datacount) :
    dataAccess i .read s = answer (bufferRead i (vget s.dm.data i 0) s).2 (bufferRead i (vget s.dm.data i 0) s).1 :=
  hr.read (by simpa using hi) _ _

theorem dataAccess_write (hr : s.dmReady) (hi : i < s.cfg.datacount) (v : Word) :
    dataAccess i (.write v) s =
      bufferWrite i (fun s => { s with dm := { s.dm with data := vset s.dm.data i v } }) s :=
  hr.write (by simpa using hi) v _ _

theorem progbufAccess_read (hr : s.dmReady) (hi : i < s.cfg.progbufsize) :
    progbufAccess i .read s =
      answer (bufferRead (16 + i) (vget s.dm.progbuf i 0) s).2 (bufferRead (16 + i) (vget s.dm.progbuf i 0) s).1 :=
  hr.read (by simpa using hi) _ _

theorem progbufAccess_write (hr : s.dmReady) (hi : i < s.cfg.progbufsize) (v : Word) :
    progbufAccess i (.write v) s =
      bufferWrite (16 + i) (fun s => { s with dm := { s.dm with progbuf := vset s.dm.progbuf i v } }) s :=
  hr.write (by simpa using hi) v _ _

end

/-! ### command, abstractauto and the repetition of a command (O47) -/

/-- While no command is in progress the read of a word answers its value, then repeats the command. -/
theorem bufferRead_idle (bit : Nat) (v : Word) {s : State} (hb : s.dm.busy = false) :
    bufferRead bit v s = (autoexecBit bit s, v) := by
  simp [bufferRead, hb]

/-- While no command is in progress the write of a word stores it, then repeats the command. -/
theorem bufferWrite_idle (bit : Nat) (store : State → State) {s : State} (hb : s.dm.busy = false) :
    bufferWrite bit store s = autoexecBit bit (store s) := by
  simp [bufferWrite, hb]

/-- The bits abstractauto stores of a written value (spec/42_abstract_commands.md R366). -/
theorem and_autoexecBits_getLsbD {c : Config} (hp : c.hasAbstractauto = true) (v : Word) {i : Nat} (hi : i < 32) :
    (v &&& autoexecBits c).getLsbD i = (v.getLsbD i && c.autoexecMask.getLsbD i &&
      (decide (i < min c.datacount 12) || decide (16 ≤ i ∧ i < 16 + c.progbufsize))) := by
  rw [BitVec.getLsbD_and, autoexecBits_getLsbD]
  simp [hp, hi, Bool.and_assoc]

/-- Settles O47: the writes and reads of command and abstractauto, and of the words by what an access to a word does while
no command is in progress. -/
theorem commandAndAutoexec : Obligations.CommandAndAutoexec := by
  refine ⟨fun s v hr => ?_, fun s v hr hb => ⟨fun hp => ?_, ?_⟩⟩
  · have hwrite : exec (.command (.write v)) s = .next (writeCommand v s) := congrArg _ (hr.write rfl v _ writeCommand)
    refine ⟨congrArg _ (hr.read rfl _ _), fun hb he => ?_, fun hb he => ⟨_, ?_, rfl, rfl⟩⟩
    · rw [hwrite, writeCommand, if_neg (by simp [hb]), if_pos he]
    · rw [hwrite, writeCommand, if_neg (by simp [hb]), if_neg (not_not.mpr he)]
      rfl
  · have hwrite : exec (.abstractauto (.write v)) s = .next (writeAbstractauto v s) :=
      congrArg _ (hr.write hp v _ writeAbstractauto)
    refine ⟨congrArg _ (hr.read hp _ _), v &&& autoexecBits s.cfg, ?_, fun i hi => and_autoexecBits_getLsbD hp v hi⟩
    rw [hwrite, writeAbstractauto, if_neg (by simp [hb])]
  · intro again
    refine ⟨fun i row hrow hi => ?_, fun i row hrow hi => ?_⟩
    · obtain ⟨hi12, hread⟩ := exec_dataRow_of_getElem? hrow .read s
      obtain ⟨-, hwrite⟩ := exec_dataRow_of_getElem? hrow (.write v) s
      rw [hread, hwrite, dataAccess_read hr hi, dataAccess_write hr hi, bufferRead_idle _ _ hb, bufferWrite_idle _ _ hb,
        autoexecBit_eq, autoexecBit_eq]
      refine ⟨congrArg _ ?_, rfl, fun k _ => vget_vset s.dm.data hi12 v 0 k⟩
      simp only [again]
      split <;> rfl
    · obtain ⟨hi16, hread⟩ := exec_progbufRow_of_getElem? hrow .read s
      obtain ⟨-, hwrite⟩ := exec_progbufRow_of_getElem? hrow (.write v) s
      rw [hread, hwrite, progbufAccess_read hr hi, progbufAccess_write hr hi, bufferRead_idle _ _ hb,
        bufferWrite_idle _ _ hb, autoexecBit_eq, autoexecBit_eq]
      refine ⟨congrArg _ ?_, rfl, fun k _ => vget_vset s.dm.progbuf hi16 v 0 k⟩
      simp only [again]
      split <;> rfl

/-! ### Accesses while a command is in progress (O48) -/

/-- While a command is in progress the read of a word is a violation and answers any value (R364). -/
theorem bufferRead_busy (bit : Nat) (v : Word) {s : State} (hb : s.dm.busy = true) :
    bufferRead bit v s = ((busyViolation s).bump 1, freeWord32 s.free) := by
  simp [bufferRead, hb]

/-- While a command is in progress the write of a word is a violation and stores nothing (R364). -/
theorem bufferWrite_busy (bit : Nat) (store : State → State) {s : State} (hb : s.dm.busy = true) :
    bufferWrite bit store s = busyViolation s := by
  simp [bufferWrite, hb]

/-- So is the write of command, abstractcs or abstractauto. -/
theorem writes_busy (v : Word) {s : State} (hb : s.dm.busy = true) : writeCommand v s = busyViolation s ∧
    writeAbstractcs v s = busyViolation s ∧ writeAbstractauto v s = busyViolation s := by
  simp [writeCommand, writeAbstractcs, writeAbstractauto, hb]

/-- Settles O48: every write is the same violation, and so is the read of a word. -/
theorem busyAccesses : Obligations.BusyAccesses := by
  intro s v hr hb violated
  have hviolated : busyViolation s = violated := busyViolation_eq s
  obtain ⟨hcommand, hcs, hauto⟩ := writes_busy v hb
  refine ⟨fun row hrow => ?_, ?_⟩
  · rw [← hviolated]
    obtain (rfl | rfl) | ⟨hp, rfl⟩ : (row = .command ∨ row = .abstractcs) ∨
        s.cfg.hasAbstractauto = true ∧ row = .abstractauto := by
      split at hrow <;> simp_all [or_assoc]
    · rw [← hcommand]
      exact ⟨congrArg _ (hr.write rfl v _ _), _, congrArg _ (hr.read rfl _ _)⟩
    · rw [← hcs]
      exact ⟨congrArg _ (hr.write rfl v _ _), _, congrArg _ (hr.read rfl _ _)⟩
    · rw [← hauto]
      exact ⟨congrArg _ (hr.write hp v _ _), _, congrArg _ (hr.read hp _ _)⟩
  · rintro i row (⟨hrow, hi⟩ | ⟨hrow, hi⟩)
    · obtain ⟨-, hread⟩ := exec_dataRow_of_getElem? hrow .read s
      obtain ⟨-, hwrite⟩ := exec_dataRow_of_getElem? hrow (.write v) s
      rw [hread, hwrite, dataAccess_read hr hi, dataAccess_write hr hi, bufferRead_busy _ _ hb, bufferWrite_busy _ _ hb,
        hviolated]
      exact ⟨rfl, _, rfl⟩
    · obtain ⟨-, hread⟩ := exec_progbufRow_of_getElem? hrow .read s
      obtain ⟨-, hwrite⟩ := exec_progbufRow_of_getElem? hrow (.write v) s
      rw [hread, hwrite, progbufAccess_read hr hi, progbufAccess_write hr hi, bufferRead_busy _ _ hb,
        bufferWrite_busy _ _ hb, hviolated]
      exact ⟨rfl, _, rfl⟩

end Sys2Proof.Machine
end

section
/-! PROOF. What a step runs: an instruction of the Program Buffer (O4), the command the engine has started, a DMI access and
a JTAG scan (O6). A move that names an instruction and leaves nothing to do after it is that instruction. -/

namespace Sys2Proof.Machine

/-! ### Moves that are an instruction -/

/-- A step whose move is an instruction with nothing to do after it is the instruction. -/
theorem step_run_none {s t : State} {i : Instr} (h : nextMove s = .run i t .none) : step s = exec i t := by
  simp only [step, h, finish]
  cases exec i t <;> rfl

/-- A step on an event whose move is an instruction with nothing to do after it. -/
theorem step_event_run {s t : State} {e : Event} {q : List Event} {i : Instr} (hq : s.queue = e :: q)
    (h : eventMove e { s with queue := q } = .run i t .none) : step s = exec i t :=
  step_run_none ((nextMove_event s e q hq).trans h)

/-! ### An instruction of the Program Buffer (spec/42_abstract_commands.md R380) -/

/-- A hart in Debug Mode moves as `debugMove` says. -/
theorem hartMove_debug {s : State} {h : Nat} {hart : Hart} (hh : s.harts[h]? = some hart) (ha : hart.avail = true)
    (hr : hart.inReset = false) (hd : hart.debugMode = true) : hartMove h s = debugMove h hart (s.moving h) := by
  simp [hartMove, hh, ha, hr, hd, State.moving]

/-- A word that is a row of the table is left to `exec`. -/
theorem wordMove_row {w : Nat} {i : Instr} (hw : decodeHart w = .ok i) (h : Nat) (e : Effect) (s : State) (a : After)
    (fin : State → State) : wordMove h w e s a fin = .run i s a := by
  simp [wordMove, hw]

/-- A hart that executes the Program Buffer runs the row it fetches. -/
theorem debugMove_row {s : State} {h w : Nat} {hart : Hart} {i : Instr} (hp : hart.inProgbuf = true)
    (hf : fetchInsn s hart s.free = some w) (hw : decodeHart w = .ok i) :
    debugMove h hart s = .run i (s.bump 8) .none := by
  simp only [debugMove, hp, hf, if_true, wordMove_row hw]

/-- Settles O4: the hart's move is the row it fetches from the Program Buffer. -/
theorem stepRunsProgramBufferInstruction : Obligations.StepRunsProgramBufferInstruction := by
  intro s h q hart w i hq hh ha hr hd hp r hf hw
  have hmove : hartMove h { s with queue := q } = debugMove h hart r :=
    hartMove_debug (s := { s with queue := q }) hh ha hr hd
  exact step_event_run hq (hmove.trans (debugMove_row hp hf hw))

/-! ### DMI accesses (spec/46_jtag_dtm.md R600, R603) -/

/-- A DMI access to an offset the DM decodes is the access to the register there. -/
theorem dmiMove_row {s : State} {address : Word} {acc : DmAcc} {i : Instr} (hin : inDmRange s.cfg address.toNat = true)
    (hi : decodeDmAt s.cfg.haltsum1Addr (address.toNat - s.cfg.dmBase) acc = .ok i) (a : After) :
    dmiMove address acc a s = .run i s a := by
  simp only [dmiMove, hin, hi, if_true]

/-- What is left to do after the DTM's transaction: it is finished, with what was read as the result of a read. -/
theorem finish_dtm (write : Bool) (u : State) :
    finish (.dtm write) u = { u with
      dtm := { u.dtm with pending := .finished (if write then freeWord32 u.free else u.dmiOut) false }
      free := u.free + 1 } := rfl

/-- Whether an access is a write. -/
def isWriteAccess : DmAcc → Bool
  | .read => false
  | .write _ => true

/-- The DTM's transaction that reaches a register is the access to it. -/
theorem dtmMove_row {s : State} {address : Word} {acc : DmAcc} {i : Instr} (hp : s.dtm.pending = .inProgress address acc)
    (hin : inDmRange s.cfg address.toNat = true)
    (hi : decodeDmAt s.cfg.haltsum1Addr (address.toNat - s.cfg.dmBase) acc = .ok i) :
    dtmMove s = .run i s (.dtm (isWriteAccess acc)) := by
  rw [dtmMove, hp]
  cases acc <;> exact dmiMove_row hin hi _

/-! ### JTAG scans (spec/46_jtag_dtm.md R581 to R600) -/

theorem drWidth_dmi {s : State} (h : s.dtm.ir = 0x11) : drWidth s = s.cfg.abits + 34 := by simp [drWidth, h]

theorem drWidth_dtmcs {s : State} (h : s.dtm.ir = 0x10) : drWidth s = 32 := by simp [drWidth, h]

/-- Update-DR of dmi is the row the scan decodes to. -/
theorem updateMove_dmi {s : State} (h : s.dtm.ir = 0x11) (tdi : BitVec 66) :
    updateMove tdi s = .run (decodeDmiIn (tdi.toNat % 2 ^ (s.cfg.abits + 34))) s .none := by
  simp only [updateMove, drWidth_dmi h, h]

/-- Update-DR of dtmcs is the row the scan decodes to. -/
theorem updateMove_dtmcs {s : State} {tdi : BitVec 66} {i : Instr} (h : s.dtm.ir = 0x10)
    (hi : decodeDtmcsIn (tdi.toNat % 2 ^ 32) = .ok i) : updateMove tdi s = .run i s .none := by
  simp only [updateMove, drWidth_dtmcs h, h, hi]

/-- Capture-DR of dmi is the row of the DTM's state. -/
theorem captureMove_dmi {s : State} (h : s.dtm.ir = 0x11) : captureMove s = .run (captureInsn s) s .none := by
  simp only [captureMove, h]

/-- Settles O6: each event's move is the instruction it decodes to; after the DTM's own access its transaction is
finished. -/
theorem stepRunsAccessesAndScans : Obligations.StepRunsAccessesAndScans := by
  refine ⟨⟨fun s q hq hp => ?_, fun s q address acc i hq hin hi => ?_, fun s u q address acc i hq hp hin hi hu => ?_⟩,
    fun s q v i hq hi => ?_, fun s q tdi i hq hi => ?_, fun s q tdi hq hir => ?_, fun s q tdi i hq hir hi => ?_,
    fun s q hq hir => ?_⟩
  · exact step_event_run hq (if_pos hp)
  · exact step_event_run hq (dmiMove_row (s := { s with queue := q }) hin hi _)
  · have hmove := dtmMove_row (s := { s with queue := q }) hp hin hi
    refine ⟨if isWriteAccess acc then freeWord32 u.free else u.dmiOut, ?_, fun hread => by rw [hread]; rfl⟩
    rw [step_run s _ u i _ ((nextMove_event s _ q hq).trans hmove) hu, finish_dtm]
  · refine step_event_run hq ?_
    simp only [eventMove, scanIrMove, hi]
  · refine step_event_run hq ?_
    have hwidth : drWidth { s with queue := q } = drWidth s := rfl
    simp only [eventMove, scanDrMove, hwidth, hi]
  · exact step_event_run hq (updateMove_dmi (s := { s with queue := q }) hir tdi)
  · exact step_event_run hq (updateMove_dtmcs (s := { s with queue := q }) hir hi)
  · exact step_event_run hq (captureMove_dmi (s := { s with queue := q }) hir)

end Sys2Proof.Machine
end

section
/-! PROOF. Abstract commands that are turned away or do nothing (O51): what the command engine does with a command, branch by
branch, and the errors of a transfer and of the Program Buffer. -/

namespace Sys2Proof.Machine

/-! ### The start of a command (spec/10_state.md R124) -/

/-- A hart whose dscratch registers a command has taken. -/
def Hart.scratched (n : Nat) (hart : Hart) : Hart :=
  { hart with dscratch0 := hart.trunc (Config.freeWord n), dscratch1 := hart.trunc (Config.freeWord (n + 1)) }

/-- The machine when the command in progress starts on its hart, `k` free values after `s`. -/
def State.commandStart (s : State) (k : Nat) : State := scrambleForCommand s.dm.cmdHart (s.bump k)

theorem State.commandStart_get {s : State} {hart : Hart} (hh : s.harts[s.dm.cmdHart]? = some hart) (k : Nat) :
    (s.commandStart k).harts[s.dm.cmdHart]? = some (hart.scratched (s.free + k)) := by
  simp only [State.commandStart, scrambleForCommand, State.bump_frame, State.modHart_get, hh, if_true, Option.map_some]
  rfl

/-- Of `s` only the dscratch registers of the command's hart, and free values, are used. -/
def State.onlyScratch (s t : State) : Prop :=
  s.onlyHart s.dm.cmdHart t ∧ ∀ hart, s.harts[s.dm.cmdHart]? = some hart →
    ∃ new, t.harts[s.dm.cmdHart]? = some new ∧ new = { hart with dscratch0 := new.dscratch0, dscratch1 := new.dscratch1 }

theorem State.onlyScratch_bump (s : State) (k : Nat) : s.onlyScratch (s.bump k) :=
  ⟨⟨.refl s _, rfl⟩, fun hart hh => ⟨hart, hh, rfl⟩⟩

theorem State.onlyScratch_commandStart (s : State) (k : Nat) : s.onlyScratch (s.commandStart k) :=
  ⟨(s.bump k).onlyHart_modHart s.dm.cmdHart _ 2, fun _ hh => ⟨_, State.commandStart_get hh k, rfl⟩⟩

/-! ### The end of a command that fails (spec/42_abstract_commands.md R362, R367) -/

/-- The command ends with an error, which is kept if it is the first; the data registers are any value, and no register of
the hart but dscratch changes. -/
def State.fails (s : State) (e : BitVec 3) (t : State) : Prop :=
  s.sameElsewhere s.dm.cmdHart t ∧
    t.dm = { s.dm with
      phase := .idle
      data := t.dm.data
      cmderr := if s.dm.cmderr = 0 then e else s.dm.cmderr } ∧
    ∀ hart, s.harts[s.dm.cmdHart]? = some hart → ∃ new, t.harts[s.dm.cmdHart]? = some new ∧
      new = { hart with dscratch0 := new.dscratch0, dscratch1 := new.dscratch1 }

theorem State.onlyScratch.fails {s t : State} (h : s.onlyScratch t) (e : BitVec 3) :
    s.fails e (finishCommand (some e) t) := by
  obtain ⟨⟨helsewhere, hdm⟩, hscratch⟩ := h
  refine ⟨helsewhere.trans ((State.hartEffect.refl t _).finishCommand _).elsewhere, ?_, hscratch⟩
  rw [finishCommand_dm, hdm]

/-- A command whose start already fails. -/
theorem finishCommand_fails (s : State) (e : BitVec 3) : s.fails e (finishCommand (some e) s) :=
  (s.onlyScratch_bump 0).fails e

/-- A command that fails once it has started. -/
theorem finishCommand_commandStart_fails (s : State) (k : Nat) (e : BitVec 3) :
    s.fails e (finishCommand (some e) (s.commandStart k)) :=
  (s.onlyScratch_commandStart k).fails e

/-- A command that is not supported changes nothing but busy and cmderr (spec/30_encoding.md R245). -/
theorem finishQuiet_error (s : State) (e : BitVec 3) :
    finishQuiet (some e) s = { s with dm := { s.dm with
      phase := .idle
      cmderr := if s.dm.cmderr = 0 then e else s.dm.cmderr } } := by
  have hdm := finishQuiet_dm (some e) s
  simp only at hdm
  rw [← hdm]
  rfl

/-! ### The status of a present hart (spec/41_reset_select_run.md R320) -/

/-- A hart that is available and out of reset is halted in Debug Mode and else running. -/
theorem Hart.status_present {hart : Hart} (ha : hart.avail = true) (hr : hart.inReset = false) (c : Config) :
    hart.status c = if hart.debugMode then .halted else .running := by
  simp [Hart.status, ha, hr]

theorem Hart.status_ne_unavailable {hart : Hart} (ha : hart.avail = true) (hr : hart.inReset = false) (c : Config) :
    hart.status c ≠ .unavailable := by
  rw [Hart.status_present ha hr]
  split <;> simp

/-! ### Why a transfer is refused (spec/42_abstract_commands.md R371 to R373) -/

/-- Every regno below 0x1000 is a CSR. -/
theorem regRef_csr {num : Nat} (h : num < 0x1000) : regRef num = .csr num := if_pos h

theorem regRef_gpr {num : Nat} (hl : 0x1000 ≤ num) (hu : num < 0x1020) : regRef num = .gpr (num - 0x1000) := by
  rw [regRef, if_neg (by omega), if_pos hu]

theorem regRef_fpr {num : Nat} (hl : 0x1020 ≤ num) (hu : num < 0x1040) : regRef num = .fpr (num - 0x1020) := by
  rw [regRef, if_neg (by omega), if_neg (by omega), if_pos hu]

theorem regRef_unmapped {num : Nat} (hl : 0x1040 ≤ num) (hu : num < 0xc000) : regRef num = .unmapped := by
  rw [regRef, if_neg (by omega), if_neg (by omega), if_neg (by omega), if_pos hu]

/-- A size in bits as data registers. -/
theorem width_div (size : Nat) : 8 * 2 ^ size / 32 = 2 ^ size / 4 := by omega

/-- A size that is not listed, has no room in the data registers or is above the register's, and a regno that names no
register, are not supported, whatever else holds of the transfer. -/
theorem transferError_notSupported {s : State} {h : Nat} {hart : Hart} {size : BitVec 3} {num : Nat}
    (hh : s.harts[h]? = some hart) (ha : hart.avail = true) (hr : hart.inReset = false)
    (hbad : size.toNat < 2 ∨ 4 < size.toNat ∨ s.cfg.datacount < 2 ^ size.toNat / 4 ∨
      hart.regSize (regRef num) < 8 * 2 ^ size.toNat ∨ regRef num = .unmapped) (n : Nat) (write : Bool) :
    transferError s n h size write num = some errNotSupported := by
  simp only [transferError, hh, if_neg (Hart.status_ne_unavailable ha hr s.cfg), width_div]
  by_cases hsize : size.toNat < 2 ∨ 4 < size.toNat
  · rw [if_pos hsize]
  rw [if_neg hsize]
  by_cases hdata : s.cfg.datacount < 2 ^ size.toNat / 4
  · rw [if_pos hdata]
  rw [if_neg hdata]
  by_cases hwidth : hart.regSize (regRef num) < 8 * 2 ^ size.toNat
  · rw [if_pos hwidth]
  have hunmapped : regRef num = .unmapped := by tauto
  rw [if_neg hwidth, if_pos hunmapped, ite_self]

/-- The Program Buffer cannot run on a hart that is there where there is none, or where the hart runs (R391, R373). -/
theorem postexecError_eq {s : State} {h : Nat} {hart : Hart} (hh : s.harts[h]? = some hart) (ha : hart.avail = true)
    (hr : hart.inReset = false) (n : Nat) :
    postexecError s n h = if s.cfg.progbufsize = 0 then some errNotSupported
      else if hart.debugMode then none else some s.cfg.notHaltedCmderr := by
  simp only [postexecError, hh, Hart.status_present ha hr]
  cases hart.debugMode <;> simp

/-! ### Commands that fail (spec/42_abstract_commands.md R370) -/

/-- A transfer alone that is refused. -/
theorem exec_transfer_refused {s : State} {size : BitVec 3} {write : Bool} {regno : BitVec 16} {e : BitVec 3}
    (he : transferError (s.commandStart 3) (s.free + 1) s.dm.cmdHart size write regno.toNat = some e) :
    exec (.accessRegister size false true write regno false false) s =
      .next (finishCommand (some e) (s.commandStart 3)) := by
  have hexec : exec (.accessRegister size false true write regno false false) s =
      .next (match transferError (s.commandStart 3) (s.free + 1) s.dm.cmdHart size write regno.toNat with
        | some e => finishCommand (some e) (s.commandStart 3)
        | none => finishCommand none (doTransfer s.dm.cmdHart size write regno.toNat (s.commandStart 3))) := by
    simp only [exec, execAccessRegister, State.commandStart]
    cases transferError (scrambleForCommand s.dm.cmdHart (s.bump 3)) (s.free + 1) s.dm.cmdHart size write regno.toNat <;>
      rfl
  rw [hexec, he]

/-- The Program Buffer alone that is refused. -/
theorem exec_postexec_refused {s : State} {e : BitVec 3}
    (he : postexecError (s.commandStart 3) (s.free + 2) s.dm.cmdHart = some e) (size : BitVec 3) (write : Bool)
    (regno : BitVec 16) :
    exec (.accessRegister size true false write regno false false) s =
      .next (finishCommand (some e) (s.commandStart 3)) := by
  have hexec : exec (.accessRegister size true false write regno false false) s =
      .next (match postexecError (s.commandStart 3) (s.free + 2) s.dm.cmdHart with
        | some e => finishCommand (some e) (s.commandStart 3)
        | none => startProgbuf s.dm.cmdHart (s.commandStart 3)) := by
    simp only [exec, execAccessRegister, State.commandStart]
    cases postexecError (scrambleForCommand s.dm.cmdHart (s.bump 3)) (s.free + 2) s.dm.cmdHart <;> rfl
  rw [hexec, he]

/-- Reserved bits written as 1 end the command with cmderr 2 where they are not ignored (spec/30_encoding.md R246). -/
theorem exec_accessRegister_reserved (size : BitVec 3) (postexec transfer write : Bool) (regno : BitVec 16) {r23 r19 : Bool}
    (hres : r23 = true ∨ r19 = true) (s : State) : exec (.accessRegister size postexec transfer write regno r23 r19) s =
      if s.cfg.cmdReservedNotSupported then .next (finishCommand (some errNotSupported) s)
      else exec (.accessRegister size postexec transfer write regno false false) s := by
  have hor : (r23 || r19) = true := by simpa using hres
  simp only [exec, execAccessRegister, hor, Bool.true_and, Bool.or_self, Bool.false_and]
  cases s.cfg.cmdReservedNotSupported <;> simp

/-- Access Register that asks for nothing (R370). -/
theorem exec_accessRegister_nothing (size : BitVec 3) (write : Bool) (regno : BitVec 16) (s : State) :
    exec (.accessRegister size false false write regno false false) s =
      .next (match idleCommandError s s.dm.cmdHart with
        | some e => finishCommand (some e) (s.bump 1)
        | none => finishQuiet none s) := by
  simp only [exec, execAccessRegister]
  cases idleCommandError s s.dm.cmdHart <;> rfl

/-- The cmderr for a hart that is missing or not available is one of three (spec/93_implementation_defined.md U16). -/
theorem unavailableError_mem (n : Nat) : unavailableError n ∈ [(2 : BitVec 3), 4, 7] := by
  have hlt : Config.freeNat n % 3 < 3 := Nat.mod_lt _ (by decide)
  simp only [unavailableError, pick, List.length_cons, List.length_nil, Nat.zero_add, Nat.reduceAdd]
  interval_cases Config.freeNat n % 3 <;> decide

/-! ### Quick Access (spec/42_abstract_commands.md R400) -/

/-- Quick Access where it is implemented: reserved bits first, then what the hart's status allows. -/
theorem exec_quickAccess_present {s : State} {hart : Hart} (hq : s.cfg.quickAccess = true)
    (hh : s.harts[s.dm.cmdHart]? = some hart) (ha : hart.avail = true) (hr : hart.inReset = false) :
    exec (.quickAccess 0) s = .next (
      if hart.debugMode then finishCommand (some errHaltResume) (s.commandStart 1)
      else if s.cfg.progbufsize = 0 then finishCommand (some errNotSupported) (s.commandStart 1)
      else { s.commandStart 1 with dm := { s.dm with phase := .quickHalt, quick := true } }) := by
  have hget := State.commandStart_get hh 1
  have hstatus : (hart.scratched (s.free + 1)).status s.cfg = if hart.debugMode then .halted else .running :=
    Hart.status_present (hart := hart.scratched (s.free + 1)) ha hr s.cfg
  have hcfg : (s.commandStart 1).cfg = s.cfg := rfl
  simp only [State.commandStart] at hget hcfg
  simp only [exec, execQuickAccess, hq, hget, State.commandStart, hcfg, hstatus]
  cases hart.debugMode <;> simp

/-- Reserved bits of Quick Access written as 1 (spec/30_encoding.md R246). -/
theorem exec_quickAccess_reserved {s : State} {reserved : BitVec 24} (hq : s.cfg.quickAccess = true)
    (hne : reserved ≠ 0) :
    exec (.quickAccess reserved) s =
      if s.cfg.cmdReservedNotSupported then .next (finishCommand (some errNotSupported) s)
      else exec (.quickAccess 0) s := by
  have hne' : ¬reserved = 0#24 := hne
  cases hns : s.cfg.cmdReservedNotSupported <;> simp [exec, execQuickAccess, hq, hns, hne']

/-! ### Commands that are turned away, or do nothing (O51) -/

/-- A size or regno that a transfer on this hart is not supported with, the kinds of register apart. -/
theorem Hart.regSize_lt_of {hart : Hart} {num width : Nat}
    (h : (0x1000 ≤ num ∧ num < 0x1020 ∧ hart.cfg.xlen < width) ∨
      (num < 0x1000 ∧ csrWidth hart.cfg.xlen hart.cfg.csrWidths num < width) ∨ (0x1040 ≤ num ∧ num < 0xc000)) :
    hart.regSize (regRef num) < width ∨ regRef num = .unmapped := by
  obtain ⟨hl, hu, hlt⟩ | ⟨hu, hlt⟩ | ⟨hl, hu⟩ := h
  · rw [regRef_gpr hl hu]
    exact .inl hlt
  · rw [regRef_csr hu]
    exact .inl hlt
  · exact .inr (regRef_unmapped hl hu)

/-- The idle command has an error exactly on a hart that is missing or not available. -/
theorem idleCommandError_eq (s : State) (h : Nat) : idleCommandError s h =
    if s.status h = .unavailable ∨ s.status h = .nonexistent then some (unavailableError s.free) else none := by
  unfold idleCommandError
  cases s.status h <;> rfl

/-- Settles O51: each command by its branch of the command engine; all failures end the same way. -/
theorem commandsTurnedAway : Obligations.CommandsTurnedAway := by
  intro s failed notSupported
  refine ⟨fun _ _ => congrArg _ (finishQuiet_error s 2), fun reserved hq => ?_, fun size write regno hst => ?_,
    fun size write regno hst => ?_, fun size postexec transfer write regno r23 r19 hres => ?_,
    fun reserved hne hq => ?_, fun hart size write regno hh ha hr hbad => ?_, fun hart size regno hh ha hr hp => ?_,
    fun hart size regno hh ha hr hd hp => ?_, fun hart hh ha hr hd hq => ?_⟩
  · simp only [exec, execQuickAccess, hq]
    exact congrArg _ (finishQuiet_error s 2)
  · rw [exec_accessRegister_nothing, idleCommandError_eq, if_neg (by rcases hst with h | h <;> simp [h])]
    rfl
  · rw [exec_accessRegister_nothing, idleCommandError_eq, if_pos hst]
    exact ⟨_, unavailableError_mem s.free, _, rfl, (s.onlyScratch_bump 1).fails _, rfl⟩
  · rw [exec_accessRegister_reserved size postexec transfer write regno hres]
    exact ⟨fun hns => ⟨_, if_pos hns, finishCommand_fails s 2⟩, fun hns => if_neg (by simp [hns])⟩
  · rw [exec_quickAccess_reserved hq hne]
    exact ⟨fun hns => ⟨_, if_pos hns, finishCommand_fails s 2⟩, fun hns => if_neg (by simp [hns])⟩
  · have herr := transferError_notSupported (size := size) (num := regno.toNat) (State.commandStart_get hh 3) ha hr
      (hbad.imp_right (.imp_right (.imp_right Hart.regSize_lt_of))) (s.free + 1) write
    exact ⟨_, exec_transfer_refused herr, finishCommand_commandStart_fails s 3 2⟩
  · have herr := postexecError_eq (State.commandStart_get hh 3) ha hr (s.free + 2)
    rw [if_pos (show (s.commandStart 3).cfg.progbufsize = 0 from hp)] at herr
    exact ⟨_, exec_postexec_refused herr size false regno, finishCommand_commandStart_fails s 3 2⟩
  · have herr := postexecError_eq (State.commandStart_get hh 3) ha hr (s.free + 2)
    rw [if_neg (show (s.commandStart 3).cfg.progbufsize ≠ 0 from Nat.ne_of_gt hp),
      if_neg (show ¬(hart.scratched (s.free + 3)).debugMode = true by simp [Hart.scratched, hd])] at herr
    exact ⟨_, exec_postexec_refused herr size false regno, finishCommand_commandStart_fails s 3 _⟩
  · refine ⟨_, (exec_quickAccess_present hq hh ha hr).trans ?_, finishCommand_commandStart_fails s 1 4⟩
    rw [if_pos hd]
    rfl

end Sys2Proof.Machine
end

section
/-! PROOF. Access Register that is carried out (O49, O50): the arguments in the data registers, what a command that has taken
dscratch still finds in a hart, the transfer, and the start of the Program Buffer after it. A read and a write are each said
once, for whatever register is transferred. -/

namespace Sys2Proof.Machine

/-! ### Arguments (spec/42_abstract_commands.md R363) -/

/-- Arguments are made of their words. -/
theorem argNat_congr {data data' : Vector Word 12} {first : Nat} : ∀ {words : Nat},
    (∀ k, first ≤ k → k < first + words → vget data k 0 = vget data' k 0) →
      argNat data first words = argNat data' first words
  | 0, _ => rfl
  | words + 1, h => by
    rw [argNat, argNat, argNat_congr fun k hl hu => h k hl (by omega), h (first + words) (by omega) (by omega)]

theorem argNat_lt (data : Vector Word 12) (first : Nat) : ∀ words, argNat data first words < 2 ^ (32 * words)
  | 0 => by simp [argNat]
  | words + 1 => by
    have ih := argNat_lt data first words
    have hword : (vget data (first + words) 0).toNat + 1 ≤ 2 ^ 32 := (vget data (first + words) 0).isLt
    have hmul := Nat.mul_le_mul_right (2 ^ (32 * words)) hword
    rw [argNat, Nat.mul_succ, Nat.pow_add]
    nlinarith

/-- What was stored as an argument is read as it, in as many words. -/
theorem argNat_setArg (data : Vector Word 12) (first v : Nat) : ∀ {words : Nat}, first + words ≤ 12 →
    argNat (setArg data first v words) first words = v % 2 ^ (32 * words)
  | 0, _ => by simp [argNat, Nat.mod_one]
  | words + 1, h => by
    have hlow : argNat (setArg data first v (words + 1)) first words = argNat (setArg data first v words) first words :=
      argNat_congr fun k _ hk => by rw [setArg, vget_vset _ (by omega), if_neg (by omega)]
    rw [argNat, hlow, argNat_setArg data first v (by omega), setArg, vget_vset _ (by omega), if_pos rfl,
      BitVec.toNat_ofNat, Nat.mul_succ, Nat.pow_add, Nat.mod_mul, Nat.mul_comm (2 ^ (32 * words))]

/-- The data registers of an argument. -/
theorem argMask_getLsbD (first words : Nat) {i : Nat} (hi : i < 12) :
    (argMask first words).getLsbD i = decide (first ≤ i ∧ i < first + words) := by
  rw [argMask, BitVec.getLsbD_ofNat, packBits_testBit]
  simp [hi]

/-! ### The value a write stores (spec/42_abstract_commands.md R375) -/

/-- A value stored in a register ends in the value written, and is that value if the sizes are the same. -/
theorem widened_toNat (n : Nat) {width v : Nat} (size : Nat) (hw : width ≤ 128) (hv : v < 2 ^ width) :
    (widened n width size v).toNat % 2 ^ width = v ∧ (width = size → (widened n width size v).toNat = v) := by
  have hle : (2 : Nat) ^ width ≤ 2 ^ 128 := Nat.pow_le_pow_right (by decide) hw
  have hmod : v % 2 ^ width = v := Nat.mod_eq_of_lt hv
  have hsame : v % 2 ^ 128 = v := Nat.mod_eq_of_lt (hv.trans_le hle)
  unfold widened
  split
  next hlt =>
    have hhigh : (Config.freeWord n).toNat / 2 ^ width * 2 ^ width % 2 ^ size % 2 ^ width = 0 := by
      rw [Nat.mod_mod_of_dvd _ (Nat.pow_dvd_pow 2 hlt.le), Nat.mul_mod_left]
    refine ⟨?_, fun h => absurd h hlt.ne⟩
    rw [BitVec.toNat_ofNat, Nat.mod_mod_of_dvd _ (Nat.pow_dvd_pow 2 hw), Nat.add_mod, hhigh, Nat.add_zero, Nat.mod_mod,
      hmod, hmod]
  next => rw [BitVec.toNat_ofNat, hmod, hsame, hmod]; exact ⟨rfl, fun _ => rfl⟩

/-- A value of XLEN bits has XLEN bits. -/
theorem Hart.trunc_toNat (hart : Hart) (v : XWord) : (hart.trunc v).toNat = v.toNat % 2 ^ hart.cfg.xlen := by
  rw [Hart.trunc, BitVec.toNat_ofNat, Nat.mod_eq_of_lt ((Nat.mod_le _ _).trans_lt v.isLt)]

@[simp] theorem Hart.trunc_trunc (hart : Hart) (v : XWord) : hart.trunc (hart.trunc v) = hart.trunc v := by
  rw [Hart.trunc, Hart.trunc_toNat, Nat.mod_mod]
  rfl

@[simp] theorem Hart.pcBits_trunc (hart : Hart) (v : XWord) : hart.pcBits (hart.trunc v) = hart.pcBits v := by
  rw [Hart.pcBits, Hart.trunc_trunc]
  rfl

/-! ### What a command that has taken dscratch finds (spec/10_state.md R124) -/

/-- Which CSRs a hart has does not depend on dscratch, nor what another CSR reads. -/
theorem readCsr_scratched (s : State) (hart : Hart) (n num : Nat) :
    (readCsr s (hart.scratched n) num).isSome = (readCsr s hart num).isSome ∧
    (num ≠ 0x7b2 → num ≠ 0x7b3 → readCsr s (hart.scratched n) num = readCsr s hart num) := by
  have hshadow : (hart.scratched n).shadowCsr s num = hart.shadowCsr s num := rfl
  have hexists (b : Bool) (v w : XWord) : (if b then some v else none).isSome = (if b then some w else none).isSome := by
    cases b <;> rfl
  unfold readCsr
  rw [hshadow]
  cases hart.shadowCsr s num with
  | some k => exact ⟨rfl, fun _ _ => rfl⟩
  | none =>
    simp only
    split
    case h_3 => exact ⟨hexists _ _ _, fun h => absurd rfl h⟩
    case h_4 => exact ⟨hexists _ _ _, fun _ h => absurd rfl h⟩
    all_goals exact ⟨rfl, fun _ _ => rfl⟩

/-- All a write of a general register changes. -/
theorem Hart.setGpr_eq (hart : Hart) (i : Nat) (v : XWord) :
    hart.setGpr i v = { hart with gprs := (hart.setGpr i v).gprs } := by
  unfold Hart.setGpr
  split <;> rfl

/-- Taking dscratch before the write of a general register is taking it after. -/
theorem Hart.setGpr_scratched (hart : Hart) (n i : Nat) (v : XWord) :
    (hart.scratched n).setGpr i v = (hart.setGpr i v).scratched n := by
  have hcfg : (hart.scratched n).cfg = hart.cfg := rfl
  unfold Hart.setGpr
  rw [hcfg]
  split <;> rfl

theorem Hart.writeTselect_scratched (hart : Hart) (n : Nat) (v : XWord) :
    (hart.scratched n).writeTselect v = { hart.writeTselect v with
      dscratch0 := ((hart.scratched n).writeTselect v).dscratch0
      dscratch1 := ((hart.scratched n).writeTselect v).dscratch1 } := by
  unfold Hart.writeTselect
  by_cases hnone : hart.trigs = []
  · simp only [Hart.scratched, hnone, if_true]
  · by_cases hvalid : (hart.trunc v).toNat < hart.trigs.length
    all_goals
      simp only [Hart.trunc] at hvalid
      simp only [Hart.scratched, Hart.trunc, hnone, hvalid, if_true, if_false]

/-- Writing a CSR of a hart whose dscratch is taken differs from writing it before in dscratch alone. -/
theorem Hart.writeCsr_scratched (hart : Hart) (d : Bool) (m n num : Nat) (v : XWord) :
    (hart.scratched n).writeCsr d m num v = { hart.writeCsr d m num v with
      dscratch0 := ((hart.scratched n).writeCsr d m num v).dscratch0
      dscratch1 := ((hart.scratched n).writeCsr d m num v).dscratch1 } := by
  unfold Hart.writeCsr
  simp only
  split
  case h_5 => exact hart.writeTselect_scratched n _
  case h_29 =>
    by_cases hlisted : hart.cfg.csrList.contains num = true
    all_goals
      simp only [Hart.scratched, hlisted, if_true]
      rfl
  all_goals rfl

/-! ### A transfer that is done (spec/42_abstract_commands.md R371 to R375) -/

/-- A transfer of this size finds hart `h` there, and room in the data registers. -/
structure State.reaches (s : State) (h : Nat) (hart : Hart) (size : BitVec 3) : Prop where
  get : s.harts[h]? = some hart
  avail : hart.avail = true
  outOfReset : hart.inReset = false
  listed : 2 ≤ size.toNat ∧ size.toNat ≤ 4
  room : 2 ^ size.toNat / 4 ≤ s.cfg.datacount

/-- What makes a transfer possible on a hart that supports it: beyond that, the register exists, has the size and takes a
write. -/
structure State.canTransfer (s : State) (h : Nat) (hart : Hart) (size : BitVec 3) (write : Bool) (num : Nat) : Prop
    extends s.reaches h hart size where
  fits : 8 * 2 ^ size.toNat ≤ hart.regSize (regRef num)
  x0 : write = true → regRef num = .gpr 0 → hart.cfg.x0Writable = true
  mapped : regRef num ≠ .unmapped
  present : regExists s hart write (regRef num) = true

/-- Whether the hart, as it is now, supports a transfer (R371). -/
def Hart.supports (hart : Hart) (num : Nat) (size : BitVec 3) (write : Bool) : Bool :=
  if hart.debugMode then hart.supportedHalted num size write else hart.supportedRunning num size write

section
variable {s : State} {h : Nat} {hart : Hart} {size : BitVec 3} {write : Bool} {num : Nat}

/-- A possible transfer depends on what the hart supports in its state. -/
theorem State.canTransfer.error (hok : s.canTransfer h hart size write num) (n : Nat) :
    transferError s n h size write num =
      if hart.supports num size write then none
      else if hart.debugMode then some errNotSupported
      else if hart.supportedHalted num size write then some s.cfg.notHaltedCmderr else some errNotSupported := by
  obtain ⟨⟨hget, havail, hreset, hlisted, hroom⟩, hfits, hx0, hmapped, hpresent⟩ := hok
  have hx0' : ¬(regRef num = .gpr 0 ∧ write = true ∧ (!hart.cfg.x0Writable) = true) := by
    rintro ⟨hgpr, hwrite, hno⟩
    simp [hx0 hwrite hgpr] at hno
  have hsize : ¬(size.toNat < 2 ∨ 4 < size.toNat) := by omega
  simp only [transferError, hget, width_div, if_neg hsize, if_neg (Nat.not_lt.mpr hroom), if_neg (Nat.not_lt.mpr hfits),
    if_neg hx0', if_neg hmapped, hpresent, Bool.not_true, Bool.false_eq_true, if_false,
    Hart.status_present havail hreset, Hart.supports]
  by_cases hd : hart.debugMode = true
  all_goals simp [hd]

/-- The width of a listed size in data registers. -/
theorem width_of_listed (h2 : 2 ≤ size.toNat) (h4 : size.toNat ≤ 4) :
    8 * 2 ^ size.toNat = 32 * (2 ^ size.toNat / 4) ∧ 2 ^ size.toNat / 4 ≤ 4 := by
  interval_cases size.toNat <;> decide

/-- Taking dscratch leaves a transfer possible. -/
theorem State.canTransfer.start (hok : s.canTransfer s.dm.cmdHart hart size write num) (k : Nat) :
    (s.commandStart k).canTransfer s.dm.cmdHart (hart.scratched (s.free + k)) size write num where
  get := State.commandStart_get hok.get k
  avail := hok.avail
  outOfReset := hok.outOfReset
  listed := hok.listed
  room := hok.room
  fits := hok.fits
  x0 := hok.x0
  mapped := hok.mapped
  present := by
    have hpresent := hok.present
    revert hpresent
    cases regRef num with
    | csr n =>
      have hread : readCsr (s.commandStart k) (hart.scratched (s.free + k)) n =
          readCsr s (hart.scratched (s.free + k)) n := rfl
      have hro : (hart.scratched (s.free + k)).csrReadOnly (s.commandStart k) n = hart.csrReadOnly s n := rfl
      obtain ⟨hsome, -⟩ := readCsr_scratched s hart (s.free + k) n
      simp only [regExists, hread, hro, hsome, imp_self]
    | gpr i => exact id
    | fpr i => exact id
    | custom => exact id
    | unmapped => exact id

end

/-! ### After the transfer (spec/42_abstract_commands.md R380) -/

/-- After the transfer the Program Buffer starts, or the command ends. -/
def afterTransfer (h : Nat) (postexec : Bool) (s : State) : State :=
  if postexec then startProgbuf h s else finishCommand none s

/-- What the start of the Program Buffer makes of a hart. -/
def Hart.afterTransfer (postexec : Bool) (hart : Hart) : Hart :=
  if postexec then { hart with inProgbuf := true, pc := hart.trunc (BitVec.ofNat 128 hart.cfg.progbufAddr) } else hart

theorem afterTransfer_get {s : State} {h : Nat} {hart : Hart} (hh : s.harts[h]? = some hart) (postexec : Bool) :
    (afterTransfer h postexec s).harts[h]? = some (hart.afterTransfer postexec) := by
  cases postexec with
  | false => exact hh
  | true =>
    simp only [afterTransfer, startProgbuf, if_true, State.modHart_get, hh, Option.map_some]
    rfl

/-- Of the DM only busy and, if the command ends, the data registers change. -/
theorem afterTransfer_dm (h : Nat) (postexec : Bool) (s : State) : (afterTransfer h postexec s).dm = { s.dm with
    phase := if postexec then .progbuf else .idle
    data := if postexec then s.dm.data else scrambleData s.cfg s.free s.dm.defined s.dm.data } := by
  cases postexec <;> rfl

section
variable {s : State} {hart : Hart} {size : BitVec 3} {postexec write : Bool} {regno : BitVec 16}

/-- A command with this transfer is carried out: the transfer is possible and supported, and the Program Buffer can run if it
is asked for. -/
structure State.accepts (s : State) (hart : Hart) (size : BitVec 3) (postexec write : Bool) (num : Nat) : Prop
    extends s.canTransfer s.dm.cmdHart hart size write num where
  supported : hart.supports num size write = true
  canRun : postexec = true → hart.debugMode = true ∧ 0 < s.cfg.progbufsize

/-- The transfer of a command that has started, before the Program Buffer. -/
def State.transferred (s : State) (size : BitVec 3) (write : Bool) (regno : BitVec 16) : State :=
  doTransfer s.dm.cmdHart size write regno.toNat (s.commandStart 3)

/-- The transfer is done; then the Program Buffer starts if it is asked for. -/
theorem State.accepts.exec_eq (hok : s.accepts hart size postexec write regno.toNat) :
    exec (.accessRegister size postexec true write regno false false) s =
      .next (afterTransfer s.dm.cmdHart postexec (s.transferred size write regno)) := by
  have hstart := hok.start 3
  have htransfer : transferError (s.commandStart 3) (s.free + 1) s.dm.cmdHart size write regno.toNat = none := by
    rw [hstart.error, if_pos (show (hart.scratched (s.free + 3)).supports regno.toNat size write = true from hok.supported)]
  have hbuffer : (if postexec then postexecError (s.commandStart 3) (s.free + 2) s.dm.cmdHart else none) = none := by
    cases hp : postexec with
    | false => rfl
    | true =>
      obtain ⟨hd, hsize⟩ := hok.canRun hp
      rw [if_pos rfl, postexecError_eq hstart.get hstart.avail hstart.outOfReset,
        if_neg (show (s.commandStart 3).cfg.progbufsize ≠ 0 from Nat.ne_of_gt hsize),
        if_pos (show (hart.scratched (s.free + 3)).debugMode = true from hd)]
  simp only [State.commandStart] at htransfer hbuffer
  simp only [exec, execAccessRegister, htransfer, hbuffer, Bool.or_self, Bool.false_and, Bool.false_eq_true, if_false,
    Bool.not_true, if_true]
  rfl

/-- What is left of the command's hart, given what the transfer made of it: the Program Buffer runs, or nothing else has
changed; dscratch apart. -/
def State.leaves (s : State) (hart : Hart) (postexec : Bool) (base : Hart) (t : State) (new : Hart) : Prop :=
  t.harts[s.dm.cmdHart]? = some new ∧
    (postexec = false → t.dm.phase = .idle ∧ new.inProgbuf = base.inProgbuf ∧ new.pc = base.pc) ∧
    (postexec = true → t.dm.phase = .progbuf ∧ new.inProgbuf = true ∧
      new.pc = hart.trunc (BitVec.ofNat 128 hart.cfg.progbufAddr)) ∧
    new = { base with
      inProgbuf := new.inProgbuf
      pc := new.pc
      dscratch0 := new.dscratch0
      dscratch1 := new.dscratch1 }

theorem afterTransfer_leaves {u : State} {x base : Hart} (hx : u.harts[s.dm.cmdHart]? = some x)
    (hbase : x = { base with dscratch0 := x.dscratch0, dscratch1 := x.dscratch1 }) (hcfg : base.cfg = hart.cfg) :
    s.leaves hart postexec base (afterTransfer s.dm.cmdHart postexec u) (x.afterTransfer postexec) := by
  refine ⟨afterTransfer_get hx postexec, ?_⟩
  rw [afterTransfer_dm, hbase]
  cases postexec with
  | false => exact ⟨fun _ => ⟨rfl, rfl, rfl⟩, nofun, rfl⟩
  | true => exact ⟨nofun, fun _ => ⟨rfl, rfl, by simp [Hart.afterTransfer, Hart.trunc, hcfg]⟩, rfl⟩

/-- What a command stores as an argument it leaves there, whether it ends or starts the Program Buffer (R367). -/
theorem argNat_afterTransfer (h : Nat) (postexec : Bool) {words : Nat} (hw : words ≤ 12) (v : Nat) (u : State) :
    argNat (afterTransfer h postexec (storeArg 0 words v u)).dm.data 0 words = v % 2 ^ (32 * words) := by
  refine (argNat_congr fun k _ hk => ?_).trans (argNat_setArg u.dm.data 0 v (by omega))
  rw [afterTransfer_dm]
  cases postexec with
  | true => rfl
  | false =>
    refine scrambleData_kept _ _ _ _ k (by omega) ?_
    simp only [storeArg, BitVec.getLsbD_or, argMask_getLsbD 0 words (show k < 12 by omega), Nat.zero_le, true_and, hk,
      decide_true, Bool.or_true]

/-! ### Reads (spec/42_abstract_commands.md R374) -/

/-- A read leaves `v` in the arguments and the hart as it was; then the Program Buffer starts if it is asked for. -/
def State.reads (s : State) (hart : Hart) (size : BitVec 3) (postexec : Bool) (regno : BitVec 16) (v : XWord) : Prop :=
  ∃ t new, exec (.accessRegister size postexec true false regno false false) s = .next t ∧
    s.sameElsewhere s.dm.cmdHart t ∧
    t.dm = { s.dm with phase := t.dm.phase, data := t.dm.data, defined := t.dm.defined } ∧
    argNat t.dm.data 0 (2 ^ size.toNat / 4) = v.toNat % 2 ^ (8 * 2 ^ size.toNat) ∧ s.leaves hart postexec hart t new

/-- Every read that is carried out, whatever the register: it is the value the register has when the command has taken
dscratch. -/
theorem State.accepts.reads (hok : s.accepts hart size postexec false regno.toNat) {v : XWord}
    (hv : ∀ n, readReg (s.commandStart 3) (hart.scratched (s.free + 3)) n (regRef regno.toNat) = v) :
    s.reads hart size postexec regno v := by
  have hexec := hok.exec_eq
  obtain ⟨hwidth, hwords⟩ := width_of_listed hok.listed.1 hok.listed.2
  have hget := State.commandStart_get hok.get 3
  have htransferred : s.transferred size false regno =
      storeArg 0 (2 ^ size.toNat / 4) (v.toNat % 2 ^ (8 * 2 ^ size.toNat)) ((s.commandStart 3).bump 1) := by
    simp only [State.transferred, doTransfer, hget, hv, width_div, Bool.false_eq_true, if_false]
  refine ⟨_, _, hexec, (exec_command rfl hexec).elsewhere, ?_, ?_,
    afterTransfer_leaves (x := hart.scratched (s.free + 3)) ?_ rfl rfl⟩
  · rw [afterTransfer_dm, htransferred]
    rfl
  · rw [htransferred, argNat_afterTransfer _ _ (by omega), hwidth, Nat.mod_mod]
  · rw [htransferred]
    exact hget

/-! ### Writes (spec/42_abstract_commands.md R375) -/

/-- A write of a register of `full` bits stores `value`, which ends in the arguments, and changes the hart as `after` says;
then the Program Buffer starts if it is asked for. -/
def State.writes (s : State) (hart : Hart) (size : BitVec 3) (postexec : Bool) (regno : BitVec 16) (full : Nat)
    (after : XWord → Hart → Hart → Prop) : Prop :=
  ∃ t new base value, exec (.accessRegister size postexec true true regno false false) s = .next t ∧
    s.sameElsewhere s.dm.cmdHart t ∧ t.dm = { s.dm with phase := t.dm.phase, data := t.dm.data } ∧
    value.toNat % 2 ^ (8 * 2 ^ size.toNat) = argNat s.dm.data 0 (2 ^ size.toNat / 4) ∧
    (8 * 2 ^ size.toNat = full → value.toNat = argNat s.dm.data 0 (2 ^ size.toNat / 4)) ∧
    s.leaves hart postexec base t new ∧ after value base new

/-- Every write that is carried out, whatever the register, where storing the value changes the hart as `f` says and taking
dscratch before it makes no difference but for dscratch. -/
theorem State.accepts.writes {full : Nat} {after : XWord → Hart → Hart → Prop}
    (hok : s.accepts hart size postexec true regno.toNat)
    (hfull : hart.regSize (regRef regno.toNat) = full) {k : Nat} (f : XWord → Hart → Hart)
    (hwrite : ∀ v, writeReg s.dm.cmdHart (regRef regno.toNat) v ((s.commandStart 3).bump 1) =
      (((s.commandStart 3).bump 1).modHart s.dm.cmdHart (f v)).bump k)
    (hcfg : ∀ v, (f v hart).cfg = hart.cfg)
    (hscratch : ∀ v, f v (hart.scratched (s.free + 3)) = { f v hart with
      dscratch0 := (f v (hart.scratched (s.free + 3))).dscratch0
      dscratch1 := (f v (hart.scratched (s.free + 3))).dscratch1 })
    (hafter : ∀ v, after v (f v hart) ((f v (hart.scratched (s.free + 3))).afterTransfer postexec)) :
    s.writes hart size postexec regno full after := by
  have hexec := hok.exec_eq
  obtain ⟨hwidth, hwords⟩ := width_of_listed hok.listed.1 hok.listed.2
  have hget := State.commandStart_get hok.get 3
  have harg : argNat s.dm.data 0 (2 ^ size.toNat / 4) < 2 ^ (8 * 2 ^ size.toNat) := by
    rw [hwidth]
    exact argNat_lt _ _ _
  obtain ⟨hlow, hwhole⟩ := widened_toNat (s.commandStart 3).free full (show 8 * 2 ^ size.toNat ≤ 128 by omega) harg
  let value := widened (s.commandStart 3).free (8 * 2 ^ size.toNat) full (argNat s.dm.data 0 (2 ^ size.toNat / 4))
  have htransferred : s.transferred size true regno =
      (((s.commandStart 3).bump 1).modHart s.dm.cmdHart (f value)).bump k := by
    have hsize : (hart.scratched (s.free + 3)).regSize (regRef regno.toNat) = full := hfull
    simp only [State.transferred, doTransfer, hget, hwrite, hsize, width_div, if_true]
    rfl
  refine ⟨_, _, f value hart, value, hexec, (exec_command rfl hexec).elsewhere, ?_, hlow, hwhole,
    afterTransfer_leaves (x := f value (hart.scratched (s.free + 3))) ?_ (hscratch value) (hcfg value), hafter value⟩
  · rw [afterTransfer_dm, htransferred]
    rfl
  · rw [htransferred]
    simp only [State.bump_frame, State.modHart_get, hget, if_true, Option.map_some]

/-- The start of the Program Buffer leaves these fields of the hart. -/
theorem Hart.afterTransfer_frame (hart : Hart) (postexec : Bool) : hart.afterTransfer postexec = { hart with
    inProgbuf := (hart.afterTransfer postexec).inProgbuf
    pc := (hart.afterTransfer postexec).pc } := by
  cases postexec <;> rfl

/-- The hart of the command as its register is written: dscratch is taken. -/
theorem State.canTransfer.startGet {s : State} {hart : Hart} {size : BitVec 3} {write : Bool} {num : Nat}
    (hok : s.canTransfer s.dm.cmdHart hart size write num) :
    ((s.commandStart 3).bump 1).harts[s.dm.cmdHart]? = some (hart.scratched (s.free + 3)) :=
  State.commandStart_get hok.get 3

/-! ### General registers (spec/10_state.md R180) -/

theorem regRef_gpr_add {i : Nat} (hi : i < 32) : regRef (0x1000 + i) = .gpr i := by
  rw [regRef_gpr (by omega) (by omega), Nat.add_sub_cancel_left]

/-- A general register the hart has can be read in every size up to XLEN, and so written where x0 is. -/
theorem State.reaches.gpr {h i num : Nat} (hreach : s.reaches h hart size) (href : regRef num = .gpr i)
    (hn : i < hart.cfg.ngpr) (hfits : 8 * 2 ^ size.toNat ≤ hart.cfg.xlen)
    (hx0 : write = true → i = 0 → hart.cfg.x0Writable = true) : s.canTransfer h hart size write num := by
  refine ⟨hreach, ?_, fun hw hgpr => hx0 hw ?_, ?_, ?_⟩ <;> simp_all [Hart.regSize, regExists]

/-- A read of a general register. -/
theorem State.accepts.reads_gpr {i : Nat} (hok : s.accepts hart size postexec false regno.toNat)
    (href : regRef regno.toNat = .gpr i) : s.reads hart size postexec regno (hart.gpr i) :=
  hok.reads fun _ => by rw [href]; rfl

/-- A write of a general register: the others stay, and x0 keeps reading 0. -/
theorem State.accepts.writes_gpr {i : Nat} (hok : s.accepts hart size postexec true regno.toNat)
    (href : regRef regno.toNat = .gpr i) (hi : i < 32) (hn : i < hart.cfg.ngpr) :
    s.writes hart size postexec regno hart.cfg.xlen fun value base new =>
      (∀ j, j < 32 → new.gpr j = if j = i ∧ j ≠ 0 then hart.trunc value else hart.gpr j) ∧
        base = { hart with gprs := new.gprs } := by
  refine hok.writes (by rw [href]; rfl) (k := 0) (fun v hart => hart.setGpr i v) (fun v => ?_)
    (fun v => (hart.setGpr_frame i v).1) (fun v => ?_) fun v => ⟨fun j _ => ?_, ?_⟩
  · rw [href, writeReg_eq hok.startGet hok.outOfReset]
    rfl
  · rw [Hart.setGpr_scratched]
    rfl
  · have hgpr : (((hart.scratched (s.free + 3)).setGpr i v).afterTransfer postexec).gpr j = (hart.setGpr i v).gpr j := by
      rw [Hart.afterTransfer_frame, Hart.setGpr_scratched]
      rfl
    rw [hgpr, Hart.gpr_setGpr hart i j v hi]
    by_cases hj : j = i
    · subst hj
      simp [hn]
    · simp [hj]
  · rw [Hart.afterTransfer_frame, Hart.setGpr_scratched]
    exact hart.setGpr_eq i v

end

/-- Settles O49: the two transfers of a general register, which a halted hart supports in any configuration. -/
theorem accessRegisterGpr : Obligations.AccessRegisterGpr := by
  intro s hart size regno i postexec hh ha hr hd h2 h4 hroom hi hn hregno hpb ran
  have href : regRef regno.toNat = .gpr i := by rw [hregno, regRef_gpr_add hi]
  have hreach : s.reaches s.dm.cmdHart hart size := ⟨hh, ha, hr, ⟨h2, h4⟩, hroom⟩
  have hrun (hp : postexec = true) : hart.debugMode = true ∧ 0 < s.cfg.progbufsize := ⟨hd, hpb hp⟩
  refine ⟨fun hfits => ?_, fun hwhole hx0 => ?_⟩
  · have hsupported : hart.supports regno.toNat size false = true := by
      simp [Hart.supports, hd, Hart.supportedHalted, Hart.mandatory, href]
    have hok : s.accepts hart size postexec false regno.toNat := ⟨hreach.gpr href hn hfits nofun, hsupported, hrun⟩
    obtain ⟨t, new, hexec, helsewhere, hdm, harg, hget, hdone, hran, hnew⟩ := hok.reads_gpr href
    exact ⟨t, new, hexec, helsewhere, hdm, harg, hget, ⟨hdone, hran⟩, hnew⟩
  · have hsupported : hart.supports regno.toNat size true = true := by
      simp [Hart.supports, hd, Hart.supportedHalted, Hart.mandatory, href, hwhole]
    have hok : s.accepts hart size postexec true regno.toNat :=
      ⟨hreach.gpr href hn hwhole.le fun _ => hx0, hsupported, hrun⟩
    obtain ⟨t, new, base, value, hexec, helsewhere, hdm, -, hvalue, ⟨hget, hdone, hran, hnew⟩, hgpr, hbase⟩ :=
      hok.writes_gpr href hi hn
    obtain ⟨hwidth, -⟩ := width_of_listed h2 h4
    have hlt : argNat s.dm.data 0 (2 ^ size.toNat / 4) < 2 ^ hart.cfg.xlen := by
      rw [← hwhole, hwidth]
      exact argNat_lt _ _ _
    have htrunc : hart.trunc value = BitVec.ofNat 128 (argNat s.dm.data 0 (2 ^ size.toNat / 4)) := by
      rw [Hart.trunc, hvalue hwhole, Nat.mod_eq_of_lt hlt]
    rw [htrunc] at hgpr
    subst hbase
    exact ⟨t, new, hexec, helsewhere, hdm, hget, ⟨hdone, hran⟩, hgpr, hnew⟩

end Sys2Proof.Machine
end

section
/-! PROOF. Access Register on CSRs, on floating-point registers, on running harts and with narrow sizes (O50). Each kind of
register is a case of the read and the write of a transfer that is carried out: what the register reads as, and what storing
a value in it does to the hart. -/

namespace Sys2Proof.Machine

/-! ### What a write of a CSR leaves (spec/44_debug_mode.md R504, R505; spec/45_triggers.md R533) -/

/-- What a write from Debug Mode gives dpc, dscratch, tdata2 of a match or count trigger, and mepc. -/
theorem Hart.writeCsr_values (hart : Hart) (n num : Nat) (v : XWord) :
    (num = 0x7b1 → (hart.writeCsr true n num v).dpc = hart.pcBits v) ∧
    (num = 0x7b2 → (hart.writeCsr true n num v).dscratch0 = hart.trunc v) ∧
    (num = 0x7b3 → (hart.writeCsr true n num v).dscratch1 = hart.trunc v) ∧
    (num = 0x7a2 → ∀ trig, hart.trigs[hart.tselect.toNat]? = some trig → trig.cfg.kind = 2 ∨ trig.cfg.kind = 3 →
      (hart.writeCsr true n num v).trigs[hart.tselect.toNat]? = some { trig with tdata2 := hart.trunc v }) ∧
    (num = 0x341 → (hart.writeCsr true n num v).sys = { hart.sys with mepc := hart.pcBits v }) := by
  refine ⟨?_, ?_, ?_, ?_, ?_⟩ <;> rintro rfl
  · exact hart.pcBits_trunc v
  · rfl
  · rfl
  · intro trig htrig hkind
    have htrigs : (hart.writeCsr true n 0x7a2 v).trigs =
        hart.trigs.modify hart.tselect.toNat (Trigger.writeTdata hart.cfg.xlen 2 true (hart.trunc (hart.trunc v))) := rfl
    rw [htrigs, List.getElem?_modify_eq, htrig, Hart.trunc_trunc]
    simp [Trigger.writeTdata, hkind]
  · simp only [Hart.writeCsr, Hart.pcBits_trunc]

section
variable {s : State} {hart : Hart} {size : BitVec 3} {postexec write : Bool} {regno : BitVec 16}

/-! ### dpc of a running hart (spec/42_abstract_commands.md R374) -/

/-- A CSR as Access Register reads it: on a running hart dpc stands for the pc. -/
theorem readReg_csr_start {num : Nat} (h : num ≠ 0x7b2) (h' : num ≠ 0x7b3) (k n : Nat) :
    readReg (s.commandStart 3) (hart.scratched k) n (.csr num) =
      if num = 0x7b1 ∧ hart.debugMode = false then hart.pc else (readCsr s hart num).getD 0 := by
  have hread : readCsr (s.commandStart 3) (hart.scratched k) num = readCsr s (hart.scratched k) num := rfl
  rw [readReg, hread, (readCsr_scratched s hart k num).2 h h']
  simp [Hart.scratched]

/-! ### Writes of CSRs and floating-point registers (spec/42_abstract_commands.md R375) -/

/-- A write of a CSR that is no shadow of a data register, by the CSR's own rules. -/
theorem State.accepts.writes_csr {num : Nat} (hok : s.accepts hart size postexec true regno.toNat)
    (href : regRef regno.toNat = .csr num)
    (hshadow : hart.shadowCsr s num = none) (hdpc : num = 0x7b1 → hart.debugMode = true) :
    s.writes hart size postexec regno (csrWidth hart.cfg.xlen hart.cfg.csrWidths num) fun value base new =>
      (num = 0x7b1 → new.dpc = hart.pcBits value) ∧ (num = 0x7b2 → new.dscratch0 = hart.trunc value) ∧
        (num = 0x7b3 → new.dscratch1 = hart.trunc value) ∧
        (num = 0x7a2 → ∀ trig, hart.trigs[hart.tselect.toNat]? = some trig →
          trig.cfg.kind = 2 ∨ trig.cfg.kind = 3 →
          new.trigs[hart.tselect.toNat]? = some { trig with tdata2 := hart.trunc value }) ∧
        (num = 0x341 → new.sys = { hart.sys with mepc := hart.pcBits value }) ∧
        ∃ n, base = hart.writeCsr true n num value := by
  let n := ((s.commandStart 3).bump 1).free
  refine hok.writes (by rw [href]; rfl) (k := 1)
    (fun v hart => hart.writeCsr true n num v) (fun v => ?_) (fun v => (hart.writeCsr_frame true n num v).1)
    (fun v => hart.writeCsr_scratched true n (s.free + 3) num v) fun v => ?_
  · have hrunning : ¬(num = 0x7b1 ∧ (hart.scratched (s.free + 3)).debugMode = false) := fun ⟨h, hd⟩ => by
      rw [show (hart.scratched (s.free + 3)).debugMode = hart.debugMode from rfl, hdpc h] at hd
      cases hd
    rw [href, writeReg_eq hok.startGet hok.outOfReset]
    simp only
    rw [if_neg hrunning]
    exact writeCsr_own true _ num v _ _ hok.startGet hshadow
  · obtain ⟨hdpc, hds0, hds1, htdata, hmepc⟩ := (hart.scratched (s.free + 3)).writeCsr_values n num v
    rw [Hart.afterTransfer_frame]
    exact ⟨hdpc, hds0, hds1, htdata, hmepc, n, rfl⟩

/-- A write of dpc of a running hart goes to its pc. -/
theorem State.accepts.writes_pc (hok : s.accepts hart size postexec true regno.toNat)
    (href : regRef regno.toNat = .csr 0x7b1)
    (hd : hart.debugMode = false) :
    s.writes hart size postexec regno (csrWidth hart.cfg.xlen hart.cfg.csrWidths 0x7b1) fun value base _ =>
      base = { hart with pc := hart.pcBits value } := by
  refine hok.writes (by rw [href]; rfl) (k := 0)
    (fun v hart => { hart with pc := hart.pcBits v }) (fun v => ?_) (fun _ => rfl) (fun _ => rfl) fun _ => rfl
  rw [href, writeReg_eq hok.startGet hok.outOfReset]
  simp only
  rw [if_pos ⟨trivial, hd⟩]
  rfl

/-- A write of a floating-point register: the others stay. -/
theorem State.accepts.writes_fpr {i : Nat} (hok : s.accepts hart size postexec true regno.toNat)
    (href : regRef regno.toNat = .fpr i)
    (hi : i < 32) (hflen : hart.cfg.flen ≤ 128) :
    s.writes hart size postexec regno hart.cfg.flen fun value base new =>
      (∀ j, j < 32 → (vget new.fprs j 0).toNat =
        if j = i then value.toNat % 2 ^ hart.cfg.flen else (vget hart.fprs j 0).toNat) ∧
        base = { hart with fprs := new.fprs } := by
  refine hok.writes (by rw [href]; rfl) (k := 0) (fun v hart => hart.setFpr i v)
    (fun v => ?_) (fun _ => rfl) (fun _ => rfl) fun v => ?_
  · rw [href, writeReg_eq hok.startGet hok.outOfReset]
    rfl
  · rw [Hart.afterTransfer_frame]
    refine ⟨fun j _ => ?_, rfl⟩
    have hlt : v.toNat % 2 ^ hart.cfg.flen < 2 ^ 128 :=
      (Nat.mod_lt _ (Nat.two_pow_pos _)).trans_le (Nat.pow_le_pow_right (by decide) hflen)
    rw [show ((hart.scratched (s.free + 3)).setFpr i v).fprs =
      vset hart.fprs i (BitVec.ofNat 128 (v.toNat % 2 ^ hart.cfg.flen)) from rfl, vget_vset _ hi]
    split
    · rw [BitVec.toNat_ofNat, Nat.mod_eq_of_lt hlt]
    · rfl

end

/-! ### Which transfers are possible -/

section
variable {s : State} {hart : Hart} {size : BitVec 3} {write : Bool} {h num : Nat}

/-- A CSR that exists, and is not read-only if it is written. -/
theorem State.reaches.csr (hreach : s.reaches h hart size) (hcsr : num < 0x1000)
    (hsome : (readCsr s hart num).isSome = true) (hro : write = true → num / 2 ^ 10 % 4 ≠ 3)
    (hfits : 8 * 2 ^ size.toNat ≤ csrWidth hart.cfg.xlen hart.cfg.csrWidths num) :
    s.canTransfer h hart size write num := by
  have href := regRef_csr hcsr
  refine ⟨hreach, by rwa [href], fun _ => ?_, ?_, ?_⟩ <;> rw [href]
  · nofun
  · nofun
  · cases write with
    | false => simpa [regExists] using hsome
    | true =>
      have hwritable : (num / 2 ^ 10 % 4 == 3) = false := beq_false_of_ne (hro rfl)
      simp only [regExists, hsome, Hart.csrReadOnly, hwritable, Bool.false_and, Bool.and_false, Bool.not_false,
        Bool.and_true]

/-- A floating-point register of a hart that has them. -/
theorem State.reaches.fpr (hreach : s.reaches h hart size) (hl : 0x1020 ≤ num) (hu : num < 0x1040)
    (hflen : 0 < hart.cfg.flen) (hfits : 8 * 2 ^ size.toNat ≤ hart.cfg.flen) : s.canTransfer h hart size write num := by
  have href := regRef_fpr hl hu
  refine ⟨hreach, by rwa [href], fun _ => ?_, ?_, ?_⟩ <;> rw [href]
  · nofun
  · nofun
  · simpa [regExists] using hflen

/-- dpc exists on every hart (spec/10_state.md R120). -/
theorem readCsr_dpc (s : State) (hart : Hart) : readCsr s hart 0x7b1 = some hart.dpc := by
  simp [readCsr, hart.shadowCsr_debug s 0x7b1 rfl]

end

/-! ### Access Register elsewhere (O50) -/

/-- Settles O50: every clause is the read or the write of one kind of register; a running hart that does not support a
transfer refuses it. -/
theorem accessRegisterElsewhere : Obligations.AccessRegisterElsewhere := by
  intro s hart size postexec write regno hh ha hr h2 h4 hroom hpost num width arg supported becomes reads writes
  have hreach : s.reaches s.dm.cmdHart hart size := ⟨hh, ha, hr, ⟨h2, h4⟩, hroom⟩
  refine ⟨fun hsupported => ⟨?_, ?_, ?_, ?_, ?_, ?_, ?_⟩, ?_⟩
  · rintro rfl hcsr hne hne' hdpc hfits v hv
    have hok : s.accepts hart size postexec false num :=
      ⟨hreach.csr hcsr (by rw [hv]; rfl) nofun hfits, hsupported, hpost⟩
    refine hok.reads fun n => ?_
    rw [regRef_csr hcsr, readReg_csr_start hne hne', if_neg (fun ⟨h, hd⟩ => by simp [hdpc h] at hd), hv]
    rfl
  · rintro rfl hnum hd hfits
    have hcsr : num < 0x1000 := by omega
    have hsome : (readCsr s hart num).isSome = true := by rw [hnum, readCsr_dpc]; rfl
    have hok : s.accepts hart size postexec false num := ⟨hreach.csr hcsr hsome nofun hfits, hsupported, hpost⟩
    refine hok.reads fun n => ?_
    rw [regRef_csr hcsr, readReg_csr_start (by omega) (by omega), if_pos ⟨hnum, hd⟩]
  · rintro rfl hl hu hflen hfits
    have hok : s.accepts hart size postexec false num := ⟨hreach.fpr hl hu hflen hfits, hsupported, hpost⟩
    refine hok.reads fun n => ?_
    rw [regRef_fpr hl hu]
    rfl
  · rintro rfl hcsr hro hsome hshadow hdpc hfits
    have hok : s.accepts hart size postexec true num :=
      ⟨hreach.csr hcsr (Option.isSome_iff_ne_none.mpr hsome) (fun _ => hro) hfits, hsupported, hpost⟩
    exact hok.writes_csr (regRef_csr hcsr) hshadow hdpc
  · rintro rfl hnum hd hfits
    have hcsr : num < 0x1000 := by omega
    have hsome : (readCsr s hart num).isSome = true := by rw [hnum, readCsr_dpc]; rfl
    have hok : s.accepts hart size postexec true num :=
      ⟨hreach.csr hcsr hsome (fun _ => by rw [hnum]; decide) hfits, hsupported, hpost⟩
    have hwrites := hok.writes_pc (by rw [regRef_csr hcsr, hnum]) hd
    rw [← hnum] at hwrites
    exact hwrites
  · rintro rfl hl hu hflen hfits hflen'
    have hok : s.accepts hart size postexec true num := ⟨hreach.fpr hl hu hflen hfits, hsupported, hpost⟩
    exact hok.writes_fpr (regRef_fpr hl hu) (by omega) hflen'
  · rintro rfl hl hu hfits hx0
    have href := regRef_gpr hl (by omega)
    have hok : s.accepts hart size postexec true num :=
      ⟨hreach.gpr href (by omega) hfits fun _ _ => hx0 (by omega), hsupported, hpost⟩
    exact hok.writes_gpr href (by omega) (by omega)
  · intro hd hwrite hl hu hfits
    have href := regRef_gpr hl (by omega)
    have hcan : s.canTransfer s.dm.cmdHart hart size false num := hreach.gpr href (by omega) hfits nofun
    refine ⟨fun hrunning => ?_, fun hnot => ?_⟩
    · have hok : s.accepts hart size postexec false num :=
        ⟨hcan, by simpa [Hart.supports, hd] using hrunning, hpost⟩
      exact hok.reads_gpr href
    · have herr := (hcan.start 3).error (s.free + 1)
      have hno : hart.supports num size false = false := by simpa [Hart.supports, hd] using hnot
      have hhalted : hart.supportedHalted num size false = true := by simp [Hart.supportedHalted, Hart.mandatory, href]
      rw [show (hart.scratched (s.free + 3)).supports num size false = false from hno,
        show (hart.scratched (s.free + 3)).supportedHalted num size false = true from hhalted,
        show (hart.scratched (s.free + 3)).debugMode = false from hd] at herr
      obtain ⟨helsewhere, hdm, hscratch⟩ := finishCommand_commandStart_fails s 3 s.cfg.notHaltedCmderr
      obtain ⟨new, hget, hnew⟩ := hscratch hart hh
      exact ⟨_, new, exec_transfer_refused herr, helsewhere, hdm, hget, hnew⟩

end Sys2Proof.Machine
end

section
/-! PROOF. Quick Access (O52): it waits for its hart, which halts at its next move or on leaving reset; either way the halt
starts the Program Buffer or ends the command with cmderr 4. The end of the Program Buffer resumes the hart. -/

namespace Sys2Proof.Machine

/-! ### A running hart no trigger looks at (spec/45_triggers.md R542) -/

/-- A trigger that is not enabled does not match. -/
theorem chainMatches_disabled {p : Priv} (xlen : Nat) (timing : Bool) (f : Facts) : ∀ {ts : List Trigger} (ok : Bool),
    (∀ t ∈ ts, t.enabledAt p = false) → ∀ m ∈ chainMatches xlen p timing f ok ts, m = false
  | [], _, _, m, hm => by cases hm
  | t :: ts, ok, h, m, hm => by
    have hraw : t.raw xlen p timing f = false := by simp [Trigger.raw, h t (.head _)]
    rw [chainMatches, hraw] at hm
    obtain rfl | hm := List.mem_cons.mp hm
    · rfl
    · exact chainMatches_disabled xlen timing f _ (fun u hu => h u (.tail _ hu)) m hm

/-- No trigger fires where none matches. -/
theorem Hart.firesWith_of_none {hart : Hart} {ms : List Bool} (h : ∀ m ∈ ms, m = false) (action : BitVec 6) :
    hart.firesWith ms action = false := by
  refine List.any_eq_false.mpr fun p hp => ?_
  obtain ⟨-, hm⟩ := List.of_mem_zip hp
  simp [h p.2 hm]

/-- A running hart moves as `runMove` says. -/
theorem hartMove_running {s : State} {h : Nat} {hart : Hart} (hh : s.harts[h]? = some hart) (ha : hart.avail = true)
    (hr : hart.inReset = false) (hd : hart.debugMode = false) : hartMove h s = runMove h hart (s.moving h) := by
  simp [hartMove, hh, ha, hr, hd, State.moving]

/-- A hart that is asked to halt enters Debug Mode, where no enabled trigger and no ebreak comes before (R655). -/
theorem runMove_requested {s : State} {h : Nat} {hart : Hart}
    (htrig : ∀ trig ∈ hart.trigs, trig.enabledAt hart.priv = false) (hbreak : hart.ebreakEnabled = false)
    (hwants : wantsHalt s h hart = true) :
    runMove h hart s = .quiet (enterRequested h hart.ctl.haltreq hart.pc (s.bump 8)) := by
  have hfires (f : Facts) : hart.firesWith (hart.trigMatches hart.priv false f) 1 = false :=
    Hart.firesWith_of_none (chainMatches_disabled _ _ f true htrig) 1
  have henters (fetched : Option Nat) : entersByEbreak hart fetched = false := by simp [entersByEbreak, hbreak]
  simp only [runMove, hfires, henters, hwants, Bool.false_eq_true, if_false, Bool.not_false, Bool.and_true, if_true]

/-! ### The halt of a hart a Quick Access waits for (spec/42_abstract_commands.md R400) -/

/-- A Quick Access waits for hart `h`. -/
theorem quickPending_of {s : State} {h : Nat} (hp : s.dm.phase = .quickHalt) (hc : s.dm.cmdHart = h) :
    quickPending s h = true := by
  simp [quickPending, hp, hc]

section
variable {u : State} {h : Nat} {hart : Hart}

/-- The hart enters Debug Mode and the Quick Access ends with cmderr 4, the first error being kept (D22). -/
theorem quick_fails (hh : u.harts[h]? = some hart) (cause : BitVec 3) (a : XWord) :
    let t := finishCommand (some errHaltResume) (enterDebug h cause a u)
    t.harts[h]? = some (hart.enterDebug u.cfg u.free cause a) ∧ u.sameElsewhere h t ∧
      t.dm = { u.dm with
        phase := .idle
        data := t.dm.data
        cmderr := if u.dm.cmderr = 0 then 4 else u.dm.cmderr } := by
  intro t
  refine ⟨?_, (((State.hartEffect.refl u h).enterDebug cause a).finishCommand _).elsewhere, ?_⟩
  · simp only [t, finishCommand_frame, enterDebug_get, hh, if_true, Option.map_some]
  · simp only [t, finishCommand_dm]
    rfl

/-- The hart enters Debug Mode and starts the Program Buffer. -/
theorem quick_starts (hh : u.harts[h]? = some hart) (cause : BitVec 3) (a : XWord) :
    let t := startProgbuf h (enterDebug h cause a u)
    t.harts[h]? = some ((hart.enterDebug u.cfg u.free cause a).afterTransfer true) ∧ u.sameElsewhere h t ∧
      t.dm = { u.dm with phase := .progbuf } := by
  intro t
  have hentered : (enterDebug h cause a u).harts[h]? = some (hart.enterDebug u.cfg u.free cause a) := by
    rw [enterDebug_get, if_pos rfl, hh]
    rfl
  have heffect := State.commandEffect.of_hartEffect ((State.hartEffect.refl u h).enterDebug cause a)
  exact ⟨afterTransfer_get hentered true, heffect.startProgbuf.elsewhere, rfl⟩

/-- A requested halt of the hart: with a halt request the outcome is open (spec/93_implementation_defined.md U19). -/
theorem enterRequested_quick (hq : quickPending u h = true) (haltreq : Bool) (a : XWord) :
    enterRequested h haltreq a u =
      if haltreq && Config.freeBit u.free then finishCommand (some errHaltResume) (enterDebug h 3 a (u.bump 1))
      else startProgbuf h (enterDebug h 3 a (u.bump 1)) := by
  simp only [enterRequested, hq, if_true]

/-- Any other halt ends the Quick Access. -/
theorem enterOther_quick (hq : quickPending u h = true) (cause : BitVec 3) (a : XWord) :
    enterOther h cause a u = finishCommand (some errHaltResume) (enterDebug h cause a u) := by
  simp only [enterOther, hq, if_true]

end

/-- A hart that leaves reset halts for its request, or for a halt it remembers, at its reset entry (R334). -/
theorem leaveReset_eq (h : Nat) (hart : Hart) (s : State) : leaveReset h hart s =
    if hart.ctl.haltreq then enterRequested h true (BitVec.ofNat 128 hart.cfg.resetPc) (s.modHart h Hart.outOfReset)
    else if hart.resetHalt && s.cfg.haltKeptAcrossNdmreset && s.dm.dmactive then
      enterOther h 3 (BitVec.ofNat 128 hart.cfg.resetPc) (s.modHart h Hart.outOfReset)
    else s.modHart h Hart.outOfReset := rfl

/-! ### The end of the Program Buffer of a Quick Access (spec/42_abstract_commands.md R400, R387) -/

/-- The hart as the Program Buffer of a Quick Access leaves it: dpc is any value where the Program Buffer clobbers it, and
the hart resumes there. -/
theorem endProgbuf_quick_get {s : State} {h : Nat} {hart : Hart} (hh : s.harts[h]? = some hart) (hp : s.dm.phase = .progbuf)
    (hc : s.dm.cmdHart = h) (hq : s.dm.quick = true) (err : Option (BitVec 3)) : (endProgbuf h err s).harts[h]? =
      some (({ hart with inProgbuf := false } : Hart).clobberDpc s.free |>.leaveDebug s.cfg (s.free + 1)) := by
  rw [endProgbuf_command h err s hp hc]
  simp only [hq, if_true, finishCommand_frame, leaveDebug_get, State.bump_frame, State.modHart_get, hh, Option.map_some]
  rfl

/-- It acknowledges nothing and keeps its registers; it runs from dpc, where that was not clobbered. -/
theorem Hart.leaveDebug_clobberDpc (hart : Hart) (c : Config) (n m : Nat) :
    let new := ({ hart with inProgbuf := false } : Hart).clobberDpc n |>.leaveDebug c m
    new.debugMode = false ∧ new.inProgbuf = false ∧
      (hart.cfg.progbufClobbersDpc = false → new.pc = hart.pcBits hart.dpc) ∧ new.ctl = hart.ctl ∧
      new.gprs = hart.gprs := by
  obtain ⟨hclobber, hkept⟩ := ({ hart with inProgbuf := false } : Hart).clobberDpc_frame n
  intro new
  refine ⟨rfl, rfl, fun hno => ?_, ?_, ?_⟩
  · simp only [new, Hart.leaveDebug_writes, hkept hno]
    rw [hclobber]
    rfl
  · simp only [new, Hart.leaveDebug_frame]
    rw [hclobber]
  · simp only [new, Hart.leaveDebug_frame]
    rw [hclobber]

/-! ### Quick Access (O52) -/

/-- Settles O52: the start, the halt at the hart's next move, the halt on leaving reset, and the end. -/
theorem quickAccess : Obligations.QuickAccess := by
  refine ⟨fun s hart hh ha hr hd hqa hpb => ?_, fun s h q hart hq hh ha hr hd hp hc hreq hbreak htrig => ?_,
    fun s h q hart hq hh ha hr hline hp hc => ?_, fun s h err hart hh hp hc hquick => ?_⟩
  · have hexec := exec_quickAccess_present hqa hh ha hr
    rw [if_neg (by simp [hd]), if_neg (Nat.ne_of_gt hpb)] at hexec
    exact ⟨_, hart.scratched (s.free + 1), hexec, (exec_command rfl hexec).elsewhere, rfl, rfl,
      State.commandStart_get hh 1, rfl⟩
  · let r : State := { s with queue := q }
    have hmoving : ((r.moving h).bump 8).harts[h]? = some { hart with trapped := false } := State.moving_get (s := r) hh
    have hpending : quickPending ((r.moving h).bump 8) h = true := quickPending_of hp hc
    have hwants : wantsHalt (r.moving h) h hart = true := by
      rw [wantsHalt, hreq]
      exact hpending
    have hmove : hartMove h r = .quiet (startProgbuf h (enterDebug h 3 hart.pc (((r.moving h).bump 8).bump 1))) := by
      rw [hartMove_running (s := r) hh ha hr hd, runMove_requested htrig hbreak hwants, hreq,
        enterRequested_quick hpending, Bool.false_and, if_neg Bool.false_ne_true]
    obtain ⟨hget, helsewhere, hdm⟩ := quick_starts (u := ((r.moving h).bump 8).bump 1) hmoving 3 hart.pc
    refine ⟨_, _, step_quiet s _ ((nextMove_event s _ q hq).trans hmove), ?_, hdm, hget, rfl, rfl, rfl, rfl, rfl⟩
    exact (r.moving_onlyHart h).1.trans helsewhere
  · intro kept halts failed
    let r : State := { s with queue := q, cur := h }
    let u := r.modHart h Hart.outOfReset
    have hu : u.harts[h]? = some hart.outOfReset := by
      rw [State.modHart_get, if_pos rfl, show r.harts[h]? = some hart from hh]
      rfl
    have hru : r.sameElsewhere h u := (r.onlyHart_modHart h Hart.outOfReset 0).1
    have hpending : quickPending u h = true := quickPending_of hp hc
    have hstep : step s = .next (leaveReset h hart r) :=
      step_quiet s _ ((nextMove_event s _ q hq).trans (hartMove_leaveReset hh ha hr hline))
    rw [leaveReset_eq] at hstep
    refine ⟨fun hreq => ?_, fun hreq hkept => ?_, fun hreq hnot => ?_⟩
    · rw [if_pos hreq, enterRequested_quick hpending, Bool.true_and] at hstep
      obtain ⟨hget, helsewhere, hdm⟩ := quick_fails (u := u.bump 1) hu 3 (BitVec.ofNat 128 hart.cfg.resetPc)
      obtain ⟨hget', helsewhere', hdm'⟩ := quick_starts (u := u.bump 1) hu 3 (BitVec.ofNat 128 hart.cfg.resetPc)
      by_cases hfree : Config.freeBit u.free = true
      · rw [if_pos hfree] at hstep
        exact ⟨_, _, ⟨hstep, hru.trans helsewhere, hget, rfl, rfl, rfl, rfl⟩, .inl ⟨hdm, rfl⟩⟩
      · rw [if_neg hfree] at hstep
        exact ⟨_, _, ⟨hstep, hru.trans helsewhere', hget', rfl, rfl, rfl, rfl⟩, .inr ⟨hdm', rfl⟩⟩
    · rw [if_neg (by simp [hreq]), if_pos (by simpa [kept, and_assoc] using hkept), enterOther_quick hpending] at hstep
      obtain ⟨hget, helsewhere, hdm⟩ := quick_fails hu 3 (BitVec.ofNat 128 hart.cfg.resetPc)
      exact ⟨_, _, ⟨hstep, hru.trans helsewhere, hget, rfl, rfl, rfl, rfl⟩, hdm, rfl⟩
    · rw [if_neg (by simp [hreq]), if_neg (by simpa [kept, and_assoc] using hnot)] at hstep
      exact ⟨u, hstep, r.onlyHart_modHart h Hart.outOfReset 0, hu⟩
  · obtain ⟨hdebug, hprogbuf, hpc, hctl, hgprs⟩ := hart.leaveDebug_clobberDpc s.cfg s.free (s.free + 1)
    have hdm : (endProgbuf h err s).dm.phase = .idle ∧ (endProgbuf h err s).dm.cmderr = (match err with
        | none => s.dm.cmderr
        | some e => if s.dm.cmderr = 0 then e else s.dm.cmderr) := by
      rw [endProgbuf_command h err s hp hc, finishCommand_dm, if_pos hquick]
      cases err <;> exact ⟨rfl, rfl⟩
    obtain ⟨hphase, hcmderr⟩ := hdm
    exact ⟨_, endProgbuf_quick_get hh hp hc hquick err, ((State.hartEffect.refl s h).endProgbuf err).elsewhere, hphase,
      hcmderr, hdebug, hprogbuf, hpc, hctl, hgprs⟩

end Sys2Proof.Machine
end

section
/-! PROOF. System Bus Access: sbcs (O53), how a bus access starts and ends (O54), and the address and data registers (O55).
A bus access touches memory byte by byte, so what it stores and loads is stated of single bytes; the address and data
registers are slices of one 128-bit value, so what a write of them stores is stated of single bits. -/

namespace Sys2Proof.Machine

/-! ### sbcs (spec/43_system_bus_access.md R433) -/

/-- A field of a written word, at the field's own width. -/
theorem ofNat_getField_eq_extractLsb' {w : Nat} (x : BitVec w) (lo n : Nat) :
    BitVec.ofNat n (getField x lo n) = x.extractLsb' lo n := by
  apply BitVec.eq_of_toNat_eq
  simp [getField, Nat.shiftRight_eq_div_pow]

theorem writeSbcs_eq (v : Word) (s : State) :
    writeSbcs v s = { s with sb := { s.sb with
      readonaddr := v.getLsbD 20
      access := v.extractLsb' 17 3
      autoincrement := v.getLsbD 16
      readondata := v.getLsbD 15
      busyerror := s.sb.busyerror && !v.getLsbD 22
      error := s.sb.error &&& ~~~(v.extractLsb' 12 3) } } := by
  simp only [writeSbcs, w1c, ofNat_getField_eq_extractLsb']

/-- The fields of sbcs lie side by side (spec/10_state.md R90). -/
theorem readSbcs_eq {s : State} (hsize : s.cfg.sbasize < 128) :
    readSbcs s = 1 <<< 29 ||| wordBit s.sb.busyerror 22 ||| wordBit s.sb.busy 21 ||| wordBit s.sb.readonaddr 20 |||
      s.sb.access.setWidth 32 <<< 17 ||| wordBit s.sb.autoincrement 16 ||| wordBit s.sb.readondata 15 |||
      s.sb.error.setWidth 32 <<< 12 ||| BitVec.ofNat 32 s.cfg.sbasize <<< 5 ||| wordBit s.cfg.sbaccess128 4 |||
      wordBit s.cfg.sbaccess64 3 ||| wordBit s.cfg.sbaccess32 2 ||| wordBit s.cfg.sbaccess16 1 |||
      wordBit s.cfg.sbaccess8 0 := by
  have haccess := s.sb.access.isLt
  have herror := s.sb.error.isLt
  rw [readSbcs, ofNat_add_bitAt, ofNat_add_bitAt, ofNat_add_bitAt, ofNat_add_bitAt, ofNat_add_bitAt,
    ofNat_add_eq_or 12, ofNat_add_eq_or 15, ofNat_add_bitAt, ofNat_add_bitAt, ofNat_add_eq_or 20, ofNat_add_bitAt,
    ofNat_add_bitAt, ofNat_add_bitAt, ofNat_mul_two_pow, ofNat_mul_two_pow, ofNat_mul_two_pow, BitVec.ofNat_toNat,
    BitVec.ofNat_toNat]
  · rfl
  all_goals
    simp only [bitAt_eq, Nat.reducePow] at *
    omega

/-- Settles O53: the write and the read of sbcs on a ready DM. -/
theorem sbcs : Obligations.Sbcs := by
  refine fun s v hr hpos => ⟨?_, fun hsize => ?_⟩
  · have hwrite : exec (.sbcs (.write v)) s = .next (writeSbcs v s) :=
      congrArg _ (hr.write (decide_eq_true hpos) v _ _)
    rw [hwrite, writeSbcs_eq]
  · have hread : exec (.sbcs .read) s = .next (answer (readSbcs s) s) :=
      congrArg _ (hr.read (decide_eq_true hpos) _ _)
    rw [hread, readSbcs_eq hsize]
    rfl

/-! ### The start of a bus access (spec/43_system_bus_access.md R437, R438) -/

/-- The sizes of an access are 1 to 16 bytes, each supported where the configuration says so (R434). -/
theorem sizeSupported_iff (c : Config) (access : BitVec 3) :
    sizeSupported c access = true ↔
      (2 ^ access.toNat = 1 ∧ c.sbaccess8 = true) ∨ (2 ^ access.toNat = 2 ∧ c.sbaccess16 = true) ∨
        (2 ^ access.toNat = 4 ∧ c.sbaccess32 = true) ∨ (2 ^ access.toNat = 8 ∧ c.sbaccess64 = true) ∨
        (2 ^ access.toNat = 16 ∧ c.sbaccess128 = true) := by
  have hlt := access.isLt
  unfold sizeSupported
  generalize access.toNat = n at *
  match n with
  | 0 | 1 | 2 | 3 | 4 | 5 | 6 | 7 => simp
  | n + 8 => omega

/-- A start changes nothing but the registers of System Bus Access. -/
theorem startAccess_eq (write : Bool) (s : State) :
    startAccess write s = { s with sb := (startAccess write s).sb } := by
  simp only [startAccess]
  repeat' split
  all_goals rfl

/-- The access that `start_access` samples from the registers (R437). -/
def Sb.sampled (b : Sb) (write : Bool) : SbAccess where
  write := write
  bytes := 2 ^ b.access.toNat
  address := b.address.toNat
  data := b.data
  inc := b.autoincrement

theorem startAccess_refused {write : Bool} {s : State}
    (h : ¬(sizeSupported s.cfg s.sb.access = true ∧
      (s.sb.address.toNat % 2 ^ s.sb.access.toNat = 0 ∨ s.cfg.sbaMisalignedPerformed = true))) :
    startAccess write s = { s with sb := { s.sb with error := sbOther } } := by
  rw [startAccess_eq, startAccess_sb, if_pos]
  simpa [imp_iff_not_or] using h

theorem startAccess_good {write : Bool} {s : State}
    (h : sizeSupported s.cfg s.sb.access = true ∧
      (s.sb.address.toNat % 2 ^ s.sb.access.toNat = 0 ∨ s.cfg.sbaMisalignedPerformed = true)) :
    startAccess write s = { s with sb := { s.sb with pending := some (s.sb.sampled write) } } := by
  rw [startAccess_eq, startAccess_sb, if_neg]
  · rfl
  · obtain ⟨hsize, haligned⟩ := h
    rw [hsize]
    rcases haligned with h | h <;> simp [h]

/-! ### The end of a bus access (spec/43_system_bus_access.md R436, R437, R439) -/

/-- The step on a bus event completes the access. -/
theorem step_bus {s : State} {q : List Event} (hq : s.queue = .bus :: q) :
    step s = .next (busComplete { s with queue := q }) :=
  step_quiet s _ (nextMove_event s .bus q hq)

/-- What stands at the address decides whether the access fails, and with which sberror (R436). -/
theorem busError_of_regionAt {s : State} {p : SbAccess} {e : BitVec 3}
    (h : (regionAt s.cfg.regions p.address p.bytes = .timeout ∧ e = 1) ∨
      (regionAt s.cfg.regions p.address p.bytes = .bad ∧ e = 2) ∨
      (regionAt s.cfg.regions p.address p.bytes = .other ∧ e = 3)) : busError s p = some e := by
  rcases h with ⟨hkind, rfl⟩ | ⟨hkind, rfl⟩ | ⟨hkind, rfl⟩ <;> simp only [busError, hkind] <;> rfl

/-- Only a write of RAM changes memory, or a hart. -/
theorem busComplete_mem_harts {s : State} {p : SbAccess} (hp : s.sb.pending = some p)
    (hno : ¬(p.write = true ∧ regionAt s.cfg.regions p.address p.bytes = .ram)) :
    (busComplete s).mem = s.mem ∧ (busComplete s).harts = s.harts := by
  simp only [busComplete, hp]
  split
  · exact ⟨rfl, rfl⟩
  · split
    · exact ⟨rfl, rfl⟩
    · split
      · split
        next hwrite hram => exact absurd ⟨hwrite, hram⟩ hno
        next => exact ⟨rfl, rfl⟩
      · exact ⟨rfl, rfl⟩

theorem busComplete_sameBytes {s : State} {p : SbAccess} (hp : s.sb.pending = some p)
    (hno : ¬(p.write = true ∧ regionAt s.cfg.regions p.address p.bytes = .ram)) : s.sameBytes (busComplete s) := by
  intro a
  obtain ⟨hmem, -⟩ := busComplete_mem_harts hp hno
  simp [hmem]

/-- An access to a device stores nothing; a read of it leaves any value in sbdata (notes/assumptions/42.md). -/
theorem busComplete_device {s : State} {p : SbAccess} (hp : s.sb.pending = some p)
    (hkind : regionAt s.cfg.regions p.address p.bytes = .device) (hw : s.inResetWindow = false) :
    (busComplete s).sb = { s.sb with
      pending := none
      address := if p.inc then incremented s.cfg s.sb.address p.bytes else s.sb.address
      data := if p.write then s.sb.data
        else sbdataAfterRead s.cfg (s.free + 1) p (Config.freeWord s.free).toNat } := by
  have he : busError s p = none := by simp [busError, hkind]
  cases hi : p.inc <;> cases hr : p.write <;> simp [busComplete, hp, he, hw, hkind, hi, hr, State.bump]

/-- A hart whose reservation is broken is otherwise as it was. -/
theorem Hart.breakReservation_eq (hart : Hart) (a n : Nat) :
    hart.breakReservation a n = { hart with reservation := (hart.breakReservation a n).reservation } := by
  simp only [Hart.breakReservation]
  repeat' split
  all_goals rfl

/-- The harts after a bus access: a write of RAM may break reservations. -/
theorem busComplete_harts (s : State) : (busComplete s).harts = s.harts ∨
    ∃ a n, (busComplete s).harts = s.harts.map fun hart => hart.breakReservation a n := by
  cases hp : s.sb.pending with
  | none => exact .inl (by simp [busComplete, hp])
  | some p =>
    by_cases hram : p.write = true ∧ regionAt s.cfg.regions p.address p.bytes = .ram
    · obtain ⟨hwrite, hkind⟩ := hram
      have he : busError s p = none := by simp [busError, hkind]
      simp only [busComplete, hp, he, hwrite, hkind, if_true]
      split
      · exact .inl rfl
      · cases s.cfg.sbaCoherent
        · exact .inl rfl
        · exact .inr ⟨p.address, p.bytes, rfl⟩
    · exact .inl (busComplete_mem_harts hp hram).2

/-- A bus access changes nothing of a hart but its reservation (notes/assumptions/38.md). -/
theorem busComplete_hart_eq {s : State} {k : Nat} {old new : Hart} (ho : s.harts[k]? = some old)
    (hn : (busComplete s).harts[k]? = some new) : new = { old with reservation := new.reservation } := by
  obtain hsame | ⟨a, n, hbroken⟩ := busComplete_harts s
  · rw [hsame, ho] at hn
    cases hn
    rfl
  · rw [hbroken, List.getElem?_map, ho] at hn
    cases hn
    exact old.breakReservation_eq a n

/-! ### The bytes of an access (spec/20_memory.md R212) -/

theorem leBytes_getD {n j : Nat} (hj : j < n) (v : Nat) : (leBytes n v).getD j 0 = BitVec.ofNat 8 (v / 2 ^ (8 * j)) := by
  induction n generalizing j v with
  | zero => omega
  | succ n ih =>
    cases j with
    | zero => simp [leBytes]
    | succ j =>
      rw [leBytes, List.getD_cons_succ, ih (by omega), Nat.div_div_eq_div_mul, ← Nat.pow_add, Nat.mul_succ, Nat.add_comm 8]

/-- The bytes of a value, least significant first. -/
theorem leBytes_getD_toNat {n j : Nat} (hj : j < n) {w : Nat} (x : BitVec w) :
    (leBytes n x.toNat).getD j 0 = x.extractLsb' (8 * j) 8 := by
  rw [leBytes_getD hj, BitVec.extractLsb', Nat.shiftRight_eq_div_pow]

/-- The number read holds the bytes read, each in its place. -/
theorem Mem.readNat_byte (m : Mem) {n j : Nat} (hj : j < n) (a : Nat) :
    BitVec.ofNat 8 (m.readNat n a / 2 ^ (8 * j)) = m.read (a + j) := by
  induction n generalizing j a with
  | zero => omega
  | succ n ih =>
    have hlt := (m.read a).isLt
    cases j with
    | zero =>
      apply BitVec.eq_of_toNat_eq
      simp only [Mem.readNat, BitVec.toNat_ofNat, Nat.mul_zero, Nat.pow_zero, Nat.div_one, Nat.add_zero]
      omega
    | succ j =>
      have hrest : m.readNat (n + 1) a / 2 ^ 8 = m.readNat n (a + 1) := by
        rw [Mem.readNat]
        omega
      rw [Nat.mul_succ, Nat.add_comm _ 8, Nat.pow_add, ← Nat.div_div_eq_div_mul, hrest, ih (by omega)]
      congr 1
      omega

/-- What is a multiple of a power of two stays one modulo any power of two. -/
theorem two_pow_dvd_mul_two_pow_mod (q k n : Nat) : 2 ^ k ∣ q * 2 ^ k % 2 ^ n := by
  rcases Nat.le_total k n with h | h
  · exact (Nat.dvd_mod_iff (Nat.pow_dvd_pow 2 h)).mpr (Nat.dvd_mul_left ..)
  · rw [Nat.mod_eq_zero_of_dvd (Nat.dvd_mul_left_of_dvd (Nat.pow_dvd_pow 2 h) q)]
    exact Nat.dvd_zero _

/-- After a read the low bytes of sbdata are those of the value; what lies above them is any value
(spec/20_memory.md R211). -/
theorem sbdataAfterRead_byte (c : Config) (n : Nat) {p : SbAccess} {j : Nat} (hj : j < p.bytes) (hp : p.bytes ≤ 16)
    (v : Nat) : (sbdataAfterRead c n p v).extractLsb' (8 * j) 8 = BitVec.ofNat 8 (v / 2 ^ (8 * j)) := by
  obtain ⟨q, hq⟩ := two_pow_dvd_mul_two_pow_mod ((Config.freeWord n).toNat / 2 ^ (8 * p.bytes)) (8 * p.bytes)
    (sbdataWidth c)
  apply BitVec.eq_of_getLsbD_eq
  intro i hi
  have hbit : 8 * j + i < 8 * p.bytes := by omega
  have hlow : v % 2 ^ (8 * p.bytes) < 2 ^ (8 * p.bytes) := Nat.mod_lt _ (Nat.two_pow_pos _)
  rw [sbdataAfterRead, hq, Nat.add_comm, BitVec.getLsbD_extractLsb', BitVec.getLsbD_ofNat, BitVec.getLsbD_ofNat,
    Nat.testBit_two_pow_mul_add _ hlow, if_pos hbit, Nat.testBit_mod_two_pow, Nat.testBit_div_two_pow, Nat.add_comm i]
  simp [hi, hbit, show 8 * j + i < 128 by omega]

/-- A write of RAM stores the bytes of the sampled data, least significant first, and no other (R212). -/
theorem busComplete_stores {s : State} {p : SbAccess} (hp : s.sb.pending = some p) (hr : p.write = true)
    (hkind : regionAt s.cfg.regions p.address p.bytes = .ram) (hw : s.inResetWindow = false) (hm : s.mem.wf) :
    (∀ j, j < p.bytes → (busComplete s).mem.read (p.address + j) = p.data.extractLsb' (8 * j) 8) ∧
    ∀ a, a < p.address ∨ p.address + p.bytes ≤ a → (busComplete s).mem.read a = s.mem.read a := by
  rw [(busComplete_write s p hp hr hkind hw).1]
  refine ⟨fun j hj => ?_, fun a ha => ?_⟩
  · rw [Mem.read_writes_inside hm _ _ _ (by simpa using hj), leBytes_getD_toNat hj]
  · exact Mem.read_writes_outside hm _ _ _ (by simpa using ha)

/-- A read of RAM leaves its bytes in the low bits of sbdata (R212). -/
theorem busComplete_loads {s : State} {p : SbAccess} (hp : s.sb.pending = some p) (hr : p.write = false)
    (hkind : regionAt s.cfg.regions p.address p.bytes = .ram) (hw : s.inResetWindow = false) {j : Nat}
    (hj : j < p.bytes) (hb : p.bytes ≤ 16) :
    (busComplete s).sb.data.extractLsb' (8 * j) 8 = s.mem.read (p.address + j) := by
  rw [(busComplete_read s p hp hr hkind hw).2]
  exact (sbdataAfterRead_byte _ _ hj hb _).trans (s.mem.readNat_byte hj _)

/-- Settles O54: the start by what is supported, the end by what stands at the address. -/
theorem busAccess : Obligations.BusAccess := by
  refine ⟨fun s write => ⟨fun hbad => ?_, fun hgood => ?_⟩, fun s q p hq hp hndm hext => ?_⟩
  · rw [← sizeSupported_iff] at hbad
    exact startAccess_refused hbad
  · rw [← sizeSupported_iff] at hgood
    rw [startAccess_good hgood]
    exact ⟨rfl, rfl⟩
  · let r : State := { s with queue := q }
    have hp : r.sb.pending = some p := hp
    have hw : r.inResetWindow = false := inResetWindow_of_noReset hndm hext
    have hstep : step s = .next (busComplete r) := step_bus hq
    obtain ⟨-, hdtm, hdm, hhmem, himem, -⟩ := busComplete_frame r
    refine ⟨fun e he => ⟨2, ?_⟩, fun hram hwrite hmem => ⟨_, hstep, ?_⟩, fun hram hread => ⟨_, hstep, ?_⟩,
      fun hdevice => ⟨_, hstep, ?_⟩⟩
    · rw [hstep, busComplete_error r p e hp (busError_of_regionAt (s := r) he) hw]
      rfl
    · obtain ⟨hinside, houtside⟩ := busComplete_stores hp hwrite hram hw hmem.1
      exact ⟨(busComplete_write r p hp hwrite hram hw).2, hdm, hdtm, hinside, houtside, hhmem, himem,
        fun k old new => busComplete_hart_eq (s := r)⟩
    · have hno : ¬(p.write = true ∧ regionAt r.cfg.regions p.address p.bytes = .ram) := by simp [hread]
      refine ⟨?_, fun j hj hb => busComplete_loads hp hread hram hw hj hb, hdm, hdtm, (busComplete_mem_harts hp hno).2,
        busComplete_sameBytes hp hno⟩
      rw [(busComplete_read r p hp hread hram hw).2]
      rfl
    · have hno : ¬(p.write = true ∧ regionAt r.cfg.regions p.address p.bytes = .ram) := by
        rintro ⟨-, hram⟩
        exact absurd (hdevice.symm.trans hram) (by decide)
      refine ⟨?_, fun hwrite => ?_, hdm, hdtm, (busComplete_mem_harts hp hno).2, busComplete_sameBytes hp hno⟩
      · rw [busComplete_device hp hdevice hw]
        rfl
      · rw [busComplete_device hp hdevice hw, hwrite]
        rfl

/-! ### Slices of the address and of the data (spec/43_system_bus_access.md R432, R448) -/

theorem getSlice_eq (x : BitVec 128) (k : Nat) : getSlice x k = x.extractLsb' (32 * k) 32 :=
  ofNat_div_eq_extractLsb' x (32 * k)

/-- A write of a slice gives its bits and leaves every other. -/
theorem putSlice_getLsbD (x : BitVec 128) (k : Nat) (v : Word) {i : Nat} (hi : i < 128) :
    (putSlice x k v).getLsbD i = if 32 * k ≤ i ∧ i < 32 * k + 32 then v.getLsbD (i - 32 * k) else x.getLsbD i := by
  have hmask : (BitVec.ofNat 128 ((2 ^ 32 - 1) * 2 ^ (32 * k))).getLsbD i =
      decide (32 * k ≤ i ∧ i < 32 * k + 32) := by
    rw [BitVec.getLsbD_ofNat, Nat.testBit_mul_two_pow, Nat.testBit_two_pow_sub_one]
    by_cases h : 32 * k ≤ i
    · simp [hi, h, Nat.sub_lt_iff_lt_add h, Nat.add_comm]
    · simp [h]
  have hslice : (BitVec.ofNat 128 (v.toNat * 2 ^ (32 * k))).getLsbD i =
      (decide (32 * k ≤ i) && v.getLsbD (i - 32 * k)) := by
    rw [BitVec.getLsbD_ofNat, Nat.testBit_mul_two_pow, BitVec.testBit_toNat]
    simp [hi]
  rw [putSlice, BitVec.getLsbD_or, BitVec.getLsbD_and, BitVec.getLsbD_not, hmask, hslice]
  by_cases hlo : 32 * k ≤ i
  · by_cases hup : i < 32 * k + 32
    · simp [hlo, hup]
    · simp [hi, hup, BitVec.getLsbD_of_ge v (i - 32 * k) (by omega)]
  · simp [hi, hlo]

/-- Address bits at SBASIZE and above read 0 (D3, notes/assumptions/50.md). -/
theorem writtenAddress_getLsbD (c : Config) (x : BitVec 128) (k : Nat) (v : Word) {i : Nat} (hi : i < 128) :
    (writtenAddress c x k v).getLsbD i = (decide (i < c.sbasize) &&
      if 32 * k ≤ i ∧ i < 32 * k + 32 then v.getLsbD (i - 32 * k) else x.getLsbD i) := by
  rw [writtenAddress, BitVec.getLsbD_ofNat, Nat.testBit_mod_two_pow, BitVec.testBit_toNat, putSlice_getLsbD x k v hi]
  simp [hi]

theorem Sb.errorsClear_iff (b : Sb) : b.errorsClear = true ↔ b.error = 0 ∧ b.busyerror = false := by
  simp [Sb.errorsClear]

/-- The bus master is idle where no access is pending. -/
theorem Sb.busy_eq_false_iff (b : Sb) : b.busy = false ↔ b.pending = none := by
  simp [Sb.busy]

/-! ### sbaddress (spec/43_system_bus_access.md R440 to R442) -/

section
variable {s : State} {k : Nat} {row : DmAcc → Instr}

/-- The write of sbaddress word `k`: word 0 may start a read. -/
def sbaddressWrite (k : Nat) : Word → State → State := if k = 0 then writeSbaddress0 else writeSbaddress k

theorem exec_sbaddressRow (hr : s.dmReady)
    (hrow : [Instr.sbaddress0, .sbaddress1, .sbaddress2, .sbaddress3][k]? = some row) (hk : 32 * k < s.cfg.sbasize) :
    exec (row .read) s = .next (answer (readSbaddress k s).2 (readSbaddress k s).1) ∧
    ∀ v, exec (row (.write v)) s = .next (sbaddressWrite k v s) := by
  match k with
  | 0 | 1 | 2 | 3 =>
    cases hrow
    have hp := decide_eq_true hk
    exact ⟨congrArg _ (hr.read hp _ _), fun v => congrArg _ (hr.write hp v _ _)⟩
  | k + 4 => cases hrow

theorem readSbaddress_idle (hb : s.sb.busy = false) (k : Nat) :
    readSbaddress k s = (s, s.sb.address.extractLsb' (32 * k) 32) := by
  simp only [readSbaddress, (Sb.busy_eq_false_iff _).mp hb, getSlice_eq]

theorem sbaddressWrite_busy (hb : s.sb.busy = true) (k : Nat) (v : Word) :
    sbaddressWrite k v s = { s with sb := { s.sb with busyerror := true } } := by
  unfold sbaddressWrite
  split <;> simp [writeSbaddress0, writeSbaddress, hb, setSbbusyerror]

/-- On an idle bus the address is stored; a write of word 0 starts a read if asked to and no error is set (R440). -/
theorem sbaddressWrite_idle (hb : s.sb.busy = false) (k : Nat) (v : Word) :
    let stored : State := { s with sb := { s.sb with address := writtenAddress s.cfg s.sb.address k v } }
    sbaddressWrite k v s =
      if k = 0 ∧ s.sb.readonaddr = true ∧ s.sb.error = 0 ∧ s.sb.busyerror = false then startAccess false stored
      else stored := by
  intro stored
  have hstored : writeSbaddress k v s = stored := if_neg (by simp [hb])
  by_cases hk : k = 0
  · subst hk
    have hstarts : (!s.sb.busy && s.sb.errorsClear && s.sb.readonaddr) = true ↔
        0 = 0 ∧ s.sb.readonaddr = true ∧ s.sb.error = 0 ∧ s.sb.busyerror = false := by
      simp [hb, Sb.errorsClear_iff, and_comm]
    rw [sbaddressWrite, if_pos rfl, writeSbaddress0, hstored]
    exact if_congr hstarts rfl rfl
  · rw [sbaddressWrite, if_neg hk, hstored, if_neg fun h => hk h.1]

end

/-! ### sbdata (spec/43_system_bus_access.md R444 to R448) -/

section
variable {s : State} {k : Nat} {row : DmAcc → Instr}

/-- The read of sbdata word `k`: word 0 may start a read or raise the address. -/
def sbdataRead (k : Nat) : State → State × Word := if k = 0 then readSbdata0 else readSbdata k

/-- The write of sbdata word `k`: word 0 starts a bus write. -/
def sbdataWrite (k : Nat) : Word → State → State := if k = 0 then writeSbdata0 else writeSbdata k

theorem exec_sbdataRow (hr : s.dmReady) (hrow : [Instr.sbdata0, .sbdata1, .sbdata2, .sbdata3][k]? = some row)
    (hpresent : (row, true) ∈ optionalRows s.cfg) :
    exec (row .read) s = .next (answer (sbdataRead k s).2 (sbdataRead k s).1) ∧
    ∀ v, exec (row (.write v)) s = .next (sbdataWrite k v s) := by
  have hmem := List.mem_map_of_mem (f := fun r : (DmAcc → Instr) × Bool => (r.1 .read, r.2)) hpresent
  match k with
  | 0 =>
    cases hrow
    have hp : (hasSba s.cfg && anySize s.cfg) = true := by
      simpa [optionalRows, dataRows, progbufRows, hasSba, anySize] using hmem
    exact ⟨congrArg _ (hr.read hp _ _), fun v => congrArg _ (hr.write hp v _ _)⟩
  | 1 =>
    cases hrow
    have hp : (hasSba s.cfg && (s.cfg.sbaccess64 || s.cfg.sbaccess128)) = true := by
      simpa [optionalRows, dataRows, progbufRows, hasSba] using hmem
    exact ⟨congrArg _ (hr.read hp _ _), fun v => congrArg _ (hr.write hp v _ _)⟩
  | 2 | 3 =>
    cases hrow
    have hp : (hasSba s.cfg && s.cfg.sbaccess128) = true := by
      simpa [optionalRows, dataRows, progbufRows, hasSba] using hmem
    exact ⟨congrArg _ (hr.read hp _ _), fun v => congrArg _ (hr.write hp v _ _)⟩
  | k + 4 => cases hrow

theorem sbdataWrite_busy (hb : s.sb.busy = true) (k : Nat) (v : Word) :
    sbdataWrite k v s = { s with sb := { s.sb with busyerror := true } } := by
  unfold sbdataWrite
  split <;> simp [writeSbdata0, writeSbdata, hb, setSbbusyerror]

theorem sbdataRead_busy (hb : s.sb.busy = true) (k : Nat) :
    sbdataRead k s = ({ s with sb := { s.sb with busyerror := true } }.bump 1, freeWord32 s.free) := by
  unfold sbdataRead
  split <;> simp [readSbdata0, readSbdata, hb, setSbbusyerror]

/-- With an error set sbdata0 is not written (D25, notes/assumptions/50.md). -/
theorem writeSbdata0_error (hb : s.sb.busy = false) (he : ¬(s.sb.error = 0 ∧ s.sb.busyerror = false)) (v : Word) :
    writeSbdata0 v s = s := by
  rw [← Sb.errorsClear_iff] at he
  simp [writeSbdata0, hb, he]

theorem sbdataWrite_idle (hb : s.sb.busy = false) (hc : k = 0 → s.sb.error = 0 ∧ s.sb.busyerror = false) (v : Word) :
    let stored : State := { s with sb := { s.sb with data := putSlice s.sb.data k v } }
    sbdataWrite k v s = if k = 0 then startAccess true stored else stored := by
  intro stored
  by_cases hk : k = 0
  · have hclear := (Sb.errorsClear_iff _).mpr (hc hk)
    simp [sbdataWrite, writeSbdata0, hk, hb, hclear, stored]
  · simp [sbdataWrite, writeSbdata, hk, hb, stored]

/-- A read on an idle bus gives the slice, and of word 0 then starts the next read or raises the address (R446). -/
theorem sbdataRead_idle (hb : s.sb.busy = false) (k : Nat) :
    let clear := s.sb.error = 0 ∧ s.sb.busyerror = false
    sbdataRead k s =
      (if k = 0 ∧ clear ∧ s.sb.readondata = true then startAccess false s
        else if k = 0 ∧ clear ∧ s.sb.autoincrement = true ∧ s.cfg.sbdata0ReadIncrWithoutRead = true then
          { s with sb := { s.sb with address := incremented s.cfg s.sb.address (2 ^ s.sb.access.toNat) } }
        else s,
      s.sb.data.extractLsb' (32 * k) 32) := by
  intro clear
  by_cases hk : k = 0
  · subst hk
    have hclear : s.sb.errorsClear = true ↔ clear := Sb.errorsClear_iff _
    by_cases hc : clear
    · simp only [sbdataRead, if_true, readSbdata0, hb, hclear.mpr hc, hc, getSlice_eq, true_and]
      by_cases hread : s.sb.readondata = true
      · simp [hread]
      · by_cases hinc : s.sb.autoincrement = true ∧ s.cfg.sbdata0ReadIncrWithoutRead = true <;> simp [hread, hinc]
    · have hset : s.sb.errorsClear = false := by simpa using hclear.not.mpr hc
      simp [sbdataRead, readSbdata0, hb, hset, hc, getSlice_eq]
  · simp [sbdataRead, readSbdata, hk, hb, getSlice_eq]

end

/-- Settles O55: the address registers, then the data registers, each while the bus is busy and while it is idle. -/
theorem sbaddressAndSbdata : Obligations.SbaddressAndSbdata := by
  refine ⟨fun s v hr k row hrow hk => ?_, fun s v hr k row hrow hpresent => ?_⟩
  · obtain ⟨hread, hwrite⟩ := exec_sbaddressRow hr hrow hk
    refine ⟨fun hb => ?_, fun hb => ?_, fun hb => ⟨_, _, hwrite v, rfl, fun i hi => ?_, sbaddressWrite_idle hb k v⟩⟩
    · rw [hwrite, sbaddressWrite_busy hb]
    · rw [hread, readSbaddress_idle hb]
      rfl
    · exact writtenAddress_getLsbD _ _ _ _ hi
  · obtain ⟨hread, hwrite⟩ := exec_sbdataRow hr hrow hpresent
    intro clear
    refine ⟨fun hb => ⟨?_, freeWord32 s.free, ?_⟩, fun hb h0 herror => ?_,
      fun hb hclear => ⟨_, _, hwrite v, rfl, fun i hi => ?_, sbdataWrite_idle hb hclear v⟩, fun hb => ?_⟩
    · rw [hwrite, sbdataWrite_busy hb]
    · rw [hread, sbdataRead_busy hb]
      rfl
    · rw [hwrite, sbdataWrite, if_pos h0, writeSbdata0_error hb herror]
    · exact putSlice_getLsbD _ _ _ hi
    · rw [hread, sbdataRead_idle hb]
      rfl

end Sys2Proof.Machine
end

section
/-! PROOF. Every step keeps every hart at a privilege level it supports and every trigger legal (O11): each primitive change
of a hart keeps both. -/

namespace Sys2Proof.Machine

/-! ### The privilege level (spec/44_debug_mode.md R503) -/

/-- A trap goes to machine mode, or to S mode where that is supported. -/
theorem Hart.trap_privOk (hart : Hart) (isInt : Bool) (cause : Nat) (tval : XWord) :
    (hart.trap isInt cause tval).privOk := by
  intro hp
  obtain ⟨hcfg, -⟩ := hart.trap_frame isInt cause tval
  rw [hcfg] at hp ⊢
  have hpriv : (hart.trap isInt cause tval).priv = if hart.delegated isInt cause then .s else .m := by
    have hdelegated : ({ hart.countUp false with trapped := true } : Hart).delegated isInt cause =
        hart.delegated isInt cause := by simp [Hart.delegated]
    simp only [Hart.trap, hdelegated]
    split <;> rfl
  rw [hpriv]
  split
  next hd =>
    simp only [Hart.delegated, Bool.and_eq_true] at hd
    exact List.contains_iff_mem.mp hd.1.2
  next => exact hp.1

/-- A change that keeps the configuration and the privilege keeps the privilege supported. -/
theorem Hart.privOk.congr {a b : Hart} (h : a.privOk) (hcfg : b.cfg = a.cfg) (hpriv : b.priv = a.priv) : b.privOk := by
  rw [Hart.privOk, hcfg, hpriv]
  exact h

/-- Every primitive change of a hart keeps its privilege level supported. -/
theorem hartRel_privOk : HartRel fun old new => old.privOk → new.privOk where
  refl _ h := h
  trans hab hbc h := hbc (hab h)
  onCtl _ _ h := h
  onDscratch _ _ _ h := h
  onEnterDebug _ _ _ _ _ _ h := h
  onLeaveDebug hart _ n _ hp := hart.legalPriv_mem n hart.dcsr.prv hp.1
  onStartProgbuf _ _ _ h := h
  onStopProgbuf _ h := h
  onPc _ _ h := h
  onDpc _ _ h := h
  onTrap hart i c v _ := hart.trap_privOk i c v
  onReset hart n b c h := by
    intro hp
    rw [(hart.doReset_frame n b c).1] at hp ⊢
    obtain ⟨-, -, -, -, -, -, -, hpriv⟩ := hart.doReset_writes n b c
    exact hpriv ▸ hp.1
  onClear _ h := h
  onLeaveReset _ h := h
  onReservation _ _ h := h
  onWriteCsr hart d n num v h := h.congr (by simp) (by simp)
  onGprs _ _ h := h
  onFprs _ _ h := h
  onCounters _ _ _ h := h
  onTimer _ _ h := h
  onPriv _ _ hp _ := hp
  onSys _ _ h := h
  onHits _ _ h := h
  onCountDown _ _ h := h
  onTrapped _ _ h := h
  onDue _ _ _ h := h
  onAvail _ _ h := h

/-! ### Legal triggers (spec/45_triggers.md R541, R547, R550) -/

theorem Trigger.reset_ok (c : TrigCfg) : (Trigger.reset c).ok := by
  simp [Trigger.ok, Trigger.reset]

/-- The action a write stores is no reserved one, and 1 only with dmode. -/
theorem legalAction_ok (c : TrigCfg) (dmode : Bool) (a : BitVec 6) :
    (legalAction c dmode a = 1 → dmode = true) ∧ (legalAction c dmode a).toNat ≤ 4 := by
  unfold legalAction
  split
  next h =>
    simp only [Bool.and_eq_true, Bool.or_eq_true, decide_eq_true_eq, bne_iff_ne] at h
    obtain ⟨⟨-, hle⟩, hdmode⟩ := h
    exact ⟨fun h1 => hdmode.resolve_left fun hne => hne h1, hle⟩
  next => exact ⟨fun h0 => absurd h0 (by decide), by decide⟩

/-- The match value a write stores is no reserved one. -/
theorem legalMatch_le (c : TrigCfg) (m : BitVec 4) : (legalMatch c m).toNat ≤ 5 := by
  unfold legalMatch
  split
  next h =>
    simp only [Bool.and_eq_true, decide_eq_true_eq] at h
    exact h.1.2
  next => decide

/-- A write of mcontrol or icount stores legal fields, whatever is written. -/
theorem Trigger.ok.writeTdata1 {t : Trigger} (ht : t.ok) (xlen : Nat) (dbg : Bool) (v : XWord) :
    (t.writeTdata1 xlen dbg v).ok := by
  have hreset (dmode : Bool) :
      ({ Trigger.reset t.cfg with dmode := dmode, tdata2 := t.tdata2, tdata3 := t.tdata3 } : Trigger).ok := by
    simp [Trigger.ok, Trigger.reset]
  have hmcontrol (dmode : Bool) : (t.writeMcontrol dmode v).ok := by
    unfold Trigger.writeMcontrol
    split
    · exact hreset dmode
    · obtain ⟨haction, hle⟩ := legalAction_ok t.cfg dmode (BitVec.ofNat 6 (getField v 12 6))
      exact ⟨haction, hle, legalMatch_le _ _, Bool.and_elim_left⟩
  have hicount (dmode : Bool) : (t.writeIcount dmode v).ok := by
    unfold Trigger.writeIcount
    split
    · exact hreset dmode
    · obtain ⟨haction, hle⟩ := legalAction_ok t.cfg dmode (BitVec.ofNat 6 (getField v 0 6))
      obtain ⟨-, -, hmatch, -⟩ := ht
      exact ⟨haction, hle, hmatch, Bool.and_elim_left⟩
  simp only [Trigger.writeTdata1]
  split
  · exact hmcontrol _
  · split
    · exact hicount _
    · exact ht

/-- A write of a tdata register keeps a trigger legal. -/
theorem Trigger.ok.writeTdata {t : Trigger} (ht : t.ok) (xlen which : Nat) (dbg : Bool) (v : XWord) :
    (t.writeTdata xlen which dbg v).ok := by
  unfold Trigger.writeTdata
  split
  · exact ht
  · split
    · exact ht.writeTdata1 xlen dbg v
    · repeat' split
      all_goals exact ht

/-- A hit that is set where it is implemented keeps a trigger legal. -/
theorem Trigger.ok.hit {t : Trigger} (ht : t.ok) : ({ t with hit := t.cfg.hasHit } : Trigger).ok := by
  obtain ⟨haction, hle, hmatch, -⟩ := ht
  exact ⟨haction, hle, hmatch, id⟩

/-- Counting down keeps a trigger legal. -/
theorem Trigger.ok.countDown {t : Trigger} (ht : t.ok) (p : Priv) : (t.countDown p).ok := by
  simp only [Trigger.countDown]
  repeat' split
  · exact ht
  · exact ht.hit
  · exact ht.hit
  · exact ht
  · exact ht

/-- Setting hit bits keeps triggers legal. -/
theorem markHits_ok (ms : List Bool) {ts : List Trigger} (h : ∀ t ∈ ts, t.ok) : ∀ t ∈ markHits ms ts, t.ok := by
  induction ts generalizing ms with
  | nil => cases ms <;> exact h
  | cons u us ih =>
    cases ms with
    | nil => exact h
    | cons m ms =>
      obtain ⟨hu, hus⟩ := List.forall_mem_cons.mp h
      refine List.forall_mem_cons.mpr ⟨?_, ih ms hus⟩
      split
      · exact hu.hit
      · exact hu

/-- A reset trigger is legal, so a reset Trigger Module is. -/
theorem Hart.clearTriggers_ok (hart : Hart) : hart.clearTriggers.triggersOk := by
  intro t ht
  obtain ⟨u, -, rfl⟩ := List.mem_map.mp ht
  exact Trigger.reset_ok u.cfg

/-- A write of a CSR reaches the triggers through the tdata registers alone. -/
theorem Hart.writeCsr_trigs (hart : Hart) (dbg : Bool) (n num : Nat) (v : XWord) :
    (hart.writeCsr dbg n num v).trigs = hart.trigs ∨
      ∃ which w, (hart.writeCsr dbg n num v).trigs = (hart.writeTdata which dbg w).trigs := by
  unfold Hart.writeCsr
  split
  case h_5 => exact .inl (by simp)
  case h_6 | h_7 | h_8 => exact .inr ⟨_, _, rfl⟩
  case h_29 => split <;> exact .inl rfl
  all_goals exact .inl rfl

/-- A write of a CSR keeps the triggers legal. -/
theorem Hart.triggersOk.writeCsr {hart : Hart} (h : hart.triggersOk) (dbg : Bool) (n num : Nat) (v : XWord) :
    (hart.writeCsr dbg n num v).triggersOk := by
  unfold Hart.triggersOk
  rcases hart.writeCsr_trigs dbg n num v with heq | ⟨which, w, heq⟩ <;> rw [heq]
  · exact h
  · intro t ht
    obtain ⟨k, hk⟩ := List.mem_iff_getElem?.mp ht
    simp only [Hart.writeTdata, List.getElem?_modify] at hk
    obtain ⟨u, hu, rfl⟩ := Option.map_eq_some_iff.mp hk
    have hok := h u (List.mem_of_getElem? hu)
    split
    · exact hok.writeTdata _ _ _ _
    · exact hok

/-- Every primitive change of a hart keeps its triggers legal. -/
theorem hartRel_triggersOk : HartRel fun old new => old.triggersOk → new.triggersOk where
  refl _ h := h
  trans hab hbc h := hbc (hab h)
  onCtl _ _ h := h
  onDscratch _ _ _ h := h
  onEnterDebug _ _ _ _ _ _ h := h
  onLeaveDebug _ _ _ h := h
  onStartProgbuf _ _ _ h := h
  onStopProgbuf _ h := h
  onPc _ _ h := h
  onDpc _ _ h := h
  onTrap hart i c v h := by simpa [Hart.triggersOk] using h
  onReset hart n b c h := by
    cases c
    · exact h
    · exact hart.clearTriggers_ok
  onClear hart _ := hart.clearTriggers_ok
  onLeaveReset _ h := h
  onReservation _ _ h := h
  onWriteCsr _ d n num v h := h.writeCsr d n num v
  onGprs _ _ h := h
  onFprs _ _ h := h
  onCounters _ _ _ h := h
  onTimer _ _ h := h
  onPriv _ _ _ h := h
  onSys _ _ h := h
  onHits _ ms h := markHits_ok ms h
  onCountDown _ p h t ht := by
    obtain ⟨u, hu, rfl⟩ := List.mem_map.mp ht
    exact (h u hu).countDown p
  onTrapped _ _ h := h
  onDue _ _ _ h := h
  onAvail _ _ h := h

/-! ### Every step keeps the harts legal (O11) -/

/-- What every change of a hart keeps holds of every hart after a step if it did before. -/
theorem step_everyHart {P : Hart → Prop} (hR : HartRel fun old new => P old → P new) {s t : State}
    (h : step s = .next t) (hs : s.everyHart P) : t.everyHart P := by
  obtain ⟨hlen, hkeep⟩ := hR.evolves_step s t h
  intro new hn
  obtain ⟨k, hk, rfl⟩ := List.mem_iff_getElem.mp hn
  have hold : k < s.harts.length := hlen ▸ hk
  exact hkeep k _ _ (List.getElem?_eq_getElem hold) (List.getElem?_eq_getElem hk) (hs _ (List.getElem_mem hold))

/-- Settles O11: both properties are kept along every primitive change of a hart. -/
theorem stepKeepsHartsLegal : Obligations.StepKeepsHartsLegal :=
  ⟨fun _ _ hs h => step_everyHart hartRel_privOk h hs, fun _ _ hs h => step_everyHart hartRel_triggersOk h hs⟩

end Sys2Proof.Machine
end

section
/-! PROOF. Hart instructions: wfi and c.nop (O24), dret (O25), ebreak and exceptions in the Program Buffer (O26), ebreak
outside Debug Mode (O27). Each meaning is one or two operations on the executing hart, whose laws are cited. -/

namespace Sys2Proof.Machine

/-! ### Instructions that run on the executing hart -/

section
variable {s : State} {hart : Hart}

/-- A meaning runs on the executing hart. -/
theorem onHart_of_get (hh : s.harts[s.cur]? = some hart) (f : Hart → State) : onHart s f = .next (f hart) := by
  simp [onHart, hh]

theorem exec_wfi (hh : s.harts[s.cur]? = some hart) : exec .wfi s = .next (retireCur 4 s) := onHart_of_get hh _

theorem exec_cNop (hh : s.harts[s.cur]? = some hart) :
    exec .cNop s = .next (if hart.cfg.hasC then retireCur 2 s else raise s.cur excIllegal s) := onHart_of_get hh _

theorem exec_ebreak (hh : s.harts[s.cur]? = some hart) : exec .ebreak s = .next (breakAt hart s) := onHart_of_get hh _

theorem exec_cEbreak (hh : s.harts[s.cur]? = some hart) :
    exec .cEbreak s = .next (if hart.cfg.hasC then breakAt hart s else raise s.cur excIllegal s) := onHart_of_get hh _

theorem exec_dret (hh : s.harts[s.cur]? = some hart) : exec .dret s = .next (
    if hart.debugMode && hart.cfg.hasDret then
      if s.dm.phase = .progbuf ∧ s.dm.cmdHart = s.cur then finishCommand none (leaveDebug s.cur s) else leaveDebug s.cur s
    else raise s.cur excIllegal s) := onHart_of_get hh _

/-- ebreak, or c.ebreak on a hart with the C extension (spec/44_debug_mode.md R493). -/
theorem exec_break {i : Instr} (hh : s.harts[s.cur]? = some hart)
    (hi : i = .ebreak ∨ (i = .cEbreak ∧ hart.cfg.hasC = true)) : exec i s = .next (breakAt hart s) := by
  obtain rfl | ⟨rfl, hc⟩ := hi
  · exact exec_ebreak hh
  · rw [exec_cEbreak hh, if_pos hc]

end

/-! ### Counters and the pc (spec/44_debug_mode.md R486) -/

/-- Counting changes the counters alone. -/
theorem Hart.countUp_eq (hart : Hart) (retired : Bool) : hart.countUp retired =
    { hart with cycle := (hart.countUp retired).cycle, instret := (hart.countUp retired).instret } := by
  unfold Hart.countUp
  split <;> rfl

/-- With stopcount 1 nothing is counted in Debug Mode. -/
theorem Hart.countUp_stopped {hart : Hart} (hd : hart.debugMode = true) (hs : hart.dcsr.stopcount = true)
    (retired : Bool) : hart.countUp retired = hart := by
  simp [Hart.countUp, hd, hs]

/-- An instruction that completes changes the pc and the counters alone. -/
theorem Hart.retire_eq (hart : Hart) (len : Nat) : hart.retire len =
    { hart with
      pc := hart.trunc (hart.pc + BitVec.ofNat 128 len)
      cycle := (hart.countUp true).cycle
      instret := (hart.countUp true).instret } := by
  rw [Hart.retire, Hart.countUp_eq]

theorem Hart.retire_onlyMovesOn (hart : Hart) (len : Nat) : hart.onlyMovesOn (hart.retire len) := by
  rw [Hart.retire_eq]
  exact ⟨rfl, fun hd hs => by simp [Hart.countUp_stopped hd hs]⟩

section
variable {s : State} {hart : Hart}

/-- The executing hart after an instruction of `len` bytes that does nothing else. -/
theorem retireCur_get (hh : s.harts[s.cur]? = some hart) (len : Nat) :
    (retireCur len s).harts[s.cur]? = some (hart.retire len) := by
  rw [retireCur, State.modHart_get, if_pos rfl, hh]
  rfl

theorem retireCur_onlyHart (s : State) (len : Nat) : s.onlyHart s.cur (retireCur len s) :=
  State.onlyHart_modHart s s.cur _ 0

/-! ### Exceptions outside Debug Mode (spec/60_exceptions.md R651) -/

/-- Outside Debug Mode an exception is an ordinary trap and nothing else. -/
theorem raise_takesException {h : Nat} (hh : s.harts[h]? = some hart) (hd : hart.debugMode = false) (cause : Nat) :
    s.takesException h cause (raise h cause s) := by
  rw [raise_eq h cause s hart hh, if_neg (by simp [hd])]
  exact ⟨State.onlyHart_modHart s h _ 1, hart, Config.freeWord s.free, hh, by simp [hh]⟩

end

/-! ### wfi and c.nop (O24) -/

/-- Settles O24: both complete by moving on, and an illegal c.nop or c.ebreak is one exception. -/
theorem wfiAndCNop : Obligations.WfiAndCNop := by
  intro s hart hh
  have hmoves (len : Nat) := hart.retire_onlyMovesOn len
  refine ⟨⟨_, _, exec_wfi hh, retireCur_onlyHart s 4, retireCur_get hh 4, hmoves 4, rfl⟩, fun hc => ?_, fun hc hd => ?_⟩
  · rw [exec_cNop hh, if_pos hc]
    exact ⟨_, _, rfl, retireCur_onlyHart s 2, retireCur_get hh 2, hmoves 2, rfl⟩
  · rw [exec_cNop hh, exec_cEbreak hh, if_neg (by simp [hc]), if_neg (by simp [hc])]
    exact ⟨_, rfl, raise_takesException hh hd 2, rfl⟩

/-! ### dret (O25) -/

/-- Settles O25: dret is the return from Debug Mode, after which a command whose Program Buffer holds it ends. -/
theorem dret : Obligations.Dret := by
  intro s hart hh
  rw [exec_dret hh]
  refine ⟨fun hd hdret => ?_, fun hd => ?_⟩
  · rw [if_pos (by simp [hd, hdret])]
    have hleft : (leaveDebug s.cur s).harts[s.cur]? = some (hart.leaveDebug s.cfg s.free) := by
      rw [leaveDebug_get, if_pos rfl, hh]
      rfl
    have heffect := (State.hartEffect.refl s s.cur).leaveDebug
    have hprv (p : Priv) (hcode : privOfCode hart.dcsr.prv = some p) (hp : p ∈ hart.cfg.privs) :=
      Hart.legalPriv_supported hcode hp s.free
    by_cases hcommand : s.dm.phase = .progbuf ∧ s.dm.cmdHart = s.cur
    · rw [if_pos hcommand]
      refine ⟨_, hart.leaveDebug s.cfg s.free, rfl, (heffect.finishCommand none).elsewhere,
        by simp only [finishCommand_frame, hleft], rfl, rfl, Hart.pcBits_aligned, hprv, rfl,
        fun _ => ?_, fun hn => absurd hcommand hn⟩
      rw [finishCommand_dm]
      rfl
    · rw [if_neg hcommand]
      exact ⟨_, _, rfl, heffect.elsewhere, hleft, rfl, rfl, Hart.pcBits_aligned, hprv, rfl,
        fun hc => absurd hc hcommand, fun _ => rfl⟩
  · rw [if_neg (by simp [hd])]
    exact ⟨_, rfl, raise_takesException hh hd 2⟩

/-! ### The end of the Program Buffer (O26) -/

section
variable {s : State} {h : Nat} {hart : Hart}

/-- What the end of the Program Buffer does to the hart: it executes the Program Buffer no more, and dpc is any value where
that clobbers it and a command executed it (spec/42_abstract_commands.md R380, R387). -/
theorem endProgbuf_get (hh : s.harts[h]? = some hart) (hq : s.dm.quick = false) (err : Option (BitVec 3)) :
    ∃ new, (endProgbuf h err s).harts[h]? = some new ∧ new = { hart with inProgbuf := false, dpc := new.dpc } ∧
      (hart.cfg.progbufClobbersDpc = false → new.dpc = hart.dpc) := by
  by_cases hcommand : s.dm.phase = .progbuf ∧ s.dm.cmdHart = h
  · obtain ⟨hp, hc⟩ := hcommand
    obtain ⟨hclobber, hkept⟩ := ({ hart with inProgbuf := false } : Hart).clobberDpc_frame s.free
    refine ⟨({ hart with inProgbuf := false } : Hart).clobberDpc s.free, ?_, hclobber, hkept⟩
    rw [endProgbuf_command h err s hp hc]
    simp only [hq, Bool.false_eq_true, if_false, finishCommand_frame, State.bump_frame, State.modHart_get, hh, if_true,
      Option.map_some]
  · refine ⟨{ hart with inProgbuf := false }, ?_, rfl, fun _ => rfl⟩
    rw [endProgbuf_alone h err s hcommand, State.modHart_get, if_pos rfl, hh]
    rfl

/-- What it does to the DM: a command that executed it ends, its error kept if it is the first, and the data registers a
successful command defined keep their values (R362, R367). -/
theorem endProgbuf_dm (hp : s.dm.phase = .progbuf) (hc : s.dm.cmdHart = h) (hq : s.dm.quick = false)
    (err : Option (BitVec 3)) :
    (endProgbuf h err s).dm = { s.dm with
      phase := .idle
      data := (endProgbuf h err s).dm.data
      cmderr := match err with
        | none => s.dm.cmderr
        | some e => if s.dm.cmderr = 0 then e else s.dm.cmderr } ∧
      (err = none → ∀ k, k < 12 → s.dm.defined.getLsbD k = true →
        vget (endProgbuf h err s).dm.data k 0 = vget s.dm.data k 0) := by
  have hend := endProgbuf_command h err s hp hc
  simp only [hq, Bool.false_eq_true, if_false] at hend
  rw [hend, finishCommand_dm]
  refine ⟨rfl, fun hnone k hk hdefined => ?_⟩
  subst hnone
  exact scrambleData_kept _ _ _ _ k hk hdefined

end

/-- In Debug Mode ebreak ends the Program Buffer; whether it is counted is a free choice (notes/assumptions/37.md). -/
theorem breakAt_debug {s : State} {hart : Hart} (hh : s.harts[s.cur]? = some hart) (hd : hart.debugMode = true) :
    ∃ u x, breakAt hart s = endProgbuf s.cur none u ∧ s.onlyHart s.cur u ∧ u.harts[s.cur]? = some x ∧
      x = { hart with cycle := x.cycle, instret := x.instret } ∧
      (hart.dcsr.stopcount = true → x.cycle = hart.cycle ∧ x.instret = hart.instret) := by
  rw [breakAt, if_pos hd]
  simp only
  split
  · refine ⟨_, hart.countUp true, rfl, State.onlyHart_modHart s s.cur _ 1, by simp [hh], hart.countUp_eq true, fun hs => ?_⟩
    rw [Hart.countUp_stopped hd hs]
    exact ⟨rfl, rfl⟩
  · exact ⟨_, hart, rfl, ⟨.refl s s.cur, rfl⟩, hh, rfl, fun _ => ⟨rfl, rfl⟩⟩

/-- Settles O26: an ebreak, perhaps counted, and an exception are the end of the Program Buffer, whose effect on the hart
and on the DM are laws of their own. -/
theorem programBufferEnds : Obligations.ProgramBufferEnds := by
  refine ⟨fun s hart i hh hd hq hi => ?_, fun s h cause hart hh hd hp hc hq => ?_⟩
  · obtain ⟨u, x, hbreak, ⟨hsame, hdm⟩, hx, hcounted, hstopped⟩ := breakAt_debug hh hd
    obtain ⟨new, hnew, heq, hdpc⟩ := endProgbuf_get hx (hdm ▸ hq) none
    have hend := (State.hartEffect.refl u s.cur).endProgbuf none
    have hframe : new = { hart with
        inProgbuf := false, dpc := new.dpc, cycle := new.cycle, instret := new.instret } := by
      rw [heq, hcounted]
    have hkept : hart.cfg.progbufClobbersDpc = false → new.dpc = hart.dpc := by
      rw [hcounted] at hdpc
      exact hdpc
    have hcounters : hart.dcsr.stopcount = true → new.cycle = hart.cycle ∧ new.instret = hart.instret := by
      rw [heq]
      exact hstopped
    refine ⟨_, new, hbreak ▸ exec_break hh hi, hsame.trans hend.elsewhere, hnew, hframe, hkept, hcounters, ?_, ?_⟩
    · rintro ⟨hp, hc⟩
      obtain ⟨hidle, hdata⟩ := endProgbuf_dm (hdm ▸ hp) (hdm ▸ hc) (hdm ▸ hq) none
      rw [hdm] at hidle hdata
      exact ⟨hidle, hdata rfl⟩
    · intro hn
      rw [endProgbuf_alone s.cur none u (hdm ▸ hn)]
      exact hdm
  · rw [raise_eq h cause s hart hh, if_pos hd]
    obtain ⟨new, hnew, heq, hdpc⟩ := endProgbuf_get hh hq (some errException)
    obtain ⟨hdm, -⟩ := endProgbuf_dm hp hc hq (some errException)
    exact ⟨new, hnew, ((State.hartEffect.refl s h).endProgbuf _).elsewhere, heq, hdpc, hdm⟩

/-! ### ebreak outside Debug Mode (O27) -/

/-- Which of dcsr's three bits makes an ebreak enter Debug Mode (spec/44_debug_mode.md R492). -/
theorem Hart.ebreakEnabled_iff (hart : Hart) : hart.ebreakEnabled = true ↔
    (hart.priv = .m ∧ hart.dcsr.ebreakm = true) ∨ (hart.priv = .s ∧ hart.dcsr.ebreaks = true) ∨
      (hart.priv = .u ∧ hart.dcsr.ebreaku = true) := by
  cases hp : hart.priv <;> simp [Hart.ebreakEnabled, hp]

/-- An enabled ebreak enters Debug Mode with cause 1 and its own address, counted only where stopcount is 0 (R492, R690). -/
theorem breakAt_enters {s : State} {hart : Hart} (hh : s.harts[s.cur]? = some hart) (hd : hart.debugMode = false)
    (he : hart.ebreakEnabled = true) :
    ∃ (x : Hart) (n : Nat), (breakAt hart s).harts[s.cur]? = some (x.enterDebug s.cfg n 1 hart.pc) ∧
      s.onlyHart s.cur (breakAt hart s) ∧
      x = { hart with cycle := x.cycle, instret := x.instret } ∧
      (hart.dcsr.stopcount = true → x.cycle = hart.cycle ∧ x.instret = hart.instret) := by
  rw [breakAt, if_neg (by simp [hd]), if_pos he]
  cases hs : hart.dcsr.stopcount with
  | true => exact ⟨hart, s.free, by simp [enterDebug_get, hh], State.onlyHart_modHart s s.cur _ 3, rfl, fun _ => ⟨rfl, rfl⟩⟩
  | false =>
    exact ⟨hart.countUp true, s.free, by simp [enterDebug_get, hh],
      (State.onlyHart_modHart s s.cur (fun x => x.countUp true) 0).trans (State.onlyHart_modHart _ s.cur _ 3),
      hart.countUp_eq true, nofun⟩

/-- Settles O27: the two branches of an ebreak outside Debug Mode. -/
theorem ebreakOutsideDebugMode : Obligations.EbreakOutsideDebugMode := by
  intro s hart i hh hd hi enters
  rw [exec_break hh hi]
  refine ⟨fun he => ?_, fun hn => ?_⟩
  · obtain ⟨x, n, hget, honly, hx, hstopped⟩ := breakAt_enters hh hd (hart.ebreakEnabled_iff.mpr he)
    refine ⟨_, _, rfl, honly, hget, rfl, ?_, ?_, ?_, ?_, hstopped⟩ <;> rw [hx] <;> rfl
  · have hraise : breakAt hart s = raise s.cur 3 s := by
      rw [breakAt, if_neg (by simp [hd]), if_neg (mt hart.ebreakEnabled_iff.mp hn)]
      rfl
    exact ⟨_, rfl, hraise ▸ raise_takesException hh hd 3⟩

end Sys2Proof.Machine
end

section
/-! PROOF. CSR instructions on the debug and trigger CSRs: reads (O30), writes of dcsr (O31) and of dpc, dscratch and tselect
(O32), and where they are refused (O34). One law says what an instruction that is carried out leaves of the hart; the rest is
what each register reads as and what a write of it does. -/

namespace Sys2Proof.Machine

/-! ### What the CSR numbers say -/

/-- The numbers of the debug and trigger CSRs: no shadows of data registers, reached from machine mode up, and writable. -/
theorem csrRow_num {row : CsrOp → Instr} {num : Nat} (hrow : (row, num) ∈ csrRows) :
    isDebugCsr num = true ∧ num / 256 % 4 = 3 ∧ num / 1024 % 4 = 1 ∧ num ≤ 0x7b3 := by
  simp only [csrRows, List.mem_cons, List.not_mem_nil, or_false, Prod.mk.injEq] at hrow
  rcases hrow with ⟨-, rfl⟩ | ⟨-, rfl⟩ | ⟨-, rfl⟩ | ⟨-, rfl⟩ | ⟨-, rfl⟩ | ⟨-, rfl⟩ | ⟨-, rfl⟩ | ⟨-, rfl⟩ <;> decide

section
variable {s : State} {hart : Hart} {row : CsrOp → Instr} {num : Nat}

/-- A row of a CSR is the CSR instruction on its number. -/
theorem exec_csrRow_eq (hrow : (row, num) ∈ csrRows) (hh : s.harts[s.cur]? = some hart) (op : CsrOp) :
    exec (row op) s = .next (csrInsn num op s.cur s) := by
  simp only [csrRows, List.mem_cons, List.not_mem_nil, or_false, Prod.mk.injEq] at hrow
  rcases hrow with ⟨rfl, rfl⟩ | ⟨rfl, rfl⟩ | ⟨rfl, rfl⟩ | ⟨rfl, rfl⟩ | ⟨rfl, rfl⟩ | ⟨rfl, rfl⟩ | ⟨rfl, rfl⟩ |
    ⟨rfl, rfl⟩ <;> exact onHart_of_get hh _

/-- From Debug Mode every debug and trigger CSR that exists is accessible, and from machine mode the trigger CSRs
(spec/44_debug_mode.md R500, spec/45_triggers.md R530). -/
theorem csrAllowed_row (hrow : (row, num) ∈ csrRows) (hmode : hart.debugMode = true ∨ (hart.priv = .m ∧ num < 0x7b0))
    (op : CsrOp) : csrAllowed op s hart num = (readCsr s hart num).isSome := by
  obtain ⟨-, hlevel, hwritable, -⟩ := csrRow_num hrow
  have hro : hart.csrReadOnly s num = false := by simp [Hart.csrReadOnly, hwritable]
  have haccess (write : Bool) : hart.csrAccess s num write = true := by
    obtain hd | ⟨hm, hlt⟩ := hmode
    · simp [Hart.csrAccess, hd, hro]
    · simp [Hart.csrAccess, hm, hro, hlevel, privCode, Nat.not_le.mpr hlt]
  rw [csrAllowed, haccess, Bool.true_and]

/-- Outside Debug Mode no debug CSR is accessible, and below machine mode no trigger CSR. -/
theorem csrAllowed_outside (hrow : (row, num) ∈ csrRows) (hd : hart.debugMode = false)
    (hmode : 0x7b0 ≤ num ∨ hart.priv ≠ .m) (op : CsrOp) : csrAllowed op s hart num = false := by
  obtain ⟨-, hlevel, -, hle⟩ := csrRow_num hrow
  have haccess (write : Bool) : hart.csrAccess s num write = false := by
    obtain hdebug | hp := hmode
    · simp [Hart.csrAccess, hd, hdebug, hle]
    · have hcode : (privCode hart.priv).toNat < 3 := by
        cases hpriv : hart.priv with
        | m => exact absurd hpriv hp
        | s => decide
        | u => decide
      simp [Hart.csrAccess, hd, hlevel, Nat.not_le.mpr hcode]
  rw [csrAllowed, haccess, Bool.false_and]

end

/-! ### What a CSR instruction leaves -/

/-- The hart after a CSR instruction has done its write: rd gets the old value, and the instruction completes. -/
def Hart.afterCsr (hart : Hart) (op : CsrOp) (old : XWord) : Hart := (hart.setGpr op.rd.toNat old).retire 4

/-- All that the end of a CSR instruction changes. -/
theorem Hart.afterCsr_eq (hart : Hart) (op : CsrOp) (old : XWord) : hart.afterCsr op old = { hart with
    pc := hart.trunc (hart.pc + 4)
    gprs := (hart.afterCsr op old).gprs
    cycle := (hart.afterCsr op old).cycle
    instret := (hart.afterCsr op old).instret } := by
  rw [Hart.afterCsr, Hart.retire_eq, Hart.setGpr_eq]
  rfl

/-- rd gets the old value, on a hart whose CSR write left the general registers as they were. -/
theorem Hart.afterCsr_rdGets {hart written : Hart} (hcfg : written.cfg = hart.cfg) (hgprs : written.gprs = hart.gprs)
    (op : CsrOp) (old : XWord) : hart.rdGets op.rd.toNat old (written.afterCsr op old) := by
  intro j _
  have hsame : written.gpr j = hart.gpr j := by rw [Hart.gpr, Hart.gpr, hcfg, hgprs]
  have htrunc : written.trunc old = hart.trunc old := by rw [Hart.trunc, Hart.trunc, hcfg]
  have hcompletes : (written.afterCsr op old).gpr j = (written.setGpr op.rd.toNat old).gpr j := by
    rw [Hart.afterCsr, Hart.retire_eq]
    rfl
  rw [hcompletes, Hart.gpr_setGpr _ _ _ _ op.rd.isLt, hcfg, hsame, htrunc]
  by_cases hj : j = op.rd.toNat
  · rw [hj]
  · simp [hj]

section
variable {s : State} {hart : Hart} {row : CsrOp → Instr} {num : Nat} {op : CsrOp} {old : XWord}

/-- A CSR instruction that only reads gives rd the value and completes. -/
theorem exec_csrRead (hrow : (row, num) ∈ csrRows) (hh : s.harts[s.cur]? = some hart)
    (hmode : hart.debugMode = true ∨ (hart.priv = .m ∧ num < 0x7b0)) (ho : readCsr s hart num = some old)
    (hw : csrWrites op = false) :
    ∃ t new, exec (row op) s = .next t ∧ s.onlyHart s.cur t ∧ t.harts[s.cur]? = some new ∧
      new = { hart with
        pc := hart.trunc (hart.pc + 4)
        gprs := new.gprs
        cycle := new.cycle
        instret := new.instret } ∧
      hart.rdGets op.rd.toNat old new := by
  have hallowed : csrAllowed op s hart num = true := by simp [csrAllowed_row hrow hmode, ho]
  rw [exec_csrRow_eq hrow hh, csrInsn_allowed num op _ s hart old hh hallowed ho, hw]
  exact ⟨_, hart.afterCsr op old, rfl, State.onlyHart_modHart s s.cur _ 0, by simp [hh, Hart.afterCsr],
    hart.afterCsr_eq op old, Hart.afterCsr_rdGets rfl rfl op old⟩

/-- One that writes, from Debug Mode, writes the register first. -/
theorem exec_csrWrite (hrow : (row, num) ∈ csrRows) (hh : s.harts[s.cur]? = some hart) (hd : hart.debugMode = true)
    (ho : readCsr s hart num = some old) (hw : csrWrites op = true) :
    ∃ t new, exec (row op) s = .next t ∧ s.onlyHart s.cur t ∧ t.harts[s.cur]? = some new ∧
      new = { hart.writeCsr true s.free num (csrResult op hart old) with
        pc := hart.trunc (hart.pc + 4)
        gprs := new.gprs
        cycle := new.cycle
        instret := new.instret } ∧
      hart.rdGets op.rd.toNat old new := by
  obtain ⟨hdebug, -⟩ := csrRow_num hrow
  have hallowed : csrAllowed op s hart num = true := by simp [csrAllowed_row hrow (.inl hd), ho]
  let written := hart.writeCsr true s.free num (csrResult op hart old)
  obtain ⟨hcfg, -, -, -, -, -, -, -, hpc, hgprs, -⟩ := hart.writeCsr_frame true s.free num (csrResult op hart old)
  have hnext : written.trunc (written.pc + 4) = hart.trunc (hart.pc + 4) := by rw [Hart.trunc, Hart.trunc, hcfg, hpc]
  rw [exec_csrRow_eq hrow hh, csrInsn_allowed num op _ s hart old hh hallowed ho, if_pos hw, hd,
    writeCsr_own true _ num _ s hart hh (hart.shadowCsr_debug s num hdebug)]
  exact ⟨_, written.afterCsr op old, rfl,
    (State.onlyHart_modHart s s.cur _ 1).trans (State.onlyHart_modHart _ s.cur _ 0), by simp [hh, written, Hart.afterCsr],
    hnext ▸ written.afterCsr_eq op old, Hart.afterCsr_rdGets hcfg hgprs op old⟩

/-- One that is not carried out is an illegal instruction. -/
theorem exec_csrRefused (hrow : (row, num) ∈ csrRows) (hh : s.harts[s.cur]? = some hart)
    (ha : csrAllowed op s hart num = false) : exec (row op) s = .next (raise s.cur excIllegal s) := by
  rw [exec_csrRow_eq hrow hh, csrInsn_refused num op _ s hart hh ha]

end

/-! ### What the CSRs read as (spec/44_debug_mode.md R502, spec/45_triggers.md R531) -/

section
variable (s : State) (hart : Hart)

theorem readCsr_dcsr : readCsr s hart 0x7b0 = some (BitVec.ofNat 128 hart.dcsrNat) := by
  simp [readCsr, hart.shadowCsr_debug s 0x7b0 rfl]

theorem readCsr_dscratch0 : readCsr s hart 0x7b2 = if hart.cfg.hasDscratch0 then some hart.dscratch0 else none := by
  simp [readCsr, hart.shadowCsr_debug s 0x7b2 rfl]

theorem readCsr_dscratch1 : readCsr s hart 0x7b3 = if hart.cfg.hasDscratch1 then some hart.dscratch1 else none := by
  simp [readCsr, hart.shadowCsr_debug s 0x7b3 rfl]

theorem readCsr_tselect : readCsr s hart 0x7a0 = some hart.tselect := by
  simp [readCsr, hart.shadowCsr_debug s 0x7a0 rfl]

/-- The three tdata registers show the trigger tselect names. -/
theorem readCsr_tdata : readCsr s hart 0x7a1 = some hart.tdata1 ∧ readCsr s hart 0x7a2 = some hart.tdata2 ∧
    readCsr s hart 0x7a3 = some hart.tdata3 := by
  simp [readCsr, hart.shadowCsr_debug s 0x7a1 rfl, hart.shadowCsr_debug s 0x7a2 rfl, hart.shadowCsr_debug s 0x7a3 rfl]

end

/-! ### Layouts (spec/10_state.md R121, R142, R145, R146) -/

/-- Fields that lie side by side in a hart register. -/
theorem xword_add_eq_or (k : Nat) {x y : Nat} (hx : 2 ^ k ∣ x) (hy : y < 2 ^ k) :
    BitVec.ofNat 128 (x + y) = BitVec.ofNat 128 x ||| BitVec.ofNat 128 y := by
  rw [add_eq_or_of_dvd_of_lt k hx hy]
  apply BitVec.eq_of_toNat_eq
  simp

/-- A number in a field of a hart register from bit `k` up. -/
theorem xword_mul_two_pow (x k : Nat) : BitVec.ofNat 128 (x * 2 ^ k) = BitVec.ofNat 128 x <<< k := by
  apply BitVec.eq_of_toNat_eq
  simp [Nat.shiftLeft_eq]

/-- A Bool as bit `k` of a hart register. -/
theorem xword_bitAt (b : Bool) (k : Nat) : BitVec.ofNat 128 (bitAt b k) = (BitVec.ofBool b).setWidth 128 <<< k := by
  rw [bitAt_eq, xword_mul_two_pow]
  cases b <;> rfl

/-- A number of 32 bits as the low word of a hart register. -/
theorem xword_of_word {x : Nat} (hx : x < 2 ^ 32) : BitVec.ofNat 128 x = (BitVec.ofNat 32 x).setWidth 128 := by
  apply BitVec.eq_of_toNat_eq
  rw [BitVec.toNat_ofNat, BitVec.toNat_setWidth, BitVec.toNat_ofNat, Nat.mod_eq_of_lt hx]

/-- A bit is at most the weight of its place. -/
theorem bitAt_le (b : Bool) (k : Nat) : bitAt b k ≤ 2 ^ k := by
  cases b <;> simp [bitAt]

/-- dcsr below xdebugver as a number (R121). -/
def Dcsr.fields (d : Dcsr) : Nat :=
  bitAt d.ebreakm 15 + bitAt d.ebreaks 13 + bitAt d.ebreaku 12 + bitAt d.stepie 11 + bitAt d.stopcount 10 +
    bitAt d.stoptime 9 + d.cause.toNat * 2 ^ 6 + bitAt d.step 2 + d.prv.toNat

theorem Hart.dcsrNat_eq (hart : Hart) : hart.dcsrNat = hart.cfg.xdebugver * 2 ^ 28 + hart.dcsr.fields := by
  simp only [Hart.dcsrNat, Dcsr.fields, Nat.add_assoc]

/-- The fields of dcsr in their places. -/
theorem Dcsr.fields_word (d : Dcsr) : d.fields < 2 ^ 16 ∧ BitVec.ofNat 32 d.fields =
    (wordBit d.ebreakm 15 ||| wordBit d.ebreaks 13 ||| wordBit d.ebreaku 12 ||| wordBit d.stepie 11 |||
      wordBit d.stopcount 10 ||| wordBit d.stoptime 9 ||| d.cause.setWidth 32 <<< 6 ||| wordBit d.step 2 |||
      d.prv.setWidth 32) := by
  have hcause := d.cause.isLt
  have hprv := d.prv.isLt
  refine ⟨?_, ?_⟩
  · have h15 := bitAt_le d.ebreakm 15
    have h13 := bitAt_le d.ebreaks 13
    have h12 := bitAt_le d.ebreaku 12
    have h11 := bitAt_le d.stepie 11
    have h10 := bitAt_le d.stopcount 10
    have h9 := bitAt_le d.stoptime 9
    have h2 := bitAt_le d.step 2
    rw [Dcsr.fields]
    omega
  · rw [Dcsr.fields, ofNat_add_eq_or 2, ofNat_add_bitAt, ofNat_add_eq_or 9, ofNat_mul_two_pow, ofNat_add_bitAt,
      ofNat_add_bitAt, ofNat_add_bitAt, ofNat_add_bitAt, ofNat_add_bitAt, ofNat_bitAt, BitVec.ofNat_toNat,
      BitVec.ofNat_toNat]
    all_goals
      simp only [bitAt_eq, Nat.reducePow, Nat.reduceAdd] at *
      omega

/-- icount's fields below dmode as a number (R146). -/
def Trigger.icountFields (t : Trigger) : Nat :=
  bitAt t.hit 24 + t.count.toNat * 2 ^ 10 + bitAt t.m 9 + bitAt t.s 7 + bitAt t.u 6 + t.action.toNat

/-- tdata1 as the fields of the trigger's type below type and dmode (R142). -/
theorem Trigger.tdata1Nat_eq (xlen : Nat) (t : Trigger) : t.tdata1Nat xlen =
    if t.cfg.kind = 2 then t.cfg.kind * 2 ^ (xlen - 4) + bitAt t.dmode (xlen - 5) + t.cfg.maskmax * 2 ^ (xlen - 11) +
      t.mcontrolFields
    else if t.cfg.kind = 3 then t.cfg.kind * 2 ^ (xlen - 4) + bitAt t.dmode (xlen - 5) + t.icountFields
    else t.cfg.kind * 2 ^ (xlen - 4) := by
  simp only [Trigger.tdata1Nat, Trigger.icountFields, Nat.add_assoc]

/-- The fields of mcontrol in their places. -/
theorem Trigger.mcontrolFields_word (t : Trigger) : t.mcontrolFields < 2 ^ 21 ∧ BitVec.ofNat 32 t.mcontrolFields =
    (wordBit t.hit 20 ||| wordBit t.select 19 ||| wordBit t.timing 18 ||| t.action.setWidth 32 <<< 12 |||
      wordBit t.chain 11 ||| t.mtch.setWidth 32 <<< 7 ||| wordBit t.m 6 ||| wordBit t.s 4 ||| wordBit t.u 3 |||
      wordBit t.execute 2 ||| wordBit t.store 1 ||| wordBit t.load 0) := by
  have haction := t.action.isLt
  have hmatch := t.mtch.isLt
  refine ⟨?_, ?_⟩
  · have h20 := bitAt_le t.hit 20
    have h19 := bitAt_le t.select 19
    have h18 := bitAt_le t.timing 18
    have h11 := bitAt_le t.chain 11
    have h6 := bitAt_le t.m 6
    have h4 := bitAt_le t.s 4
    have h3 := bitAt_le t.u 3
    have h2 := bitAt_le t.execute 2
    have h1 := bitAt_le t.store 1
    have h0 := bitAt_le t.load 0
    rw [Trigger.mcontrolFields]
    omega
  · rw [Trigger.mcontrolFields, ofNat_add_bitAt, ofNat_add_bitAt, ofNat_add_bitAt, ofNat_add_bitAt, ofNat_add_bitAt,
      ofNat_add_bitAt, ofNat_add_eq_or 11, ofNat_mul_two_pow, ofNat_add_bitAt, ofNat_add_eq_or 18, ofNat_mul_two_pow,
      ofNat_add_bitAt, ofNat_add_bitAt, ofNat_bitAt, BitVec.ofNat_toNat, BitVec.ofNat_toNat]
    all_goals
      simp only [bitAt_eq, Nat.reducePow, Nat.reduceAdd] at *
      omega

/-- The fields of icount in their places. -/
theorem Trigger.icountFields_word (t : Trigger) : t.icountFields < 2 ^ 25 ∧ BitVec.ofNat 32 t.icountFields =
    (wordBit t.hit 24 ||| t.count.setWidth 32 <<< 10 ||| wordBit t.m 9 ||| wordBit t.s 7 ||| wordBit t.u 6 |||
      t.action.setWidth 32) := by
  have haction := t.action.isLt
  have hcount := t.count.isLt
  refine ⟨?_, ?_⟩
  · have h24 := bitAt_le t.hit 24
    have h9 := bitAt_le t.m 9
    have h7 := bitAt_le t.s 7
    have h6 := bitAt_le t.u 6
    rw [Trigger.icountFields]
    omega
  · rw [Trigger.icountFields, ofNat_add_eq_or 6, ofNat_add_bitAt, ofNat_add_bitAt, ofNat_add_bitAt, ofNat_add_eq_or 24,
      ofNat_mul_two_pow, ofNat_bitAt, BitVec.ofNat_toNat, BitVec.ofNat_toNat]
    all_goals
      simp only [bitAt_eq, Nat.reducePow, Nat.reduceAdd] at *
      omega

section
variable {xlen : Nat} (hx : 32 ≤ xlen)
include hx

/-- The type of a trigger with dmode below it. -/
theorem typeAndDmode_eq (kind : Nat) (dmode : Bool) :
    BitVec.ofNat 128 (kind * 2 ^ (xlen - 4) + bitAt dmode (xlen - 5)) =
      BitVec.ofNat 128 kind <<< (xlen - 4) ||| (BitVec.ofBool dmode).setWidth 128 <<< (xlen - 5) ∧
    2 ^ (xlen - 5) ∣ kind * 2 ^ (xlen - 4) + bitAt dmode (xlen - 5) := by
  have hlt : bitAt dmode (xlen - 5) < 2 ^ (xlen - 4) :=
    (bitAt_le dmode _).trans_lt (Nat.pow_lt_pow_right (by decide) (by omega))
  refine ⟨?_, ?_⟩
  · rw [xword_add_eq_or (xlen - 4) (Nat.dvd_mul_left ..) hlt, xword_mul_two_pow, xword_bitAt]
  · rw [bitAt_eq]
    exact Nat.dvd_add ((Nat.pow_dvd_pow 2 (by omega)).mul_left _) (Nat.dvd_mul_left ..)

/-- The fields of tdata1 in their places, as the trigger's type says. -/
theorem Trigger.tdata1_word (t : Trigger) (hm : t.cfg.maskmax < 64) :
    BitVec.ofNat 128 (t.tdata1Nat xlen) =
      let type := BitVec.ofNat 128 t.cfg.kind <<< (xlen - 4)
      let dmode := (BitVec.ofBool t.dmode).setWidth 128 <<< (xlen - 5)
      if t.cfg.kind = 2 then
        type ||| dmode ||| BitVec.ofNat 128 t.cfg.maskmax <<< (xlen - 11) |||
          (BitVec.ofNat 32 t.mcontrolFields).setWidth 128
      else if t.cfg.kind = 3 then type ||| dmode ||| (BitVec.ofNat 32 t.icountFields).setWidth 128
      else type := by
  obtain ⟨hhigh, hdvd⟩ := typeAndDmode_eq hx t.cfg.kind t.dmode
  obtain ⟨hmcontrol, -⟩ := t.mcontrolFields_word
  obtain ⟨hicount, -⟩ := t.icountFields_word
  have hroom : 2 ^ (xlen - 5) = 64 * 2 ^ (xlen - 11) := by
    rw [show 64 = 2 ^ 6 from rfl, ← Nat.pow_add]
    congr 1
    omega
  have hmask : t.cfg.maskmax * 2 ^ (xlen - 11) < 2 ^ (xlen - 5) := by
    rw [hroom]
    exact Nat.mul_lt_mul_of_pos_right hm (Nat.two_pow_pos _)
  have hbelow : t.mcontrolFields < 2 ^ (xlen - 11) := hmcontrol.trans_le (Nat.pow_le_pow_right (by decide) (by omega))
  have hbelow' : t.icountFields < 2 ^ (xlen - 5) := hicount.trans_le (Nat.pow_le_pow_right (by decide) (by omega))
  have hdvd' : 2 ^ (xlen - 11) ∣ t.cfg.kind * 2 ^ (xlen - 4) + bitAt t.dmode (xlen - 5) +
      t.cfg.maskmax * 2 ^ (xlen - 11) :=
    Nat.dvd_add ((Nat.pow_dvd_pow 2 (by omega)).trans hdvd) (Nat.dvd_mul_left ..)
  have hmcontrolWord : BitVec.ofNat 128 t.mcontrolFields = (BitVec.ofNat 32 t.mcontrolFields).setWidth 128 :=
    xword_of_word (by omega)
  have hicountWord : BitVec.ofNat 128 t.icountFields = (BitVec.ofNat 32 t.icountFields).setWidth 128 :=
    xword_of_word (by omega)
  rw [t.tdata1Nat_eq]
  split
  · rw [xword_add_eq_or (xlen - 11) hdvd' hbelow, xword_add_eq_or (xlen - 5) hdvd hmask, hhigh, xword_mul_two_pow,
      hmcontrolWord]
  · split
    · rw [xword_add_eq_or (xlen - 5) hdvd hbelow', hhigh, hicountWord]
    · exact xword_mul_two_pow _ _

end

/-- A read of dcsr (spec/44_debug_mode.md R502). -/
theorem Hart.dcsrNat_word (hart : Hart) : BitVec.ofNat 128 hart.dcsrNat =
    BitVec.ofNat 128 hart.cfg.xdebugver <<< 28 ||| (BitVec.ofNat 32 hart.dcsr.fields).setWidth 128 := by
  obtain ⟨hlt, -⟩ := hart.dcsr.fields_word
  have hfields : BitVec.ofNat 128 hart.dcsr.fields = (BitVec.ofNat 32 hart.dcsr.fields).setWidth 128 :=
    xword_of_word (by omega)
  rw [hart.dcsrNat_eq, xword_add_eq_or 28 (Nat.dvd_mul_left ..) (by omega), xword_mul_two_pow, hfields]

/-! ### Reads (O30) -/

/-- Settles O30: the instruction that only reads, and then each register's value. -/
theorem csrReads : Obligations.CsrReads := by
  intro s hart op hh
  obtain ⟨htdata1, htdata2, htdata3⟩ := readCsr_tdata s hart
  refine ⟨fun row num old hrow hmode ho hw => ?_, ?_, readCsr_dpc s hart, fun h => ?_, fun h => ?_,
    readCsr_tselect s hart, fun hnone => ?_, fun trig htrig => ?_⟩
  · obtain ⟨t, new, hexec, honly, hget, heq, hgets⟩ := exec_csrRead hrow hh hmode ho hw
    refine ⟨t, new, hexec, honly, hget, ?_, ?_, hgets⟩ <;> rw [heq]
  · rw [readCsr_dcsr, hart.dcsrNat_word, hart.dcsr.fields_word.2]
  · rw [readCsr_dscratch0, if_pos h]
  · rw [readCsr_dscratch1, if_pos h]
  · rw [htdata1, htdata2, htdata3]
    simp [Hart.tdata1, Hart.tdata2, Hart.tdata3, Hart.trig?, hnone]
  · have hreached : hart.trig? = some trig := htrig
    have hword : hart.tdata1 = BitVec.ofNat 128 (trig.tdata1Nat hart.cfg.xlen) := by simp only [Hart.tdata1, hreached]
    refine ⟨?_, ?_, fun hx _ hm => ?_⟩
    · simp only [htdata2, Hart.tdata2, hreached]
    · simp only [htdata3, Hart.tdata3, hreached]
    rw [htdata1, hword, trig.tdata1_word (by omega) hm, trig.mcontrolFields_word.2, trig.icountFields_word.2]

/-! ### Writes of dcsr (O31) -/

/-- Settles O31: the write is `Hart.writeDcsr`, and the end of the instruction leaves dcsr. -/
theorem dcsrWrite : Obligations.DcsrWrite := by
  intro s hart op hh hd hw old v
  obtain ⟨t, new, hexec, honly, hget, heq, hgets⟩ :=
    exec_csrWrite (row := .dcsr) (by simp [csrRows]) hh hd (readCsr_dcsr s hart) hw
  have hdcsr : new.dcsr = (hart.writeDcsr s.free v).dcsr := by
    rw [heq]
    rfl
  have hcode : BitVec.ofNat 2 (getField v 0 2) = v.extractLsb' 0 2 := by
    apply BitVec.eq_of_toNat_eq
    simp [getField]
  refine ⟨t, new, hexec, honly, hget, ?_, ?_, fun p hp hmem => ?_, ?_, hgets⟩
  · rw [heq]
    rfl
  · rw [hdcsr]
    simp [Hart.writeDcsr]
  · rw [hdcsr]
    simp [Hart.writeDcsr, Hart.writtenPrv, hcode, hp, hmem]
  · rw [heq]

/-! ### Writes of dpc, dscratch and tselect (O32) -/

/-- A write of tselect changes tselect alone: a valid index is stored, and nothing on a hart without triggers
(spec/45_triggers.md R532). -/
theorem Hart.writeTselect_eq (hart : Hart) (v : XWord) :
    hart.writeTselect v = { hart with tselect := (hart.writeTselect v).tselect } ∧
    (hart.trigs = [] → (hart.writeTselect v).tselect = hart.tselect) ∧
    ((hart.trunc v).toNat < hart.trigs.length → (hart.writeTselect v).tselect = hart.trunc v) := by
  unfold Hart.writeTselect
  split
  next hnone => exact ⟨rfl, fun _ => rfl, fun hvalid => by simp [hnone] at hvalid⟩
  next hsome =>
    split
    next => exact ⟨rfl, fun h => absurd h hsome, fun _ => rfl⟩
    next hinvalid => exact ⟨rfl, fun h => absurd h hsome, fun h => absurd h hinvalid⟩

/-- Settles O32: the write of each register, and the end of the instruction that leaves it. -/
theorem dpcDscratchTselectWrite : Obligations.DpcDscratchTselectWrite := by
  intro s hart op hh hd hw
  refine ⟨?_, fun h => ?_, fun h => ?_, ?_⟩
  · intro v
    obtain ⟨t, new, hexec, honly, hget, heq, hgets⟩ :=
      exec_csrWrite (row := .dpc) (by simp [csrRows]) hh hd (readCsr_dpc s hart) hw
    have hdpc : new.dpc = hart.pcBits v := by
      rw [heq]
      rfl
    have hlt : v.toNat < 2 ^ hart.cfg.xlen := by
      rw [Hart.trunc_toNat]
      exact Nat.mod_lt _ (Nat.two_pow_pos _)
    refine ⟨t, new, hexec, honly, hget, hdpc, fun h4 => hdpc.trans (Hart.pcBits_aligned h4 hlt), ?_, hgets⟩
    rw [heq]
    rfl
  · exact exec_csrWrite (row := .dscratch0) (by simp [csrRows]) hh hd ((readCsr_dscratch0 s hart).trans (if_pos h)) hw
  · exact exec_csrWrite (row := .dscratch1) (by simp [csrRows]) hh hd ((readCsr_dscratch1 s hart).trans (if_pos h)) hw
  · intro v
    obtain ⟨t, new, hexec, honly, hget, heq, hgets⟩ :=
      exec_csrWrite (row := .tselect) (by simp [csrRows]) hh hd (readCsr_tselect s hart) hw
    obtain ⟨halone, hnone, hvalid⟩ := hart.writeTselect_eq v
    have htselect : new.tselect = (hart.writeTselect v).tselect := by
      rw [heq]
      rfl
    rw [Hart.trunc_trunc] at hvalid
    refine ⟨t, new, hexec, honly, hget, fun h => htselect.trans (hnone h), fun h => htselect.trans (hvalid h), ?_, hgets⟩
    have hwritten : hart.writeCsr true s.free 0x7a0 (csrResult op hart hart.tselect) = hart.writeTselect v := rfl
    rw [hwritten, halone] at heq
    rw [heq]

/-! ### Where the CSRs are refused (O34) -/

/-- Settles O34: what is not accessible, and a dscratch register that is not there, is an illegal instruction. -/
theorem csrRefused : Obligations.CsrRefused := by
  intro s hart op hh
  have hends (row : CsrOp → Instr) (num : Nat) (hrow : (row, num) ∈ csrRows) (hd : hart.debugMode = true)
      (hnone : readCsr s hart num = none) : exec (row op) s = .next (endProgbuf s.cur (some 3) s) := by
    have hrefused : csrAllowed op s hart num = false := by simp [csrAllowed_row hrow (.inl hd), hnone]
    rw [exec_csrRefused hrow hh hrefused, raise_eq _ _ s hart hh, if_pos hd]
    rfl
  refine ⟨fun row num hrow hd hmode => ?_, fun hd hno => ?_, fun hd hno => ?_⟩
  · exact ⟨_, exec_csrRefused hrow hh (csrAllowed_outside hrow hd hmode op), raise_takesException hh hd 2⟩
  · exact hends .dscratch0 0x7b2 (by simp [csrRows]) hd (by simp [readCsr_dscratch0, hno])
  · exact hends .dscratch1 0x7b3 (by simp [csrRows]) hd (by simp [readCsr_dscratch1, hno])

end Sys2Proof.Machine
end

section
/-! PROOF. Interrupts (O21): which one is taken, by the hart's next move at an instruction boundary, and none in Debug Mode.
The instruction that is executed where none is ready is wfi; where no trigger is enabled nothing follows it. -/

namespace Sys2Proof.Machine

/-! ### Triggers that are not enabled (spec/45_triggers.md R542, R561) -/

/-- No hit bit is set where no trigger matches. -/
theorem markHits_of_none {ms : List Bool} (h : ∀ m ∈ ms, m = false) (ts : List Trigger) : markHits ms ts = ts := by
  induction ts generalizing ms with
  | nil => cases ms <;> rfl
  | cons t ts ih =>
    cases ms with
    | nil => rfl
    | cons m ms =>
      obtain ⟨rfl, hms⟩ := List.forall_mem_cons.mp h
      rw [markHits, ih hms]
      rfl

/-- No trigger fires where none matches. -/
theorem Hart.fires_of_none {hart : Hart} {ms : List Bool} (h : ∀ m ∈ ms, m = false) (P : Trigger → Bool) :
    hart.fires ms P = false := by
  refine List.any_eq_false.mpr fun p hp => ?_
  obtain ⟨-, hm⟩ := List.of_mem_zip hp
  simp [h p.2 hm]

section
variable {hart : Hart} {p : Priv} (htrig : ∀ trig ∈ hart.trigs, trig.enabledAt p = false)
include htrig

/-- No trigger that is not enabled matches. -/
theorem Hart.trigMatches_disabled (timing : Bool) (f : Facts) : ∀ m ∈ hart.trigMatches p timing f, m = false :=
  chainMatches_disabled _ timing f true htrig

/-- No instruction count that is not enabled fires. -/
theorem Hart.countFiresWith_disabled (action : BitVec 6) : hart.countFiresWith p action = false :=
  List.any_eq_false.mpr fun t ht => by simp [Trigger.countFires, htrig t ht]

/-- No instruction count that is not enabled changes. -/
theorem Hart.countDown_disabled : hart.countDown p = hart := by
  have hsame : hart.trigs.map (Trigger.countDown p) = hart.trigs :=
    (List.map_congr_left fun t ht => by simp [Trigger.countDown, htrig t ht]).trans (List.map_id _)
  rw [Hart.countDown, hsame]

/-- Triggers that are not enabled, with no action still to come, leave the hart as it was. -/
theorem Hart.afterTriggers_disabled (he : hart.dueEntry = false) (hb : hart.dueBreak = false) {ms : List Bool}
    (hms : ∀ m ∈ ms, m = false) (holdEntry holdBreak : Bool) : hart.afterTriggers p ms holdEntry holdBreak = hart := by
  have hhits : hart.setHits ms = hart := by rw [Hart.setHits, markHits_of_none hms]
  have hfires (action : BitVec 6) : hart.firesSkidding ms action true = false := Hart.fires_of_none hms _
  have hkept {due : Bool} (hdue : due = false) (hold : Bool) : ((due || false) && hold) = due := by simp [hdue]
  simp only [Hart.afterTriggers, hhits, Hart.countDown_disabled htrig, hfires, hkept he, hkept hb]

/-- And no action is to be taken. -/
theorem actsNow_disabled {ms : List Bool} (hms : ∀ m ∈ ms, m = false) (hold : Bool) (action : BitVec 6) :
    actsNow hart p ms false hold action = false := by
  simp [actsNow, Hart.firesSkidding, Hart.fires_of_none hms, Hart.countFiresWith_disabled htrig]

end

/-! ### The end of an instruction nothing follows -/

/-- A change that leaves hart `h` as it is leaves the machine as it is. -/
theorem State.modHart_of_eq {s : State} {h : Nat} {f : Hart → Hart} (hf : ∀ x, s.harts[h]? = some x → f x = x) :
    s.modHart h f = s := by
  have hsame : s.harts.modify h f = s.harts := by
    refine List.ext_getElem? fun k => ?_
    rw [List.getElem?_modify]
    cases hk : s.harts[k]? with
    | none => rfl
    | some x =>
      split
      next heq => simp [hf x (heq ▸ hk)]
      next => rfl
  rw [State.modHart, hsame]

section
variable {s : State} {h : Nat} {hart : Hart}

/-- Without dcsr.step no instruction ends in Debug Mode for a single step (spec/60_exceptions.md R670). -/
theorem stepEnd_unstepped (hh : s.harts[h]? = some hart) (hs : hart.dcsr.step = false) : stepEnd h s = s := by
  simp [stepEnd, hh, hs]

/-- Nothing follows an instruction of a hart that is not in single step, with no trigger enabled at the instruction's
privilege and no action still to come. -/
theorem finishHart_unwatched (hh : s.harts[h]? = some hart) (hd : hart.debugMode = false) (hs : hart.dcsr.step = false)
    (he : hart.dueEntry = false) (hb : hart.dueBreak = false) {p : Priv}
    (htrig : ∀ trig ∈ hart.trigs, trig.enabledAt p = false) (f : Facts) : finishHart h p f s = s.bump 1 := by
  have hms : ∀ m ∈ (if hart.trapped then [] else hart.trigMatches p true f), m = false := by
    split
    · exact nofun
    · exact Hart.trigMatches_disabled htrig true f
  have hsame (holdEntry hold : Bool) : (s.modHart h fun x =>
      x.afterTriggers p (if hart.trapped then [] else hart.trigMatches p true f) holdEntry hold) = s :=
    State.modHart_of_eq fun x hx => by
      obtain rfl : x = hart := Option.some.inj (hx.symm.trans hh)
      exact Hart.afterTriggers_disabled htrig he hb hms _ _
  have hnow (hold : Bool) (action : BitVec 6) := actsNow_disabled htrig hms hold action
  simp only [finishHart, hh, hd, he, hb, hsame, hnow, Bool.false_eq_true, if_false]
  exact stepEnd_unstepped (s := s.bump 1) hh hs

/-! ### The next move of a running hart that is not asked to halt (spec/60_exceptions.md R655, R656) -/

variable (htrig : ∀ trig ∈ hart.trigs, trig.enabledAt hart.priv = false) (hwants : wantsHalt s h hart = false)
include htrig hwants

/-- It takes its interrupt, where no ebreak that enters Debug Mode comes before. -/
theorem runMove_interrupt (hbreak : hart.ebreakEnabled = false) {c : Nat} (hc : hart.interrupt = some c) :
    runMove h hart s = .quiet (stepEnd h ((s.bump 8).modHart h fun x =>
      x.trap true (x.interrupt.getD 0) (Config.freeWord (s.free + 7)))) := by
  have hfires (f : Facts) : hart.firesWith (hart.trigMatches hart.priv false f) 1 = false :=
    Hart.fires_of_none (Hart.trigMatches_disabled htrig false f) _
  have henters (fetched : Option Nat) : entersByEbreak hart fetched = false := by simp [entersByEbreak, hbreak]
  simp only [runMove, hfires, henters, hwants, hc, Option.isSome_some, Bool.false_eq_true, if_false, Bool.not_false,
    Bool.and_true, if_true]

/-- With no interrupt to take it executes the row it fetches. -/
theorem runMove_row (hc : hart.interrupt = none) {w : Nat} {i : Instr} (hf : fetchInsn s hart s.free = some w)
    (hw : decodeHart w = .ok i) : runMove h hart s =
      .run i (s.bump 8) (.hart h hart.priv (factsOf hart (s.free + 6) (some w) {})) := by
  have heffect (m : Nat) : fetchedEffect s hart m (some w) = {} := by
    simp [fetchedEffect, effectOf, isRowOrCsr, hw, Except.isOk, Except.toBool]
  have hmatches (f : Facts) := Hart.trigMatches_disabled htrig false f
  have hfires (f : Facts) (action : BitVec 6) : hart.firesWith (hart.trigMatches hart.priv false f) action = false :=
    Hart.fires_of_none (hmatches f) _
  have hhits (f : Facts) : ((s.bump 8).modHart h fun x => x.setHits (hart.trigMatches hart.priv false f)) = s.bump 8 :=
    State.modHart_of_eq fun x _ => by rw [Hart.setHits, markHits_of_none (hmatches f)]
  simp only [runMove, hf, heffect, hfires, hwants, hc, hhits, Option.isSome_none, Bool.false_eq_true, if_false,
    Bool.false_and, wordMove_row hw]

end

/-! ### Which interrupt is taken (notes/assumptions/33.md) -/

/-- An interrupt is ready: pending, enabled, and not masked at the hart's privilege, by the mode it is delegated to. -/
theorem Hart.interruptReady_iff (hart : Hart) (c : Nat) : hart.interruptReady c = true ↔
    hart.sys.mip.getLsbD c = true ∧ hart.sys.mie.getLsbD c = true ∧
      if .s ∈ hart.cfg.privs ∧ hart.sys.mideleg.getLsbD c = true then
        hart.priv = .u ∨ (hart.priv = .s ∧ hart.sys.mstatus.getLsbD 1 = true)
      else hart.priv ≠ .m ∨ hart.sys.mstatus.getLsbD 3 = true := by
  simp only [Hart.interruptReady, Bool.and_eq_true, List.contains_iff_mem, and_assoc]
  split <;> simp

/-- Out of single step the hart takes the first ready interrupt in the order of their priorities. -/
theorem Hart.interrupt_first {hart : Hart} (hs : hart.dcsr.step = false) {i c : Nat} (hi : interruptOrder[i]? = some c)
    (hready : hart.interruptReady c = true)
    (hbefore : ∀ j c', j < i → interruptOrder[j]? = some c' → hart.interruptReady c' = false) :
    hart.interrupt = some c := by
  obtain ⟨hlt, hget⟩ := List.getElem?_eq_some_iff.mp hi
  rw [Hart.interrupt, if_neg (by simp [hs]), List.find?_eq_some_iff_getElem]
  refine ⟨hready, i, hlt, hget, fun j hj => ?_⟩
  simp [hbefore j _ hj (List.getElem?_eq_getElem (hj.trans hlt))]

/-- Whether the hart's present move took a trap before does not matter to a trap. -/
theorem Hart.trap_untrapped (hart : Hart) (isInt : Bool) (cause : Nat) (tval : XWord) :
    ({ hart with trapped := false } : Hart).trap isInt cause tval = hart.trap isInt cause tval := by
  have hcount : ({ hart with trapped := false } : Hart).countUp false = { hart.countUp false with trapped := false } := by
    unfold Hart.countUp
    split <;> rfl
  simp only [Hart.trap, hcount]

/-! ### Interrupts (O21) -/

section
variable {s : State} {h : Nat} {hart : Hart} {q : List Event}

/-- A running hart with no trigger enabled, not asked to halt and not in single step takes the interrupt that comes first,
and does nothing else. -/
theorem step_interrupt (hq : s.queue = .hart h :: q) (hh : s.harts[h]? = some hart) (ha : hart.avail = true)
    (hr : hart.inReset = false) (hd : hart.debugMode = false) (hwants : wantsHalt s h hart = false)
    (htrig : ∀ trig ∈ hart.trigs, trig.enabledAt hart.priv = false) (hbreak : hart.ebreakEnabled = false)
    (hs : hart.dcsr.step = false) {c : Nat} (hc : hart.interrupt = some c) :
    ∃ t tval, step s = .next t ∧ { s with queue := q, cur := h }.onlyHart h t ∧
      t.harts[h]? = some (hart.trap true c tval) := by
  let r : State := { s with queue := q }
  have hmove := (nextMove_event s _ q hq).trans ((hartMove_running (s := r) hh ha hr hd).trans
    (runMove_interrupt (s := r.moving h) htrig hwants hbreak hc))
  let trapping : State := ((r.moving h).bump 8).modHart h fun x =>
    x.trap true (x.interrupt.getD 0) (Config.freeWord ((r.moving h).free + 7))
  have htrapped : trapping.harts[h]? = some (hart.trap true c (Config.freeWord ((r.moving h).free + 7))) := by
    have hmoving : ((r.moving h).bump 8).harts[h]? = some { hart with trapped := false } := State.moving_get (s := r) hh
    have hsame : ({ hart with trapped := false } : Hart).interrupt = some c := hc
    rw [State.modHart_get, if_pos rfl, hmoving]
    simp only [Option.map_some, hsame, Option.getD_some, Hart.trap_untrapped]
  have hstep := step_quiet s _ hmove
  rw [stepEnd_unstepped htrapped (by simpa using hs)] at hstep
  exact ⟨_, _, hstep, (r.moving_onlyHart h).trans (State.onlyHart_modHart (r.moving h) h _ 8), htrapped⟩

/-- With no interrupt to take, a wfi is executed, and nothing follows it (notes/assumptions/35.md). -/
theorem step_wfi (hq : s.queue = .hart h :: q) (hh : s.harts[h]? = some hart) (ha : hart.avail = true)
    (hr : hart.inReset = false) (hd : hart.debugMode = false) (hwants : wantsHalt s h hart = false)
    (htrig : ∀ trig ∈ hart.trigs, trig.enabledAt hart.priv = false) (hc : hart.interrupt = none)
    (hs : hart.dcsr.step = false) (he : hart.dueEntry = false) (hb : hart.dueBreak = false) {w : Nat}
    (hf : fetchInsn (({ s with queue := q } : State).moving h) hart s.free = some w) (hw : decodeHart w = .ok .wfi) :
    ∃ t, step s = .next t ∧ { s with queue := q, cur := h }.onlyHart h t ∧
      t.harts[h]? = some (({ hart with trapped := false } : Hart).retire 4) := by
  let r : State := { s with queue := q }
  have hmove := (nextMove_event s _ q hq).trans ((hartMove_running (s := r) hh ha hr hd).trans
    (runMove_row (s := r.moving h) htrig hwants hc hf hw))
  have hmoving : ((r.moving h).bump 8).harts[h]? = some { hart with trapped := false } := State.moving_get (s := r) hh
  have hretired := retireCur_get (s := (r.moving h).bump 8) hmoving 4
  have hstep := step_run s _ _ _ _ hmove (exec_wfi hmoving)
  have hfinish (f : Facts) : finish (.hart h hart.priv f) (retireCur 4 ((r.moving h).bump 8)) =
      (retireCur 4 ((r.moving h).bump 8)).bump 1 :=
    finishHart_unwatched hretired (by simpa using hd) (by simpa using hs) (by simpa using he) (by simpa using hb)
      (by simpa using htrig) f
  rw [hfinish] at hstep
  exact ⟨_, hstep, (r.moving_onlyHart h).trans (State.onlyHart_modHart (r.moving h) h _ 9), hretired⟩

end

/-- Settles O21: the interrupt that comes first, the wfi that is executed where none is ready, and the moves of a hart in
Debug Mode, none of which looks at the interrupts. -/
theorem interrupts : Obligations.Interrupts := by
  intro s h q hart hh ready order after r
  have hready (c : Nat) : hart.interruptReady c = true ↔ ready c := hart.interruptReady_iff c
  have hmoves : ({ hart with trapped := false } : Hart).retire 4 = { hart with
      pc := hart.trunc (hart.pc + 4)
      cycle := (({ hart with trapped := false } : Hart).retire 4).cycle
      instret := (({ hart with trapped := false } : Hart).retire 4).instret
      trapped := false } := by
    rw [Hart.retire_eq]
    rfl
  refine ⟨fun v hq => ?_, fun hq ha hr hd hp hreq htrig => ?_, fun hq ha hr hd => ?_⟩
  · exact ⟨_, step_quiet s _ (nextMove_event s _ q hq), State.onlyHart_modHart { s with queue := q } h _ 0, by simp [hh]⟩
  · have hwants : wantsHalt s h hart = false := by simp [wantsHalt, quickPending, hreq, hp]
    refine ⟨fun i c hbreak hs hi hc hbefore => ?_, fun w hnone hs he hb hf hw => ?_⟩
    · have hfirst : hart.interrupt = some c := Hart.interrupt_first hs hi ((hready c).mpr hc) fun j c' hj hc' =>
        Bool.eq_false_iff.mpr (mt (hready c').mp (hbefore j c' hj hc'))
      exact step_interrupt hq hh ha hr hd hwants htrig hbreak hs hfirst
    · have hquiet : hart.interrupt = none := by
        rw [Hart.interrupt, if_neg (by simp [hs])]
        exact List.find?_eq_none.mpr fun c hc => mt (hready c).mp (hnone c hc)
      obtain ⟨t, hstep, honly, hget⟩ := step_wfi hq hh ha hr hd hwants htrig hquiet hs he hb hf hw
      exact ⟨t, _, hstep, honly, hget, hmoves⟩
  · refine ⟨fun hbuffer hresume => ?_, fun w hbuffer hf hw => ?_⟩
    · have hstep := step_quiet s _ ((nextMove_event s _ q hq).trans
        (hartMove_halted (s := { s with queue := q }) hh ha hr hd hbuffer))
      rw [if_neg (by simp [resumeEnabled, hresume])] at hstep
      refine ⟨_, ({ hart with trapped := false } : Hart).countUp false, hstep,
        (State.moving_onlyHart { s with queue := q } h).trans (State.onlyHart_modHart r h _ 0), ?_, ?_⟩
      · rw [State.modHart_get, if_pos rfl, State.moving_get (s := { s with queue := q }) hh]
        rfl
      · unfold Hart.countUp
        split <;> rfl
    · have hmoving : (r.bump 8).harts[h]? = some { hart with trapped := false } :=
        State.moving_get (s := { s with queue := q }) hh
      have hstep := stepRunsProgramBufferInstruction s h q hart w .wfi hq hh ha hr hd hbuffer hf hw
      exact ⟨_, _, hstep.trans (exec_wfi hmoving),
        (State.moving_onlyHart { s with queue := q } h).trans (State.onlyHart_modHart r h _ 8),
        retireCur_get hmoving 4, hmoves⟩

end Sys2Proof.Machine
end

section
/-! PROOF. Triggers: what match, chain and count decide (O22). A chain is what each trigger takes from the one before. -/

namespace Sys2Proof.Machine

/-! ### Match (spec/45_triggers.md R545) -/

/-- The search for the lowest 0 bit finds it. -/
theorem lowestZero_eq {v k : Nat} (hzero : v.testBit k = false) : ∀ {fuel i : Nat}, i ≤ k → k < i + fuel →
    (∀ j, i ≤ j → j < k → v.testBit j = true) → lowestZero v fuel i = some k
  | 0, i, hle, hlt, _ => absurd hlt (by omega)
  | fuel + 1, i, hle, hlt, hones => by
    rw [Nat.testBit_eq_decide_div_mod_eq, decide_eq_false_iff_not] at hzero
    by_cases hik : i = k
    · subst hik
      rw [lowestZero, if_pos (by omega)]
    · have hone := hones i le_rfl (by omega)
      rw [Nat.testBit_eq_decide_div_mod_eq, decide_eq_true_eq] at hone
      rw [lowestZero, if_neg (by omega)]
      refine lowestZero_eq ?_ (by omega) (by omega) fun j hj => hones j (by omega)
      rwa [Nat.testBit_eq_decide_div_mod_eq, decide_eq_false_iff_not]

section
variable {xlen : Nat} {t : Trigger} {v : XWord}

/-- Match 0 is equality. -/
theorem Trigger.holds_equal (h : t.mtch = 0) : t.holds xlen v = true ↔ v = t.tdata2 := by
  simp [Trigger.holds, h, BitVec.toNat_inj]

/-- Match 1 is a naturally aligned range, which ends with the lowest 0 bit of tdata2. -/
theorem Trigger.holds_range (h : t.mtch = 1) {k : Nat} (hk : k < xlen) (hmax : k + 1 ≤ t.cfg.maskmax)
    (hzero : t.tdata2.toNat.testBit k = false) (hones : ∀ j, j < k → t.tdata2.toNat.testBit j = true) :
    t.holds xlen v = true ↔ v.toNat / 2 ^ (k + 1) = t.tdata2.toNat / 2 ^ (k + 1) := by
  have hlowest : lowestZero t.tdata2.toNat xlen 0 = some k :=
    lowestZero_eq hzero (Nat.zero_le k) (by omega) fun j _ => hones j
  simp [Trigger.holds, h, hlowest, hmax]

end

/-! ### Chains (spec/45_triggers.md R546) -/

section
variable {xlen : Nat} {p : Priv} {timing : Bool} {f : Facts}

/-- Every trigger matches or does not. -/
theorem chainMatches_length (ts : List Trigger) (ok : Bool) : (chainMatches xlen p timing f ok ts).length = ts.length := by
  induction ts generalizing ok with
  | nil => rfl
  | cons t ts ih => simp [chainMatches, ih]

/-- The first trigger matches where its condition holds and what stands before it allows that. -/
theorem chainMatches_first {ts : List Trigger} {ok : Bool} {t : Trigger} (ht : ts[0]? = some t) :
    (chainMatches xlen p timing f ok ts)[0]? = some (t.raw xlen p timing f && ok) := by
  cases ts with
  | nil => cases ht
  | cons u us =>
    obtain rfl : u = t := by simpa using ht
    rfl

/-- A trigger after another matches where its condition holds and the chain of the one before, if it is 1, is matched. -/
theorem chainMatches_next {ts : List Trigger} (hkind : ∀ t ∈ ts, t.cfg.kind = 2) {ok : Bool} {j : Nat} {u t : Trigger}
    {n : Bool} (hu : ts[j]? = some u) (ht : ts[j + 1]? = some t)
    (hn : (chainMatches xlen p timing f ok ts)[j]? = some n) :
    (chainMatches xlen p timing f ok ts)[j + 1]? = some (t.raw xlen p timing f && (!u.chain || n)) := by
  induction ts generalizing ok j with
  | nil => cases hu
  | cons v vs ih =>
    obtain ⟨hv, hvs⟩ := List.forall_mem_cons.mp hkind
    rw [List.getElem?_cons_succ] at ht
    rw [chainMatches, List.getElem?_cons_succ]
    cases j with
    | zero =>
      obtain rfl : v = u := by simpa using hu
      obtain rfl : (v.raw xlen p timing f && ok) = n := by simpa [chainMatches] using hn
      simp [chainMatches_first ht, hv]
    | succ j => exact ih hvs hu ht hn

/-- What R546 says of a trigger anywhere in the list. -/
theorem chainMatches_iff {ts : List Trigger} (hkind : ∀ t ∈ ts, t.cfg.kind = 2) {i : Nat} {t : Trigger} {m : Bool}
    (ht : ts[i]? = some t) (hm : (chainMatches xlen p timing f true ts)[i]? = some m) :
    m = true ↔ t.raw xlen p timing f = true ∧ ∀ j u, i = j + 1 → ts[j]? = some u →
      u.chain = false ∨ (chainMatches xlen p timing f true ts)[j]? = some true := by
  cases i with
  | zero =>
    obtain rfl : t.raw xlen p timing f = m := by simpa [chainMatches_first ht] using hm
    simp
  | succ j =>
    have hlt : j < ts.length := by
      obtain ⟨hlt, -⟩ := List.getElem?_eq_some_iff.mp ht
      omega
    obtain ⟨u, hu⟩ : ∃ u, ts[j]? = some u := ⟨_, List.getElem?_eq_getElem hlt⟩
    obtain ⟨n, hn⟩ : ∃ n, (chainMatches xlen p timing f true ts)[j]? = some n :=
      ⟨_, List.getElem?_eq_getElem (by rwa [chainMatches_length])⟩
    obtain rfl : (t.raw xlen p timing f && (!u.chain || n)) = m := by simpa [chainMatches_next hkind hu ht hn] using hm
    rw [Bool.and_eq_true, Bool.or_eq_true, Bool.not_eq_true']
    refine and_congr_right fun _ => ⟨?_, fun h => by simpa [hn] using h j u rfl hu⟩
    intro h k v hk hv
    obtain rfl : j = k := by omega
    obtain rfl : u = v := by simpa [hu] using hv
    simpa [hn] using h

/-- A trigger fires where it matches and its chain is 0. -/
theorem Hart.firesWith_iff (hart : Hart) (ms : List Bool) (a : BitVec 6) : hart.firesWith ms a = true ↔
    ∃ (i : Nat) (t : Trigger), hart.trigs[i]? = some t ∧ ms[i]? = some true ∧ t.chain = false ∧ t.action = a := by
  rw [Hart.firesWith, Hart.fires, List.any_eq_true]
  constructor
  · rintro ⟨⟨t, m⟩, hmem, hfires⟩
    obtain ⟨i, hi⟩ := List.mem_iff_getElem?.mp hmem
    obtain ⟨ht, hm⟩ := List.getElem?_zip_eq_some.mp hi
    simp only [Bool.and_eq_true, Bool.not_eq_true', beq_iff_eq] at hfires
    obtain ⟨⟨rfl, hchain⟩, haction⟩ := hfires
    exact ⟨i, t, ht, hm, hchain, haction⟩
  · rintro ⟨i, t, ht, hm, hchain, haction⟩
    exact ⟨(t, true), List.mem_iff_getElem?.mpr ⟨i, List.getElem?_zip_eq_some.mpr ⟨ht, hm⟩⟩, by simp [hchain, haction]⟩

end

/-! ### Instruction counts (spec/45_triggers.md R561) -/

/-- The trigger does not count what is completed at privilege `p`: it neither fires nor changes. -/
def Trigger.countIdle (p : Priv) (t : Trigger) : Prop := t.countDown p = t ∧ t.countFires p = false

section
variable {p : Priv} {t : Trigger}

/-- A trigger of another type, one that is not enabled and one whose count is 0 do not count (D28). -/
theorem Trigger.countIdle_of (h : t.cfg.kind ≠ 3 ∨ t.enabledAt p = false ∨ t.count = 0) : t.countIdle p := by
  rcases h with h | h | h
  · simp [Trigger.countIdle, Trigger.countDown, Trigger.countFires, h]
  · simp [Trigger.countIdle, Trigger.countDown, Trigger.countFires, h]
  · simp [Trigger.countIdle, Trigger.countDown, Trigger.countFires, h]

/-- A trigger whose count of 1 has fired: its count is 0 or its mode bits are, as the implementation has it. -/
def Trigger.counted (t : Trigger) : Trigger :=
  if t.cfg.icountClearsModes then { t with hit := t.cfg.hasHit, m := false, s := false, u := false }
  else { t with hit := t.cfg.hasHit, count := 0 }

/-- It counts no more, at any privilege. -/
theorem Trigger.counted_idle (t : Trigger) (p : Priv) : t.counted.countIdle p := by
  unfold Trigger.counted
  split
  · exact Trigger.countIdle_of (.inr (.inl (by cases p <;> rfl)))
  · exact Trigger.countIdle_of (.inr (.inr rfl))

section
variable (hkind : t.cfg.kind = 3) (hen : t.enabledAt p = true)
include hkind hen

/-- A count of 1 fires. -/
theorem Trigger.countDown_one (h : t.count = 1) : t.countFires p = true ∧ t.countDown p = t.counted := by
  simp [Trigger.countFires, Trigger.countDown, Trigger.counted, hkind, hen, h]

/-- A greater count goes down by 1. -/
theorem Trigger.countDown_more (h : 1 < t.count.toNat) :
    t.countDown p = { t with count := t.count - 1 } ∧ t.countFires p = false := by
  have hzero : ¬t.count = 0 := fun h0 => by simp [h0] at h
  have hone : ¬t.count = 1 := fun h1 => by simp [h1] at h
  have hcounts : (t.cfg.kind == 3 && t.enabledAt p) = true := by simp [hkind, hen]
  rw [Trigger.countDown, Trigger.countFires, hcounts, if_pos rfl, if_neg hzero, if_neg hone]
  simpa using hone

end

end

/-- Settles O22: each match value, the chain by induction along the triggers, and each count. -/
theorem triggerMatching : Obligations.TriggerMatching := by
  refine ⟨fun xlen t v => ⟨Trigger.holds_equal, fun h k hk hmax hzero hones => Trigger.holds_range h hk hmax hzero hones,
    fun h => ?_, fun h => ?_, fun h => ?_, fun h => ?_⟩,
    ⟨fun xlen p timing f ts hkind => ⟨chainMatches_length ts true, fun i t m ht hm => ?_⟩, Hart.firesWith_iff⟩,
    fun p t hkind => ⟨fun h => ?_, fun hen => Trigger.countDown_more hkind hen, fun hen h1 => ?_⟩⟩
  · simp [Trigger.holds, h]
  · simp [Trigger.holds, h]
  · simp [Trigger.holds, h]
  · simp [Trigger.holds, h]
  · exact chainMatches_iff hkind ht hm
  · exact Trigger.countIdle_of (.inr h)
  · obtain ⟨hfires, hdown⟩ := Trigger.countDown_one hkind hen h1
    exact ⟨hfires, fun hc => by simp [hdown, Trigger.counted, hc], fun hc => by simp [hdown, Trigger.counted, hc]⟩

end Sys2Proof.Machine
end

section
/-! PROOF. What a trigger that fires does inside a step (O23). A hart with one trigger is followed through its move: what the
trigger sees, the boundary before the instruction, and the end of the instruction, here wfi. -/

namespace Sys2Proof.Machine

/-! ### A hart with one trigger (spec/45_triggers.md R546, R548, R550) -/

/-- A trigger whose hit bit is set, where it has one. -/
def Trigger.marked (t : Trigger) : Trigger := { t with hit := t.cfg.hasHit }

section
variable {hart : Hart} {trig : Trigger} (htrigs : hart.trigs = [trig])
include htrigs

theorem Hart.trigMatches_single (p : Priv) (timing : Bool) (f : Facts) :
    hart.trigMatches p timing f = [trig.raw hart.cfg.xlen p timing f] := by
  simp [Hart.trigMatches, chainMatches, htrigs]

theorem Hart.setHits_single (m : Bool) : hart.setHits [m] = { hart with trigs := [if m then trig.marked else trig] } := by
  rw [Hart.setHits, htrigs]
  rfl

theorem Hart.countFiresWith_single (p : Priv) (a : BitVec 6) :
    hart.countFiresWith p a = (trig.countFires p && trig.action == a) := by
  simp [Hart.countFiresWith, htrigs]

section
variable (hchain : trig.chain = false)
include hchain

theorem Hart.fires_single (m : Bool) (P : Trigger → Bool) : hart.fires [m] P = (m && P trig) := by
  simp [Hart.fires, htrigs, hchain]

/-- An action is taken at once where it does not come late, or where a count fires. -/
theorem actsNow_single (p : Priv) (m hold : Bool) (a : BitVec 6) : actsNow hart p [m] false hold a =
    (trig.action == a && (m && !(trig.cfg.skids && hold) || trig.countFires p)) := by
  simp only [actsNow, Hart.firesSkidding, Hart.fires_single htrigs hchain, Hart.countFiresWith_single htrigs]
  cases trig.action == a with
  | false => simp
  | true =>
    cases m with
    | false => simp
    | true => cases trig.cfg.skids <;> simp [Bool.or_comm]

/-- Hits, counts, and the actions that come late. -/
theorem Hart.afterTriggers_single (he : hart.dueEntry = false) (hb : hart.dueBreak = false) (p : Priv)
    (m holdEntry holdBreak : Bool) : hart.afterTriggers p [m] holdEntry holdBreak = { hart with
      trigs := [(if m then trig.marked else trig).countDown p]
      dueEntry := m && (trig.action == 1 && trig.cfg.skids) && holdEntry
      dueBreak := m && (trig.action == 0 && trig.cfg.skids) && holdBreak } := by
  simp only [Hart.afterTriggers, Hart.firesSkidding, Hart.fires_single htrigs hchain, Hart.setHits_single htrigs, he, hb,
    Hart.countDown, List.map_cons, List.map_nil, Bool.false_or, beq_true]

end

end

section
variable {hart : Hart} {p : Priv} (hidle : ∀ t ∈ hart.trigs, t.countIdle p)
include hidle

/-- Triggers that do not count leave the hart as it was. -/
theorem Hart.countDown_idle : hart.countDown p = hart := by
  have hsame : hart.trigs.map (Trigger.countDown p) = hart.trigs :=
    (List.map_congr_left fun t ht => (hidle t ht).1).trans (List.map_id _)
  rw [Hart.countDown, hsame]

/-- And none of them fires for a count. -/
theorem Hart.countFiresWith_idle (a : BitVec 6) : hart.countFiresWith p a = false :=
  List.any_eq_false.mpr fun t ht => by
    obtain ⟨-, hno⟩ := hidle t ht
    simp [hno]

end

/-! ### What a trigger sees (spec/45_triggers.md R543) -/

/-- What the triggers of a running hart see of the word it has fetched. -/
def factsSeen (s : State) (hart : Hart) (w : Nat) : Facts :=
  factsOf hart (s.free + 6) (some w) (effectOf s hart (s.free + 2) w)

/-- The trigger's value is among those it looks at: the pc or the instruction's bits, the address or the value of its load
or store. -/
def Trigger.sees (trig : Trigger) (pc : XWord) (w : Nat) (e : Effect) : Prop :=
  (trig.execute = true ∧ trig.tdata2 = if trig.select then BitVec.ofNat 128 w else pc) ∨
    (trig.load = true ∧ ∃ a v, e.load = some (a, v) ∧
      if trig.select then v = some trig.tdata2 else BitVec.ofNat 128 a = trig.tdata2) ∨
    (trig.store = true ∧ ∃ a bytes, e.store = some (a, bytes) ∧ bytes ≠ [] ∧
      BitVec.ofNat 128 (if trig.select then bytesToNat bytes else a) = trig.tdata2)

section
variable {hart : Hart} {trig : Trigger} {xlen w : Nat} {p : Priv}

/-- A match trigger that is enabled and sees its value matches at its timing. -/
theorem Trigger.raw_of_sees {e : Effect} (hkind : trig.cfg.kind = 2) (hen : trig.enabledAt p = true)
    (hmatch : trig.mtch = 0) (hsees : trig.sees hart.pc w e) (n : Nat) :
    trig.raw xlen p trig.timing (factsOf hart n (some w) e) = true := by
  have hequal (v : XWord) : trig.holds xlen v = true ↔ v = trig.tdata2 := Trigger.holds_equal hmatch
  simp only [Trigger.raw, hkind, hen, BEq.rfl, Bool.and_true, Bool.true_and, Bool.or_eq_true, Bool.and_eq_true, or_assoc]
  obtain ⟨hexec, hv⟩ | ⟨hload, a, v, hl, hv⟩ | ⟨hstore, a, bytes, hs, hne, hv⟩ := hsees
  · refine .inl ⟨hexec, ?_⟩
    split at hv <;> simp_all [factsOf]
  · refine .inr (.inl ⟨hload, ?_⟩)
    split at hv <;> cases v <;> simp_all [factsOf, Trigger.holdsAccess]
  · refine .inr (.inr ⟨hstore, ?_⟩)
    split at hv <;> simp_all [factsOf, Trigger.holdsAccess]

/-- A trigger of another type, or of the other timing, does not. -/
theorem Trigger.raw_eq_false {timing : Bool} (h : trig.cfg.kind ≠ 2 ∨ trig.timing ≠ timing) (f : Facts) :
    trig.raw xlen p timing f = false := by
  rcases h with h | h <;> simp [Trigger.raw, h]

end

/-! ### What an lw and an sw show (PRESUMED, notes/assumptions/1.md) -/

section
variable {w : Nat}

/-- A 32-bit word of another opcode than SYSTEM is no row of the table and no CSR instruction. -/
theorem isRowOrCsr_of_opcode (h4 : w % 4 = 3) (hop : w % 2 ^ 7 ≠ 0x73) : isRowOrCsr w = false := by
  have hcsr (v : Nat) (hv : v % 2 ^ 7 = w % 2 ^ 7) : csrOperands v = none := by rw [csrOperands, if_neg (by omega)]
  have hlow : w % 2 ^ 32 % 2 ^ 7 = w % 2 ^ 7 := by omega
  have hrow : decodeHart w = .error .otherHartInsn := by
    rw [decodeHart, if_pos h4, decodeHart32]
    iterate 8 rw [if_neg (by omega)]
    rw [hcsr _ hlow]
  rw [isRowOrCsr, hrow, hcsr w rfl]
  simp [Except.isOk, Except.toBool]

theorem loadWith_load (s : State) (hart : Hart) (m a n : Nat) (use : Nat → Effect) :
    ∃ v, (loadWith s hart m a n use).load = some (a, v) := by
  unfold loadWith
  split
  · exact ⟨_, rfl⟩
  · split <;> exact ⟨_, rfl⟩

theorem storeEffect_store (s : State) (hart : Hart) (m a n : Nat) (v : XWord) :
    (storeEffect s hart m a n v).store = some (a, leBytes n v.toNat) := by
  unfold storeEffect
  split
  · rfl
  · split <;> rfl

variable (s : State) (hart : Hart) (m : Nat) (hf3 : w / 2 ^ 12 % 8 = 2)
include hf3

/-- lw shows its address, whether or not it faults. -/
theorem effectOf_lw (hop : w % 2 ^ 7 = 0x03) :
    ∃ v, (effectOf s hart m w).load = some ((hart.trunc (hart.gpr (field5 w 15) + immI w)).toNat, v) := by
  have h4 : w % 4 = 3 := by omega
  have heffect : effectOf s hart m w = loadEffect s hart m (field5 w 7)
      (hart.trunc (hart.gpr (field5 w 15) + immI w)).toNat 4 true := by
    simp only [effectOf, isRowOrCsr_of_opcode h4 (by omega), Bool.false_eq_true, if_false, baseEffect, h4, if_true,
      wordEffect, hop, hf3]
  rw [heffect]
  exact loadWith_load ..

/-- sw shows its address and the bytes it stores, whether or not it faults. -/
theorem effectOf_sw (hop : w % 2 ^ 7 = 0x23) : (effectOf s hart m w).store =
    some ((hart.trunc (hart.gpr (field5 w 15) + immS w)).toNat, leBytes 4 (hart.gpr (field5 w 20)).toNat) := by
  have h4 : w % 4 = 3 := by omega
  have heffect : effectOf s hart m w = storeEffect s hart m (hart.trunc (hart.gpr (field5 w 15) + immS w)).toNat 4
      (hart.gpr (field5 w 20)) := by
    simp only [effectOf, isRowOrCsr_of_opcode h4 (by omega), Bool.false_eq_true, if_false, baseEffect, h4, if_true,
      wordEffect, hop, hf3]
  rw [heffect, storeEffect_store]

end

/-! ### Entry to Debug Mode and breakpoint exceptions (spec/45_triggers.md R547) -/

section
variable {s : State} {h : Nat} {hart : Hart}

/-- Without a Quick Access that waits for the hart, entry for another reason than a request is entry. -/
theorem enterOther_alone (hq : quickPending s h = false) (cause : BitVec 3) (a : XWord) :
    enterOther h cause a s = enterDebug h cause a s := by
  simp [enterOther, hq]

theorem quickPending_other (hp : s.dm.phase ≠ .quickHalt) (h : Nat) : quickPending s h = false := by
  simp [quickPending, hp]

/-- The breakpoint exception of a hart not in single step none of whose counts sees it. -/
theorem breakpoints_uncounted (hh : s.harts[h]? = some hart) (hd : hart.debugMode = false) (hs : hart.dcsr.step = false)
    (hidle : ∀ t ∈ hart.trigs, t.countIdle hart.priv) (fuel : Nat) :
    breakpoints h (fuel + 1) s = raise h excBreakpoint s := by
  obtain ⟨-, trapped, tval, hget, htrapped⟩ := raise_takesException hh hd excBreakpoint
  obtain rfl : hart = trapped := Option.some.inj (hh.symm.trans hget)
  have hsame : (raise h excBreakpoint s).modHart h (Hart.countDown · hart.priv) = raise h excBreakpoint s :=
    State.modHart_of_eq fun x hx => by
      obtain rfl : hart.trap false excBreakpoint tval = x := Option.some.inj (htrapped.symm.trans hx)
      refine Hart.countDown_idle ?_
      simpa using hidle
  simp only [breakpoints, hh, hsame, Hart.countFiresWith_idle hidle, Bool.false_eq_true, if_false]
  exact stepEnd_unstepped htrapped (by simpa using hs)

end

/-- Hart `h` has entered Debug Mode for a trigger: with cause 2 and the privilege and registers of `hart`, at the pc and with
the triggers of `at_`. -/
def State.entersForTrigger (s : State) (hart at_ : Hart) (t : State) (new : Hart) : Prop :=
  new.status s.cfg = .halted ∧ new.dcsr = { hart.dcsr with cause := 2, prv := privCode hart.priv } ∧
    new.dpc = hart.trunc at_.pc ∧ new.trigs = at_.trigs ∧ new.gprs = hart.gprs ∧ new.sys = hart.sys ∧ t.dm = s.dm

section
variable {s u : State} {h : Nat} {hart at_ : Hart}

/-- A hart that differs from `hart` in its pc, its triggers, the counters and the model's own marks alone enters so. -/
theorem entersForTrigger_enterDebug (hu : s.onlyHart h u) (hget : u.harts[h]? = some at_) (ha : hart.avail = true)
    (hr : hart.inReset = false) (hsame : at_ = { hart with
      pc := at_.pc
      trigs := at_.trigs
      cycle := at_.cycle
      instret := at_.instret
      trapped := at_.trapped
      dueEntry := at_.dueEntry
      dueBreak := at_.dueBreak }) :
    ∃ new, s.onlyHart h (enterDebug h 2 at_.pc u) ∧ (enterDebug h 2 at_.pc u).harts[h]? = some new ∧
      s.entersForTrigger hart at_ (enterDebug h 2 at_.pc u) new := by
  have honly := hu.trans (State.onlyHart_modHart u h (fun x => x.enterDebug u.cfg u.free 2 at_.pc) 3)
  obtain ⟨-, hdm⟩ := id honly
  refine ⟨at_.enterDebug u.cfg u.free 2 at_.pc, honly, by simp [enterDebug_get, hget], ?_, ?_, ?_, ?_, ?_, ?_, hdm⟩
  · simp only [Hart.status, Hart.enterDebug_frame, Hart.enterDebug_writes]
    rw [hsame]
    simp [ha, hr]
  all_goals
    simp only [Hart.enterDebug_frame, Hart.enterDebug_writes]
  · rw [hsame]
  · rw [Hart.trunc, Hart.trunc, hsame]
  · rw [hsame]
  · rw [hsame]

end

/-- The counters change nothing a trap does but themselves. -/
theorem Hart.trap_counters (hart : Hart) (c i : BitVec 64) (isInt : Bool) (cause : Nat) (tval : XWord) :
    let counted : Hart := { hart with cycle := c, instret := i }
    counted.trap isInt cause tval = { hart.trap isInt cause tval with
      cycle := (counted.trap isInt cause tval).cycle
      instret := (counted.trap isInt cause tval).instret } := by
  intro counted
  have hdelegated (x : Hart) (hx : x.priv = hart.priv ∧ x.cfg = hart.cfg ∧ x.sys = hart.sys) :
      x.delegated isInt cause = hart.delegated isInt cause := by simp only [Hart.delegated, hx]
  have htrunc (x : Hart) (hx : x.cfg = hart.cfg) (v : XWord) : x.trunc v = hart.trunc v := by simp only [Hart.trunc, hx]
  cases hdel : hart.delegated isInt cause with
  | false => simp [Hart.trap, hdelegated, hdel, htrunc, counted]
  | true => simp [Hart.trap, hdelegated, hdel, htrunc, counted]

/-- The breakpoint exception of a hart whose counters do not matter. -/
theorem breakpoints_uncounted_get {s : State} {h : Nat} {done : Hart} {c i : BitVec 64}
    (hget : s.harts[h]? = some { done with cycle := c, instret := i }) (hd : done.debugMode = false)
    (hs : done.dcsr.step = false) (hidle : ∀ t ∈ done.trigs, t.countIdle done.priv) (fuel : Nat) :
    ∃ new tval, s.onlyHart h (breakpoints h (fuel + 1) s) ∧ (breakpoints h (fuel + 1) s).harts[h]? = some new ∧
      new = { done.trap false 3 tval with cycle := new.cycle, instret := new.instret } := by
  rw [breakpoints_uncounted hget hd hs hidle]
  obtain ⟨honly, old, tval, hold, htrapped⟩ := raise_takesException hget hd excBreakpoint
  obtain rfl := Option.some.inj (hget.symm.trans hold)
  exact ⟨_, tval, honly, htrapped, done.trap_counters c i false 3 tval⟩

/-! ### The end of an instruction of a hart with one trigger (spec/45_triggers.md R548, R561) -/

section
variable {s : State} {h : Nat} {hart : Hart} (hh : s.harts[h]? = some hart) (hd : hart.debugMode = false)
  (hs : hart.dcsr.step = false) (he : hart.dueEntry = false) (hb : hart.dueBreak = false)
include hh hd hs he hb

/-- Nothing follows a trap that no instruction count sees. -/
theorem finishHart_trapped (htrapped : hart.trapped = true) {p : Priv} (hidle : ∀ t ∈ hart.trigs, t.countIdle p)
    (f : Facts) : finishHart h p f s = s.bump 1 := by
  have hnone : ∀ m ∈ ([] : List Bool), m = false := nofun
  have hsame (holdEntry hold : Bool) : (s.modHart h fun x => x.afterTriggers p [] holdEntry hold) = s :=
    State.modHart_of_eq fun x hx => by
      obtain rfl : hart = x := Option.some.inj (hh.symm.trans hx)
      have hhits : hart.setHits [] = hart := by rw [Hart.setHits, markHits_of_none hnone]
      have hkept {due : Bool} (hdue : due = false) (hold : Bool) : ((due || false) && hold) = due := by simp [hdue]
      simp only [Hart.afterTriggers, hhits, Hart.countDown_idle hidle, Hart.firesSkidding, Hart.fires_of_none hnone,
        hkept he, hkept hb]
  have hnow (hold : Bool) (a : BitVec 6) : actsNow hart p [] false hold a = false := by
    simp [actsNow, Hart.firesSkidding, Hart.fires_of_none hnone, Hart.countFiresWith_idle hidle]
  simp only [finishHart, hh, hd, htrapped, he, hb, hsame, hnow, Bool.false_eq_true, if_false, if_true]
  exact stepEnd_unstepped (s := s.bump 1) hh hs

/-- What follows a completed instruction: the one trigger's action, at once or `late`, for a match at timing 1 or a count. -/
theorem finishHart_single {trig : Trigger} (huntrapped : hart.trapped = false) (hq : s.dm.phase ≠ .quickHalt)
    (htrigs : hart.trigs = [trig]) (hchain : trig.chain = false) (p : Priv) (f : Facts) :
    let m := trig.raw hart.cfg.xlen p true f
    let late := trig.cfg.skids && Config.freeBit s.free
    let acts := m && !late || trig.countFires p
    ∃ t, s.onlyHart h t ∧
      t.harts[h]? = some { hart with
        trigs := [(if m then trig.marked else trig).countDown p]
        dueEntry := hart.dueEntry || m && trig.action == 1 && late
        dueBreak := hart.dueBreak || m && trig.action == 0 && late } ∧
      (trig.action = 1 → acts = true → finishHart h p f s = enterDebug h 2 hart.pc t) ∧
      (trig.action = 0 → acts = true → finishHart h p f s = breakpoints h 2 t) ∧
      (acts = false → finishHart h p f s = t) := by
  intro m late acts
  let hold := Config.freeBit s.free
  let t := (s.modHart h fun x => x.afterTriggers p [m] hold hold).bump 1
  have hmatches : hart.trigMatches p true f = [m] := Hart.trigMatches_single htrigs ..
  have hget : t.harts[h]? = some { hart with
      trigs := [(if m then trig.marked else trig).countDown p]
      dueEntry := hart.dueEntry || m && trig.action == 1 && late
      dueBreak := hart.dueBreak || m && trig.action == 0 && late } := by
    simp only [t, State.bump_frame, State.modHart_get, if_true, hh, Option.map_some,
      Hart.afterTriggers_single htrigs hchain he hb, late, hold, he, hb, Bool.and_assoc, Bool.false_or]
  have hnow (a : BitVec 6) : actsNow hart p [m] false hold a = (trig.action == a && acts) :=
    actsNow_single htrigs hchain p m hold a
  have hquick : quickPending t h = false := quickPending_other hq h
  have hend : stepEnd h t = t := stepEnd_unstepped hget hs
  have hfinish : finishHart h p f s = if actsNow hart p [m] false hold 1 then enterOther h 2 hart.pc t
      else if actsNow hart p [m] false hold 0 then breakpoints h (hart.trigs.length + 1) t
      else stepEnd h t := by
    simp only [finishHart, hh, hd, huntrapped, hs, he, hb, hmatches, Bool.not_false, Bool.true_and, Bool.false_eq_true,
      if_false]
    rfl
  rw [hnow, hnow, enterOther_alone hquick, hend, htrigs] at hfinish
  refine ⟨t, State.onlyHart_modHart s h _ 1, hget, fun ha hacts => ?_, fun ha hacts => ?_, fun hacts => ?_⟩
  · simp [hfinish, ha, hacts]
  · simp [hfinish, ha, hacts]
  · simp [hfinish, hacts]

end

/-- A trap is marked in the hart's present move. -/
theorem Hart.trap_trapped (hart : Hart) (isInt : Bool) (cause : Nat) (tval : XWord) :
    (hart.trap isInt cause tval).trapped = true := by
  simp only [Hart.trap]
  split <;> rfl

/-- Passing over free values changes no hart. -/
theorem State.onlyHart_bump (s : State) (h k : Nat) : s.onlyHart h (s.bump k) :=
  ⟨⟨rfl, rfl, rfl, fun _ => ⟨rfl, rfl, rfl⟩, rfl, rfl, rfl, rfl, rfl, rfl, fun _ _ => rfl⟩, rfl⟩

/-! ### The move of a running hart with one trigger (spec/60_exceptions.md R655) -/

/-- The next move is that of running hart `hart`, which has the enabled trigger `trig` alone, and nothing but the trigger
keeps it from its next instruction or follows that. -/
structure State.watched (s : State) (h : Nat) (q : List Event) (hart : Hart) (trig : Trigger) : Prop where
  queue : s.queue = .hart h :: q
  get : s.harts[h]? = some hart
  avail : hart.avail = true
  outOfReset : hart.inReset = false
  running : hart.debugMode = false
  noQuick : s.dm.phase ≠ .quickHalt
  noRequest : hart.ctl.haltreq = false
  noEbreak : hart.ebreakEnabled = false
  noInterrupt : hart.interrupt = none
  unstepped : hart.dcsr.step = false
  noEntry : hart.dueEntry = false
  noBreak : hart.dueBreak = false
  trigs : hart.trigs = [trig]
  enabled : trig.enabledAt hart.priv = true
  unchained : trig.chain = false

/-- The hart after an instruction of 4 bytes that does nothing but move on, with its one trigger as that leaves it. -/
def Hart.movedOn (hart : Hart) (trig : Trigger) : Hart :=
  { hart with pc := hart.trunc (hart.pc + 4), trapped := false, trigs := [trig] }

/-- The machine in which the move of hart `h` begins, the event taken from the queue. -/
def State.begun (s : State) (h : Nat) (q : List Event) : State := ({ s with queue := q } : State).moving h

namespace State.watched
variable {s : State} {h : Nat} {q : List Event} {hart : Hart} {trig : Trigger} {w : Nat} (hst : s.watched h q hart trig)
include hst

theorem nextMove_eq : nextMove s = runMove h hart (s.begun h q) :=
  (nextMove_event s _ q hst.queue).trans
    (hartMove_running (s := { s with queue := q }) hst.get hst.avail hst.outOfReset hst.running)

theorem begun_get : (s.begun h q).harts[h]? = some { hart with trapped := false } :=
  State.moving_get (s := { s with queue := q }) hst.get

/-- The machine with the trigger's hit bit as the boundary before the instruction leaves it. -/
theorem marked_get (m : Bool) : (((s.begun h q).bump 8).modHart h fun x => x.setHits [m]).harts[h]? =
    some { hart with trapped := false, trigs := [if m then trig.marked else trig] } := by
  have hget : ((s.begun h q).bump 8).harts[h]? = some { hart with trapped := false } := hst.begun_get
  rw [State.modHart_get, if_pos rfl, hget, Option.map_some,
    Hart.setHits_single (hart := { hart with trapped := false }) hst.trigs]

omit hst in
theorem marked_onlyHart (ms : List Bool) : { s with queue := q, cur := h }.onlyHart h
    (((s.begun h q).bump 8).modHart h fun x => x.setHits ms) :=
  (State.moving_onlyHart { s with queue := q } h).trans (State.onlyHart_modHart (s.begun h q) h _ 8)

theorem wantsNothing : wantsHalt (s.begun h q) h hart = false := by
  have hquick : quickPending (s.begun h q) h = false := quickPending_other hst.noQuick h
  simp [wantsHalt, hst.noRequest, hquick]

theorem noEbreakEntry (fetched : Option Nat) : entersByEbreak hart fetched = false := by
  simp [entersByEbreak, hst.noEbreak]

section
variable {t : State} {c i : BitVec 64} {after : Trigger} (honly : { s with queue := q, cur := h }.onlyHart h t)
include honly

/-- The entry to Debug Mode after the instruction. -/
theorem entry_after {dueEntry dueBreak : Bool} (hget : t.harts[h]? = some { hart.movedOn after with
      cycle := c, instret := i, dueEntry := dueEntry, dueBreak := dueBreak })
    (hstep : step s = .next (enterDebug h 2 (hart.trunc (hart.pc + 4)) t)) :
    ∃ t new, step s = .next t ∧ { s with queue := q, cur := h }.onlyHart h t ∧ t.harts[h]? = some new ∧
      s.entersForTrigger hart (hart.movedOn after) t new := by
  obtain ⟨new, hentered, hnew, henters⟩ := entersForTrigger_enterDebug (hart := hart) honly hget hst.avail hst.outOfReset rfl
  exact ⟨_, new, hstep, hentered, hnew, henters⟩

/-- The breakpoint exception after the instruction. -/
theorem breakpoint_after (hidle : after.countIdle hart.priv)
    (hget : t.harts[h]? = some { hart.movedOn after with cycle := c, instret := i })
    (hstep : step s = .next (breakpoints h 2 t)) :
    ∃ t new tval, step s = .next t ∧ { s with queue := q, cur := h }.onlyHart h t ∧ t.harts[h]? = some new ∧
      new = { (hart.movedOn after).trap false 3 tval with cycle := new.cycle, instret := new.instret } := by
  obtain ⟨new, tval, hraised, hnew, heq⟩ :=
    breakpoints_uncounted_get hget hst.running hst.unstepped (by simpa [Hart.movedOn] using hidle) 1
  exact ⟨_, new, tval, hstep, honly.trans hraised, hnew, heq⟩

end

variable (hf : fetchInsn (s.begun h q) hart (s.begun h q).free = some w)
include hf

/-- What the move is: the trigger's action 1, its action 0, or the instruction. -/
theorem runMove_eq : let m := trig.raw hart.cfg.xlen hart.priv false (factsSeen (s.begun h q) hart w)
    let f := factsSeen (s.begun h q) hart w
    let hit := ((s.begun h q).bump 8).modHart h fun x => x.setHits [m]
    nextMove s = if m && trig.action == 1 then .quiet (enterOther h 2 hart.pc hit)
      else if m && trig.action == 0 then .quiet (finishHart h hart.priv f (raise h excBreakpoint hit))
      else wordMove h w (effectOf (s.begun h q) hart ((s.begun h q).free + 2) w) hit (.hart h hart.priv f)
        (finishHart h hart.priv f) := by
  intro m f hit
  have hmatches : hart.trigMatches hart.priv false f = [m] := Hart.trigMatches_single hst.trigs ..
  have hfires (a : BitVec 6) : hart.firesWith [m] a = (m && trig.action == a) := Hart.fires_single hst.trigs hst.unchained ..
  have hfacts : factsOf hart ((s.begun h q).free + 6) (some w)
      (effectOf (s.begun h q) hart ((s.begun h q).free + 2) w) = f := rfl
  rw [hst.nextMove_eq]
  simp only [runMove, hf, fetchedEffect, hfacts, hmatches, hfires, hst.wantsNothing, hst.noEbreakEntry, hst.noInterrupt,
    Option.isSome_none, Bool.false_eq_true, if_false, Bool.not_false, Bool.and_true]
  rfl

/-- A timing-0 trigger with action 1 that matches enters Debug Mode before the instruction. -/
theorem step_entry (hm : trig.raw hart.cfg.xlen hart.priv false (factsSeen (s.begun h q) hart w) = true)
    (ha : trig.action = 1) : ∃ t new, step s = .next t ∧ { s with queue := q, cur := h }.onlyHart h t ∧
      t.harts[h]? = some new ∧ s.entersForTrigger hart { hart with trapped := false, trigs := [trig.marked] } t new := by
  have hmove := hst.runMove_eq hf
  simp only [hm, ha, BEq.rfl, Bool.and_self, if_true] at hmove
  rw [enterOther_alone (quickPending_other (by exact hst.noQuick) h)] at hmove
  obtain ⟨new, honly, hget, henters⟩ :=
    entersForTrigger_enterDebug (hart := hart) (marked_onlyHart [true]) (hst.marked_get true) hst.avail hst.outOfReset rfl
  exact ⟨_, new, step_quiet s _ hmove, honly, hget, henters⟩

/-- With action 0 it raises a breakpoint exception there. -/
theorem step_breakpoint (hm : trig.raw hart.cfg.xlen hart.priv false (factsSeen (s.begun h q) hart w) = true)
    (ha : trig.action = 0) : ∃ t tval, step s = .next t ∧ { s with queue := q, cur := h }.onlyHart h t ∧
      t.harts[h]? = some (({ hart with trapped := false, trigs := [trig.marked] } : Hart).trap false 3 tval) := by
  have hkind : trig.cfg.kind ≠ 3 := by
    obtain ⟨hkind, -⟩ : trig.cfg.kind = 2 ∧ _ := by simpa [Trigger.raw, and_assoc] using hm
    omega
  have hmove := hst.runMove_eq hf
  simp only [hm, ha, BEq.rfl, Bool.and_self, if_true, show ((0 : BitVec 6) == 1) = false from rfl, Bool.and_false,
    Bool.false_eq_true, if_false] at hmove
  obtain ⟨honly, old, tval, hold, htrapped⟩ := raise_takesException (hst.marked_get true) hst.running excBreakpoint
  obtain rfl := Option.some.inj ((hst.marked_get true).symm.trans hold)
  have hidle : ∀ t ∈ [trig.marked], t.countIdle hart.priv := by
    simpa using Trigger.countIdle_of (p := hart.priv) (t := trig.marked) (.inl hkind)
  rw [finishHart_trapped htrapped (by simpa using hst.running) (by simpa using hst.unstepped) (by simpa using hst.noEntry)
    (by simpa using hst.noBreak) (Hart.trap_trapped ..) (by simpa using hidle)] at hmove
  exact ⟨_, tval, step_quiet s _ hmove, (marked_onlyHart [true]).trans (honly.trans (State.onlyHart_bump _ h 1)), htrapped⟩

/-- Otherwise a wfi completes, and then the trigger's action for it is taken, at once or `late`, or there is none. -/
theorem step_wfi (hm : trig.raw hart.cfg.xlen hart.priv false (factsSeen (s.begun h q) hart w) = false)
    (hw : decodeHart w = .ok .wfi) :
    let m := trig.raw hart.cfg.xlen hart.priv true (factsSeen (s.begun h q) hart w)
    ∃ (t : State) (c i : BitVec 64) (late : Bool), { s with queue := q, cur := h }.onlyHart h t ∧
      (late = true → trig.cfg.skids = true) ∧
      t.harts[h]? = some { hart.movedOn ((if m then trig.marked else trig).countDown hart.priv) with
        cycle := c
        instret := i
        dueEntry := hart.dueEntry || m && trig.action == 1 && late
        dueBreak := hart.dueBreak || m && trig.action == 0 && late } ∧
      let acts := m && !late || trig.countFires hart.priv
      (trig.action = 1 → acts = true → step s = .next (enterDebug h 2 (hart.trunc (hart.pc + 4)) t)) ∧
        (trig.action = 0 → acts = true → step s = .next (breakpoints h 2 t)) ∧ (acts = false → step s = .next t) := by
  have hmove := hst.runMove_eq hf
  simp only [hm, Bool.false_and, Bool.false_eq_true, if_false, wordMove_row hw] at hmove
  have hbegun := hst.marked_get false
  have hexec := exec_wfi (s := ((s.begun h q).bump 8).modHart h fun x => x.setHits [false]) hbegun
  have hretired := retireCur_get (s := ((s.begun h q).bump 8).modHart h fun x => x.setHits [false]) hbegun 4
  rw [Hart.retire_eq] at hretired
  have hstep := step_run s _ _ _ _ hmove hexec
  obtain ⟨t, honly, hget, hentry, hbreakpoint, hquiet⟩ := finishHart_single hretired hst.running hst.unstepped hst.noEntry
    hst.noBreak rfl hst.noQuick rfl hst.unchained hart.priv (factsSeen (s.begun h q) hart w)
  exact ⟨t, _, _, _, (marked_onlyHart [false]).trans ((retireCur_onlyHart _ 4).trans honly), Bool.and_elim_left, hget,
    fun ha hacts => hstep.trans (congrArg _ (hentry ha hacts)),
    fun ha hacts => hstep.trans (congrArg _ (hbreakpoint ha hacts)), fun hacts => hstep.trans (congrArg _ (hquiet hacts))⟩

end State.watched

/-! ### The actions (O23) -/

/-- Settles O23: before the instruction the trigger's action is the move itself; after a wfi it is what follows that, for a
match at timing 1 or for a count of 1. -/
theorem triggerActions : Obligations.TriggerActions := by
  intro s h q hart trig w hq hh ha hr hd hp hreq hbreak hint hs he hb htrigs hen hchain hmatch after r e hits fired next
    enters hf
  have hst : s.watched h q hart trig := ⟨hq, hh, ha, hr, hd, hp, hreq, hbreak, hint, hs, he, hb, htrigs, hen, hchain⟩
  have hmatches (timing : Bool) (hkind : trig.cfg.kind = 2) (htiming : trig.timing = timing)
      (hsees : trig.sees hart.pc w e) :
      trig.raw hart.cfg.xlen hart.priv timing (factsSeen (s.begun h q) hart w) = true :=
    htiming ▸ Trigger.raw_of_sees hkind hen hmatch hsees _
  refine ⟨fun hkind htiming hsees => ?_, fun hkind htiming hexec hselect hpc hw => ?_, fun hkind hcount hw => ?_,
    fun hop hf3 => effectOf_lw r hart _ hf3 hop, fun hop hf3 => effectOf_sw r hart _ hf3 hop⟩
  · have hm := hmatches false hkind htiming hsees
    exact ⟨hst.step_entry hf hm, hst.step_breakpoint hf hm⟩
  · have hm := hmatches true hkind htiming (.inl ⟨hexec, by simp [hselect, hpc]⟩)
    have hidle : trig.marked.countIdle hart.priv := Trigger.countIdle_of (.inl (by simp [Trigger.marked, hkind]))
    obtain ⟨-, hnocount⟩ : trig.countIdle hart.priv := Trigger.countIdle_of (.inl (by simp [hkind]))
    obtain ⟨t, c, i, late, honly, hskids, hget, hentry, hbreakpoint, hwaits⟩ :=
      hst.step_wfi hf (Trigger.raw_eq_false (.inr (by simp [htiming])) _) hw
    simp only [hm, hnocount, if_true, show trig.marked.countDown hart.priv = trig.marked from hidle.1, Bool.true_and,
      Bool.or_false] at hget hentry hbreakpoint hwaits
    refine ⟨fun haction => ?_, fun haction => ?_⟩
    · simp only [haction, BEq.rfl, show ((1 : BitVec 6) == 0) = false from rfl, Bool.true_and, Bool.false_and, Bool.or_false]
        at hget
      cases late with
      | false =>
        obtain ⟨t, new, hstep, hother, hnew, henters⟩ := hst.entry_after honly hget (hentry haction rfl)
        exact ⟨t, new, hstep, hother, hnew, .inl henters⟩
      | true => exact ⟨t, _, hwaits rfl, honly, hget, .inr ⟨hskids rfl, by rw [Bool.or_true]; rfl⟩⟩
    · simp only [haction, BEq.rfl, show ((0 : BitVec 6) == 1) = false from rfl, Bool.true_and, Bool.false_and, Bool.or_false]
        at hget
      cases late with
      | false =>
        rw [Bool.or_false] at hget
        obtain ⟨t, new, tval, hstep, hother, hnew, htrap⟩ := hst.breakpoint_after honly hidle hget (hbreakpoint haction rfl)
        exact ⟨t, new, tval, hstep, hother, hnew, .inl htrap⟩
      | true => exact ⟨t, _, 0, hwaits rfl, honly, hget, .inr ⟨hskids rfl, by rw [Bool.or_true]; rfl⟩⟩
  · obtain ⟨hfires, hdown⟩ := Trigger.countDown_one hkind hen hcount
    have hm (timing : Bool) (f : Facts) : trig.raw hart.cfg.xlen hart.priv timing f = false :=
      Trigger.raw_eq_false (.inl (by simp [hkind])) f
    obtain ⟨t, c, i, late, honly, -, hget, hentry, hbreakpoint, -⟩ := hst.step_wfi hf (hm false _) hw
    simp only [hm, hfires, hdown, Bool.false_eq_true, if_false, Bool.false_and, Bool.false_or, Bool.or_false, forall_const]
      at hget hentry hbreakpoint
    exact ⟨fun haction => hst.entry_after honly hget (hentry haction),
      fun haction => hst.breakpoint_after honly (trig.counted_idle _) hget (hbreakpoint haction)⟩

end Sys2Proof.Machine
end

section
/-! PROOF. CSR instructions that write tdata1, tdata2 and tdata3 (O33). From either mode one law says what the instruction
leaves of the hart; what it writes is a matter of the one trigger tselect names. -/

namespace Sys2Proof.Machine

/-! ### Legal values (spec/45_triggers.md R541, R545, R547, R548) -/

/-- An action is stored where it is supported and not reserved, 1 only with dmode; else it becomes 0. -/
theorem legalAction_eq (c : TrigCfg) (dmode : Bool) (a : BitVec 6) : legalAction c dmode a =
    if a.toNat ∈ c.actions ∧ a.toNat ≤ 4 ∧ (a = 1 → dmode = true) then a else 0 := by
  simp [legalAction, and_assoc, imp_iff_not_or]

/-- A match value is stored where it is supported and not reserved, 1 only where maskmax leaves a range; else it becomes 0. -/
theorem legalMatch_eq (c : TrigCfg) (m : BitVec 4) : legalMatch c m =
    if m.toNat ∈ c.matches_ ∧ m.toNat ≤ 5 ∧ (m = 1 → c.maskmax ≠ 0) then m else 0 := by
  simp [legalMatch, and_assoc, imp_iff_not_or]

/-- A timing is stored where the hardware fixes none. -/
theorem timingOf_free {c : TrigCfg} (h : c.fixedTiming = []) (fields : Nat) (written : Bool) :
    timingOf c fields written = written := by
  simp [timingOf, h]

/-- Where it fixes one for all settings of the other fields, that stays. -/
theorem timingOf_fixed {c : TrigCfg} {b : Bool} (h : c.fixedTiming = [(0, 0, b)]) (fields : Nat) (written : Bool) :
    timingOf c fields written = b := by
  simp [timingOf, h]

/-! ### The write of a trigger (spec/45_triggers.md R533, R534) -/

/-- The trigger takes no write: it is protected from machine mode, or of a type whose tdata registers are not there. -/
def Trigger.closedTo (t : Trigger) (dbg : Bool) : Prop :=
  (dbg = false ∧ t.dmode = true) ∨ (t.cfg.kind ≠ 2 ∧ t.cfg.kind ≠ 3)

section
variable {xlen : Nat} {dbg : Bool} {v : XWord} {t : Trigger}

/-- A trigger that takes no write stays as it was. -/
theorem Trigger.writeTdata_closed (h : t.closedTo dbg) (which : Nat) : t.writeTdata xlen which dbg v = t := by
  obtain ⟨hdbg, hdmode⟩ | ⟨h2, h3⟩ := h
  · simp [Trigger.writeTdata, hdbg, hdmode]
  · simp [Trigger.writeTdata, Trigger.writeTdata1, h2, h3]

section
variable (h : ¬t.closedTo dbg)
include h

/-- What a trigger that takes the write has: no protection that applies, and type 2 or 3. -/
theorem Trigger.open_of_not_closed : (!dbg && t.dmode) = false ∧ (t.cfg.kind = 2 ∨ t.cfg.kind = 3) := by
  rw [Trigger.closedTo, not_or] at h
  obtain ⟨hprotected, hkind⟩ := h
  exact ⟨by simpa using hprotected, by omega⟩

theorem Trigger.writeTdata_two : t.writeTdata xlen 2 dbg v = { t with tdata2 := v } := by
  obtain ⟨hopen, hkind⟩ := Trigger.open_of_not_closed h
  simp [Trigger.writeTdata, hopen, hkind]

theorem Trigger.writeTdata_three : t.writeTdata xlen 3 dbg v = { t with tdata3 := v } := by
  obtain ⟨hopen, hkind⟩ := Trigger.open_of_not_closed h
  simp [Trigger.writeTdata, hopen, hkind]

/-- tdata1 is written as mcontrol, with dmode from Debug Mode alone (R533). -/
theorem Trigger.writeTdata_mcontrol (h2 : t.cfg.kind = 2) :
    t.writeTdata xlen 1 dbg v = t.writeMcontrol (if dbg then v.getLsbD (xlen - 5) else t.dmode) v := by
  obtain ⟨hopen, -⟩ := Trigger.open_of_not_closed h
  simp [Trigger.writeTdata, Trigger.writeTdata1, hopen, h2]

/-- Or as icount. -/
theorem Trigger.writeTdata_icount (h3 : t.cfg.kind = 3) :
    t.writeTdata xlen 1 dbg v = t.writeIcount (if dbg then v.getLsbD (xlen - 5) else t.dmode) v := by
  obtain ⟨hopen, -⟩ := Trigger.open_of_not_closed h
  simp [Trigger.writeTdata, Trigger.writeTdata1, hopen, h3]

end

section
variable (hcombos : t.cfg.badCombos = []) (dmode : Bool)
include hcombos

/-- What a write of mcontrol stores where the implementation supports every combination. -/
theorem Trigger.writeMcontrol_eq : t.writeMcontrol dmode v = { t with
    timing := (t.writeMcontrol dmode v).timing
    dmode := dmode
    hit := t.cfg.hasHit && v.getLsbD 20
    select := t.cfg.hasSelect1 && v.getLsbD 19
    action := legalAction t.cfg dmode (v.extractLsb' 12 6)
    chain := t.cfg.hasChain && v.getLsbD 11
    mtch := legalMatch t.cfg (v.extractLsb' 7 4)
    m := t.cfg.hasM && v.getLsbD 6
    s := t.cfg.hasS && v.getLsbD 4
    u := t.cfg.hasU && v.getLsbD 3
    execute := t.cfg.hasExecute && v.getLsbD 2
    store := t.cfg.hasStore && v.getLsbD 1
    load := t.cfg.hasLoad && v.getLsbD 0 } := by
  simp [Trigger.writeMcontrol, badCombo, hcombos, ofNat_getField_eq_extractLsb']

/-- And its timing is what the hardware has for some setting of the fields. -/
theorem Trigger.writeMcontrol_timing :
    ∃ fields, (t.writeMcontrol dmode v).timing = timingOf t.cfg fields (v.getLsbD 18) := by
  simp only [Trigger.writeMcontrol, badCombo, hcombos, List.any_nil, Bool.false_eq_true, if_false]
  exact ⟨_, rfl⟩

/-- What a write of icount stores there. -/
theorem Trigger.writeIcount_eq : t.writeIcount dmode v = { t with
    dmode := dmode
    hit := t.cfg.hasHit && v.getLsbD 24
    count := legalCount t.cfg (v.extractLsb' 10 14)
    m := t.cfg.hasM && v.getLsbD 9
    s := t.cfg.hasS && v.getLsbD 7
    u := t.cfg.hasU && v.getLsbD 6
    action := legalAction t.cfg dmode (v.extractLsb' 0 6) } := by
  simp [Trigger.writeIcount, badCombo, hcombos, ofNat_getField_eq_extractLsb']

end

end

/-! ### The instruction (spec/45_triggers.md R530) -/

section
variable {s : State} {hart : Hart} {row : CsrOp → Instr} {num which : Nat} {op : CsrOp} {old : XWord} {trig : Trigger}

/-- What a write of a tdata register keeps: all but the hart's triggers, its pc, rd and the counters, and of the triggers all
but the one tselect names. -/
def State.writesTriggerAlone (s : State) (hart : Hart) (op : CsrOp) (t : State) (new : Hart) (old : XWord) : Prop :=
  s.onlyHart s.cur t ∧ t.harts[s.cur]? = some new ∧
    new = { hart with
      trigs := new.trigs
      pc := hart.trunc (hart.pc + 4)
      gprs := new.gprs
      cycle := new.cycle
      instret := new.instret } ∧
    hart.rdGets op.rd.toNat old new ∧ new.trigs.length = hart.trigs.length ∧
    ∀ k, k ≠ hart.tselect.toNat → new.trigs[k]? = hart.trigs[k]?

/-- A CSR instruction that writes a tdata register, from Debug Mode or from machine mode, writes the trigger tselect names
and then completes. -/
theorem exec_tdataWrite (hrow : (row, num) ∈ csrRows) (hnum : num < 0x7b0)
    (hwrite : ∀ x : Hart, ∀ dbg n v, x.writeCsr dbg n num v = x.writeTdata which dbg (x.trunc v))
    (hh : s.harts[s.cur]? = some hart) (hmode : hart.debugMode = true ∨ hart.priv = .m)
    (ho : readCsr s hart num = some old) (hw : csrWrites op = true) (htrig : hart.trigs[hart.tselect.toNat]? = some trig) :
    ∃ t new, exec (row op) s = .next t ∧ s.writesTriggerAlone hart op t new old ∧ new.trigs[hart.tselect.toNat]? =
      some (trig.writeTdata hart.cfg.xlen which hart.debugMode (hart.trunc (csrResult op hart old))) := by
  obtain ⟨hdebug, -⟩ := csrRow_num hrow
  have hallowed : csrAllowed op s hart num = true := by simp [csrAllowed_row hrow (hmode.imp_right (⟨·, hnum⟩)), ho]
  let written := hart.writeTdata which hart.debugMode (hart.trunc (csrResult op hart old))
  have hafter := written.afterCsr_eq op old
  have hwritten : (written.afterCsr op old).trigs = written.trigs := by rw [hafter]
  have htrigs : written.trigs = hart.trigs.modify hart.tselect.toNat
      (Trigger.writeTdata hart.cfg.xlen which hart.debugMode (hart.trunc (csrResult op hart old))) := by
    simp [written, Hart.writeTdata]
  rw [exec_csrRow_eq hrow hh, csrInsn_allowed num op _ s hart old hh hallowed ho, if_pos hw,
    writeCsr_own _ _ num _ s hart hh (hart.shadowCsr_debug s num hdebug)]
  refine ⟨_, written.afterCsr op old, rfl, ⟨(State.onlyHart_modHart s s.cur _ 1).trans (State.onlyHart_modHart _ s.cur _ 0),
    by simp [hh, written, Hart.afterCsr, hwrite], hwritten ▸ hafter, Hart.afterCsr_rdGets rfl rfl op old, ?_,
    fun k hk => ?_⟩, ?_⟩
  · rw [hwritten, htrigs, List.length_modify]
  · rw [hwritten, htrigs, List.getElem?_modify_ne _ _ hk.symm]
  · rw [hwritten, htrigs, List.getElem?_modify_eq, htrig]
    rfl

/-- Where the named trigger stays as it was, all do. -/
theorem State.writesTriggerAlone.same {t : State} {new : Hart} (h : s.writesTriggerAlone hart op t new old)
    (hsame : new.trigs[hart.tselect.toNat]? = hart.trigs[hart.tselect.toNat]?) : new.trigs = hart.trigs := by
  obtain ⟨-, -, -, -, -, hothers⟩ := h
  refine List.ext_getElem? fun k => ?_
  by_cases hk : k = hart.tselect.toNat
  · rw [hk, hsame]
  · exact hothers k hk

end

/-- Settles O33: the three instructions are one write of a trigger, which the trigger takes or not. -/
theorem tdataWrite : Obligations.TdataWrite := by
  intro s hart trig op hh hmode hw htrig closed frame
  have hread : hart.trig? = some trig := htrig
  obtain ⟨hread1, hread2, hread3⟩ := readCsr_tdata s hart
  have htdata2 : hart.tdata2 = trig.tdata2 := by simp only [Hart.tdata2, hread]
  have htdata3 : hart.tdata3 = trig.tdata3 := by simp only [Hart.tdata3, hread]
  rw [htdata2] at hread2
  rw [htdata3] at hread3
  refine ⟨?_, ?_, ?_⟩
  · obtain ⟨t, new, hexec, hframe, hget⟩ :=
      exec_tdataWrite (row := .tdata2) (which := 2) (by simp [csrRows]) (by decide) (fun _ _ _ _ => rfl) hh hmode hread2 hw
        htrig
    refine ⟨t, new, hexec, hframe, fun hclosed => hframe.same ?_, fun hopen => ?_⟩
    · rw [hget, htrig, Trigger.writeTdata_closed hclosed]
    · rw [hget, Trigger.writeTdata_two hopen]
  · obtain ⟨t, new, hexec, hframe, hget⟩ :=
      exec_tdataWrite (row := .tdata3) (which := 3) (by simp [csrRows]) (by decide) (fun _ _ _ _ => rfl) hh hmode hread3 hw
        htrig
    refine ⟨t, new, hexec, hframe, fun hclosed => hframe.same ?_, fun hopen => ?_⟩
    · rw [hget, htrig, Trigger.writeTdata_closed hclosed]
    · rw [hget, Trigger.writeTdata_three hopen]
  · obtain ⟨t, new, hexec, hframe, hget⟩ :=
      exec_tdataWrite (row := .tdata1) (which := 1) (by simp [csrRows]) (by decide) (fun _ _ _ _ => rfl) hh hmode hread1 hw
        htrig
    refine ⟨t, new, _, hexec, hframe, hget, fun hclosed => Trigger.writeTdata_closed hclosed 1, fun hopen hcombos => ?_⟩
    intro v a
    obtain ⟨-, h2 | h3⟩ := Trigger.open_of_not_closed hopen
    · have ha : a = v.extractLsb' 12 6 := by simp [a, h2]
      obtain ⟨fields, htiming⟩ := Trigger.writeMcontrol_timing (v := v) hcombos
        (if hart.debugMode then v.getLsbD (hart.cfg.xlen - 5) else trig.dmode)
      rw [Trigger.writeTdata_mcontrol hopen h2, Trigger.writeMcontrol_eq hcombos, htiming, ha]
      exact ⟨rfl, legalAction_eq .., rfl, rfl, rfl, fun _ => ⟨legalMatch_eq .., rfl, rfl, fun hfree => timingOf_free hfree ..,
        fun b hfixed => timingOf_fixed hfixed .., rfl, rfl, rfl, rfl, rfl, rfl, rfl⟩, fun h3 => absurd (h2 ▸ h3) (by decide)⟩
    · have ha : a = v.extractLsb' 0 6 := by simp [a, h3]
      rw [Trigger.writeTdata_icount hopen h3, Trigger.writeIcount_eq hcombos, ha]
      exact ⟨rfl, legalAction_eq .., rfl, rfl, rfl, fun h2 => absurd (h3 ▸ h2) (by decide), fun _ =>
        ⟨rfl, rfl, rfl, rfl, rfl⟩⟩

end Sys2Proof.Machine
end

section
/-! PROOF. The JTAG DTM: the registers ScanIR selects and those that only inform (O56), dtmcs (O57), and dmi, its Update-DR
(O58), its Capture-DR (O59) and a whole scan (O60). The values a scan shows are words of fields, each in its place; Update-DR
and Capture-DR of dmi have one law per condition of the DTM, and the scan is the two in turn. -/

namespace Sys2Proof.Machine

/-! ### Words a scan shifts -/

/-- A number above a field of `k` bits. -/
theorem ofNat_field (n : Nat) {k : Nat} (hi : Nat) {lo : Nat} (h : lo < 2 ^ k) :
    BitVec.ofNat n (hi * 2 ^ k + lo) = BitVec.ofNat n hi <<< k ||| BitVec.ofNat n lo := by
  rw [add_eq_or_of_dvd_of_lt k (Nat.dvd_mul_left ..) h]
  apply BitVec.eq_of_toNat_eq
  simp [Nat.shiftLeft_eq]

/-- A bit of a value that is shifted in. -/
theorem bit_toNat {n : Nat} (x : BitVec n) (k : Nat) : bit x.toNat k = x.getLsbD k :=
  (Nat.testBit_eq_decide_div_mod_eq ..).symm

/-- IDCODE's fields lie side by side where they fit (spec/10_state.md R160). -/
theorem idcodeValue_word {c : Config} (hversion : c.idVersion < 2 ^ 4) (hpart : c.idPart < 2 ^ 16)
    (hmanuf : c.idManuf < 2 ^ 11) :
    BitVec.ofNat 66 (idcodeValue c) = BitVec.ofNat 66 c.idVersion <<< 28 ||| BitVec.ofNat 66 c.idPart <<< 12 |||
      BitVec.ofNat 66 c.idManuf <<< 1 ||| 1 := by
  rw [idcodeValue, Nat.mod_eq_of_lt hversion, Nat.mod_eq_of_lt hpart, Nat.mod_eq_of_lt hmanuf, Nat.add_assoc, Nat.add_assoc,
    ofNat_field 66 _ (by omega), ofNat_field 66 _ (by omega), ofNat_field 66 _ (by omega), BitVec.or_assoc, BitVec.or_assoc]
  rfl

/-- dtmcs's fields lie side by side where they fit (R590). -/
theorem dtmcsValue_word {s : State} (habits : s.cfg.abits < 64) :
    BitVec.ofNat 66 (dtmcsValue s) = BitVec.ofNat 66 s.cfg.idle <<< 12 ||| s.dtm.status.setWidth 66 <<< 10 |||
      BitVec.ofNat 66 s.cfg.abits <<< 4 ||| 1 := by
  have hstatus := s.dtm.status.isLt
  rw [dtmcsValue, Nat.add_assoc, Nat.add_assoc, ofNat_field 66 _ (by omega), ofNat_field 66 _ (by omega),
    ofNat_field 66 _ (by omega), BitVec.ofNat_toNat, BitVec.or_assoc, BitVec.or_assoc]
  rfl

/-- The fields of a dmi scan value lie side by side (spec/30_encoding.md R255). -/
theorem dmiWord_word (address data : Word) {op : Nat} (hop : op < 4) : BitVec.ofNat 66 (dmiWord address data op) =
    address.setWidth 66 <<< 34 ||| data.setWidth 66 <<< 2 ||| BitVec.ofNat 66 op := by
  have hdata := data.isLt
  rw [dmiWord, Nat.add_assoc, ofNat_field 66 _ (by omega), ofNat_field 66 _ hop, BitVec.ofNat_toNat, BitVec.ofNat_toNat,
    BitVec.or_assoc]

/-- A dmi scan value as a number. -/
theorem toNat_dmiWord (address data : Word) {op : Nat} (hop : op < 4) :
    (address.setWidth 66 <<< 34 ||| data.setWidth 66 <<< 2 ||| BitVec.ofNat 66 op : BitVec 66).toNat =
      dmiWord address data op := by
  rw [← dmiWord_word address data hop, BitVec.toNat_ofNat, Nat.mod_eq_of_lt (dmiWord_lt address data op hop)]

section
variable (status : BitVec 2) (address data : Word)

theorem captureWord_eq : captureWord status address data =
    address.setWidth 66 <<< 34 ||| data.setWidth 66 <<< 2 ||| status.setWidth 66 := by
  rw [captureWord, dmiWord_word _ _ status.isLt, BitVec.ofNat_toNat]

theorem captureWord_status : (captureWord status address data).extractLsb' 0 2 = status := by
  apply BitVec.eq_of_toNat_eq
  rw [captureWord, BitVec.extractLsb'_toNat, BitVec.toNat_ofNat, Nat.mod_eq_of_lt (dmiWord_lt _ _ _ status.isLt)]
  exact dmiWord_op address data status.isLt

theorem captureWord_data : (captureWord status address data).extractLsb' 2 32 = data := by
  rw [captureWord, BitVec.extractLsb', BitVec.toNat_ofNat, Nat.mod_eq_of_lt (dmiWord_lt _ _ _ status.isLt),
    Nat.shiftRight_eq_div_pow]
  exact dmiWord_data address data status.isLt

end

/-! ### Selecting a data register (spec/46_jtag_dtm.md R585 to R587) -/

/-- ScanIR of a listed row selects its encoding, a number of five bits. -/
theorem exec_irRow_select {row : IrOp → Instr} {code : Nat} (h : (row, code) ∈ irRows) (s : State) :
    code < 2 ^ 5 ∧ exec (row .select) s = .next (selectIr code s) := by
  simp only [irRows, List.mem_cons, List.not_mem_nil, or_false, Prod.mk.injEq] at h
  rcases h with ⟨rfl, rfl⟩ | ⟨rfl, rfl⟩ | ⟨rfl, rfl⟩ | ⟨rfl, rfl⟩ | ⟨rfl, rfl⟩ | ⟨rfl, rfl⟩ | ⟨rfl, rfl⟩ | ⟨rfl, rfl⟩ |
    ⟨rfl, rfl⟩ | ⟨rfl, rfl⟩ | ⟨rfl, rfl⟩
  all_goals exact ⟨by decide, rfl⟩

/-- A selected encoding that fits the instruction register is kept whole. -/
theorem selectIr_ir {code : Nat} {s : State} (h : code < 2 ^ s.cfg.irlen) : (selectIr code s).dtm.ir = code :=
  Nat.mod_eq_of_lt h

/-- A scan of a row that selects BYPASS is a scan of BYPASS. -/
theorem exec_bypassRow_scan {row : IrOp → Instr} (h : row ∈ bypassRows) (tdi : BitVec 66) (s : State) :
    exec (row (.scan tdi)) s = .next (scanBypass s) := by
  simp only [bypassRows, List.mem_cons, List.not_mem_nil, or_false] at h
  rcases h with rfl | rfl | rfl | rfl | rfl | rfl | rfl | rfl
  all_goals rfl

/-- ScanDR where the IR names no listed row is a scan of BYPASS. -/
theorem scanDrMove_unlisted {s : State} (h : irRow s.dtm.ir = none) (tdi : BitVec 66) :
    scanDrMove tdi s = .quiet (scanBypass s) := by
  simp only [scanDrMove, decodeIrCode, h]

/-! ### A reset of the TAP (spec/46_jtag_dtm.md R607) -/

/-- It changes the DTM alone. -/
theorem tapReset_onlyDtm (s : State) : s.onlyDtm (tapReset s) := rfl

/-- It selects IDCODE; the status and the transaction are each reset or kept, by a free choice. -/
theorem tapReset_dtm (s : State) : (tapReset s).dtm.ir = 1 ∧
    (tapReset s).dtm.status = (if Config.freeBit s.free then s.cfg.dtmStatusReset else s.dtm.status) ∧
    (tapReset s).dtm.pending = if Config.freeBit (s.free + 1) then .none else s.dtm.pending := by
  simp [tapReset, apply_ite Dtm.ir, apply_ite Dtm.status, apply_ite Dtm.pending]

/-- Settles O56: each row is its law, a reset of the TAP and a scan of an unlisted register are moves of their own. -/
theorem jtagInstructions : Obligations.JtagInstructions := by
  refine ⟨fun s => ⟨fun row code hrow hirlen => ?_, fun row hrow tdi => exec_bypassRow_scan hrow tdi s,
    fun hversion hpart hmanuf tdi => ?_⟩, fun s q hq => ?_, fun s q tdi hq hir => ?_⟩
  · obtain ⟨hcode, hexec⟩ := exec_irRow_select hrow s
    exact ⟨_, hexec, selectIr_ir (hcode.trans_le (Nat.pow_le_pow_right (by decide) hirlen)), rfl⟩
  · rw [← idcodeValue_word hversion hpart hmanuf]
    rfl
  · obtain ⟨hir, hstatus, hpending⟩ := tapReset_dtm { s with queue := q }
    exact ⟨_, step_quiet s _ (nextMove_event s _ q hq), hir, hstatus ▸ (ite_eq_or_eq ..).symm,
      hpending ▸ (ite_eq_or_eq ..).symm, tapReset_onlyDtm { s with queue := q }⟩
  · exact step_quiet s _ ((nextMove_event s _ q hq).trans (scanDrMove_unlisted (s := { s with queue := q }) hir tdi))

/-! ### dtmcs (spec/46_jtag_dtm.md R590 to R592) -/

/-- Update-DR of dtmcs, by the two bits that are written. -/
theorem updateDtmcs_eq (tdi : BitVec 66) (s : State) : updateDtmcs tdi.toNat s =
    if tdi.getLsbD 17 then dmihardreset s else if tdi.getLsbD 16 then dmireset s else s := by
  rw [updateDtmcs, bit_toNat, bit_toNat]

/-- Settles O57: what is captured is the word of the fields, and each reset then leaves what was captured. -/
theorem dtmcs : Obligations.Dtmcs := by
  refine fun s => ⟨rfl, rfl, fun _ habits tdi => congrArg Host.Outcome.next ?_⟩
  rw [updateDtmcs_eq, dtmcsValue_word habits]
  by_cases hhard : tdi.getLsbD 17
  · rw [if_pos hhard, if_pos hhard]
    rfl
  · rw [if_neg hhard, if_neg hhard]
    by_cases hreset : tdi.getLsbD 16
    · rw [if_pos hreset, if_pos hreset]
      rfl
    · rw [if_neg hreset, if_neg hreset]
      rfl

/-! ### Update-DR of dmi (spec/46_jtag_dtm.md R600, R604) -/

section
variable {s : State} (address data : Word) (acc : DmAcc)

/-- With a sticky status an update does nothing (R601). -/
theorem updateNop_sticky (h : s.dtm.status ≠ 0) : updateNop address data s = s := if_pos h

theorem updateStart_sticky (h : s.dtm.status ≠ 0) : updateStart address data acc s = s := if_pos h

/-- An update that starts nothing stores its fields. -/
theorem updateNop_stores (h : s.dtm.status = 0) : updateNop address data s = { s with dtm := { s.dtm with
    address := dmiAddress s.cfg address
    data := data
    addrKnown := false
    dataKnown := false } } := by
  rw [updateNop, if_neg (not_not_intro h)]

/-- While a transaction is in progress no other starts. -/
theorem updateStart_inProgress (h : s.dtm.status = 0) {a' : Word} {acc' : DmAcc}
    (hp : s.dtm.pending = .inProgress a' acc') :
    updateStart address data acc s = { s with dtm := { s.dtm with status := 3 } } := by
  rw [updateStart, if_neg (not_not_intro h), hp]
  rfl

/-- With none in progress the transaction starts. -/
theorem updateStart_starts (h : s.dtm.status = 0) (hp : ∀ a' acc', s.dtm.pending ≠ .inProgress a' acc') :
    updateStart address data acc s = { s with dtm := { s.dtm with
      address := dmiAddress s.cfg address
      data := data
      addrKnown := false
      dataKnown := true
      pending := .inProgress (dmiAddress s.cfg address) acc } } := by
  rw [updateStart, if_neg (not_not_intro h)]
  cases hpending : s.dtm.pending with
  | inProgress a' acc' => exact absurd hpending (hp a' acc')
  | none => rfl
  | finished result failed => rfl

/-- An address within the address bits the DTM has is kept whole. -/
theorem dmiAddress_of_lt {c : Config} {address : Word} (h : address.toNat < 2 ^ c.abits) :
    dmiAddress c address = address := by
  rw [dmiAddress, Nat.mod_eq_of_lt h, BitVec.ofNat_toNat, BitVec.setWidth_eq]

end

/-- Settles O58: the four operations are an update that starts nothing or one that starts an access, each with its law. -/
theorem dmiUpdate : Obligations.DmiUpdate := by
  intro s address data _ a
  refine ⟨fun hsticky i hi => ?_, fun hstatus i hi => ?_, fun i acc hi hstatus => ?_⟩
  · have hnop := updateNop_sticky address data hsticky
    have hstart (acc : DmAcc) := updateStart_sticky address data acc hsticky
    simp only [List.mem_cons, List.not_mem_nil, or_false] at hi
    rcases hi with rfl | rfl | rfl | rfl
    · exact congrArg Host.Outcome.next hnop
    · exact congrArg Host.Outcome.next (hstart .read)
    · exact congrArg Host.Outcome.next (hstart (.write data))
    · exact congrArg Host.Outcome.next hnop
  · have hnop := updateNop_stores address data hstatus
    simp only [List.mem_cons, List.not_mem_nil, or_false] at hi
    rcases hi with rfl | rfl
    all_goals exact congrArg Host.Outcome.next hnop
  · have hexec : exec i s = .next (updateStart address data acc s) := by
      simp only [List.mem_cons, List.not_mem_nil, or_false, Prod.mk.injEq] at hi
      rcases hi with ⟨rfl, rfl⟩ | ⟨rfl, rfl⟩
      all_goals rfl
    rw [hexec]
    exact ⟨fun _ _ hp => congrArg Host.Outcome.next (updateStart_inProgress address data acc hstatus hp),
      fun hp => congrArg Host.Outcome.next (updateStart_starts address data acc hstatus hp)⟩

/-! ### Capture-DR of dmi (spec/46_jtag_dtm.md R600, R601) -/

/-- The address field a capture shows. -/
def State.shownAddress (s : State) : Word :=
  if s.dtm.addrKnown then s.dtm.address else dmiAddress s.cfg (freeWord32 s.free)

/-- The data field a capture shows where it has no result to show. -/
def State.shownData (s : State) : Word := if s.dtm.dataKnown then s.dtm.data else freeWord32 (s.free + 1)

/-- `s` after a capture that leaves this DTM and shows these fields. -/
def State.captured (s : State) (d : Dtm) (status : BitVec 2) (address data : Word) : State :=
  { s with
    dtm := { d with tdo := captureWord status address data }
    free := s.free + 2 }

section
variable {s : State}

theorem captureReport_sticky (h : s.dtm.status ≠ 0) : captureReport s = (s.dtm.status, s.shownAddress, s.shownData) :=
  if_pos h

theorem captureReport_none (h : s.dtm.status = 0) (hp : s.dtm.pending = .none) :
    captureReport s = (0, s.shownAddress, s.shownData) := by
  rw [captureReport, if_neg (not_not_intro h), hp]
  rfl

theorem captureReport_inProgress (h : s.dtm.status = 0) {a' : Word} {acc' : DmAcc}
    (hp : s.dtm.pending = .inProgress a' acc') : captureReport s = (3, s.shownAddress, s.shownData) := by
  rw [captureReport, if_neg (not_not_intro h), hp]
  rfl

theorem captureReport_failed (h : s.dtm.status = 0) {result : Word} (hp : s.dtm.pending = .finished result true) :
    captureReport s = (2, s.shownAddress, s.shownData) := by
  rw [captureReport, if_neg (not_not_intro h), hp]
  rfl

theorem captureReport_finished (h : s.dtm.status = 0) {result : Word} (hp : s.dtm.pending = .finished result false) :
    captureReport s = (0, s.shownAddress, result) := by
  rw [captureReport, if_neg (not_not_intro h), hp]
  rfl

/-- The row a capture is goes by the status it reports. -/
theorem captureInsn_of_report {status : BitVec 2} {address data : Word} (h : captureReport s = (status, address, data)) :
    captureInsn s = if status = 2 then .dmiStatusFailed address data
      else if status = 3 then .dmiStatusBusy address data else .dmiStatusOk address data := by
  rw [captureInsn, h]
  rfl

/-- A capture of dmi goes by the status it reports. -/
theorem captureDmi_of_report {status : BitVec 2} {address data : Word} (h : captureReport s = (status, address, data)) :
    captureDmi s = if status = 2 then captureFailed address data s
      else if status = 3 then captureBusy address data s else captureOk address data s := by
  rw [captureDmi, h]
  rfl

variable (address data : Word)

/-- A sticky status is shown again and changes nothing, whatever the capture. -/
theorem capture_sticky (h : s.dtm.status ≠ 0) :
    captureOk address data s = s.captured s.dtm s.dtm.status address data ∧
    captureFailed address data s = s.captured s.dtm s.dtm.status address data ∧
    captureBusy address data s = s.captured s.dtm s.dtm.status address data :=
  ⟨if_pos h, if_pos h, if_pos h⟩

theorem captureBusy_eq (h : s.dtm.status = 0) :
    captureBusy address data s = s.captured { s.dtm with status := 3 } 3 address data := if_neg (not_not_intro h)

theorem captureFailed_eq (h : s.dtm.status = 0) :
    captureFailed address data s = s.captured { s.dtm with status := 2, pending := .none } 2 address data :=
  if_neg (not_not_intro h)

/-- The finished transaction is gone. -/
theorem captureOk_finished (h : s.dtm.status = 0) {result : Word} {failed : Bool}
    (hp : s.dtm.pending = .finished result failed) :
    captureOk address data s = s.captured { s.dtm with data := data, pending := .none } 0 address data := by
  rw [captureOk, if_neg (not_not_intro h), hp]
  rfl

/-- With none finished the transaction stays. -/
theorem captureOk_unfinished (h : s.dtm.status = 0) (hp : ∀ result failed, s.dtm.pending ≠ .finished result failed) :
    captureOk address data s = s.captured { s.dtm with data := data } 0 address data := by
  rw [captureOk, if_neg (not_not_intro h)]
  cases hpending : s.dtm.pending with
  | finished result failed => exact absurd hpending (hp result failed)
  | none =>
    simp only [State.captured, hpending]
    rfl
  | inProgress a' acc' =>
    simp only [State.captured, hpending]
    rfl

end

/-- Settles O59: the three captured words by their laws; which of them a capture is goes by the DTM's report. -/
theorem dmiCapture : Obligations.DmiCapture := by
  intro s address data shown
  have hshown (d : Dtm) (status : BitVec 2) : shown d status = s.captured d status address data := by
    rw [State.captured, captureWord_eq]
  simp only [hshown]
  refine ⟨fun hsticky i hi => ?_, fun hstatus => ⟨congrArg Host.Outcome.next (captureBusy_eq address data hstatus),
    congrArg Host.Outcome.next (captureFailed_eq address data hstatus),
    fun result failed hp => congrArg Host.Outcome.next (captureOk_finished address data hstatus hp),
    fun hp => congrArg Host.Outcome.next (captureOk_unfinished address data hstatus hp)⟩,
    s.shownAddress, s.shownData, ?_⟩
  · obtain ⟨hok, hfailed, hbusy⟩ := capture_sticky address data hsticky
    simp only [List.mem_cons, List.not_mem_nil, or_false] at hi
    rcases hi with rfl | rfl | rfl
    · exact congrArg Host.Outcome.next hok
    · exact congrArg Host.Outcome.next hfailed
    · exact congrArg Host.Outcome.next hbusy
  · by_cases hstatus : s.dtm.status = 0
    · cases hp : s.dtm.pending with
      | none => simp [captureInsn_of_report (captureReport_none hstatus hp), hstatus]
      | inProgress a' acc' => simp [captureInsn_of_report (captureReport_inProgress hstatus hp), hstatus]
      | finished result failed =>
        cases failed with
        | true => simp [captureInsn_of_report (captureReport_failed hstatus hp), hstatus]
        | false => simp [captureInsn_of_report (captureReport_finished hstatus hp), hstatus]
    · rw [captureInsn_of_report (captureReport_sticky hstatus), if_pos hstatus]

/-! ### A whole scan of dmi (spec/46_jtag_dtm.md R600 to R604) -/

/-- The capture half of a scan with a result to collect. -/
theorem captureDmi_finished {s : State} (h : s.dtm.status = 0) {result : Word}
    (hp : s.dtm.pending = .finished result false) :
    captureDmi s = s.captured { s.dtm with data := result, pending := .none } 0 s.shownAddress result :=
  (captureDmi_of_report (captureReport_finished h hp)).trans (captureOk_finished _ _ h hp)

/-- The capture half of a scan that comes while a transaction is in progress. -/
theorem captureDmi_inProgress {s : State} (h : s.dtm.status = 0) {a' : Word} {acc' : DmAcc}
    (hp : s.dtm.pending = .inProgress a' acc') :
    captureDmi s = s.captured { s.dtm with status := 3 } 3 s.shownAddress s.shownData :=
  (captureDmi_of_report (captureReport_inProgress h hp)).trans (captureBusy_eq _ _ h)

/-- The update half of a scan, by the op that is shifted in. -/
theorem updateDmi_scan (address data : Word) {op : Nat} (hop : op < 4) (s : State) :
    updateDmi (address.setWidth 66 <<< 34 ||| data.setWidth 66 <<< 2 ||| BitVec.ofNat 66 op : BitVec 66).toNat s =
      if op = 1 then updateStart address data .read s
      else if op = 2 then updateStart address data (.write data) s
      else updateNop address data s := by
  rw [toNat_dmiWord address data hop, updateDmi, dmiWord_op address data hop, dmiWord_data address data hop,
    dmiWord_address address data hop]

/-- The update half of a scan of a read or a write starts it. -/
theorem updateDmi_start {op : BitVec 66} {acc : DmAcc} {data : Word}
    (h : (op, acc) ∈ [((1 : BitVec 66), DmAcc.read), (2, .write data)]) (address : Word) (s : State) :
    updateDmi (address.setWidth 66 <<< 34 ||| data.setWidth 66 <<< 2 ||| op : BitVec 66).toNat s =
      updateStart address data acc s := by
  simp only [List.mem_cons, List.not_mem_nil, or_false, Prod.mk.injEq] at h
  rcases h with ⟨rfl, rfl⟩ | ⟨rfl, rfl⟩
  · exact updateDmi_scan address data (op := 1) (by decide) s
  · exact updateDmi_scan address data (op := 2) (by decide) s

/-- Settles O60: the capture, then the update of what the capture left. -/
theorem dmiScan : Obligations.DmiScan := by
  intro s address data _ haddress hstatus op acc hop tdi
  have hexec : exec (.dmi (.scan tdi)) s = .next (updateStart address data acc (captureDmi s)) :=
    congrArg Host.Outcome.next (updateDmi_start hop address (captureDmi s))
  refine ⟨fun result hp => ?_, fun a' acc' hp => ?_⟩
  · have hstart := updateStart_starts address data acc (s := s.captured { s.dtm with data := result, pending := .none } 0
      s.shownAddress result) hstatus fun _ _ => DmiPending.noConfusion
    rw [captureDmi_finished hstatus hp, hstart] at hexec
    have ha := dmiAddress_of_lt haddress
    exact ⟨_, hexec, captureWord_data .., captureWord_status .., hstatus,
      congrArg (DmiPending.inProgress · acc) ha, ha, rfl, rfl⟩
  · have hignored := updateStart_sticky address data acc (s := s.captured { s.dtm with status := 3 } 3 s.shownAddress
      s.shownData) (show (3 : BitVec 2) ≠ 0 by decide)
    rw [captureDmi_inProgress hstatus hp, hignored] at hexec
    exact ⟨_, hexec, captureWord_status .., rfl⟩

end Sys2Proof.Machine
end

section
/-! PROOF. Every step keeps every hart's modes consistent (O10): each primitive change of a hart does. A hart enters Debug
Mode with a cause 1 to 4 only, starts the Program Buffer in Debug Mode only, and nothing else writes dcsr.cause but a
reset. -/

namespace Sys2Proof.Machine

/-! ### The modes of a hart (spec/60_exceptions.md R650) -/

/-- A CSR write leaves dcsr.cause, which is read-only (spec/44_debug_mode.md R501). -/
theorem Hart.writeCsr_cause (hart : Hart) (d : Bool) (n num : Nat) (v : XWord) :
    (hart.writeCsr d n num v).dcsr.cause = hart.dcsr.cause := by
  unfold Hart.writeCsr
  split
  case h_1 => rfl
  case h_29 => split <;> rfl
  all_goals simp

/-- A change that keeps the modes and the cause keeps them consistent. -/
theorem Hart.modesOk.congr {a b : Hart} (h : a.modesOk) (hbuffer : b.inProgbuf = a.inProgbuf)
    (hdebug : b.debugMode = a.debugMode) (hcause : b.dcsr.cause = a.dcsr.cause) : b.modesOk := by
  rw [Hart.modesOk, hbuffer, hdebug, hcause]
  exact h

/-- A hart that runs has consistent modes whenever its cause is none of 5 to 7. -/
theorem Hart.modesOk.of_running {hart : Hart} (hbuffer : hart.inProgbuf = false) (hdebug : hart.debugMode = false)
    (hcause : hart.dcsr.cause.toNat ≤ 4) : hart.modesOk := by
  simp [Hart.modesOk, hbuffer, hdebug, hcause]

/-- Every primitive change of a hart keeps its modes consistent. -/
theorem hartRel_modesOk : HartRel fun old new => old.modesOk → new.modesOk where
  refl _ h := h
  trans hab hbc h := hbc (hab h)
  onCtl _ _ h := h
  onDscratch _ _ _ h := h
  onEnterDebug _ _ _ _ _ hcause _ := ⟨fun _ => rfl, fun _ => hcause.1, hcause.2⟩
  onLeaveDebug _ _ _ := fun ⟨_, _, hle⟩ => .of_running rfl rfl hle
  onStartProgbuf _ _ hdebug := fun ⟨_, hcause⟩ => ⟨fun _ => hdebug, hcause⟩
  onStopProgbuf _ := fun ⟨_, hcause⟩ => ⟨nofun, hcause⟩
  onPc _ _ h := h
  onDpc _ _ h := h
  onTrap _ _ _ _ h := h.congr (by simp) (by simp) (by simp)
  onReset _ _ _ clear _ := by cases clear <;> exact .of_running rfl rfl (Nat.zero_le 4)
  onClear _ h := h
  onLeaveReset _ h := h
  onReservation _ _ h := h
  onWriteCsr hart d n num v h := h.congr (by simp) (by simp) (hart.writeCsr_cause d n num v)
  onGprs _ _ h := h
  onFprs _ _ h := h
  onCounters _ _ _ h := h
  onTimer _ _ h := h
  onPriv _ _ _ h := h
  onSys _ _ h := h
  onHits _ _ h := h
  onCountDown _ _ h := h
  onTrapped _ _ h := h
  onDue _ _ _ h := h
  onAvail _ _ h := h

/-! ### Every step keeps the modes consistent (O10) -/

/-- Settles O10: a step is a chain of primitive changes of the harts, each of which keeps the modes consistent. -/
theorem stepKeepsHartModes : Obligations.StepKeepsHartModes := fun _ _ hs h => step_everyHart hartRel_modesOk h hs

end Sys2Proof.Machine
end

section
/-! PROOF. Ordinary traps: what a trap saves (O29), and the instructions that trap or return from a trap (O28). Both stack
fields of mstatus, so what they leave there is stated bit by bit. -/

namespace Sys2Proof.Machine

/-! ### Fields of mstatus -/

/-- The bits of a register one of whose fields is replaced. -/
theorem putField_getLsbD (x : XWord) (lo n v k : Nat) (hfit : lo + n ≤ 128) :
    (putField x lo n v).getLsbD k = if lo ≤ k ∧ k < lo + n then v.testBit (k - lo) else x.getLsbD k := by
  by_cases hk : k < 128
  · simp only [putField, BitVec.getLsbD_or, BitVec.getLsbD_and, BitVec.getLsbD_not, BitVec.getLsbD_ofNat, hk,
      Nat.testBit_mul_two_pow, Nat.testBit_two_pow_sub_one, Nat.testBit_mod_two_pow, decide_true, Bool.true_and]
    by_cases hlo : lo ≤ k
    · by_cases hhi : k < lo + n
      · simp [hlo, hhi, show k - lo < n by omega]
      · simp [hlo, hhi, show ¬k - lo < n by omega]
    · simp [hlo]
  · rw [if_neg (by omega), BitVec.getLsbD_of_ge _ _ (by omega), BitVec.getLsbD_of_ge _ _ (by omega)]

/-- Bit 0 of a one-bit field is the register's bit. -/
theorem getField_one_testBit (x : XWord) (lo : Nat) : (getField x lo 1).testBit 0 = x.getLsbD lo := by
  rw [getField_testBit]
  simp

/-- A one-bit field is 0 where the register's bit is. -/
theorem getField_one_eq_zero (x : XWord) (lo : Nat) : getField x lo 1 = 0 ↔ x.getLsbD lo = false := by
  have hlt := getField_lt x lo 1
  rw [← getField_one_testBit, Nat.testBit_zero, decide_eq_false_iff_not]
  omega

/-- A two-bit field that is replaced reads as its new value. -/
theorem putField_extractLsb' (x : XWord) (lo v : Nat) (hfit : lo + 2 ≤ 128) :
    (putField x lo 2 v).extractLsb' lo 2 = BitVec.ofNat 2 v := by
  refine BitVec.eq_of_getLsbD_eq fun i hi => ?_
  rw [BitVec.getLsbD_extractLsb', putField_getLsbD _ _ _ _ _ hfit, if_pos (by omega), BitVec.getLsbD_ofNat,
    Nat.add_sub_cancel_left]

/-- mstatus after a trap to `x` mode: `ie` is stacked in `pie` and cleared, the privilege is stacked in `pp`. -/
def trapStatus (ms : XWord) (ie pie pp ppLen code : Nat) : XWord :=
  putField (putField (putField ms pie 1 (getField ms ie 1)) ie 1 0) pp ppLen code

/-- The interrupt enables after a return from a trap in `x` mode: `ie` comes from `pie`, which is set. -/
def restoredStatus (ms : XWord) (ie pie : Nat) : XWord := putField (putField ms ie 1 (getField ms pie 1)) pie 1 1

/-- A trap return takes `ie` from `pie`, sets `pie`, and changes no other enable. -/
theorem restoredStatus_bits {ie pie : Nat} (hie : ie < pie) (hpie : pie < 128) (ms : XWord) :
    (restoredStatus ms ie pie).getLsbD ie = ms.getLsbD pie ∧ (restoredStatus ms ie pie).getLsbD pie = true ∧
      ∀ k, k ≠ ie → k ≠ pie → (restoredStatus ms ie pie).getLsbD k = ms.getLsbD k := by
  have hbits (k : Nat) : (restoredStatus ms ie pie).getLsbD k =
      if pie = k then true else if ie = k then ms.getLsbD pie else ms.getLsbD k := by
    rw [restoredStatus, putField_getLsbD _ _ _ _ _ (by omega), putField_getLsbD _ _ _ _ _ (by omega)]
    by_cases hkp : pie = k
    · rw [if_pos (by omega), if_pos hkp, hkp, Nat.sub_self]
      rfl
    · rw [if_neg (by omega), if_neg hkp]
      by_cases hki : ie = k
      · rw [if_pos (by omega), if_pos hki, ← getField_one_testBit, hki, Nat.sub_self]
      · rw [if_neg (by omega), if_neg hki]
  refine ⟨?_, ?_, fun k hki hkp => ?_⟩
  · rw [hbits ie, if_neg (by omega), if_pos rfl]
  · rw [hbits pie, if_pos rfl]
  · rw [hbits k, if_neg (Ne.symm hkp), if_neg (Ne.symm hki)]

section
variable {ie pie pp ppLen : Nat} (hie : ie < pie) (hpie : pie < pp) (hpp : pp + ppLen ≤ 128) (ms : XWord) (code : Nat)
include hie hpie hpp

/-- Outside the previous privilege, a trap changes `ie` and `pie` alone. -/
theorem trapStatus_bits :
    (trapStatus ms ie pie pp ppLen code).getLsbD ie = false ∧
      (trapStatus ms ie pie pp ppLen code).getLsbD pie = ms.getLsbD ie ∧
      ∀ k, k ≠ ie → k ≠ pie → ¬(pp ≤ k ∧ k < pp + ppLen) →
        (trapStatus ms ie pie pp ppLen code).getLsbD k = ms.getLsbD k := by
  have hbits (k : Nat) (hk : ¬(pp ≤ k ∧ k < pp + ppLen)) : (trapStatus ms ie pie pp ppLen code).getLsbD k =
      if ie = k then false else if pie = k then ms.getLsbD ie else ms.getLsbD k := by
    rw [trapStatus, putField_getLsbD _ _ _ _ _ hpp, if_neg hk, putField_getLsbD _ _ _ _ _ (by omega),
      putField_getLsbD _ _ _ _ _ (by omega)]
    by_cases hki : ie = k
    · rw [if_pos (by omega), if_pos hki, Nat.zero_testBit]
    · rw [if_neg (by omega), if_neg hki]
      by_cases hkp : pie = k
      · rw [if_pos (by omega), if_pos hkp, ← getField_one_testBit, hkp, Nat.sub_self]
      · rw [if_neg (by omega), if_neg hkp]
  refine ⟨?_, ?_, fun k hki hkp hk => ?_⟩
  · rw [hbits ie (by omega), if_pos rfl]
  · rw [hbits pie (by omega), if_neg (by omega), if_pos rfl]
  · rw [hbits k hk, if_neg (Ne.symm hki), if_neg (Ne.symm hkp)]

omit hie hpie in
/-- Outside the previous privilege, a return to a stacked privilege restores the enables. -/
theorem returnStatus_getLsbD (k : Nat) (hk : ¬(pp ≤ k ∧ k < pp + ppLen)) :
    (returnStatus ms ie pie pp ppLen code).getLsbD k = (restoredStatus ms ie pie).getLsbD k := by
  rw [returnStatus, putField_getLsbD _ _ _ _ _ hpp, if_neg hk]
  rfl

/-- So it takes `ie` from `pie`, sets `pie`, and changes nothing else. -/
theorem returnStatus_bits :
    (returnStatus ms ie pie pp ppLen code).getLsbD ie = ms.getLsbD pie ∧
      (returnStatus ms ie pie pp ppLen code).getLsbD pie = true ∧
      ∀ k, k ≠ ie → k ≠ pie → ¬(pp ≤ k ∧ k < pp + ppLen) →
        (returnStatus ms ie pie pp ppLen code).getLsbD k = ms.getLsbD k := by
  obtain ⟨hrestored, hset, hkept⟩ := restoredStatus_bits hie (by omega) ms
  refine ⟨?_, ?_, fun k hki hkp hk => ?_⟩
  · rw [returnStatus_getLsbD hpp ms code ie (by omega), hrestored]
  · rw [returnStatus_getLsbD hpp ms code pie (by omega), hset]
  · rw [returnStatus_getLsbD hpp ms code k hk, hkept k hki hkp]

end

/-! ### What a trap saves (spec/60_exceptions.md R651, R686) -/

/-- The word a trap leaves in mcause or scause: an interrupt has the top bit set. -/
def Hart.causeWord (hart : Hart) (isInt : Bool) (cause : Nat) : XWord :=
  BitVec.ofNat 128 (cause + if isInt then 2 ^ (hart.cfg.xlen - 1) else 0)

section
variable {hart : Hart} {isInt : Bool} {cause : Nat} (tval : XWord)

/-- A trap to machine mode. -/
theorem Hart.trap_machine (h : hart.delegated isInt cause = false) : hart.trap isInt cause tval =
    { hart.countUp false with
      trapped := true
      sys := { hart.sys with
        mstatus := trapStatus hart.sys.mstatus 3 7 11 2 (privCode hart.priv).toNat
        mepc := hart.pc
        mcause := hart.causeWord isInt cause
        mtval := hart.trunc tval }
      priv := .m
      pc := hart.trunc (tvecTarget hart.sys.mtvec isInt cause) } := by
  have hdelegated : ({ hart.countUp false with trapped := true } : Hart).delegated isInt cause = false := by
    simpa [Hart.delegated] using h
  rw [Hart.trap]
  simp only [hdelegated, Bool.false_eq_true, if_false]
  simp [Hart.trunc, trapStatus, Hart.causeWord]

/-- A trap that is delegated to S mode. -/
theorem Hart.trap_delegated (h : hart.delegated isInt cause = true) : hart.trap isInt cause tval =
    { hart.countUp false with
      trapped := true
      sys := { hart.sys with
        mstatus := trapStatus hart.sys.mstatus 1 5 8 1 (if hart.priv = .u then 0 else 1)
        sepc := hart.pc
        scause := hart.causeWord isInt cause
        stval := hart.trunc tval }
      priv := .s
      pc := hart.trunc (tvecTarget hart.sys.stvec isInt cause) } := by
  have hdelegated : ({ hart.countUp false with trapped := true } : Hart).delegated isInt cause = true := by
    simpa [Hart.delegated] using h
  rw [Hart.trap]
  simp only [hdelegated, if_true]
  simp [Hart.trunc, trapStatus, Hart.causeWord]

end

/-- A trap retires no instruction. -/
theorem Hart.countUp_false_instret (hart : Hart) : (hart.countUp false).instret = hart.instret := by
  unfold Hart.countUp
  split <;> rfl

/-- All a trap changes. -/
theorem Hart.trap_changes (hart : Hart) (isInt : Bool) (cause : Nat) (tval : XWord) :
    let new := hart.trap isInt cause tval
    new = { hart with sys := new.sys, priv := new.priv, pc := new.pc, cycle := new.cycle, trapped := true } := by
  intro new
  have hcount : hart.countUp false = { hart with cycle := (hart.countUp false).cycle } := by
    rw [hart.countUp_eq false, hart.countUp_false_instret]
  have htrap := hart.trap_machine (isInt := isInt) (cause := cause) tval
  have htrap' := hart.trap_delegated (isInt := isInt) (cause := cause) tval
  cases hdelegated : hart.delegated isInt cause with
  | false =>
    simp only [new, htrap hdelegated]
    rw [hcount]
  | true =>
    simp only [new, htrap' hdelegated]
    rw [hcount]

/-- The code of a privilege level below machine mode, as one bit. -/
theorem sppCode_testBit {p : Priv} : (if p = .u then 0 else 1 : Nat).testBit 0 = !(p == .u) := by
  cases p <;> rfl

/-- Settles O29: a trap to either mode by what it writes, and mstatus bit by bit. -/
theorem trapSaves : Obligations.TrapSaves := by
  intro hart isInt cause tval new causeWord handler
  refine ⟨hart.trap_changes isInt cause tval, fun hmachine => ?_, fun hdelegated => ?_⟩
  · have htrap : new = _ := hart.trap_machine tval hmachine
    obtain ⟨hie, hpie, hkept⟩ := trapStatus_bits (ie := 3) (pie := 7) (pp := 11) (ppLen := 2) (by decide) (by decide)
      (by decide) hart.sys.mstatus (privCode hart.priv).toNat
    have hhandler : hart.trunc (tvecTarget hart.sys.mtvec isInt cause) = handler hart.sys.mtvec := by
      simp [handler, tvecTarget]
    rw [htrap]
    refine ⟨rfl, hhandler, rfl, hie, hpie, ?_, fun k h3 h7 h11 h12 => hkept k h3 h7 (by omega)⟩
    rw [trapStatus, putField_extractLsb' _ _ _ (by decide)]
    simp
  · have htrap : new = _ := hart.trap_delegated tval hdelegated
    obtain ⟨hie, hpie, hkept⟩ := trapStatus_bits (ie := 1) (pie := 5) (pp := 8) (ppLen := 1) (by decide) (by decide)
      (by decide) hart.sys.mstatus (if hart.priv = .u then 0 else 1)
    have hhandler : hart.trunc (tvecTarget hart.sys.stvec isInt cause) = handler hart.sys.stvec := by
      simp [handler, tvecTarget]
    have hlower : hart.priv ≠ .m := by
      obtain ⟨hpriv, -⟩ : hart.priv ≠ .m ∧ _ := by simpa [Hart.delegated, and_assoc] using hdelegated
      exact hpriv
    rw [htrap]
    refine ⟨rfl, hhandler, rfl, hie, hpie, ?_, fun k h1 h5 h8 => hkept k h1 h5 (by omega)⟩
    rw [trapStatus, putField_getLsbD _ _ _ _ _ (by decide), if_pos (by decide), Nat.sub_self, sppCode_testBit]
    revert hlower
    cases hart.priv <;> decide

/-! ### Instructions that trap, and trap returns (O28) -/

/-- A return from a trap: counted, then the pc, the privilege and the saved status. -/
def Hart.returnFromTrap (hart : Hart) (pc : XWord) (p : Priv) (ms : XWord) : Hart :=
  { hart.countUp true with pc := pc, priv := p, sys := { hart.sys with mstatus := ms } }

/-- Nothing else of the hart changes. -/
theorem Hart.returnFromTrap_eq (hart : Hart) (pc : XWord) (p : Priv) (ms : XWord) :
    hart.returnFromTrap pc p ms = { hart with
      pc := pc
      priv := p
      cycle := (hart.returnFromTrap pc p ms).cycle
      instret := (hart.returnFromTrap pc p ms).instret
      sys := { hart.sys with mstatus := ms } } := by
  unfold Hart.returnFromTrap
  rw [hart.countUp_eq true]

section
variable {s : State} {hart : Hart} (hh : s.harts[s.cur]? = some hart)
include hh

/-- ecall and hret outside Debug Mode are exceptions. -/
theorem exec_trapping (hd : hart.debugMode = false) :
    exec .ecall s = .next (raise s.cur (8 + (privCode hart.priv).toNat) s) ∧
      exec .hret s = .next (raise s.cur excIllegal s) := by
  refine ⟨(onHart_of_get hh _).trans ?_, (onHart_of_get hh _).trans ?_⟩ <;> rw [if_neg (by simp [hd])]

/-- mret outside Debug Mode. -/
theorem exec_mret (hd : hart.debugMode = false) : exec .mret s = .next (
    if hart.priv = .m then
      (s.modHart s.cur fun hart => hart.returnFromTrap (hart.pcBits hart.sys.mepc)
        (hart.legalPriv s.free (BitVec.ofNat 2 (getField hart.sys.mstatus 11 2)))
        (returnStatus hart.sys.mstatus 3 7 11 2 (if hart.cfg.privs.contains .u then 0 else 3))).bump 1
    else raise s.cur excIllegal s) := by
  refine (onHart_of_get hh _).trans ?_
  rw [if_neg (by simp [hd])]
  rfl

/-- sret outside Debug Mode. -/
theorem exec_sret (hd : hart.debugMode = false) : exec .sret s = .next (
    if hart.priv ≠ .u ∧ hart.cfg.privs.contains .s then
      s.modHart s.cur fun hart => hart.returnFromTrap (hart.pcBits hart.sys.sepc)
        (if getField hart.sys.mstatus 8 1 = 0 then .u else .s) (returnStatus hart.sys.mstatus 1 5 8 1 0)
    else raise s.cur excIllegal s) := by
  refine (onHart_of_get hh _).trans ?_
  rw [if_neg (by simp [hd])]
  rfl

/-- uret outside Debug Mode. -/
theorem exec_uret (hd : hart.debugMode = false) : exec .uret s = .next (
    if hart.cfg.hasN then
      s.modHart s.cur fun hart =>
        hart.returnFromTrap (hart.pcBits (csrLookup hart.csrs 0x041)) .u (restoredStatus hart.sys.mstatus 0 4)
    else raise s.cur excIllegal s) := by
  refine (onHart_of_get hh _).trans ?_
  rw [if_neg (by simp [hd])]
  rfl

/-- In Debug Mode the five are undefined (spec/44_debug_mode.md R495). -/
theorem exec_undefinedInDebug (hd : hart.debugMode = true) {i : Instr}
    (hi : i ∈ [Instr.ecall, .mret, .hret, .sret, .uret]) : exec i s = .next (undefinedInDebug s) := by
  simp only [List.mem_cons, List.not_mem_nil, or_false] at hi
  rcases hi with rfl | rfl | rfl | rfl | rfl <;> exact (onHart_of_get hh _).trans (by rw [if_pos hd])

/-- What that is: an exception, which ends the Program Buffer, or a pass over the instruction (notes/assumptions/14.md). -/
theorem undefinedInDebug_cases (hd : hart.debugMode = true) :
    undefinedInDebug s = endProgbuf s.cur (some 3) { s with free := s.free + 1 } ∨
      (s.onlyHart s.cur (undefinedInDebug s) ∧ (undefinedInDebug s).harts[s.cur]? = some (hart.retire 4)) := by
  rw [undefinedInDebug]
  split
  · rw [raise_eq s.cur excIllegal (s.bump 1) hart hh, if_pos hd]
    exact .inl rfl
  · exact .inr ⟨State.onlyHart_modHart s s.cur _ 1, retireCur_get (s := s.bump 1) hh 4⟩

end

/-- The executing hart after a change of it. -/
theorem State.modHart_bump_get {s : State} {h : Nat} {hart : Hart} (hh : s.harts[h]? = some hart) (f : Hart → Hart)
    (k : Nat) : ((s.modHart h f).bump k).harts[h]? = some (f hart) := by
  simp [hh]

/-- Settles O28: each instruction is an exception, a trap return, or undefined. -/
theorem trapInstructions : Obligations.TrapInstructions := by
  refine ⟨fun s hart hh hd => ?_, fun s hart hh hd => ⟨fun hm => ?_, fun hu hs => ?_, fun hn => ?_, fun hm => ?_,
    fun hus => ?_, fun hn => ?_⟩, fun s hart i hh hd hi => ?_⟩
  · obtain ⟨hecall, hhret⟩ := exec_trapping hh hd
    have hraise := raise_takesException hh hd (8 + (privCode hart.priv).toNat)
    refine ⟨⟨_, hecall, ?_⟩, ⟨_, hhret, raise_takesException hh hd 2⟩⟩
    generalize hart.priv = p at hraise ⊢
    cases p <;> exact hraise
  · have hexec := exec_mret hh hd
    rw [if_pos hm] at hexec
    obtain ⟨hie, hpie, hkept⟩ := returnStatus_bits (ie := 3) (pie := 7) (pp := 11) (ppLen := 2) (by decide) (by decide)
      (by decide) hart.sys.mstatus (if hart.cfg.privs.contains .u then 0 else 3)
    refine ⟨_, _, hexec, State.onlyHart_modHart s s.cur _ 1, State.modHart_bump_get hh _ 1,
      hart.returnFromTrap_eq _ _ _, rfl, fun p hp hmem => ?_, hie, hpie, fun hu => ?_,
      fun k h3 h7 h11 h12 => hkept k h3 h7 (by omega)⟩
    · exact Hart.legalPriv_supported (ofNat_getField_eq_extractLsb' hart.sys.mstatus 11 2 ▸ hp) hmem _
    · simp only [Hart.returnFromTrap, returnStatus, putField_extractLsb' _ _ _ (show 11 + 2 ≤ 128 by decide),
        List.contains_iff_mem.mpr hu, if_true]
      rfl
  · have hexec := exec_sret hh hd
    rw [if_pos ⟨hu, List.contains_iff_mem.mpr hs⟩] at hexec
    obtain ⟨hie, hpie, hkept⟩ := returnStatus_bits (ie := 1) (pie := 5) (pp := 8) (ppLen := 1) (by decide) (by decide)
      (by decide) hart.sys.mstatus 0
    refine ⟨_, _, hexec, State.onlyHart_modHart s s.cur _ 0, State.modHart_bump_get hh _ 0,
      hart.returnFromTrap_eq _ _ _, rfl, ?_, hie, hpie, ?_, fun k h1 h5 h8 => hkept k h1 h5 (by omega)⟩
    · simp only [Hart.returnFromTrap, getField_one_eq_zero]
      cases hart.sys.mstatus.getLsbD 8 <;> rfl
    · simp only [Hart.returnFromTrap, returnStatus]
      rw [putField_getLsbD _ _ _ _ _ (by decide), if_pos (by decide), Nat.zero_testBit]
  · have hexec := exec_uret hh hd
    rw [if_pos hn] at hexec
    obtain ⟨hie, hpie, hkept⟩ := restoredStatus_bits (ie := 0) (pie := 4) (by decide) (by decide) hart.sys.mstatus
    exact ⟨_, _, hexec, State.onlyHart_modHart s s.cur _ 0, State.modHart_bump_get hh _ 0,
      hart.returnFromTrap_eq _ _ _, rfl, hie, hpie, hkept⟩
  · have hexec := exec_mret hh hd
    rw [if_neg hm] at hexec
    exact ⟨_, hexec, raise_takesException hh hd 2⟩
  · have hexec := exec_sret hh hd
    rw [if_neg (by rw [List.contains_iff_mem]; rintro ⟨hu, hs⟩; exact hus.elim hu (absurd hs))] at hexec
    exact ⟨_, hexec, raise_takesException hh hd 2⟩
  · have hexec := exec_uret hh hd
    rw [if_neg (by simp [hn])] at hexec
    exact ⟨_, hexec, raise_takesException hh hd 2⟩
  · refine ⟨_, exec_undefinedInDebug hh hd hi, (undefinedInDebug_cases hh hd).imp_right ?_⟩
    rintro ⟨honly, hget⟩
    exact ⟨honly, _, hget, hart.retire_onlyMovesOn 4, rfl⟩

end Sys2Proof.Machine
end

section
/-! PROOF. Entry to Debug Mode: what it writes (O16), on a halt request (O18), and which of several reasons is its cause
(O19); and the instruction a running hart executes where there is none (O5). -/

namespace Sys2Proof.Machine

/-! ### What entry to Debug Mode writes (spec/60_exceptions.md R652) -/

/-- An available hart out of reset is halted in Debug Mode. -/
theorem Hart.status_halted {hart : Hart} {c : Config} (ha : hart.avail = true) (hr : hart.inReset = false)
    (hd : hart.debugMode = true) : hart.status c = .halted := by
  simp [Hart.status, ha, hr, hd]

/-- The dscratch registers that hartinfo gives to the debugger keep their values. -/
theorem Hart.enterDebug_dscratch {hart : Hart} {c : Config} (hinfo : c.hasHartinfo = true) (n : Nat) (cause : BitVec 3)
    (a : XWord) : (1 ≤ hart.cfg.nscratch → (hart.enterDebug c n cause a).dscratch0 = hart.dscratch0) ∧
      (2 ≤ hart.cfg.nscratch → (hart.enterDebug c n cause a).dscratch1 = hart.dscratch1) := by
  have hgiven : hart.scratchGiven c = hart.cfg.nscratch := if_pos hinfo
  refine ⟨fun h1 => if_neg ?_, fun h2 => if_neg ?_⟩ <;> omega

/-- The reservation may be lost (spec/44_debug_mode.md R487). -/
theorem Hart.enterDebug_reservation (hart : Hart) (c : Config) (n : Nat) (cause : BitVec 3) (a : XWord) :
    (hart.enterDebug c n cause a).reservation = hart.reservation ∨ (hart.enterDebug c n cause a).reservation = none := by
  simp only [Hart.enterDebug]
  split
  · exact .inr rfl
  · exact .inl rfl

/-- Entry of one hart after a change of it. -/
theorem State.onlyHart.enterDebug {s u : State} {h : Nat} {hart : Hart} (hu : s.onlyHart h u)
    (hget : u.harts[h]? = some hart) (cause : BitVec 3) (a : XWord) :
    s.onlyHart h (enterDebug h cause a u) ∧
      (Machine.enterDebug h cause a u).harts[h]? = some (hart.enterDebug u.cfg u.free cause a) :=
  ⟨hu.trans (State.onlyHart_modHart u h _ 3), by simp [enterDebug_get, hget]⟩

/-- Settles O16: entry is `Hart.enterDebug` on the one hart. -/
theorem entryToDebugMode : Obligations.EntryToDebugMode := by
  intro s h cause a hart hh
  obtain ⟨honly, hget⟩ := State.onlyHart.enterDebug ⟨.refl s h, rfl⟩ hh cause a
  have hscratch (hinfo : s.cfg.hasHartinfo = true) := Hart.enterDebug_dscratch (hart := hart) hinfo s.free cause a
  exact ⟨_, hget, honly, rfl, rfl, rfl, rfl, hart.enterDebug_reservation .., fun hinfo => (hscratch hinfo).left,
    fun hinfo => (hscratch hinfo).right, fun ha hr => Hart.status_halted ha hr rfl, rfl⟩

/-! ### Halt requests (spec/60_exceptions.md R662, R664) -/

/-- Without a Quick Access that waits for the hart, a requested entry has cause 3. -/
theorem enterRequested_alone {s : State} {h : Nat} (hq : quickPending s h = false) (haltreq : Bool) (a : XWord) :
    enterRequested h haltreq a s = enterDebug h 3 a (s.bump 1) := by
  simp [enterRequested, hq]

/-- Settles O18: the next move of a running hart, and of one that leaves reset. -/
theorem haltRequest : Obligations.HaltRequest := by
  intro s h q hart hq hh ha hd hp
  let r : State := { s with queue := q, cur := h }
  refine ⟨fun hr hreq hbreak htrig => ?_, fun hr hline hreq => ?_, fun hr hline hreq hhalt => ?_⟩
  · have hmove := (nextMove_event s _ q hq).trans ((hartMove_running (s := { s with queue := q }) hh ha hr hd).trans
      (runMove_requested (s := s.begun h q) htrig hbreak (by simp [wantsHalt, hreq])))
    rw [enterRequested_alone (quickPending_other (by exact hp) h)] at hmove
    obtain ⟨honly, hget⟩ := ((State.moving_onlyHart { s with queue := q } h).trans
      (State.onlyHart_bump (s.begun h q) h 9)).enterDebug (State.moving_get (s := { s with queue := q }) hh) 3 hart.pc
    exact ⟨_, _, step_quiet s _ hmove, hget, honly, Hart.status_halted ha hr rfl, rfl, rfl, rfl, rfl, rfl⟩
  · have hmove := (nextMove_event s _ q hq).trans (hartMove_leaveReset (s := { s with queue := q }) hh ha hr hline)
    rw [leaveReset_eq, if_pos hreq, enterRequested_alone (quickPending_other (by exact hp) h)] at hmove
    obtain ⟨honly, hget⟩ := (r.onlyHart_modHart h Hart.outOfReset 1).enterDebug (State.modHart_bump_get (s := r) hh _ 1) 3
      (BitVec.ofNat 128 hart.cfg.resetPc)
    exact ⟨_, _, step_quiet s _ hmove, hget, honly, Hart.status_halted ha rfl rfl, rfl, rfl, rfl, rfl⟩
  · have hmove := (nextMove_event s _ q hq).trans (hartMove_leaveReset (s := { s with queue := q }) hh ha hr hline)
    rw [leaveReset_unrequested (s := r) hreq hp, if_neg (by simp [hhalt])] at hmove
    have hout : hart.outOfReset = { hart with inReset := false, ctl := { hart.ctl with havereset := true } } := by
      rw [Hart.outOfReset, hhalt]
    exact ⟨_, step_quiet s _ hmove, r.onlyHart_modHart h Hart.outOfReset 0, hout ▸ State.modHart_bump_get (s := r) hh _ 0⟩

/-! ### The instruction a running hart executes (spec/60_exceptions.md R656) -/

/-- Settles O5: where nothing precedes it, the hart's move is the row it fetches. -/
theorem stepRunsProgramInstruction : Obligations.StepRunsProgramInstruction := by
  intro s h q hart w i hq hh ha hr hd htrig hreq hp hint r hf hw
  have hwants : wantsHalt r h hart = false := by
    simp [wantsHalt, hreq, quickPending_other (s := r) hp h]
  have hmove := (nextMove_event s _ q hq).trans ((hartMove_running (s := { s with queue := q }) hh ha hr hd).trans
    (runMove_row (s := r) htrig hwants hint hf hw))
  simp only [step, hmove]
  cases exec i (r.bump 8) <;> rfl

/-! ### Reasons that come before a halt request (spec/60_exceptions.md R655) -/

section
variable {s : State} {h : Nat} {hart : Hart}

/-- A hart whose one trigger matches before the instruction, with action 1, enters Debug Mode for it, whatever else asks
for its attention. -/
theorem runMove_trigger {trig : Trigger} (htrigs : hart.trigs = [trig]) (hchain : trig.chain = false)
    (haction : trig.action = 1) {w : Nat} (hf : fetchInsn s hart s.free = some w)
    (hm : trig.raw hart.cfg.xlen hart.priv false (factsSeen s hart w) = true) :
    runMove h hart s = .quiet (enterOther h 2 hart.pc ((s.bump 8).modHart h fun x => x.setHits [true])) := by
  have hfacts : factsOf hart (s.free + 6) (some w) (effectOf s hart (s.free + 2) w) = factsSeen s hart w := rfl
  have hmatches : hart.trigMatches hart.priv false (factsSeen s hart w) = [true] := by
    rw [Hart.trigMatches_single htrigs, hm]
  have hfires : hart.firesWith [true] 1 = true := by
    rw [Hart.firesWith, Hart.fires_single htrigs hchain, haction]
    rfl
  simp only [runMove, hf, fetchedEffect, hfacts, hmatches, hfires, if_true]

/-- Before an instruction no trigger fires and no hit bit is set where none is enabled. -/
theorem boundary_disabled (htrig : ∀ trig ∈ hart.trigs, trig.enabledAt hart.priv = false) :
    (∀ f action, hart.firesWith (hart.trigMatches hart.priv false f) action = false) ∧
      ∀ f, (s.modHart h fun x => x.setHits (hart.trigMatches hart.priv false f)) = s := by
  have hmatches (f : Facts) := Hart.trigMatches_disabled htrig false f
  exact ⟨fun f _ => Hart.fires_of_none (hmatches f) _,
    fun f => State.modHart_of_eq fun x _ => by rw [Hart.setHits, markHits_of_none (hmatches f)]⟩

/-- A hart none of whose triggers is enabled executes an ebreak that enters Debug Mode, whatever else asks for its
attention. -/
theorem runMove_ebreak (htrig : ∀ trig ∈ hart.trigs, trig.enabledAt hart.priv = false)
    (hbreak : hart.ebreakEnabled = true) (hf : fetchInsn s hart s.free = some ebreakWord) :
    runMove h hart s =
      .run .ebreak (s.bump 8) (.hart h hart.priv (factsOf hart (s.free + 6) (some ebreakWord) {})) := by
  have hrow : decodeHart ebreakWord = .ok .ebreak := rfl
  have heffect (m : Nat) : fetchedEffect s hart m (some ebreakWord) = {} := rfl
  obtain ⟨hfires, hhits⟩ := boundary_disabled (s := s.bump 8) (h := h) htrig
  have henters : entersByEbreak hart (some ebreakWord) = true := by
    rw [entersByEbreak, hbreak]
    rfl
  simp only [runMove, hf, heffect, hfires, henters, hhits, Bool.not_true, Bool.and_false, Bool.false_eq_true, if_false,
    wordMove_row hrow]

/-- An instruction that entered Debug Mode, where no Quick Access waited for the hart, is followed by nothing. -/
theorem finishHart_entered (hh : s.harts[h]? = some hart) (hd : hart.debugMode = true)
    (hq : quickPending s h = false) (p : Priv) (f : Facts) : finishHart h p f s = s := by
  simp [finishHart, hh, hd, hq]

/-! ### The end of an instruction in single step (spec/60_exceptions.md R670) -/

/-- In single step Debug Mode is entered at the next pc, for a halt request where there is one. -/
theorem stepEnd_stepped (hh : s.harts[h]? = some hart) (hd : hart.debugMode = false) (hs : hart.dcsr.step = true)
    (hq : quickPending s h = false) : stepEnd h s =
      if hart.ctl.haltreq then enterDebug h 3 hart.pc (s.bump 1) else enterDebug h 4 hart.pc s := by
  simp [stepEnd, hh, hd, hs, wantsHalt, hq, enterRequested_alone hq]

/-- A match trigger is of type 2. -/
theorem Trigger.kind_of_raw {trig : Trigger} {xlen : Nat} {p : Priv} {timing : Bool} {f : Facts}
    (h : trig.raw xlen p timing f = true) : trig.cfg.kind = 2 := by
  obtain ⟨hkind, -⟩ : trig.cfg.kind = 2 ∧ _ := by simpa [Trigger.raw, and_assoc] using h
  exact hkind

section
variable {trig : Trigger} (htrigs : hart.trigs = [trig])
include htrigs

/-- The trigger of a hart after it has matched an instruction: its hit bit is set. -/
theorem Hart.afterTriggers_matched (hkind : trig.cfg.kind = 2) (p : Priv) (holdEntry holdBreak : Bool) :
    (hart.afterTriggers p [true] holdEntry holdBreak).trigs = [trig.marked] := by
  obtain ⟨hdown, -⟩ : trig.marked.countIdle p := Trigger.countIdle_of (.inl (by simp [Trigger.marked, hkind]))
  simp [Hart.afterTriggers, Hart.setHits_single htrigs, Hart.countDown, hdown]

/-- In single step an entry to Debug Mode for a trigger does not wait on (spec/45_triggers.md R551). -/
theorem finishHart_stepped_trigger (hh : s.harts[h]? = some hart) (hd : hart.debugMode = false)
    (huntrapped : hart.trapped = false) (hs : hart.dcsr.step = true) (hq : quickPending s h = false)
    (hchain : trig.chain = false) (haction : trig.action = 1) {p : Priv} {f : Facts}
    (hm : trig.raw hart.cfg.xlen p true f = true) : finishHart h p f s = enterDebug h 2 hart.pc
      ((s.modHart h fun x => x.afterTriggers p [true] false (Config.freeBit s.free)).bump 1) := by
  have hmatches : hart.trigMatches p true f = [true] := by rw [Hart.trigMatches_single htrigs, hm]
  have hnow : actsNow hart p [true] hart.dueEntry false 1 = true := by
    simp only [actsNow, Hart.firesSkidding, Hart.fires_single htrigs hchain, haction]
    cases trig.cfg.skids <;> simp
  simp only [finishHart, hh, hd, huntrapped, hs, hmatches, hnow, Bool.not_true, Bool.false_and, Bool.false_eq_true,
    if_false, if_true]
  exact enterOther_alone (by exact hq) 2 hart.pc

end

end

/-! ### The priority of the reasons (O19) -/

/-- Settles O19: a trigger and an ebreak come first in the hart's move, a halt request and a trigger first at the end of an
instruction in single step. -/
theorem entryPriority : Obligations.EntryPriority := by
  refine ⟨?_, ?_, fun s h hart hh hd hs hp => ?_,
    fun s h hart trig p f hh hd huntrapped hs hp htrigs hm hchain haction => ?_⟩
  · intro s h q hart trig hq hh ha hr hd hp htrigs hkind hen hexec hselect htiming hchain haction hmatch hpc r hf
    obtain ⟨w, hw⟩ := Option.ne_none_iff_exists'.mp hf
    have hraw : trig.raw hart.cfg.xlen hart.priv false (factsSeen r hart w) = true :=
      htiming ▸ Trigger.raw_of_sees hkind hen hmatch (.inl ⟨hexec, by simp [hselect, hpc]⟩) _
    have hmove := (nextMove_event s _ q hq).trans ((hartMove_running (s := { s with queue := q }) hh ha hr hd).trans
      (runMove_trigger (s := r) htrigs hchain haction hw hraw))
    rw [enterOther_alone (quickPending_other (by exact hp) h)] at hmove
    have hget : ((r.bump 8).modHart h fun x => x.setHits [true]).harts[h]? =
        some { hart with trapped := false, trigs := [trig.marked] } := by
      have hmoving : (r.bump 8).harts[h]? = some { hart with trapped := false } :=
        State.moving_get (s := { s with queue := q }) hh
      rw [State.modHart_get, if_pos rfl, hmoving, Option.map_some,
        Hart.setHits_single (hart := { hart with trapped := false }) htrigs]
      rfl
    obtain ⟨new, honly, hnew, hhalted, hdcsr, hdpc, htrigs', hgprs, -⟩ := entersForTrigger_enterDebug (hart := hart)
      ((State.moving_onlyHart { s with queue := q } h).trans (State.onlyHart_modHart r h _ 8)) hget ha hr rfl
    exact ⟨_, new, step_quiet s _ hmove, hnew, honly, hhalted, hdcsr, hdpc, htrigs', hgprs⟩
  · intro s h q hart hq hh ha hr hd hp htrig hbreak r hf
    have hmove := (nextMove_event s _ q hq).trans ((hartMove_running (s := { s with queue := q }) hh ha hr hd).trans
      (runMove_ebreak (s := r) htrig hbreak hf))
    have hmoving : (r.bump 8).harts[h]? = some { hart with trapped := false } :=
      State.moving_get (s := { s with queue := q }) hh
    obtain ⟨x, n, hget, honly, hx, -⟩ := breakAt_enters (s := r.bump 8) hmoving hd hbreak
    have honly' := ((State.moving_onlyHart { s with queue := q } h).trans (State.onlyHart_bump r h 8)).trans honly
    have hstep := step_run s _ _ _ _ hmove (exec_ebreak hmoving)
    obtain ⟨-, hdm⟩ := id honly'
    have hquick : quickPending (breakAt { hart with trapped := false } (r.bump 8)) h = false :=
      quickPending_other (hdm ▸ hp) h
    have hfinish (f : Facts) : finish (.hart h hart.priv f) (breakAt { hart with trapped := false } (r.bump 8)) =
        breakAt { hart with trapped := false } (r.bump 8) := finishHart_entered hget rfl hquick _ f
    rw [hfinish] at hstep
    refine ⟨_, _, hstep, hget, honly', ?_, ?_, ?_⟩ <;> rw [hx]
    · exact Hart.status_halted ha hr rfl
    · rfl
    · rfl
  · rw [stepEnd_stepped hh hd hs (quickPending_other hp h)]
    cases hart.ctl.haltreq with
    | true =>
      obtain ⟨honly, hget⟩ := (s.onlyHart_bump h 1).enterDebug hh 3 hart.pc
      exact ⟨_, hget, honly, rfl, rfl, rfl⟩
    | false =>
      obtain ⟨honly, hget⟩ := State.onlyHart.enterDebug ⟨.refl s h, rfl⟩ hh 4 hart.pc
      exact ⟨_, hget, honly, rfl, rfl, rfl⟩
  · rw [finishHart_stepped_trigger htrigs hh hd huntrapped hs (quickPending_other hp h) hchain haction hm]
    have hmarked := Hart.afterTriggers_matched htrigs (Trigger.kind_of_raw hm) p false (Config.freeBit s.free)
    obtain ⟨honly, hget⟩ := (s.onlyHart_modHart h _ 1).enterDebug (State.modHart_bump_get hh _ 1) 2 hart.pc
    exact ⟨_, hget, honly, rfl, rfl, rfl, hmarked⟩

end Sys2Proof.Machine
end

section
/-! PROOF. Single step (O20): the instruction, or the interrupt or the trap taken instead, and then entry to Debug Mode with
cause 4 at the pc that leaves. Where no trigger is enabled nothing comes between the two. -/

namespace Sys2Proof.Machine

/-! ### What depends on the configuration alone -/

theorem Hart.trunc_congr {x y : Hart} (h : x.cfg = y.cfg) (v : XWord) : x.trunc v = y.trunc v := by
  rw [Hart.trunc, Hart.trunc, h]

theorem Hart.pcBits_congr {x y : Hart} (h : x.cfg = y.cfg) (v : XWord) : x.pcBits v = y.pcBits v := by
  rw [Hart.pcBits, Hart.pcBits, Hart.trunc_congr h, h]

/-- The address bits a pc can hold are XLEN bits. -/
@[simp] theorem Hart.trunc_pcBits (hart : Hart) (v : XWord) : hart.trunc (hart.pcBits v) = hart.pcBits v := by
  have hle (k : Nat) : (hart.trunc v).toNat / k * k ≤ (hart.trunc v).toNat := Nat.div_mul_le_self _ _
  have hxlen : (hart.trunc v).toNat < 2 ^ hart.cfg.xlen := by
    rw [Hart.trunc_toNat]
    exact Nat.mod_lt _ (Nat.two_pow_pos _)
  have hbits : (hart.pcBits v).toNat < 2 ^ hart.cfg.xlen := by
    rw [Hart.pcBits, BitVec.toNat_ofNat]
    exact (Nat.mod_le _ _).trans_lt ((hle _).trans_lt hxlen)
  rw [Hart.trunc, Nat.mod_eq_of_lt hbits, BitVec.ofNat_toNat, BitVec.setWidth_eq]

/-- A trap leaves an address of XLEN bits in the pc. -/
theorem Hart.trap_trunc_pc (hart : Hart) (isInt : Bool) (cause : Nat) (tval : XWord) :
    (hart.trap isInt cause tval).trunc (hart.trap isInt cause tval).pc = (hart.trap isInt cause tval).pc := by
  obtain ⟨hcfg, -⟩ := hart.trap_frame isInt cause tval
  rw [Hart.trunc_congr hcfg]
  cases hdelegated : hart.delegated isInt cause with
  | false => rw [hart.trap_machine tval hdelegated, Hart.trunc_trunc]
  | true => rw [hart.trap_delegated tval hdelegated, Hart.trunc_trunc]

/-! ### Jumps (PRESUMED, notes/assumptions/1.md) -/

/-- A jump to an address the pc can hold raises no exception. -/
theorem jumpTo_aligned {hart : Hart} {target : XWord} (h : hart.cfg.hasC = true ∨ target.toNat % 4 = 0) (e : Effect) :
    jumpTo hart target e = { e with nextPc := some (hart.trunc target) } := by
  rcases h with h | h <;> simp [jumpTo, h]

section
variable {w : Nat} (s : State) (hart : Hart) (m : Nat)

/-- jal links, and jumps to its target. -/
theorem effectOf_jal (hop : w % 2 ^ 7 = 0x6f)
    (halign : hart.cfg.hasC = true ∨ (hart.trunc (hart.pc + immJ w)).toNat % 4 = 0) : effectOf s hart m w =
      { wrGpr := some (field5 w 7, hart.trunc (hart.pc + 4)), nextPc := some (hart.trunc (hart.pc + immJ w)) } := by
  have h4 : w % 4 = 3 := by omega
  simp only [effectOf, isRowOrCsr_of_opcode h4 (by omega), Bool.false_eq_true, if_false, baseEffect, h4, if_true,
    wordEffect, hop, jumpTo_aligned halign, Hart.trunc_trunc]
  rfl

/-- A taken branch jumps to its target. -/
theorem effectOf_taken (hop : w % 2 ^ 7 = 0x63)
    (halign : hart.cfg.hasC = true ∨ (hart.trunc (hart.pc + immB w)).toNat % 4 = 0)
    (htaken : branchTaken hart (w / 2 ^ 12 % 8) (hart.gpr (field5 w 15)) (hart.gpr (field5 w 20)) = some true) :
    effectOf s hart m w = { nextPc := some (hart.trunc (hart.pc + immB w)) } := by
  have h4 : w % 4 = 3 := by omega
  simp only [effectOf, isRowOrCsr_of_opcode h4 (by omega), Bool.false_eq_true, if_false, baseEffect, h4, if_true,
    wordEffect, hop, htaken, jumpTo_aligned halign, Hart.trunc_trunc]

end

/-- A word of the base ISA has its effect. -/
theorem wordMove_base {w : Nat} (hbase : isRowOrCsr w = false) (h : Nat) (e : Effect) (s : State) (a : After)
    (fin : State → State) : wordMove h w e s a fin = .quiet (fin (applyEffect h (insnLength w) e s)) := by
  obtain ⟨hrow, hcsr⟩ : (decodeHart w).isOk = false ∧ (w % 4 = 3 → csrOperands w = none) := by
    simpa [isRowOrCsr] using hbase
  have hnone : (if w % 4 = 3 then csrOperands w else none) = none := by
    split
    next h4 => exact hcsr h4
    next => rfl
  rw [wordMove, hnone]
  cases hdecode : decodeHart w with
  | ok i => simp [hdecode, Except.isOk, Except.toBool] at hrow
  | error => rfl

/-- A jump changes the hart alone. -/
theorem applyEffect_jump (h len : Nat) (link : Option (Nat × XWord)) (target : XWord) (s : State) :
    applyEffect h len { wrGpr := link, nextPc := some target } s =
      s.modHart h (Hart.finishEffect len { wrGpr := link, nextPc := some target }) := rfl

/-- A running hart no trigger looks at, with no interrupt to take, executes the word it fetches. -/
theorem runMove_word {s : State} {h : Nat} {hart : Hart}
    (htrig : ∀ trig ∈ hart.trigs, trig.enabledAt hart.priv = false) (hwants : wantsHalt s h hart = false)
    (hc : hart.interrupt = none) {w : Nat} (hf : fetchInsn s hart s.free = some w) : runMove h hart s =
      wordMove h w (effectOf s hart (s.free + 2) w) (s.bump 8) (.hart h hart.priv (factsSeen s hart w))
        (finishHart h hart.priv (factsSeen s hart w)) := by
  obtain ⟨hfires, hhits⟩ := boundary_disabled (s := s.bump 8) (h := h) htrig
  simp only [runMove, hf, hfires, hwants, hc, hhits, Option.isSome_none, Bool.false_eq_true, if_false, Bool.false_and]
  rfl

/-- The hart with the register written that a jump writes, if it writes one. -/
def Hart.link (hart : Hart) : Option (Nat × XWord) → Hart
  | some (rd, v) => hart.setGpr rd v
  | none => hart

/-- All a jump changes. -/
theorem Hart.finishEffect_jump (hart : Hart) (len : Nat) (link : Option (Nat × XWord)) (target : XWord) :
    let new := hart.finishEffect len { wrGpr := link, nextPc := some target }
    new = { hart with
      gprs := (hart.link link).gprs
      pc := hart.pcBits target
      cycle := new.cycle
      instret := new.instret } := by
  intro new
  have hnew : new = { (hart.link link).retire len with
      reservation := (hart.link link).reservation
      pc := ((hart.link link).retire len).pcBits target } := by
    cases link <;> rfl
  have hlink : hart.link link = { hart with gprs := (hart.link link).gprs } := by
    cases link with
    | none => rfl
    | some p => exact hart.setGpr_eq p.1 p.2
  have hpc : ((hart.link link).retire len).pcBits target = hart.pcBits target :=
    Hart.pcBits_congr (by rw [hlink]; simp) target
  rw [hnew, hpc, Hart.retire_eq, hlink]

/-- The register jal writes. -/
theorem Hart.link_rdGets {hart new : Hart} {rd : Nat} (hrd : rd < 32) (v : XWord) (hcfg : new.cfg = hart.cfg)
    (hgprs : new.gprs = (hart.link (some (rd, hart.trunc v))).gprs) : hart.rdGets rd v new := by
  intro j _
  have hsame : new.gpr j = (hart.setGpr rd (hart.trunc v)).gpr j := by
    rw [Hart.gpr, Hart.gpr, hcfg, hgprs, (hart.setGpr_frame rd (hart.trunc v)).1]
    rfl
  rw [hsame, Hart.gpr_setGpr _ _ _ _ hrd, Hart.trunc_trunc]
  by_cases hj : j = rd
  · rw [hj]
  · simp [hj]

/-! ### The end of an instruction in single step (spec/60_exceptions.md R670) -/

/-- Where no trigger is enabled at the instruction's privilege, and none has an action still to come, single step alone
follows an instruction. -/
theorem finishHart_disabled {s : State} {h : Nat} {hart : Hart} (hh : s.harts[h]? = some hart)
    (hd : hart.debugMode = false) (he : hart.dueEntry = false) (hb : hart.dueBreak = false) {p : Priv}
    (htrig : ∀ trig ∈ hart.trigs, trig.enabledAt p = false) (f : Facts) :
    finishHart h p f s = stepEnd h (s.bump 1) := by
  have hms : ∀ m ∈ (if hart.trapped then [] else hart.trigMatches p true f), m = false := by
    split
    · exact nofun
    · exact Hart.trigMatches_disabled htrig true f
  have hsame (holdEntry hold : Bool) : (s.modHart h fun x =>
      x.afterTriggers p (if hart.trapped then [] else hart.trigMatches p true f) holdEntry hold) = s :=
    State.modHart_of_eq fun x hx => by
      obtain rfl : x = hart := Option.some.inj (hx.symm.trans hh)
      exact Hart.afterTriggers_disabled htrig he hb hms _ _
  have hnow (hold : Bool) (action : BitVec 6) := actsNow_disabled htrig hms hold action
  simp only [finishHart, hh, hd, he, hb, hsame, hnow, Bool.false_eq_true, if_false]

/-- Hart `h` has halted for a single step that left it as `at_`; dcsr was that of `hart`. -/
def State.haltsAfterStep (s : State) (h : Nat) (hart at_ : Hart) (t : State) (new : Hart) : Prop :=
  s.onlyHart h t ∧ t.harts[h]? = some new ∧ new.debugMode = true ∧
    new.dcsr = { hart.dcsr with cause := 4, prv := privCode at_.priv } ∧ new.dpc = at_.pc ∧ new.sys = at_.sys ∧
    new.cfg = at_.cfg ∧ new.gprs = at_.gprs

/-- The next move is that of running hart `hart`, which is in single step, not asked to halt, and which no trigger looks
at. -/
structure State.stepping (s : State) (h : Nat) (q : List Event) (hart : Hart) : Prop where
  queue : s.queue = .hart h :: q
  get : s.harts[h]? = some hart
  avail : hart.avail = true
  outOfReset : hart.inReset = false
  running : hart.debugMode = false
  noQuick : s.dm.phase ≠ .quickHalt
  stepped : hart.dcsr.step = true
  noRequest : hart.ctl.haltreq = false
  disabled : ∀ trig ∈ hart.trigs, trig.enabledAt hart.priv = false
  noEntry : hart.dueEntry = false
  noBreak : hart.dueBreak = false

namespace State.stepping
variable {s : State} {h : Nat} {q : List Event} {hart : Hart} (hst : s.stepping h q hart)
include hst

theorem nextMove_eq : nextMove s = runMove h hart (s.begun h q) :=
  (nextMove_event s _ q hst.queue).trans
    (hartMove_running (s := { s with queue := q }) hst.get hst.avail hst.outOfReset hst.running)

theorem begun_get : ((s.begun h q).bump 8).harts[h]? = some { hart with trapped := false } :=
  State.moving_get (s := { s with queue := q }) hst.get

omit hst in
theorem begun_onlyHart : { s with queue := q, cur := h }.onlyHart h ((s.begun h q).bump 8) :=
  (State.moving_onlyHart { s with queue := q } h).trans (State.onlyHart_bump (s.begun h q) h 8)

theorem wantsNothing : wantsHalt (s.begun h q) h hart = false := by
  have hquick : quickPending (s.begun h q) h = false := quickPending_other hst.noQuick h
  simp [wantsHalt, hst.noRequest, hquick]

section
variable {u : State} {at_ : Hart} (honly : { s with queue := q, cur := h }.onlyHart h u) (hget : u.harts[h]? = some at_)
  (hdebug : at_.debugMode = false) (hdcsr : at_.dcsr = hart.dcsr) (hctl : at_.ctl = hart.ctl)
  (hpc : at_.trunc at_.pc = at_.pc)
include honly hget hdebug hdcsr hctl hpc

/-- After what a step does the hart halts at its pc. -/
theorem stepEnd_halts : ∃ new, { s with queue := q, cur := h }.haltsAfterStep h hart at_ (stepEnd h u) new := by
  obtain ⟨-, hdm⟩ := id honly
  have hstepped : at_.dcsr.step = true := hdcsr ▸ hst.stepped
  have hquick : quickPending u h = false := quickPending_other (hdm ▸ hst.noQuick) h
  have hnoreq : at_.ctl.haltreq = false := hctl ▸ hst.noRequest
  rw [stepEnd_stepped hget hdebug hstepped hquick, if_neg (by simp [hnoreq])]
  obtain ⟨hentered, hnew⟩ := honly.enterDebug hget 4 at_.pc
  exact ⟨_, hentered, hnew, rfl, by rw [← hdcsr]; rfl, hpc, rfl, rfl, rfl⟩

/-- Nothing comes between an instruction and that. -/
theorem finishHart_halts (hkept : at_.trigs = hart.trigs ∧ at_.dueEntry = hart.dueEntry ∧ at_.dueBreak = hart.dueBreak)
    {f : Facts} (hstep : step s = .next (finishHart h hart.priv f u)) :
    ∃ t new, step s = .next t ∧ { s with queue := q, cur := h }.haltsAfterStep h hart at_ t new := by
  obtain ⟨htrigs, hentry, hbreak⟩ := hkept
  rw [finishHart_disabled hget hdebug (hentry.trans hst.noEntry) (hbreak.trans hst.noBreak) (htrigs ▸ hst.disabled)]
    at hstep
  obtain ⟨new, hhalts⟩ := hst.stepEnd_halts (u := u.bump 1) (honly.trans (u.onlyHart_bump h 1)) hget hdebug hdcsr hctl hpc
  exact ⟨_, new, hstep, hhalts⟩

end

/-! ### What a step does (spec/60_exceptions.md R670, R671) -/

/-- With stepie 0 no interrupt is taken in single step, and with none ready none is. -/
theorem interrupt_none (h : hart.dcsr.stepie = false ∨ ∀ c ∈ interruptOrder, hart.interruptReady c = false) :
    hart.interrupt = none := by
  rw [Hart.interrupt]
  split
  next => rfl
  next hmay =>
    obtain hoff | hnone := h
    · exact absurd (by simp [hst.stepped, hoff]) hmay
    · exact List.find?_eq_none.mpr fun c hc => by simp [hnone c hc]

/-- With stepie 1 the first ready interrupt is taken, and the hart halts at its handler. -/
theorem step_interrupt (hbreak : hart.ebreakEnabled = false) (hstepie : hart.dcsr.stepie = true) {c : Nat}
    (hc : interruptOrder.find? hart.interruptReady = some c) : ∃ t new tval, step s = .next t ∧
      { s with queue := q, cur := h }.haltsAfterStep h hart (hart.trap true c tval) t new := by
  have hint : hart.interrupt = some c := by rw [Hart.interrupt, if_neg (by simp [hstepie]), hc]
  have hmove := hst.nextMove_eq.trans (runMove_interrupt hst.disabled hst.wantsNothing hbreak hint)
  let tval := Config.freeWord ((s.begun h q).free + 7)
  have hget : (((s.begun h q).bump 8).modHart h fun x => x.trap true (x.interrupt.getD 0) tval).harts[h]? =
      some (hart.trap true c tval) := by
    have hsame : ({ hart with trapped := false } : Hart).interrupt = some c := hint
    rw [State.modHart_get, if_pos rfl, hst.begun_get, Option.map_some, hsame, Option.getD_some, Hart.trap_untrapped]
  obtain ⟨new, hhalts⟩ := hst.stepEnd_halts (begun_onlyHart.trans (State.onlyHart_modHart _ h _ 0)) hget
    (by simpa using hst.running) (by simp) (by simp) (hart.trap_trunc_pc true c tval)
  exact ⟨_, new, tval, step_quiet s _ hmove, hhalts⟩

section
variable (hint : hart.interrupt = none) {w : Nat} (hf : fetchInsn (s.begun h q) hart (s.begun h q).free = some w)
include hint hf

/-- A row of the table is executed. -/
theorem step_row {i : Instr} (hw : decodeHart w = .ok i) {u : State} (hexec : exec i ((s.begun h q).bump 8) = .next u) :
    ∃ f, step s = .next (finishHart h hart.priv f u) :=
  ⟨_, step_run s _ _ _ _ (hst.nextMove_eq.trans (runMove_row hst.disabled hst.wantsNothing hint hf hw)) hexec⟩

/-- wfi completes. -/
theorem step_wfi (hw : decodeHart w = .ok .wfi) : ∃ t new, step s = .next t ∧
    { s with queue := q, cur := h }.haltsAfterStep h hart { hart with pc := hart.trunc (hart.pc + 4) } t new := by
  obtain ⟨f, hstep⟩ := hst.step_row hint hf hw (exec_wfi hst.begun_get)
  have hretired := retireCur_get (s := (s.begun h q).bump 8) hst.begun_get 4
  rw [Hart.retire_eq] at hretired
  obtain ⟨t, new, hnext, hhalts⟩ := hst.finishHart_halts
    (begun_onlyHart.trans (retireCur_onlyHart ((s.begun h q).bump 8) 4)) hretired hst.running rfl rfl (hart.trunc_trunc _)
    ⟨rfl, rfl, rfl⟩ hstep
  exact ⟨t, new, hnext, hhalts⟩

/-- ecall takes its trap. -/
theorem step_ecall (hw : decodeHart w = .ok .ecall) : ∃ t new tval, step s = .next t ∧
    { s with queue := q, cur := h }.haltsAfterStep h hart
      (hart.trap false (8 + (privCode hart.priv).toNat) tval) t new := by
  obtain ⟨hecall, -⟩ := exec_trapping (s := (s.begun h q).bump 8) hst.begun_get hst.running
  obtain ⟨f, hstep⟩ := hst.step_row hint hf hw hecall
  obtain ⟨honly, old, tval, hold, htrapped⟩ :=
    raise_takesException hst.begun_get hst.running (8 + (privCode hart.priv).toNat)
  obtain rfl := Option.some.inj (hst.begun_get.symm.trans hold)
  rw [Hart.trap_untrapped] at htrapped
  obtain ⟨t, new, hnext, hhalts⟩ := hst.finishHart_halts (begun_onlyHart.trans honly) htrapped
    (by simpa using hst.running) (by simp) (by simp) (hart.trap_trunc_pc ..) (by simp) hstep
  exact ⟨t, new, tval, hnext, hhalts⟩

/-- A jump of the base ISA goes to its target. -/
theorem step_jump (hbase : isRowOrCsr w = false) {link : Option (Nat × XWord)} {target : XWord}
    (heffect : ∀ m, effectOf (s.begun h q) hart m w = { wrGpr := link, nextPc := some target }) :
    ∃ t new, step s = .next t ∧ { s with queue := q, cur := h }.haltsAfterStep h hart
      { hart with gprs := (({ hart with trapped := false } : Hart).link link).gprs, pc := hart.pcBits target } t new := by
  have hmove := hst.nextMove_eq.trans (runMove_word hst.disabled hst.wantsNothing hint hf)
  rw [heffect, wordMove_base hbase, applyEffect_jump] at hmove
  have hget := State.modHart_bump_get hst.begun_get
    (Hart.finishEffect (insnLength w) { wrGpr := link, nextPc := some target }) 0
  rw [Hart.finishEffect_jump] at hget
  obtain ⟨t, new, hnext, hhalts⟩ := hst.finishHart_halts (begun_onlyHart.trans (State.onlyHart_modHart _ h _ 0)) hget
    hst.running rfl rfl (hart.trunc_pcBits _) ⟨rfl, rfl, rfl⟩ (step_quiet s _ hmove)
  exact ⟨t, new, hnext, hhalts⟩

end

end State.stepping

/-- Settles O20: what the hart executes or takes, and the entry to Debug Mode after it. -/
theorem singleStep : Obligations.SingleStep := by
  intro s h q hart w hq hh ha hr hd hp hs hreq htrig he hb r halts hf
  have hst : s.stepping h q hart := ⟨hq, hh, ha, hr, hd, hp, hs, hreq, htrig, he, hb⟩
  refine ⟨fun hmay => ?_, fun c hstepie hbreak hc => ?_⟩
  · have hint := hst.interrupt_none hmay
    refine ⟨fun hw => ?_, fun hop halign => ?_, fun hop halign htaken => ?_, fun hw => ?_⟩
    · obtain ⟨t, new, hstep, honly, hget, hdebug, hdcsr, hdpc, hsys, -, hgprs⟩ := hst.step_wfi hint hf hw
      exact ⟨t, new, hstep, ⟨honly, hget, hdebug, hdcsr, hdpc, hsys⟩, hgprs⟩
    · obtain ⟨t, new, hstep, honly, hget, hdebug, hdcsr, hdpc, hsys, hcfg, hgprs⟩ := hst.step_jump hint hf
        (isRowOrCsr_of_opcode (by omega) (by omega)) fun m => effectOf_jal r hart m hop halign
      rw [Hart.pcBits_trunc] at hdpc
      have hrd : hart.rdGets (field5 w 7) (hart.pc + 4) new :=
        Hart.link_rdGets (hart := { hart with trapped := false }) (Nat.mod_lt _ (by decide)) _ hcfg hgprs
      exact ⟨t, new, hstep, ⟨honly, hget, hdebug, hdcsr, hdpc, hsys⟩, hrd⟩
    · obtain ⟨t, new, hstep, honly, hget, hdebug, hdcsr, hdpc, hsys, -, hgprs⟩ := hst.step_jump hint hf
        (isRowOrCsr_of_opcode (by omega) (by omega)) fun m => effectOf_taken r hart m hop halign htaken
      rw [Hart.pcBits_trunc] at hdpc
      exact ⟨t, new, hstep, ⟨honly, hget, hdebug, hdcsr, hdpc, hsys⟩, hgprs⟩
    · obtain ⟨t, new, tval, hstep, honly, hget, hdebug, hdcsr, hdpc, hsys, -, hgprs⟩ := hst.step_ecall hint hf hw
      exact ⟨t, new, tval, hstep, ⟨honly, hget, hdebug, hdcsr, hdpc, hsys⟩, hgprs.trans (by simp)⟩
  · obtain ⟨t, new, tval, hstep, honly, hget, hdebug, hdcsr, hdpc, hsys, -, hgprs⟩ := hst.step_interrupt hbreak hstepie hc
    exact ⟨t, new, tval, hstep, ⟨honly, hget, hdebug, hdcsr, hdpc, hsys⟩, hgprs.trans (by simp)⟩

end Sys2Proof.Machine
end
